-- ==== Sys2Proof/Word.lean ====
section
/-!
DEFINITION. The three vector widths of the W65C816S (spec R6, R8): bytes on the 8-bit data bus, 16-bit
register contents and offsets, 24-bit addresses. Nothing but the types stands here.
-/

namespace Sys2Proof

/-- What one bus access carries (R70): 8 bits. -/
abbrev Byte := BitVec 8

/-- The contents of C, X, Y, S, D, PC and a 16-bit datum (R6): 16 bits. -/
abbrev Word := BitVec 16

/-- A 24-bit address, written `bank:address` in the spec (R70). -/
abbrev Addr := BitVec 24

end Sys2Proof
end

