-- ==== Sys2Proof/Syntax.lean ====
section
/-!
DEFINITION. The abstract syntax: one constructor of `Instr` for each of the 256 rows of spec/opcode_table.json
(R117, R118, R119), its arguments the operand bytes of the row's format (R111). The name is the mnemonic, followed by
the addressing mode where the mnemonic has several rows. `Mnemonic` and `Operand` are the two halves of the same
information, by which shared operations and statements speak of an instruction.
-/

namespace Sys2Proof

/-- The operand of an immediate-mode instruction: one byte, or two (R112). Which of the two the instruction stream
holds is decided by P.M or P.X when the instruction is fetched; `Instr.wellFormed` says so. -/
inductive Imm where
  /-- `imm[7:0]`, the operand when the governing width flag is 1. -/
  | byte (v : Byte)
  /-- `imm[15:0]`, the operand when the governing width flag is 0. -/
  | word (v : Word)
deriving DecidableEq, Repr

/-- The 24 addressing modes of R15 with the operand bytes of R111; mode `s` is split by how many operand bytes its
opcodes take, and opcode 42 has the format `wdm` that the spec gives it. -/
inductive Operand where
  /-- `i` (R164). -/
  | implied
  /-- `A` (R150). -/
  | acc
  /-- `s` with no operand byte (R169). -/
  | stack0
  /-- `s` with one operand byte: BRK, COP (signature), PEI (direct offset). -/
  | stack1 (b : Byte)
  /-- `s` with two operand bytes: PEA (value), PER (displacement). -/
  | stack2 (w : Word)
  /-- `#` (R162). -/
  | imm (v : Imm)
  /-- `r` (R173): signed displacement. -/
  | rel (off : Byte)
  /-- `rl` (R172): signed displacement. -/
  | relLong (off : Word)
  /-- `d` (R159). -/
  | dir (off : Byte)
  /-- `d,x` (R153). -/
  | dirX (off : Byte)
  /-- `d,y` (R154). -/
  | dirY (off : Byte)
  /-- `(d)` (R158). -/
  | dirInd (off : Byte)
  /-- `(d,x)` (R152). -/
  | dirXInd (off : Byte)
  /-- `(d),y` (R155). -/
  | dirIndY (off : Byte)
  /-- `[d]` (R157). -/
  | dirIndLong (off : Byte)
  /-- `[d],y` (R156). -/
  | dirIndLongY (off : Byte)
  /-- `d,s` (R170). -/
  | stk (off : Byte)
  /-- `(d,s),y` (R171). -/
  | stkIndY (off : Byte)
  /-- `a` (R142, R143). -/
  | abs (addr : Word)
  /-- `a,x` (R145). -/
  | absX (addr : Word)
  /-- `a,y` (R146). -/
  | absY (addr : Word)
  /-- `(a)` (R147). -/
  | absInd (addr : Word)
  /-- `(a,x)` (R144). -/
  | absXInd (addr : Word)
  /-- `al` (R149). -/
  | long (addr : Addr)
  /-- `al,x` (R148). -/
  | longX (addr : Addr)
  /-- `xyc` (R151): destination bank, then source bank. -/
  | blockMove (dst src : Byte)
  /-- `wdm`, opcode 42 only (R111, R125): one ignored byte. -/
  | wdm (b : Byte)
deriving DecidableEq, Repr

/-- The 92 mnemonics of R120. -/
inductive Mnemonic where
  | ADC | AND | ASL | BCC | BCS | BEQ | BIT | BMI | BNE | BPL | BRA | BRK
  | BRL | BVC | BVS | CLC | CLD | CLI | CLV | CMP | COP | CPX | CPY | DEC
  | DEX | DEY | EOR | INC | INX | INY | JML | JMP | JSL | JSR | LDA | LDX
  | LDY | LSR | MVN | MVP | NOP | ORA | PEA | PEI | PER | PHA | PHB | PHD
  | PHK | PHP | PHX | PHY | PLA | PLB | PLD | PLP | PLX | PLY | REP | ROL
  | ROR | RTI | RTL | RTS | SBC | SEC | SED | SEI | SEP | STA | STP | STX
  | STY | STZ | TAX | TAY | TCD | TCS | TDC | TRB | TSB | TSC | TSX | TXA
  | TXS | TXY | TYA | TYX | WAI | WDM | XBA | XCE
deriving DecidableEq, Repr

/-- One constructor per row of spec/opcode_table.json, in the order of their opcodes; each line names the opcode, the format and the
rule that gives the row its meaning. The rows with operand bytes stand first (Lean's compiler gives at most 244 constructors with
fields a tag), those without after them. -/
inductive Instr where
  /-- 00 BRK s: R420. -/
  | brk (sig : Byte)
  /-- 01 ORA (d,x): R216. -/
  | oraDirXInd (off : Byte)
  /-- 02 COP s: R421. -/
  | cop (sig : Byte)
  /-- 03 ORA d,s: R216. -/
  | oraStk (off : Byte)
  /-- 04 TSB d: R262. -/
  | tsbDir (off : Byte)
  /-- 05 ORA d: R216. -/
  | oraDir (off : Byte)
  /-- 06 ASL d: R252. -/
  | aslDir (off : Byte)
  /-- 07 ORA [d]: R216. -/
  | oraDirIndLong (off : Byte)
  /-- 09 ORA #: R216. -/
  | oraImm (v : Imm)
  /-- 0C TSB a: R262. -/
  | tsbAbs (addr : Word)
  /-- 0D ORA a: R216. -/
  | oraAbs (addr : Word)
  /-- 0E ASL a: R252. -/
  | aslAbs (addr : Word)
  /-- 0F ORA al: R216. -/
  | oraLong (addr : Addr)
  /-- 10 BPL r: R286. -/
  | bpl (off : Byte)
  /-- 11 ORA (d),y: R216. -/
  | oraDirIndY (off : Byte)
  /-- 12 ORA (d): R216. -/
  | oraDirInd (off : Byte)
  /-- 13 ORA (d,s),y: R216. -/
  | oraStkIndY (off : Byte)
  /-- 14 TRB d: R263. -/
  | trbDir (off : Byte)
  /-- 15 ORA d,x: R216. -/
  | oraDirX (off : Byte)
  /-- 16 ASL d,x: R252. -/
  | aslDirX (off : Byte)
  /-- 17 ORA [d],y: R216. -/
  | oraDirIndLongY (off : Byte)
  /-- 19 ORA a,y: R216. -/
  | oraAbsY (addr : Word)
  /-- 1C TRB a: R263. -/
  | trbAbs (addr : Word)
  /-- 1D ORA a,x: R216. -/
  | oraAbsX (addr : Word)
  /-- 1E ASL a,x: R252. -/
  | aslAbsX (addr : Word)
  /-- 1F ORA al,x: R216. -/
  | oraLongX (addr : Addr)
  /-- 20 JSR a: R297. -/
  | jsrAbs (addr : Word)
  /-- 21 AND (d,x): R215. -/
  | andDirXInd (off : Byte)
  /-- 22 JSL al: R299. -/
  | jsl (addr : Addr)
  /-- 23 AND d,s: R215. -/
  | andStk (off : Byte)
  /-- 24 BIT d: R221. -/
  | bitDir (off : Byte)
  /-- 25 AND d: R215. -/
  | andDir (off : Byte)
  /-- 26 ROL d: R256. -/
  | rolDir (off : Byte)
  /-- 27 AND [d]: R215. -/
  | andDirIndLong (off : Byte)
  /-- 29 AND #: R215. -/
  | andImm (v : Imm)
  /-- 2C BIT a: R221. -/
  | bitAbs (addr : Word)
  /-- 2D AND a: R215. -/
  | andAbs (addr : Word)
  /-- 2E ROL a: R256. -/
  | rolAbs (addr : Word)
  /-- 2F AND al: R215. -/
  | andLong (addr : Addr)
  /-- 30 BMI r: R284. -/
  | bmi (off : Byte)
  /-- 31 AND (d),y: R215. -/
  | andDirIndY (off : Byte)
  /-- 32 AND (d): R215. -/
  | andDirInd (off : Byte)
  /-- 33 AND (d,s),y: R215. -/
  | andStkIndY (off : Byte)
  /-- 34 BIT d,x: R221. -/
  | bitDirX (off : Byte)
  /-- 35 AND d,x: R215. -/
  | andDirX (off : Byte)
  /-- 36 ROL d,x: R256. -/
  | rolDirX (off : Byte)
  /-- 37 AND [d],y: R215. -/
  | andDirIndLongY (off : Byte)
  /-- 39 AND a,y: R215. -/
  | andAbsY (addr : Word)
  /-- 3C BIT a,x: R221. -/
  | bitAbsX (addr : Word)
  /-- 3D AND a,x: R215. -/
  | andAbsX (addr : Word)
  /-- 3E ROL a,x: R256. -/
  | rolAbsX (addr : Word)
  /-- 3F AND al,x: R215. -/
  | andLongX (addr : Addr)
  /-- 41 EOR (d,x): R217. -/
  | eorDirXInd (off : Byte)
  /-- 42 WDM wdm: R385. -/
  | wdm (operand : Byte)
  /-- 43 EOR d,s: R217. -/
  | eorStk (off : Byte)
  /-- 44 MVP xyc: R413. -/
  | mvp (dst : Byte) (src : Byte)
  /-- 45 EOR d: R217. -/
  | eorDir (off : Byte)
  /-- 46 LSR d: R254. -/
  | lsrDir (off : Byte)
  /-- 47 EOR [d]: R217. -/
  | eorDirIndLong (off : Byte)
  /-- 49 EOR #: R217. -/
  | eorImm (v : Imm)
  /-- 4C JMP a: R291. -/
  | jmpAbs (addr : Word)
  /-- 4D EOR a: R217. -/
  | eorAbs (addr : Word)
  /-- 4E LSR a: R254. -/
  | lsrAbs (addr : Word)
  /-- 4F EOR al: R217. -/
  | eorLong (addr : Addr)
  /-- 50 BVC r: R287. -/
  | bvc (off : Byte)
  /-- 51 EOR (d),y: R217. -/
  | eorDirIndY (off : Byte)
  /-- 52 EOR (d): R217. -/
  | eorDirInd (off : Byte)
  /-- 53 EOR (d,s),y: R217. -/
  | eorStkIndY (off : Byte)
  /-- 54 MVN xyc: R412. -/
  | mvn (dst : Byte) (src : Byte)
  /-- 55 EOR d,x: R217. -/
  | eorDirX (off : Byte)
  /-- 56 LSR d,x: R254. -/
  | lsrDirX (off : Byte)
  /-- 57 EOR [d],y: R217. -/
  | eorDirIndLongY (off : Byte)
  /-- 59 EOR a,y: R217. -/
  | eorAbsY (addr : Word)
  /-- 5C JMP al: R292. -/
  | jmpLong (addr : Addr)
  /-- 5D EOR a,x: R217. -/
  | eorAbsX (addr : Word)
  /-- 5E LSR a,x: R254. -/
  | lsrAbsX (addr : Word)
  /-- 5F EOR al,x: R217. -/
  | eorLongX (addr : Addr)
  /-- 61 ADC (d,x): R211. -/
  | adcDirXInd (off : Byte)
  /-- 62 PER s: R336. -/
  | per (off : Word)
  /-- 63 ADC d,s: R211. -/
  | adcStk (off : Byte)
  /-- 64 STZ d: R197. -/
  | stzDir (off : Byte)
  /-- 65 ADC d: R211. -/
  | adcDir (off : Byte)
  /-- 66 ROR d: R258. -/
  | rorDir (off : Byte)
  /-- 67 ADC [d]: R211. -/
  | adcDirIndLong (off : Byte)
  /-- 69 ADC #: R211. -/
  | adcImm (v : Imm)
  /-- 6C JMP (a): R294. -/
  | jmpAbsInd (addr : Word)
  /-- 6D ADC a: R211. -/
  | adcAbs (addr : Word)
  /-- 6E ROR a: R258. -/
  | rorAbs (addr : Word)
  /-- 6F ADC al: R211. -/
  | adcLong (addr : Addr)
  /-- 70 BVS r: R288. -/
  | bvs (off : Byte)
  /-- 71 ADC (d),y: R211. -/
  | adcDirIndY (off : Byte)
  /-- 72 ADC (d): R211. -/
  | adcDirInd (off : Byte)
  /-- 73 ADC (d,s),y: R211. -/
  | adcStkIndY (off : Byte)
  /-- 74 STZ d,x: R197. -/
  | stzDirX (off : Byte)
  /-- 75 ADC d,x: R211. -/
  | adcDirX (off : Byte)
  /-- 76 ROR d,x: R258. -/
  | rorDirX (off : Byte)
  /-- 77 ADC [d],y: R211. -/
  | adcDirIndLongY (off : Byte)
  /-- 79 ADC a,y: R211. -/
  | adcAbsY (addr : Word)
  /-- 7C JMP (a,x): R293. -/
  | jmpAbsXInd (addr : Word)
  /-- 7D ADC a,x: R211. -/
  | adcAbsX (addr : Word)
  /-- 7E ROR a,x: R258. -/
  | rorAbsX (addr : Word)
  /-- 7F ADC al,x: R211. -/
  | adcLongX (addr : Addr)
  /-- 80 BRA r: R289. -/
  | bra (off : Byte)
  /-- 81 STA (d,x): R194. -/
  | staDirXInd (off : Byte)
  /-- 82 BRL rl: R290. -/
  | brl (off : Word)
  /-- 83 STA d,s: R194. -/
  | staStk (off : Byte)
  /-- 84 STY d: R196. -/
  | styDir (off : Byte)
  /-- 85 STA d: R194. -/
  | staDir (off : Byte)
  /-- 86 STX d: R195. -/
  | stxDir (off : Byte)
  /-- 87 STA [d]: R194. -/
  | staDirIndLong (off : Byte)
  /-- 89 BIT #: R221. -/
  | bitImm (v : Imm)
  /-- 8C STY a: R196. -/
  | styAbs (addr : Word)
  /-- 8D STA a: R194. -/
  | staAbs (addr : Word)
  /-- 8E STX a: R195. -/
  | stxAbs (addr : Word)
  /-- 8F STA al: R194. -/
  | staLong (addr : Addr)
  /-- 90 BCC r: R281. -/
  | bcc (off : Byte)
  /-- 91 STA (d),y: R194. -/
  | staDirIndY (off : Byte)
  /-- 92 STA (d): R194. -/
  | staDirInd (off : Byte)
  /-- 93 STA (d,s),y: R194. -/
  | staStkIndY (off : Byte)
  /-- 94 STY d,x: R196. -/
  | styDirX (off : Byte)
  /-- 95 STA d,x: R194. -/
  | staDirX (off : Byte)
  /-- 96 STX d,y: R195. -/
  | stxDirY (off : Byte)
  /-- 97 STA [d],y: R194. -/
  | staDirIndLongY (off : Byte)
  /-- 99 STA a,y: R194. -/
  | staAbsY (addr : Word)
  /-- 9C STZ a: R197. -/
  | stzAbs (addr : Word)
  /-- 9D STA a,x: R194. -/
  | staAbsX (addr : Word)
  /-- 9E STZ a,x: R197. -/
  | stzAbsX (addr : Word)
  /-- 9F STA al,x: R194. -/
  | staLongX (addr : Addr)
  /-- A0 LDY #: R193. -/
  | ldyImm (v : Imm)
  /-- A1 LDA (d,x): R191. -/
  | ldaDirXInd (off : Byte)
  /-- A2 LDX #: R192. -/
  | ldxImm (v : Imm)
  /-- A3 LDA d,s: R191. -/
  | ldaStk (off : Byte)
  /-- A4 LDY d: R193. -/
  | ldyDir (off : Byte)
  /-- A5 LDA d: R191. -/
  | ldaDir (off : Byte)
  /-- A6 LDX d: R192. -/
  | ldxDir (off : Byte)
  /-- A7 LDA [d]: R191. -/
  | ldaDirIndLong (off : Byte)
  /-- A9 LDA #: R191. -/
  | ldaImm (v : Imm)
  /-- AC LDY a: R193. -/
  | ldyAbs (addr : Word)
  /-- AD LDA a: R191. -/
  | ldaAbs (addr : Word)
  /-- AE LDX a: R192. -/
  | ldxAbs (addr : Word)
  /-- AF LDA al: R191. -/
  | ldaLong (addr : Addr)
  /-- B0 BCS r: R282. -/
  | bcs (off : Byte)
  /-- B1 LDA (d),y: R191. -/
  | ldaDirIndY (off : Byte)
  /-- B2 LDA (d): R191. -/
  | ldaDirInd (off : Byte)
  /-- B3 LDA (d,s),y: R191. -/
  | ldaStkIndY (off : Byte)
  /-- B4 LDY d,x: R193. -/
  | ldyDirX (off : Byte)
  /-- B5 LDA d,x: R191. -/
  | ldaDirX (off : Byte)
  /-- B6 LDX d,y: R192. -/
  | ldxDirY (off : Byte)
  /-- B7 LDA [d],y: R191. -/
  | ldaDirIndLongY (off : Byte)
  /-- B9 LDA a,y: R191. -/
  | ldaAbsY (addr : Word)
  /-- BC LDY a,x: R193. -/
  | ldyAbsX (addr : Word)
  /-- BD LDA a,x: R191. -/
  | ldaAbsX (addr : Word)
  /-- BE LDX a,y: R192. -/
  | ldxAbsY (addr : Word)
  /-- BF LDA al,x: R191. -/
  | ldaLongX (addr : Addr)
  /-- C0 CPY #: R220. -/
  | cpyImm (v : Imm)
  /-- C1 CMP (d,x): R218. -/
  | cmpDirXInd (off : Byte)
  /-- C2 REP #: R382. -/
  | rep (mask : Byte)
  /-- C3 CMP d,s: R218. -/
  | cmpStk (off : Byte)
  /-- C4 CPY d: R220. -/
  | cpyDir (off : Byte)
  /-- C5 CMP d: R218. -/
  | cmpDir (off : Byte)
  /-- C6 DEC d: R225. -/
  | decDir (off : Byte)
  /-- C7 CMP [d]: R218. -/
  | cmpDirIndLong (off : Byte)
  /-- C9 CMP #: R218. -/
  | cmpImm (v : Imm)
  /-- CC CPY a: R220. -/
  | cpyAbs (addr : Word)
  /-- CD CMP a: R218. -/
  | cmpAbs (addr : Word)
  /-- CE DEC a: R225. -/
  | decAbs (addr : Word)
  /-- CF CMP al: R218. -/
  | cmpLong (addr : Addr)
  /-- D0 BNE r: R285. -/
  | bne (off : Byte)
  /-- D1 CMP (d),y: R218. -/
  | cmpDirIndY (off : Byte)
  /-- D2 CMP (d): R218. -/
  | cmpDirInd (off : Byte)
  /-- D3 CMP (d,s),y: R218. -/
  | cmpStkIndY (off : Byte)
  /-- D4 PEI s: R335. -/
  | pei (off : Byte)
  /-- D5 CMP d,x: R218. -/
  | cmpDirX (off : Byte)
  /-- D6 DEC d,x: R225. -/
  | decDirX (off : Byte)
  /-- D7 CMP [d],y: R218. -/
  | cmpDirIndLongY (off : Byte)
  /-- D9 CMP a,y: R218. -/
  | cmpAbsY (addr : Word)
  /-- DC JML (a): R296. -/
  | jml (addr : Word)
  /-- DD CMP a,x: R218. -/
  | cmpAbsX (addr : Word)
  /-- DE DEC a,x: R225. -/
  | decAbsX (addr : Word)
  /-- DF CMP al,x: R218. -/
  | cmpLongX (addr : Addr)
  /-- E0 CPX #: R219. -/
  | cpxImm (v : Imm)
  /-- E1 SBC (d,x): R213. -/
  | sbcDirXInd (off : Byte)
  /-- E2 SEP #: R383. -/
  | sep (mask : Byte)
  /-- E3 SBC d,s: R213. -/
  | sbcStk (off : Byte)
  /-- E4 CPX d: R219. -/
  | cpxDir (off : Byte)
  /-- E5 SBC d: R213. -/
  | sbcDir (off : Byte)
  /-- E6 INC d: R223. -/
  | incDir (off : Byte)
  /-- E7 SBC [d]: R213. -/
  | sbcDirIndLong (off : Byte)
  /-- E9 SBC #: R213. -/
  | sbcImm (v : Imm)
  /-- EC CPX a: R219. -/
  | cpxAbs (addr : Word)
  /-- ED SBC a: R213. -/
  | sbcAbs (addr : Word)
  /-- EE INC a: R223. -/
  | incAbs (addr : Word)
  /-- EF SBC al: R213. -/
  | sbcLong (addr : Addr)
  /-- F0 BEQ r: R283. -/
  | beq (off : Byte)
  /-- F1 SBC (d),y: R213. -/
  | sbcDirIndY (off : Byte)
  /-- F2 SBC (d): R213. -/
  | sbcDirInd (off : Byte)
  /-- F3 SBC (d,s),y: R213. -/
  | sbcStkIndY (off : Byte)
  /-- F4 PEA s: R334. -/
  | pea (v : Word)
  /-- F5 SBC d,x: R213. -/
  | sbcDirX (off : Byte)
  /-- F6 INC d,x: R223. -/
  | incDirX (off : Byte)
  /-- F7 SBC [d],y: R213. -/
  | sbcDirIndLongY (off : Byte)
  /-- F9 SBC a,y: R213. -/
  | sbcAbsY (addr : Word)
  /-- FC JSR (a,x): R298. -/
  | jsrAbsXInd (addr : Word)
  /-- FD SBC a,x: R213. -/
  | sbcAbsX (addr : Word)
  /-- FE INC a,x: R223. -/
  | incAbsX (addr : Word)
  /-- FF SBC al,x: R213. -/
  | sbcLongX (addr : Addr)
  /-- 08 PHP s: R325. -/
  | php
  /-- 0A ASL A: R251. -/
  | aslAcc
  /-- 0B PHD s: R323. -/
  | phd
  /-- 18 CLC i: R375. -/
  | clc
  /-- 1A INC A: R222. -/
  | incAcc
  /-- 1B TCS i: R364. -/
  | tcs
  /-- 28 PLP s: R331. -/
  | plp
  /-- 2A ROL A: R255. -/
  | rolAcc
  /-- 2B PLD s: R330. -/
  | pld
  /-- 38 SEC i: R379. -/
  | sec
  /-- 3A DEC A: R224. -/
  | decAcc
  /-- 3B TSC i: R366. -/
  | tsc
  /-- 40 RTI s: R424. -/
  | rti
  /-- 48 PHA s: R321. -/
  | pha
  /-- 4A LSR A: R253. -/
  | lsrAcc
  /-- 4B PHK s: R324. -/
  | phk
  /-- 58 CLI i: R377. -/
  | cli
  /-- 5A PHY s: R327. -/
  | phy
  /-- 5B TCD i: R363. -/
  | tcd
  /-- 60 RTS s: R300. -/
  | rts
  /-- 68 PLA s: R328. -/
  | pla
  /-- 6A ROR A: R257. -/
  | rorAcc
  /-- 6B RTL s: R301. -/
  | rtl
  /-- 78 SEI i: R381. -/
  | sei
  /-- 7A PLY s: R333. -/
  | ply
  /-- 7B TDC i: R365. -/
  | tdc
  /-- 88 DEY i: R229. -/
  | dey
  /-- 8A TXA i: R368. -/
  | txa
  /-- 8B PHB s: R322. -/
  | phb
  /-- 98 TYA i: R371. -/
  | tya
  /-- 9A TXS i: R369. -/
  | txs
  /-- 9B TXY i: R370. -/
  | txy
  /-- A8 TAY i: R362. -/
  | tay
  /-- AA TAX i: R361. -/
  | tax
  /-- AB PLB s: R329. -/
  | plb
  /-- B8 CLV i: R378. -/
  | clv
  /-- BA TSX i: R367. -/
  | tsx
  /-- BB TYX i: R372. -/
  | tyx
  /-- C8 INY i: R227. -/
  | iny
  /-- CA DEX i: R228. -/
  | dex
  /-- CB WAI i: R426. -/
  | wai
  /-- D8 CLD i: R376. -/
  | cld
  /-- DA PHX s: R326. -/
  | phx
  /-- DB STP i: R428. -/
  | stp
  /-- E8 INX i: R226. -/
  | inx
  /-- EA NOP i: R384. -/
  | nop
  /-- EB XBA i: R373. -/
  | xba
  /-- F8 SED i: R380. -/
  | sed
  /-- FA PLX s: R332. -/
  | plx
  /-- FB XCE i: R374. -/
  | xce
deriving DecidableEq, Repr

end Sys2Proof
end

