-- ==== Sys2Proof/WellFormed.lean ====
section
/-!
DEFINITION. Which terms of `Instr` an instruction stream can hold. Every operand field has the exact width of its bytes,
and no operand value is illegal (R124), so one thing is left to check: the length of an immediate operand, which P.M or
P.X decides at the fetch (R112).
-/

namespace Sys2Proof

/-- An immediate has one byte exactly when its width flag is 1. -/
def Imm.fits (narrow : Bool) : Imm → Bool
  | .byte _ => narrow
  | .word _ => !narrow

/-- R112: the eight immediates governed by P.M (`m`) and the four governed by P.X (`x`) have the length the flag asks
for; every other instruction has one length. -/
def Instr.wellFormed (m x : Bool) : Instr → Bool
  | .oraImm v => v.fits m
  | .andImm v => v.fits m
  | .eorImm v => v.fits m
  | .adcImm v => v.fits m
  | .bitImm v => v.fits m
  | .ldaImm v => v.fits m
  | .cmpImm v => v.fits m
  | .sbcImm v => v.fits m
  | .ldyImm v => v.fits x
  | .ldxImm v => v.fits x
  | .cpyImm v => v.fits x
  | .cpxImm v => v.fits x
  | .brk .. | .oraDirXInd .. | .cop .. | .oraStk .. | .tsbDir .. | .oraDir ..
  | .aslDir .. | .oraDirIndLong .. | .php | .aslAcc | .phd | .tsbAbs ..
  | .oraAbs .. | .aslAbs .. | .oraLong .. | .bpl .. | .oraDirIndY .. | .oraDirInd ..
  | .oraStkIndY .. | .trbDir .. | .oraDirX .. | .aslDirX .. | .oraDirIndLongY .. | .clc
  | .oraAbsY .. | .incAcc | .tcs | .trbAbs .. | .oraAbsX .. | .aslAbsX ..
  | .oraLongX .. | .jsrAbs .. | .andDirXInd .. | .jsl .. | .andStk .. | .bitDir ..
  | .andDir .. | .rolDir .. | .andDirIndLong .. | .plp | .rolAcc | .pld
  | .bitAbs .. | .andAbs .. | .rolAbs .. | .andLong .. | .bmi .. | .andDirIndY ..
  | .andDirInd .. | .andStkIndY .. | .bitDirX .. | .andDirX .. | .rolDirX .. | .andDirIndLongY ..
  | .sec | .andAbsY .. | .decAcc | .tsc | .bitAbsX .. | .andAbsX ..
  | .rolAbsX .. | .andLongX .. | .rti | .eorDirXInd .. | .wdm .. | .eorStk ..
  | .mvp .. | .eorDir .. | .lsrDir .. | .eorDirIndLong .. | .pha | .lsrAcc
  | .phk | .jmpAbs .. | .eorAbs .. | .lsrAbs .. | .eorLong .. | .bvc ..
  | .eorDirIndY .. | .eorDirInd .. | .eorStkIndY .. | .mvn .. | .eorDirX .. | .lsrDirX ..
  | .eorDirIndLongY .. | .cli | .eorAbsY .. | .phy | .tcd | .jmpLong ..
  | .eorAbsX .. | .lsrAbsX .. | .eorLongX .. | .rts | .adcDirXInd .. | .per ..
  | .adcStk .. | .stzDir .. | .adcDir .. | .rorDir .. | .adcDirIndLong .. | .pla
  | .rorAcc | .rtl | .jmpAbsInd .. | .adcAbs .. | .rorAbs .. | .adcLong ..
  | .bvs .. | .adcDirIndY .. | .adcDirInd .. | .adcStkIndY .. | .stzDirX .. | .adcDirX ..
  | .rorDirX .. | .adcDirIndLongY .. | .sei | .adcAbsY .. | .ply | .tdc
  | .jmpAbsXInd .. | .adcAbsX .. | .rorAbsX .. | .adcLongX .. | .bra .. | .staDirXInd ..
  | .brl .. | .staStk .. | .styDir .. | .staDir .. | .stxDir .. | .staDirIndLong ..
  | .dey | .txa | .phb | .styAbs .. | .staAbs .. | .stxAbs ..
  | .staLong .. | .bcc .. | .staDirIndY .. | .staDirInd .. | .staStkIndY .. | .styDirX ..
  | .staDirX .. | .stxDirY .. | .staDirIndLongY .. | .tya | .staAbsY .. | .txs
  | .txy | .stzAbs .. | .staAbsX .. | .stzAbsX .. | .staLongX .. | .ldaDirXInd ..
  | .ldaStk .. | .ldyDir .. | .ldaDir .. | .ldxDir .. | .ldaDirIndLong .. | .tay
  | .tax | .plb | .ldyAbs .. | .ldaAbs .. | .ldxAbs .. | .ldaLong ..
  | .bcs .. | .ldaDirIndY .. | .ldaDirInd .. | .ldaStkIndY .. | .ldyDirX .. | .ldaDirX ..
  | .ldxDirY .. | .ldaDirIndLongY .. | .clv | .ldaAbsY .. | .tsx | .tyx
  | .ldyAbsX .. | .ldaAbsX .. | .ldxAbsY .. | .ldaLongX .. | .cmpDirXInd .. | .rep ..
  | .cmpStk .. | .cpyDir .. | .cmpDir .. | .decDir .. | .cmpDirIndLong .. | .iny
  | .dex | .wai | .cpyAbs .. | .cmpAbs .. | .decAbs .. | .cmpLong ..
  | .bne .. | .cmpDirIndY .. | .cmpDirInd .. | .cmpStkIndY .. | .pei .. | .cmpDirX ..
  | .decDirX .. | .cmpDirIndLongY .. | .cld | .cmpAbsY .. | .phx | .stp
  | .jml .. | .cmpAbsX .. | .decAbsX .. | .cmpLongX .. | .sbcDirXInd .. | .sep ..
  | .sbcStk .. | .cpxDir .. | .sbcDir .. | .incDir .. | .sbcDirIndLong .. | .inx
  | .nop | .xba | .cpxAbs .. | .sbcAbs .. | .incAbs .. | .sbcLong ..
  | .beq .. | .sbcDirIndY .. | .sbcDirInd .. | .sbcStkIndY .. | .pea .. | .sbcDirX ..
  | .incDirX .. | .sbcDirIndLongY .. | .sed | .sbcAbsY .. | .plx | .xce
  | .jsrAbsXInd .. | .sbcAbsX .. | .incAbsX .. | .sbcLongX .. => true

end Sys2Proof
end

