-- ==== Sys2Proof/Decode.lean ====
section
/-!
DEFINITION. The decoder (R110 to R114, the opcode map R117), total on any bytes and rejecting by name, and after it the
encoder, written from the same table: an opcode byte, then the operand bytes of the row's format, low byte first.
-/

namespace Sys2Proof

/-! ## Byte order of operands (R76, R113) -/

/-- `cat(h, l)` for a 16-bit operand given low byte first. -/
def wordOfBytes (l h : Byte) : Word := h ++ l

/-- `cat(k, h, l)` for a 24-bit operand given low byte first. -/
def addrOfBytes (l h k : Byte) : Addr := k ++ (h ++ l)

/-- `v[7:0]`. -/
def loByte (v : Word) : Byte := v.extractLsb' 0 8

/-- `v[15:8]`. -/
def hiByte (v : Word) : Byte := v.extractLsb' 8 8

/-- The low 16 bits of a 24-bit address. -/
def addrOffset (a : Addr) : Word := a.extractLsb' 0 16

/-- The bank, bits 23:16 of a 24-bit address. -/
def addrBank (a : Addr) : Byte := a.extractLsb' 16 8

/-! ## The opcode map -/

/-- What an opcode byte says of the bytes after it (R111, R112): how many there are and which instruction they give. -/
inductive Form where
  /-- No operand byte. -/
  | zero (i : Instr)
  /-- One operand byte. -/
  | one (f : Byte → Instr)
  /-- Two operand bytes, low byte first. -/
  | two (f : Word → Instr)
  /-- Three operand bytes, low byte first. -/
  | three (f : Addr → Instr)
  /-- An immediate of one byte if P.M = 1, of two bytes if P.M = 0 (R112). -/
  | immM (f : Imm → Instr)
  /-- An immediate of one byte if P.X = 1, of two bytes if P.X = 0 (R112). -/
  | immX (f : Imm → Instr)
  /-- Destination bank, then source bank (R151). -/
  | banks (f : Byte → Byte → Instr)

/-- Row 0 of the opcode matrix (R117). -/
def opcodeRow0 : List Form := [
  .one .brk, .one .oraDirXInd, .one .cop, .one .oraStk,
  .one .tsbDir, .one .oraDir, .one .aslDir, .one .oraDirIndLong,
  .zero .php, .immM .oraImm, .zero .aslAcc, .zero .phd,
  .two .tsbAbs, .two .oraAbs, .two .aslAbs, .three .oraLong]

/-- Row 1 of the opcode matrix (R117). -/
def opcodeRow1 : List Form := [
  .one .bpl, .one .oraDirIndY, .one .oraDirInd, .one .oraStkIndY,
  .one .trbDir, .one .oraDirX, .one .aslDirX, .one .oraDirIndLongY,
  .zero .clc, .two .oraAbsY, .zero .incAcc, .zero .tcs,
  .two .trbAbs, .two .oraAbsX, .two .aslAbsX, .three .oraLongX]

/-- Row 2 of the opcode matrix (R117). -/
def opcodeRow2 : List Form := [
  .two .jsrAbs, .one .andDirXInd, .three .jsl, .one .andStk,
  .one .bitDir, .one .andDir, .one .rolDir, .one .andDirIndLong,
  .zero .plp, .immM .andImm, .zero .rolAcc, .zero .pld,
  .two .bitAbs, .two .andAbs, .two .rolAbs, .three .andLong]

/-- Row 3 of the opcode matrix (R117). -/
def opcodeRow3 : List Form := [
  .one .bmi, .one .andDirIndY, .one .andDirInd, .one .andStkIndY,
  .one .bitDirX, .one .andDirX, .one .rolDirX, .one .andDirIndLongY,
  .zero .sec, .two .andAbsY, .zero .decAcc, .zero .tsc,
  .two .bitAbsX, .two .andAbsX, .two .rolAbsX, .three .andLongX]

/-- Row 4 of the opcode matrix (R117). -/
def opcodeRow4 : List Form := [
  .zero .rti, .one .eorDirXInd, .one .wdm, .one .eorStk,
  .banks .mvp, .one .eorDir, .one .lsrDir, .one .eorDirIndLong,
  .zero .pha, .immM .eorImm, .zero .lsrAcc, .zero .phk,
  .two .jmpAbs, .two .eorAbs, .two .lsrAbs, .three .eorLong]

/-- Row 5 of the opcode matrix (R117). -/
def opcodeRow5 : List Form := [
  .one .bvc, .one .eorDirIndY, .one .eorDirInd, .one .eorStkIndY,
  .banks .mvn, .one .eorDirX, .one .lsrDirX, .one .eorDirIndLongY,
  .zero .cli, .two .eorAbsY, .zero .phy, .zero .tcd,
  .three .jmpLong, .two .eorAbsX, .two .lsrAbsX, .three .eorLongX]

/-- Row 6 of the opcode matrix (R117). -/
def opcodeRow6 : List Form := [
  .zero .rts, .one .adcDirXInd, .two .per, .one .adcStk,
  .one .stzDir, .one .adcDir, .one .rorDir, .one .adcDirIndLong,
  .zero .pla, .immM .adcImm, .zero .rorAcc, .zero .rtl,
  .two .jmpAbsInd, .two .adcAbs, .two .rorAbs, .three .adcLong]

/-- Row 7 of the opcode matrix (R117). -/
def opcodeRow7 : List Form := [
  .one .bvs, .one .adcDirIndY, .one .adcDirInd, .one .adcStkIndY,
  .one .stzDirX, .one .adcDirX, .one .rorDirX, .one .adcDirIndLongY,
  .zero .sei, .two .adcAbsY, .zero .ply, .zero .tdc,
  .two .jmpAbsXInd, .two .adcAbsX, .two .rorAbsX, .three .adcLongX]

/-- Row 8 of the opcode matrix (R117). -/
def opcodeRow8 : List Form := [
  .one .bra, .one .staDirXInd, .two .brl, .one .staStk,
  .one .styDir, .one .staDir, .one .stxDir, .one .staDirIndLong,
  .zero .dey, .immM .bitImm, .zero .txa, .zero .phb,
  .two .styAbs, .two .staAbs, .two .stxAbs, .three .staLong]

/-- Row 9 of the opcode matrix (R117). -/
def opcodeRow9 : List Form := [
  .one .bcc, .one .staDirIndY, .one .staDirInd, .one .staStkIndY,
  .one .styDirX, .one .staDirX, .one .stxDirY, .one .staDirIndLongY,
  .zero .tya, .two .staAbsY, .zero .txs, .zero .txy,
  .two .stzAbs, .two .staAbsX, .two .stzAbsX, .three .staLongX]

/-- Row A of the opcode matrix (R117). -/
def opcodeRowA : List Form := [
  .immX .ldyImm, .one .ldaDirXInd, .immX .ldxImm, .one .ldaStk,
  .one .ldyDir, .one .ldaDir, .one .ldxDir, .one .ldaDirIndLong,
  .zero .tay, .immM .ldaImm, .zero .tax, .zero .plb,
  .two .ldyAbs, .two .ldaAbs, .two .ldxAbs, .three .ldaLong]

/-- Row B of the opcode matrix (R117). -/
def opcodeRowB : List Form := [
  .one .bcs, .one .ldaDirIndY, .one .ldaDirInd, .one .ldaStkIndY,
  .one .ldyDirX, .one .ldaDirX, .one .ldxDirY, .one .ldaDirIndLongY,
  .zero .clv, .two .ldaAbsY, .zero .tsx, .zero .tyx,
  .two .ldyAbsX, .two .ldaAbsX, .two .ldxAbsY, .three .ldaLongX]

/-- Row C of the opcode matrix (R117). -/
def opcodeRowC : List Form := [
  .immX .cpyImm, .one .cmpDirXInd, .one .rep, .one .cmpStk,
  .one .cpyDir, .one .cmpDir, .one .decDir, .one .cmpDirIndLong,
  .zero .iny, .immM .cmpImm, .zero .dex, .zero .wai,
  .two .cpyAbs, .two .cmpAbs, .two .decAbs, .three .cmpLong]

/-- Row D of the opcode matrix (R117). -/
def opcodeRowD : List Form := [
  .one .bne, .one .cmpDirIndY, .one .cmpDirInd, .one .cmpStkIndY,
  .one .pei, .one .cmpDirX, .one .decDirX, .one .cmpDirIndLongY,
  .zero .cld, .two .cmpAbsY, .zero .phx, .zero .stp,
  .two .jml, .two .cmpAbsX, .two .decAbsX, .three .cmpLongX]

/-- Row E of the opcode matrix (R117). -/
def opcodeRowE : List Form := [
  .immX .cpxImm, .one .sbcDirXInd, .one .sep, .one .sbcStk,
  .one .cpxDir, .one .sbcDir, .one .incDir, .one .sbcDirIndLong,
  .zero .inx, .immM .sbcImm, .zero .nop, .zero .xba,
  .two .cpxAbs, .two .sbcAbs, .two .incAbs, .three .sbcLong]

/-- Row F of the opcode matrix (R117). -/
def opcodeRowF : List Form := [
  .one .beq, .one .sbcDirIndY, .one .sbcDirInd, .one .sbcStkIndY,
  .two .pea, .one .sbcDirX, .one .incDirX, .one .sbcDirIndLongY,
  .zero .sed, .two .sbcAbsY, .zero .plx, .zero .xce,
  .two .jsrAbsXInd, .two .sbcAbsX, .two .incAbsX, .three .sbcLongX]

/-- The opcode map (R117): 256 cells, the most significant digit first. -/
def opcodeMap : List Form :=
  opcodeRow0 ++ opcodeRow1 ++ opcodeRow2 ++ opcodeRow3 ++ opcodeRow4 ++ opcodeRow5 ++ opcodeRow6 ++ opcodeRow7 ++
  opcodeRow8 ++ opcodeRow9 ++ opcodeRowA ++ opcodeRowB ++ opcodeRowC ++ opcodeRowD ++ opcodeRowE ++ opcodeRowF

/-- "All 256 cells are occupied; there is no unassigned opcode" (R115). -/
theorem opcodeMap_length : opcodeMap.length = 256 := by
  simp only [opcodeMap, List.length_append]
  rfl

/-- The cell of an opcode byte. -/
def formOf (op : Byte) : Form := opcodeMap[op.toNat]'(by rw [opcodeMap_length]; exact op.isLt)

/-- How many operand bytes follow the opcode, given P.M and P.X (R111, R112). -/
def Form.size (m x : Bool) : Form → Nat
  | .zero _ => 0
  | .one _ => 1
  | .two _ => 2
  | .three _ => 3
  | .immM _ => if m then 1 else 2
  | .immX _ => if x then 1 else 2
  | .banks _ => 2

/-- The instruction of a cell with the bytes at PC + 1, PC + 2 and PC + 3; bytes past its length are not looked at. -/
def Form.build (m x : Bool) (b1 b2 b3 : Byte) : Form → Instr
  | .zero i => i
  | .one f => f b1
  | .two f => f (wordOfBytes b1 b2)
  | .three f => f (addrOfBytes b1 b2 b3)
  | .immM f => f (if m then .byte b1 else .word (wordOfBytes b1 b2))
  | .immX f => f (if x then .byte b1 else .word (wordOfBytes b1 b2))
  | .banks f => f b1 b2

/-! ## The decoder -/

/-- Why a byte string holds no instruction. No opcode is undefined (R124), so the only reason is missing bytes. -/
inductive DecodeError where
  /-- There is no byte at all. -/
  | noOpcode
  /-- The opcode is there and `missing` of its operand bytes are not. -/
  | truncated (opcode : Byte) (missing : Nat)
deriving DecidableEq, Repr

/-- What the decoder answers: an instruction and the bytes after it, or the reason why there is none. -/
inductive Decoded where
  | ok (i : Instr) (rest : List Byte)
  | rejected (why : DecodeError)
deriving DecidableEq, Repr

/-- The decoder of R114: look the opcode byte up, take the operand bytes its format asks for. `m` and `x` are P.M and
P.X at the fetch. -/
def decode (m x : Bool) : List Byte → Decoded
  | [] => .rejected .noOpcode
  | op :: rest =>
    let size := (formOf op).size m x
    if rest.length < size then .rejected (.truncated op (size - rest.length))
    else .ok ((formOf op).build m x (rest.getD 0 0) (rest.getD 1 0) (rest.getD 2 0)) (rest.drop size)

/-! ## The encoder -/

/-- The opcode byte of an instruction (the `match` of its row of spec/opcode_table.json). -/
def Instr.opcode : Instr → Byte
  | .brk _ => 0x00
  | .oraDirXInd _ => 0x01
  | .cop _ => 0x02
  | .oraStk _ => 0x03
  | .tsbDir _ => 0x04
  | .oraDir _ => 0x05
  | .aslDir _ => 0x06
  | .oraDirIndLong _ => 0x07
  | .php => 0x08
  | .oraImm _ => 0x09
  | .aslAcc => 0x0A
  | .phd => 0x0B
  | .tsbAbs _ => 0x0C
  | .oraAbs _ => 0x0D
  | .aslAbs _ => 0x0E
  | .oraLong _ => 0x0F
  | .bpl _ => 0x10
  | .oraDirIndY _ => 0x11
  | .oraDirInd _ => 0x12
  | .oraStkIndY _ => 0x13
  | .trbDir _ => 0x14
  | .oraDirX _ => 0x15
  | .aslDirX _ => 0x16
  | .oraDirIndLongY _ => 0x17
  | .clc => 0x18
  | .oraAbsY _ => 0x19
  | .incAcc => 0x1A
  | .tcs => 0x1B
  | .trbAbs _ => 0x1C
  | .oraAbsX _ => 0x1D
  | .aslAbsX _ => 0x1E
  | .oraLongX _ => 0x1F
  | .jsrAbs _ => 0x20
  | .andDirXInd _ => 0x21
  | .jsl _ => 0x22
  | .andStk _ => 0x23
  | .bitDir _ => 0x24
  | .andDir _ => 0x25
  | .rolDir _ => 0x26
  | .andDirIndLong _ => 0x27
  | .plp => 0x28
  | .andImm _ => 0x29
  | .rolAcc => 0x2A
  | .pld => 0x2B
  | .bitAbs _ => 0x2C
  | .andAbs _ => 0x2D
  | .rolAbs _ => 0x2E
  | .andLong _ => 0x2F
  | .bmi _ => 0x30
  | .andDirIndY _ => 0x31
  | .andDirInd _ => 0x32
  | .andStkIndY _ => 0x33
  | .bitDirX _ => 0x34
  | .andDirX _ => 0x35
  | .rolDirX _ => 0x36
  | .andDirIndLongY _ => 0x37
  | .sec => 0x38
  | .andAbsY _ => 0x39
  | .decAcc => 0x3A
  | .tsc => 0x3B
  | .bitAbsX _ => 0x3C
  | .andAbsX _ => 0x3D
  | .rolAbsX _ => 0x3E
  | .andLongX _ => 0x3F
  | .rti => 0x40
  | .eorDirXInd _ => 0x41
  | .wdm _ => 0x42
  | .eorStk _ => 0x43
  | .mvp _ _ => 0x44
  | .eorDir _ => 0x45
  | .lsrDir _ => 0x46
  | .eorDirIndLong _ => 0x47
  | .pha => 0x48
  | .eorImm _ => 0x49
  | .lsrAcc => 0x4A
  | .phk => 0x4B
  | .jmpAbs _ => 0x4C
  | .eorAbs _ => 0x4D
  | .lsrAbs _ => 0x4E
  | .eorLong _ => 0x4F
  | .bvc _ => 0x50
  | .eorDirIndY _ => 0x51
  | .eorDirInd _ => 0x52
  | .eorStkIndY _ => 0x53
  | .mvn _ _ => 0x54
  | .eorDirX _ => 0x55
  | .lsrDirX _ => 0x56
  | .eorDirIndLongY _ => 0x57
  | .cli => 0x58
  | .eorAbsY _ => 0x59
  | .phy => 0x5A
  | .tcd => 0x5B
  | .jmpLong _ => 0x5C
  | .eorAbsX _ => 0x5D
  | .lsrAbsX _ => 0x5E
  | .eorLongX _ => 0x5F
  | .rts => 0x60
  | .adcDirXInd _ => 0x61
  | .per _ => 0x62
  | .adcStk _ => 0x63
  | .stzDir _ => 0x64
  | .adcDir _ => 0x65
  | .rorDir _ => 0x66
  | .adcDirIndLong _ => 0x67
  | .pla => 0x68
  | .adcImm _ => 0x69
  | .rorAcc => 0x6A
  | .rtl => 0x6B
  | .jmpAbsInd _ => 0x6C
  | .adcAbs _ => 0x6D
  | .rorAbs _ => 0x6E
  | .adcLong _ => 0x6F
  | .bvs _ => 0x70
  | .adcDirIndY _ => 0x71
  | .adcDirInd _ => 0x72
  | .adcStkIndY _ => 0x73
  | .stzDirX _ => 0x74
  | .adcDirX _ => 0x75
  | .rorDirX _ => 0x76
  | .adcDirIndLongY _ => 0x77
  | .sei => 0x78
  | .adcAbsY _ => 0x79
  | .ply => 0x7A
  | .tdc => 0x7B
  | .jmpAbsXInd _ => 0x7C
  | .adcAbsX _ => 0x7D
  | .rorAbsX _ => 0x7E
  | .adcLongX _ => 0x7F
  | .bra _ => 0x80
  | .staDirXInd _ => 0x81
  | .brl _ => 0x82
  | .staStk _ => 0x83
  | .styDir _ => 0x84
  | .staDir _ => 0x85
  | .stxDir _ => 0x86
  | .staDirIndLong _ => 0x87
  | .dey => 0x88
  | .bitImm _ => 0x89
  | .txa => 0x8A
  | .phb => 0x8B
  | .styAbs _ => 0x8C
  | .staAbs _ => 0x8D
  | .stxAbs _ => 0x8E
  | .staLong _ => 0x8F
  | .bcc _ => 0x90
  | .staDirIndY _ => 0x91
  | .staDirInd _ => 0x92
  | .staStkIndY _ => 0x93
  | .styDirX _ => 0x94
  | .staDirX _ => 0x95
  | .stxDirY _ => 0x96
  | .staDirIndLongY _ => 0x97
  | .tya => 0x98
  | .staAbsY _ => 0x99
  | .txs => 0x9A
  | .txy => 0x9B
  | .stzAbs _ => 0x9C
  | .staAbsX _ => 0x9D
  | .stzAbsX _ => 0x9E
  | .staLongX _ => 0x9F
  | .ldyImm _ => 0xA0
  | .ldaDirXInd _ => 0xA1
  | .ldxImm _ => 0xA2
  | .ldaStk _ => 0xA3
  | .ldyDir _ => 0xA4
  | .ldaDir _ => 0xA5
  | .ldxDir _ => 0xA6
  | .ldaDirIndLong _ => 0xA7
  | .tay => 0xA8
  | .ldaImm _ => 0xA9
  | .tax => 0xAA
  | .plb => 0xAB
  | .ldyAbs _ => 0xAC
  | .ldaAbs _ => 0xAD
  | .ldxAbs _ => 0xAE
  | .ldaLong _ => 0xAF
  | .bcs _ => 0xB0
  | .ldaDirIndY _ => 0xB1
  | .ldaDirInd _ => 0xB2
  | .ldaStkIndY _ => 0xB3
  | .ldyDirX _ => 0xB4
  | .ldaDirX _ => 0xB5
  | .ldxDirY _ => 0xB6
  | .ldaDirIndLongY _ => 0xB7
  | .clv => 0xB8
  | .ldaAbsY _ => 0xB9
  | .tsx => 0xBA
  | .tyx => 0xBB
  | .ldyAbsX _ => 0xBC
  | .ldaAbsX _ => 0xBD
  | .ldxAbsY _ => 0xBE
  | .ldaLongX _ => 0xBF
  | .cpyImm _ => 0xC0
  | .cmpDirXInd _ => 0xC1
  | .rep _ => 0xC2
  | .cmpStk _ => 0xC3
  | .cpyDir _ => 0xC4
  | .cmpDir _ => 0xC5
  | .decDir _ => 0xC6
  | .cmpDirIndLong _ => 0xC7
  | .iny => 0xC8
  | .cmpImm _ => 0xC9
  | .dex => 0xCA
  | .wai => 0xCB
  | .cpyAbs _ => 0xCC
  | .cmpAbs _ => 0xCD
  | .decAbs _ => 0xCE
  | .cmpLong _ => 0xCF
  | .bne _ => 0xD0
  | .cmpDirIndY _ => 0xD1
  | .cmpDirInd _ => 0xD2
  | .cmpStkIndY _ => 0xD3
  | .pei _ => 0xD4
  | .cmpDirX _ => 0xD5
  | .decDirX _ => 0xD6
  | .cmpDirIndLongY _ => 0xD7
  | .cld => 0xD8
  | .cmpAbsY _ => 0xD9
  | .phx => 0xDA
  | .stp => 0xDB
  | .jml _ => 0xDC
  | .cmpAbsX _ => 0xDD
  | .decAbsX _ => 0xDE
  | .cmpLongX _ => 0xDF
  | .cpxImm _ => 0xE0
  | .sbcDirXInd _ => 0xE1
  | .sep _ => 0xE2
  | .sbcStk _ => 0xE3
  | .cpxDir _ => 0xE4
  | .sbcDir _ => 0xE5
  | .incDir _ => 0xE6
  | .sbcDirIndLong _ => 0xE7
  | .inx => 0xE8
  | .sbcImm _ => 0xE9
  | .nop => 0xEA
  | .xba => 0xEB
  | .cpxAbs _ => 0xEC
  | .sbcAbs _ => 0xED
  | .incAbs _ => 0xEE
  | .sbcLong _ => 0xEF
  | .beq _ => 0xF0
  | .sbcDirIndY _ => 0xF1
  | .sbcDirInd _ => 0xF2
  | .sbcStkIndY _ => 0xF3
  | .pea _ => 0xF4
  | .sbcDirX _ => 0xF5
  | .incDirX _ => 0xF6
  | .sbcDirIndLongY _ => 0xF7
  | .sed => 0xF8
  | .sbcAbsY _ => 0xF9
  | .plx => 0xFA
  | .xce => 0xFB
  | .jsrAbsXInd _ => 0xFC
  | .sbcAbsX _ => 0xFD
  | .incAbsX _ => 0xFE
  | .sbcLongX _ => 0xFF

/-- The addressing mode of an instruction with its operand bytes (the `format` of its row). -/
def Instr.operand : Instr → Operand
  | .brk sig => .stack1 sig
  | .oraDirXInd off => .dirXInd off
  | .cop sig => .stack1 sig
  | .oraStk off => .stk off
  | .tsbDir off => .dir off
  | .oraDir off => .dir off
  | .aslDir off => .dir off
  | .oraDirIndLong off => .dirIndLong off
  | .php => .stack0
  | .oraImm v => .imm v
  | .aslAcc => .acc
  | .phd => .stack0
  | .tsbAbs addr => .abs addr
  | .oraAbs addr => .abs addr
  | .aslAbs addr => .abs addr
  | .oraLong addr => .long addr
  | .bpl off => .rel off
  | .oraDirIndY off => .dirIndY off
  | .oraDirInd off => .dirInd off
  | .oraStkIndY off => .stkIndY off
  | .trbDir off => .dir off
  | .oraDirX off => .dirX off
  | .aslDirX off => .dirX off
  | .oraDirIndLongY off => .dirIndLongY off
  | .clc => .implied
  | .oraAbsY addr => .absY addr
  | .incAcc => .acc
  | .tcs => .implied
  | .trbAbs addr => .abs addr
  | .oraAbsX addr => .absX addr
  | .aslAbsX addr => .absX addr
  | .oraLongX addr => .longX addr
  | .jsrAbs addr => .abs addr
  | .andDirXInd off => .dirXInd off
  | .jsl addr => .long addr
  | .andStk off => .stk off
  | .bitDir off => .dir off
  | .andDir off => .dir off
  | .rolDir off => .dir off
  | .andDirIndLong off => .dirIndLong off
  | .plp => .stack0
  | .andImm v => .imm v
  | .rolAcc => .acc
  | .pld => .stack0
  | .bitAbs addr => .abs addr
  | .andAbs addr => .abs addr
  | .rolAbs addr => .abs addr
  | .andLong addr => .long addr
  | .bmi off => .rel off
  | .andDirIndY off => .dirIndY off
  | .andDirInd off => .dirInd off
  | .andStkIndY off => .stkIndY off
  | .bitDirX off => .dirX off
  | .andDirX off => .dirX off
  | .rolDirX off => .dirX off
  | .andDirIndLongY off => .dirIndLongY off
  | .sec => .implied
  | .andAbsY addr => .absY addr
  | .decAcc => .acc
  | .tsc => .implied
  | .bitAbsX addr => .absX addr
  | .andAbsX addr => .absX addr
  | .rolAbsX addr => .absX addr
  | .andLongX addr => .longX addr
  | .rti => .stack0
  | .eorDirXInd off => .dirXInd off
  | .wdm operand => .wdm operand
  | .eorStk off => .stk off
  | .mvp dst src => .blockMove dst src
  | .eorDir off => .dir off
  | .lsrDir off => .dir off
  | .eorDirIndLong off => .dirIndLong off
  | .pha => .stack0
  | .eorImm v => .imm v
  | .lsrAcc => .acc
  | .phk => .stack0
  | .jmpAbs addr => .abs addr
  | .eorAbs addr => .abs addr
  | .lsrAbs addr => .abs addr
  | .eorLong addr => .long addr
  | .bvc off => .rel off
  | .eorDirIndY off => .dirIndY off
  | .eorDirInd off => .dirInd off
  | .eorStkIndY off => .stkIndY off
  | .mvn dst src => .blockMove dst src
  | .eorDirX off => .dirX off
  | .lsrDirX off => .dirX off
  | .eorDirIndLongY off => .dirIndLongY off
  | .cli => .implied
  | .eorAbsY addr => .absY addr
  | .phy => .stack0
  | .tcd => .implied
  | .jmpLong addr => .long addr
  | .eorAbsX addr => .absX addr
  | .lsrAbsX addr => .absX addr
  | .eorLongX addr => .longX addr
  | .rts => .stack0
  | .adcDirXInd off => .dirXInd off
  | .per off => .stack2 off
  | .adcStk off => .stk off
  | .stzDir off => .dir off
  | .adcDir off => .dir off
  | .rorDir off => .dir off
  | .adcDirIndLong off => .dirIndLong off
  | .pla => .stack0
  | .adcImm v => .imm v
  | .rorAcc => .acc
  | .rtl => .stack0
  | .jmpAbsInd addr => .absInd addr
  | .adcAbs addr => .abs addr
  | .rorAbs addr => .abs addr
  | .adcLong addr => .long addr
  | .bvs off => .rel off
  | .adcDirIndY off => .dirIndY off
  | .adcDirInd off => .dirInd off
  | .adcStkIndY off => .stkIndY off
  | .stzDirX off => .dirX off
  | .adcDirX off => .dirX off
  | .rorDirX off => .dirX off
  | .adcDirIndLongY off => .dirIndLongY off
  | .sei => .implied
  | .adcAbsY addr => .absY addr
  | .ply => .stack0
  | .tdc => .implied
  | .jmpAbsXInd addr => .absXInd addr
  | .adcAbsX addr => .absX addr
  | .rorAbsX addr => .absX addr
  | .adcLongX addr => .longX addr
  | .bra off => .rel off
  | .staDirXInd off => .dirXInd off
  | .brl off => .relLong off
  | .staStk off => .stk off
  | .styDir off => .dir off
  | .staDir off => .dir off
  | .stxDir off => .dir off
  | .staDirIndLong off => .dirIndLong off
  | .dey => .implied
  | .bitImm v => .imm v
  | .txa => .implied
  | .phb => .stack0
  | .styAbs addr => .abs addr
  | .staAbs addr => .abs addr
  | .stxAbs addr => .abs addr
  | .staLong addr => .long addr
  | .bcc off => .rel off
  | .staDirIndY off => .dirIndY off
  | .staDirInd off => .dirInd off
  | .staStkIndY off => .stkIndY off
  | .styDirX off => .dirX off
  | .staDirX off => .dirX off
  | .stxDirY off => .dirY off
  | .staDirIndLongY off => .dirIndLongY off
  | .tya => .implied
  | .staAbsY addr => .absY addr
  | .txs => .implied
  | .txy => .implied
  | .stzAbs addr => .abs addr
  | .staAbsX addr => .absX addr
  | .stzAbsX addr => .absX addr
  | .staLongX addr => .longX addr
  | .ldyImm v => .imm v
  | .ldaDirXInd off => .dirXInd off
  | .ldxImm v => .imm v
  | .ldaStk off => .stk off
  | .ldyDir off => .dir off
  | .ldaDir off => .dir off
  | .ldxDir off => .dir off
  | .ldaDirIndLong off => .dirIndLong off
  | .tay => .implied
  | .ldaImm v => .imm v
  | .tax => .implied
  | .plb => .stack0
  | .ldyAbs addr => .abs addr
  | .ldaAbs addr => .abs addr
  | .ldxAbs addr => .abs addr
  | .ldaLong addr => .long addr
  | .bcs off => .rel off
  | .ldaDirIndY off => .dirIndY off
  | .ldaDirInd off => .dirInd off
  | .ldaStkIndY off => .stkIndY off
  | .ldyDirX off => .dirX off
  | .ldaDirX off => .dirX off
  | .ldxDirY off => .dirY off
  | .ldaDirIndLongY off => .dirIndLongY off
  | .clv => .implied
  | .ldaAbsY addr => .absY addr
  | .tsx => .implied
  | .tyx => .implied
  | .ldyAbsX addr => .absX addr
  | .ldaAbsX addr => .absX addr
  | .ldxAbsY addr => .absY addr
  | .ldaLongX addr => .longX addr
  | .cpyImm v => .imm v
  | .cmpDirXInd off => .dirXInd off
  | .rep mask => .imm (.byte mask)
  | .cmpStk off => .stk off
  | .cpyDir off => .dir off
  | .cmpDir off => .dir off
  | .decDir off => .dir off
  | .cmpDirIndLong off => .dirIndLong off
  | .iny => .implied
  | .cmpImm v => .imm v
  | .dex => .implied
  | .wai => .implied
  | .cpyAbs addr => .abs addr
  | .cmpAbs addr => .abs addr
  | .decAbs addr => .abs addr
  | .cmpLong addr => .long addr
  | .bne off => .rel off
  | .cmpDirIndY off => .dirIndY off
  | .cmpDirInd off => .dirInd off
  | .cmpStkIndY off => .stkIndY off
  | .pei off => .stack1 off
  | .cmpDirX off => .dirX off
  | .decDirX off => .dirX off
  | .cmpDirIndLongY off => .dirIndLongY off
  | .cld => .implied
  | .cmpAbsY addr => .absY addr
  | .phx => .stack0
  | .stp => .implied
  | .jml addr => .absInd addr
  | .cmpAbsX addr => .absX addr
  | .decAbsX addr => .absX addr
  | .cmpLongX addr => .longX addr
  | .cpxImm v => .imm v
  | .sbcDirXInd off => .dirXInd off
  | .sep mask => .imm (.byte mask)
  | .sbcStk off => .stk off
  | .cpxDir off => .dir off
  | .sbcDir off => .dir off
  | .incDir off => .dir off
  | .sbcDirIndLong off => .dirIndLong off
  | .inx => .implied
  | .sbcImm v => .imm v
  | .nop => .implied
  | .xba => .implied
  | .cpxAbs addr => .abs addr
  | .sbcAbs addr => .abs addr
  | .incAbs addr => .abs addr
  | .sbcLong addr => .long addr
  | .beq off => .rel off
  | .sbcDirIndY off => .dirIndY off
  | .sbcDirInd off => .dirInd off
  | .sbcStkIndY off => .stkIndY off
  | .pea v => .stack2 v
  | .sbcDirX off => .dirX off
  | .incDirX off => .dirX off
  | .sbcDirIndLongY off => .dirIndLongY off
  | .sed => .implied
  | .sbcAbsY addr => .absY addr
  | .plx => .stack0
  | .xce => .implied
  | .jsrAbsXInd addr => .absXInd addr
  | .sbcAbsX addr => .absX addr
  | .incAbsX addr => .absX addr
  | .sbcLongX addr => .longX addr

/-- The mnemonic of an instruction. -/
def Instr.mnemonic : Instr → Mnemonic
  | .brk _ => .BRK
  | .oraDirXInd _ => .ORA
  | .cop _ => .COP
  | .oraStk _ => .ORA
  | .tsbDir _ => .TSB
  | .oraDir _ => .ORA
  | .aslDir _ => .ASL
  | .oraDirIndLong _ => .ORA
  | .php => .PHP
  | .oraImm _ => .ORA
  | .aslAcc => .ASL
  | .phd => .PHD
  | .tsbAbs _ => .TSB
  | .oraAbs _ => .ORA
  | .aslAbs _ => .ASL
  | .oraLong _ => .ORA
  | .bpl _ => .BPL
  | .oraDirIndY _ => .ORA
  | .oraDirInd _ => .ORA
  | .oraStkIndY _ => .ORA
  | .trbDir _ => .TRB
  | .oraDirX _ => .ORA
  | .aslDirX _ => .ASL
  | .oraDirIndLongY _ => .ORA
  | .clc => .CLC
  | .oraAbsY _ => .ORA
  | .incAcc => .INC
  | .tcs => .TCS
  | .trbAbs _ => .TRB
  | .oraAbsX _ => .ORA
  | .aslAbsX _ => .ASL
  | .oraLongX _ => .ORA
  | .jsrAbs _ => .JSR
  | .andDirXInd _ => .AND
  | .jsl _ => .JSL
  | .andStk _ => .AND
  | .bitDir _ => .BIT
  | .andDir _ => .AND
  | .rolDir _ => .ROL
  | .andDirIndLong _ => .AND
  | .plp => .PLP
  | .andImm _ => .AND
  | .rolAcc => .ROL
  | .pld => .PLD
  | .bitAbs _ => .BIT
  | .andAbs _ => .AND
  | .rolAbs _ => .ROL
  | .andLong _ => .AND
  | .bmi _ => .BMI
  | .andDirIndY _ => .AND
  | .andDirInd _ => .AND
  | .andStkIndY _ => .AND
  | .bitDirX _ => .BIT
  | .andDirX _ => .AND
  | .rolDirX _ => .ROL
  | .andDirIndLongY _ => .AND
  | .sec => .SEC
  | .andAbsY _ => .AND
  | .decAcc => .DEC
  | .tsc => .TSC
  | .bitAbsX _ => .BIT
  | .andAbsX _ => .AND
  | .rolAbsX _ => .ROL
  | .andLongX _ => .AND
  | .rti => .RTI
  | .eorDirXInd _ => .EOR
  | .wdm _ => .WDM
  | .eorStk _ => .EOR
  | .mvp _ _ => .MVP
  | .eorDir _ => .EOR
  | .lsrDir _ => .LSR
  | .eorDirIndLong _ => .EOR
  | .pha => .PHA
  | .eorImm _ => .EOR
  | .lsrAcc => .LSR
  | .phk => .PHK
  | .jmpAbs _ => .JMP
  | .eorAbs _ => .EOR
  | .lsrAbs _ => .LSR
  | .eorLong _ => .EOR
  | .bvc _ => .BVC
  | .eorDirIndY _ => .EOR
  | .eorDirInd _ => .EOR
  | .eorStkIndY _ => .EOR
  | .mvn _ _ => .MVN
  | .eorDirX _ => .EOR
  | .lsrDirX _ => .LSR
  | .eorDirIndLongY _ => .EOR
  | .cli => .CLI
  | .eorAbsY _ => .EOR
  | .phy => .PHY
  | .tcd => .TCD
  | .jmpLong _ => .JMP
  | .eorAbsX _ => .EOR
  | .lsrAbsX _ => .LSR
  | .eorLongX _ => .EOR
  | .rts => .RTS
  | .adcDirXInd _ => .ADC
  | .per _ => .PER
  | .adcStk _ => .ADC
  | .stzDir _ => .STZ
  | .adcDir _ => .ADC
  | .rorDir _ => .ROR
  | .adcDirIndLong _ => .ADC
  | .pla => .PLA
  | .adcImm _ => .ADC
  | .rorAcc => .ROR
  | .rtl => .RTL
  | .jmpAbsInd _ => .JMP
  | .adcAbs _ => .ADC
  | .rorAbs _ => .ROR
  | .adcLong _ => .ADC
  | .bvs _ => .BVS
  | .adcDirIndY _ => .ADC
  | .adcDirInd _ => .ADC
  | .adcStkIndY _ => .ADC
  | .stzDirX _ => .STZ
  | .adcDirX _ => .ADC
  | .rorDirX _ => .ROR
  | .adcDirIndLongY _ => .ADC
  | .sei => .SEI
  | .adcAbsY _ => .ADC
  | .ply => .PLY
  | .tdc => .TDC
  | .jmpAbsXInd _ => .JMP
  | .adcAbsX _ => .ADC
  | .rorAbsX _ => .ROR
  | .adcLongX _ => .ADC
  | .bra _ => .BRA
  | .staDirXInd _ => .STA
  | .brl _ => .BRL
  | .staStk _ => .STA
  | .styDir _ => .STY
  | .staDir _ => .STA
  | .stxDir _ => .STX
  | .staDirIndLong _ => .STA
  | .dey => .DEY
  | .bitImm _ => .BIT
  | .txa => .TXA
  | .phb => .PHB
  | .styAbs _ => .STY
  | .staAbs _ => .STA
  | .stxAbs _ => .STX
  | .staLong _ => .STA
  | .bcc _ => .BCC
  | .staDirIndY _ => .STA
  | .staDirInd _ => .STA
  | .staStkIndY _ => .STA
  | .styDirX _ => .STY
  | .staDirX _ => .STA
  | .stxDirY _ => .STX
  | .staDirIndLongY _ => .STA
  | .tya => .TYA
  | .staAbsY _ => .STA
  | .txs => .TXS
  | .txy => .TXY
  | .stzAbs _ => .STZ
  | .staAbsX _ => .STA
  | .stzAbsX _ => .STZ
  | .staLongX _ => .STA
  | .ldyImm _ => .LDY
  | .ldaDirXInd _ => .LDA
  | .ldxImm _ => .LDX
  | .ldaStk _ => .LDA
  | .ldyDir _ => .LDY
  | .ldaDir _ => .LDA
  | .ldxDir _ => .LDX
  | .ldaDirIndLong _ => .LDA
  | .tay => .TAY
  | .ldaImm _ => .LDA
  | .tax => .TAX
  | .plb => .PLB
  | .ldyAbs _ => .LDY
  | .ldaAbs _ => .LDA
  | .ldxAbs _ => .LDX
  | .ldaLong _ => .LDA
  | .bcs _ => .BCS
  | .ldaDirIndY _ => .LDA
  | .ldaDirInd _ => .LDA
  | .ldaStkIndY _ => .LDA
  | .ldyDirX _ => .LDY
  | .ldaDirX _ => .LDA
  | .ldxDirY _ => .LDX
  | .ldaDirIndLongY _ => .LDA
  | .clv => .CLV
  | .ldaAbsY _ => .LDA
  | .tsx => .TSX
  | .tyx => .TYX
  | .ldyAbsX _ => .LDY
  | .ldaAbsX _ => .LDA
  | .ldxAbsY _ => .LDX
  | .ldaLongX _ => .LDA
  | .cpyImm _ => .CPY
  | .cmpDirXInd _ => .CMP
  | .rep _ => .REP
  | .cmpStk _ => .CMP
  | .cpyDir _ => .CPY
  | .cmpDir _ => .CMP
  | .decDir _ => .DEC
  | .cmpDirIndLong _ => .CMP
  | .iny => .INY
  | .cmpImm _ => .CMP
  | .dex => .DEX
  | .wai => .WAI
  | .cpyAbs _ => .CPY
  | .cmpAbs _ => .CMP
  | .decAbs _ => .DEC
  | .cmpLong _ => .CMP
  | .bne _ => .BNE
  | .cmpDirIndY _ => .CMP
  | .cmpDirInd _ => .CMP
  | .cmpStkIndY _ => .CMP
  | .pei _ => .PEI
  | .cmpDirX _ => .CMP
  | .decDirX _ => .DEC
  | .cmpDirIndLongY _ => .CMP
  | .cld => .CLD
  | .cmpAbsY _ => .CMP
  | .phx => .PHX
  | .stp => .STP
  | .jml _ => .JML
  | .cmpAbsX _ => .CMP
  | .decAbsX _ => .DEC
  | .cmpLongX _ => .CMP
  | .cpxImm _ => .CPX
  | .sbcDirXInd _ => .SBC
  | .sep _ => .SEP
  | .sbcStk _ => .SBC
  | .cpxDir _ => .CPX
  | .sbcDir _ => .SBC
  | .incDir _ => .INC
  | .sbcDirIndLong _ => .SBC
  | .inx => .INX
  | .sbcImm _ => .SBC
  | .nop => .NOP
  | .xba => .XBA
  | .cpxAbs _ => .CPX
  | .sbcAbs _ => .SBC
  | .incAbs _ => .INC
  | .sbcLong _ => .SBC
  | .beq _ => .BEQ
  | .sbcDirIndY _ => .SBC
  | .sbcDirInd _ => .SBC
  | .sbcStkIndY _ => .SBC
  | .pea _ => .PEA
  | .sbcDirX _ => .SBC
  | .incDirX _ => .INC
  | .sbcDirIndLongY _ => .SBC
  | .sed => .SED
  | .sbcAbsY _ => .SBC
  | .plx => .PLX
  | .xce => .XCE
  | .jsrAbsXInd _ => .JSR
  | .sbcAbsX _ => .SBC
  | .incAbsX _ => .INC
  | .sbcLongX _ => .SBC

/-- The operand bytes of an addressing mode, in ascending address order (R111). -/
def Operand.bytes : Operand → List Byte
  | .implied | .acc | .stack0 => []
  | .stack1 b | .rel b | .wdm b => [b]
  | .imm (.byte b) => [b]
  | .imm (.word w) => [loByte w, hiByte w]
  | .dir b | .dirX b | .dirY b | .dirInd b | .dirXInd b | .dirIndY b | .dirIndLong b | .dirIndLongY b => [b]
  | .stk b | .stkIndY b => [b]
  | .stack2 w | .relLong w => [loByte w, hiByte w]
  | .abs w | .absX w | .absY w | .absInd w | .absXInd w => [loByte w, hiByte w]
  | .long a | .longX a => [loByte (addrOffset a), hiByte (addrOffset a), addrBank a]
  | .blockMove dst src => [dst, src]

/-- How many operand bytes an addressing mode has. -/
def Operand.size (o : Operand) : Nat := o.bytes.length

/-- The bytes of an instruction, in ascending address order (R110). -/
def encode (i : Instr) : List Byte := i.opcode :: i.operand.bytes

/-- The length of an instruction in bytes, 1 to 4 (R110). -/
def Instr.length (i : Instr) : Nat := 1 + i.operand.size

/-! ## The host's question -/

/-- Byte `k` of a number whose bit 0 is the least significant bit of its first byte. -/
def byteOfNat (w k : Nat) : Byte := BitVec.ofNat 8 (w / 2 ^ (8 * k))

/-- The instruction the decoder reads from the table's number `w` of `nbits` bits (the bits above are 0): its bytes in
ascending order, with P.M = P.X = 1 as after reset (R62; log entry 16). -/
def decodeTableWord (nbits w : Nat) : Option Instr :=
  let v := w % 2 ^ nbits
  match decode true true [byteOfNat v 0, byteOfNat v 1, byteOfNat v 2, byteOfNat v 3] with
  | .ok i _ => some i
  | .rejected _ => none

end Sys2Proof
end

