-- ==== Sys2Proof/Config.lean ====
section
/-!
DEFINITION. The open parameters of the spec (R7, and the list at the end of 92_eei_decisions.md), as constants
WITHOUT A BODY: nothing in Lean can compute or prove a value of one, so whatever is proved holds for every value.
A parameter that the spec calls a draw is applied to the draw counter of the state (State.draws), which the step
advances at every use, so that two draws are unrelated. The fixed parameters (IO_CYCLES_VISIBLE = false,
EMU_WIDE_STACK_SH = forced back, WDM_OPERAND = fetched and ignored) are no constants: they are how the model is
written (log entries 20, 28, 29).
-/

namespace Sys2Proof.Config

/-- DECIMAL_V (R212, R214, D11): the V flag a decimal ADC or SBC leaves, at draw `k`. Log entry 5. -/
opaque decimalV (k : Nat) : Bool

/-- DECIMAL_INVALID (R212, R214, D12): the value a decimal ADC or SBC leaves in the accumulator when a nibble of an
operand is above 9, at draw `k` (an 8-bit operation takes its low byte). Log entry 6. -/
opaque decimalInvalidResult (k : Nat) : Word

/-- DECIMAL_INVALID (D12): the N flag of that case. Log entry 6. -/
opaque decimalInvalidN (k : Nat) : Bool

/-- DECIMAL_INVALID (D12): the V flag of that case. Log entry 6. -/
opaque decimalInvalidV (k : Nat) : Bool

/-- DECIMAL_INVALID (D12): the Z flag of that case. Log entry 6. -/
opaque decimalInvalidZ (k : Nat) : Bool

/-- DECIMAL_INVALID (D12): the C flag of that case. Log entry 6. -/
opaque decimalInvalidC (k : Nat) : Bool

/-- MVN_MVP_FINAL_C (R414, D13) has two possible values; this says whether it is 0xFFFF (else 0x0000). Log entry 7. -/
opaque blockMoveEndsAllOnes : Bool

/-- ABORT_WRITES (R470, D15) has two possible values; this says whether it is `performed` (else `suppressed`).
Log entry 8. -/
opaque abortWritesPerformed : Bool

/-- RESET_DRAW (R61, D5): the accumulator C = B:A after a reset by RESB, at draw `k`. Log entry 9. -/
opaque resetC (k : Nat) : Word

/-- RESET_DRAW (R61, D5): XL after a reset by RESB. Log entry 9. -/
opaque resetXL (k : Nat) : Byte

/-- RESET_DRAW (R61, D5): YL after a reset by RESB. Log entry 9. -/
opaque resetYL (k : Nat) : Byte

/-- RESET_DRAW (R61, D5): SL after a reset by RESB. Log entry 9. -/
opaque resetSL (k : Nat) : Byte

/-- RESET_DRAW (R61, D5): P.N after a reset by RESB. Log entry 9. -/
opaque resetN (k : Nat) : Bool

/-- RESET_DRAW (R61, D5): P.V after a reset by RESB. Log entry 9. -/
opaque resetV (k : Nat) : Bool

/-- RESET_DRAW (R61, D5): P.Z after a reset by RESB. Log entry 9. -/
opaque resetZ (k : Nat) : Bool

/-- RESET_DRAW (R61, D5): P.C after a reset by RESB. Log entry 9. -/
opaque resetCarry (k : Nat) : Bool

/-- U15 (R501): whether the `j`-th memory write of an instruction that a reset cut, at draw `k`, was done.
Log entry 10. -/
opaque cutWriteDone (k j : Nat) : Bool

/-- R501: whether PC holds the new value (else the old) after a reset cut the instruction or sequence that was to write it,
at draw `k`. Log entry 39. -/
opaque cutPcWritten (k : Nat) : Bool

/-- U2, U9 (R520): what the MX output shows (its M half, its X half) in the opcode fetch after an instruction that may
have changed M or X, at draw `k`. Log entry 27. -/
opaque mxInvalid (k : Nat) : Bool × Bool

end Sys2Proof.Config
end

