-- ==== Sys2Proof/Machine/State.lean ====
section
/-!
DEFINITION. The state of the W65C816S as plain data: every register of R20, the latches and run state of R48 to R51, the
memory behind the bus (R70), the environment's pending pin inputs (R19, R441) and the model's draw counter. The reasons
a step can stop stand here too.
-/

namespace Sys2Proof.Machine

/-- The eight bits of P (R28). -/
inductive Flag where
  /-- P[7], Negative. -/
  | n
  /-- P[6], Overflow. -/
  | v
  /-- P[5], Memory/Accumulator select. -/
  | m
  /-- P[4], Index select. -/
  | x
  /-- P[3], Decimal. -/
  | d
  /-- P[2], IRQ disable. -/
  | i
  /-- P[1], Zero. -/
  | z
  /-- P[0], Carry. -/
  | c
deriving DecidableEq, Repr

/-- Operand width in force (R10): `w8` when the governing flag is 1, `w16` when it is 0. -/
inductive Width where
  | w8
  | w16
deriving DecidableEq, Repr

/-- R51. -/
inductive RunState where
  /-- Instructions execute. -/
  | running
  /-- Entered by WAI (R426). -/
  | waiting
  /-- Entered by STP (R428). -/
  | stopped
deriving DecidableEq, Repr

/-- The kinds of R450. RESET has a sequence of its own (R502). -/
inductive InterruptKind where
  | abort
  | nmi
  | irq
  | brk
  | cop
deriving DecidableEq, Repr

/-- RESB during one step (R500, R501). -/
inductive ResbInput where
  /-- High: the processor runs. -/
  | high
  /-- Low, and if it fell, it fell at an instruction boundary. -/
  | low
  /-- Low, and it fell while the instruction of this step was in progress (R501, U15). -/
  | lowMidInstruction
deriving DecidableEq, Repr

/-- ABORTB during one step (R427, R470 to R472). Log entries 13 and 24. -/
inductive AbortInput where
  /-- No pulse. -/
  | none
  /-- A pulse that comes before anything else of the step: in the wait if the processor waits (R427), also if the wait ends
  later in the step; else in the first cycle of what executes, as `inWindow`. -/
  | atStart
  /-- A pulse in the instruction or sequence of the step, no later than the cycle that cycle-table note 3 marks: `abort_this`
  (R470). In a step that only waits it comes in the wait. -/
  | inWindow
  /-- A pulse after that cycle, or held for more than one cycle (R471, U6). -/
  | outsideWindow
deriving DecidableEq, Repr

/-- Which read of a step a byte is for. Within one kind a step reads no address twice, so kind and address together name one
read access (R78, R90). Log entry 3. -/
inductive ReadKind where
  /-- A byte of the instruction (R111). -/
  | fetch
  /-- A byte of an indirect mode's pointer. -/
  | pointer
  /-- A byte of the operand, of the source of a block move, or pulled from the stack. -/
  | data
  /-- A byte of a vector (R457, R502). -/
  | vector
deriving DecidableEq, Repr

/-- What the platform answers to one read access of a step. -/
structure Answer where
  kind : ReadKind
  addr : Addr
  data : Byte
deriving DecidableEq, Repr

/-- What the environment drives for one step (92_eei_decisions.md: "Inputs from the environment at each step"), and what the
platform answers (R7's `MEM`, R19). Log entries 3 and 12. -/
structure PinInput where
  /-- RESB. -/
  resb : ResbInput
  /-- A high-to-low transition of NMIB came since the last step (R48). -/
  nmiEdge : Bool
  /-- IRQB is low (R50). -/
  irqLow : Bool
  /-- ABORTB. -/
  abort : AbortInput
  /-- RDY is held high from outside (R426). -/
  rdyForcedHigh : Bool
  /-- The bytes that memory holds from this step on without the processor having written them: another bus master's (D6), a
  device's, those of a ROM that a store did not change. Of two entries for one address the later counts. -/
  platform : List (Addr × Byte)
  /-- What the platform answers to single read accesses of this step where that is not what memory then holds (D1): a device
  register, ROM or unpopulated address that does not read back what was stored, a read with a side effect on a later
  read, a substituted vector. Of two entries for one access the first counts. -/
  answers : List Answer
deriving DecidableEq, Repr

/-- Memory by its bytes that differ from what an unlisted address reads as (`unlistedByte`): addresses strictly rising
(`Memory.wf`). An address is the 24-bit address as a number. -/
abbrev Memory := List Host.Cell

/-- The machine. -/
structure State where
  /-- Accumulator C = B:A (R21). -/
  c : Word
  /-- Index register X (R22). -/
  x : Word
  /-- Index register Y (R22). -/
  y : Word
  /-- Stack pointer S (R23). -/
  sp : Word
  /-- Direct register D (R24). -/
  d : Word
  /-- Program counter PC (R27). -/
  pc : Word
  /-- Data bank register DBR (R25). -/
  dbr : Byte
  /-- Program bank register PBR (R26). -/
  pbr : Byte
  /-- Processor status P (R28). -/
  p : Byte
  /-- Emulation flag E (R36). -/
  e : Bool
  /-- Run state (R51). -/
  run : RunState
  /-- NMIB edge latch (R48). -/
  nmiPending : Bool
  /-- ABORTB latch, with the bank and address of the aborted opcode (R49, R470). -/
  abortPending : Option Addr
  /-- IRQB is low (R50). -/
  irqLine : Bool
  /-- RESB is low (R441's `reset_line`). -/
  resetLine : Bool
  /-- RDY is held high from outside (R426). -/
  rdyForcedHigh : Bool
  /-- The bytes behind the bus (R70). -/
  mem : Memory
  /-- What the platform answers to single reads of the step (R7's `MEM`, D1). The model's own. -/
  answers : List Answer
  /-- The environment's inputs for the steps to come; when it is empty the levels stay as they are. The model's own. -/
  env : List PinInput
  /-- How many free values have been drawn. The model's own (log entry 11). -/
  draws : Nat
deriving DecidableEq, Repr

/-- Reasons for a fault: none. "The device has no synchronous faults: no instruction, address or operand value traps"
(R13, R79, R124, R445), so nobody raises one. -/
inductive Fault where
deriving DecidableEq, Repr

/-- Reasons for a refusal. -/
inductive Refusal where
  /-- `exec` has no meaning for the instruction of this mnemonic. Raised by an arm of `exec` only; no arm raises it.
  Safe: the run ends. -/
  | notModelled (mnemonic : String)
  /-- ABORTB came outside its window while an instruction executed, or was held too long in a wait. Raised by `step`.
  R471, U6: "`refuse`: the model accepts ABORTB only as the per-instruction input `abort_this`". Safe: the hardware goes on with a partly updated
  state that the spec does not give. Log entry 13. -/
  | abortOutsideWindow
  /-- ABORTB came during an interrupt sequence (hardware, BRK, COP, reset). Raised by `step`. R472, U7: "`refuse`: `abort_this`
  is not accepted for a Step that performs an interrupt sequence". Safe. Log entry 14. -/
  | abortDuringSequence
deriving DecidableEq, Repr

/-- The machine right after reset (R60, R62, R502, R503): the values the spec forces, the reset vector read from memory
that lists nothing (log entry 4), and 0 for what reset leaves unspecified (C, XL, YL, SL, N, V, Z, C; log entry 1). -/
def State.reset : State where
  c := 0x0000
  x := 0x0000
  y := 0x0000
  sp := 0x0100
  d := 0x0000
  pc := 0x0000
  dbr := 0x00
  pbr := 0x00
  p := 0x34
  e := true
  run := .running
  nmiPending := false
  abortPending := none
  irqLine := false
  resetLine := false
  rdyForcedHigh := false
  mem := []
  answers := []
  env := []
  draws := 0

end Sys2Proof.Machine
end

