-- ==== Sys2Proof/Machine/Ops.lean ====
section
/-!
DEFINITION. The named operations every meaning is written with: flags and widths, registers at a width, memory by bytes and
by the increment disciplines of R11, instruction fetch, the stack primitives of R165 to R168, TAKING AN INTERRUPT (R450)
and the return from one (R424), and the two halves of reset (R501, R502).
-/

namespace Sys2Proof.Machine

/-- What a meaning answers. -/
abbrev Result := Host.Outcome State Fault Refusal

/-! ## Bits, bytes, addresses (R8) -/

/-- `cat(bank, a16)`. -/
def bankAddr (bank : Byte) (a : Word) : Addr := bank ++ a

/-- `cat(0x00, a16)`: an address in bank 0. -/
def bank0 (a : Word) : Addr := bankAddr 0x00 a

/-- `sext_16` of a signed byte displacement (R113). -/
def sext8 (v : Byte) : Word := v.signExtend 16

/-- `zext_16` of a byte. -/
def zext8 (v : Byte) : Word := v.setWidth 16

/-- `zext_24` of a 16-bit index (R176). -/
def zext24 (v : Word) : Addr := v.setWidth 24

/-! ## Widths (R10) -/

/-- The width in bits. -/
def Width.bits : Width → Nat
  | .w8 => 8
  | .w16 => 16

/-- The width in bytes. -/
def Width.bytes : Width → Nat
  | .w8 => 1
  | .w16 => 2

/-- The low `w` bits of a value, zero-extended to the 16 bits in which the model carries operands of either width. -/
def Width.trunc (w : Width) (v : Word) : Word :=
  match w with
  | .w8 => zext8 (loByte v)
  | .w16 => v

/-- `msb(v, w)`. -/
def Width.msb (w : Width) (v : Word) : Bool :=
  match w with
  | .w8 => v.getLsbD 7
  | .w16 => v.getLsbD 15

/-- The bit below the most significant one: bit 6 or bit 14 (R221). -/
def Width.nextMsb (w : Width) (v : Word) : Bool :=
  match w with
  | .w8 => v.getLsbD 6
  | .w16 => v.getLsbD 14

/-! ## The status register (R28) -/

/-- The bit number of a flag in P. -/
def Flag.bit : Flag → Nat
  | .n => 7
  | .v => 6
  | .m => 5
  | .x => 4
  | .d => 3
  | .i => 2
  | .z => 1
  | .c => 0

/-- The byte with only the flag's bit set. -/
def Flag.mask : Flag → Byte
  | .n => 0x80
  | .v => 0x40
  | .m => 0x20
  | .x => 0x10
  | .d => 0x08
  | .i => 0x04
  | .z => 0x02
  | .c => 0x01

/-- A flag's value in a status byte. -/
def flagOf (f : Flag) (p : Byte) : Bool := p.getLsbD f.bit

/-- A status byte with one flag written and the others left. -/
def withFlag (f : Flag) (b : Bool) (p : Byte) : Byte := if b then p ||| f.mask else p &&& ~~~f.mask

/-- `P.f`. -/
def State.flag (s : State) (f : Flag) : Bool := flagOf f s.p

/-- `P.f <- b`. -/
def State.setFlag (f : Flag) (b : Bool) (s : State) : State := { s with p := withFlag f b s.p }

/-- `wA` (R10): the width of the accumulator and of memory operands. -/
def State.wA (s : State) : Width := if s.flag .m then .w8 else .w16

/-- `wX` (R10): the width of the index registers. -/
def State.wX (s : State) : Width := if s.flag .x then .w8 else .w16

/-- `P.N <- msb(v, w) ; P.Z <- (v = 0)`. -/
def State.setNZ (w : Width) (v : Word) (s : State) : State :=
  (s.setFlag .n (w.msb v)).setFlag .z (w.trunc v == 0)

/-- `XH <- 0x00 ; YH <- 0x00` (R22). -/
def State.clearIndexHigh (s : State) : State := { s with x := zext8 (loByte s.x), y := zext8 (loByte s.y) }

/-- R22: the high bytes of the index registers are forced to zero at the moment P.X is 1. -/
def State.narrowIndex (s : State) : State := if s.flag .x then s.clearIndexHigh else s

/-- A pulled byte goes into P (R331, R424): with E = 1 bits 5 and 4 stay 1; with E = 0 all eight bits are loaded and the
index registers are narrowed if the new P.X is 1. -/
def State.loadP (v : Byte) (s : State) : State :=
  if s.e then { s with p := v ||| 0x30 } else State.narrowIndex { s with p := v }

/-! ## Registers at a width -/

/-- Write a 16-bit register at a width: `w8` writes the low byte and leaves the high byte. -/
def Width.merge (w : Width) (old v : Word) : Word :=
  match w with
  | .w8 => hiByte old ++ loByte v
  | .w16 => v

/-- `A if m8 else C` (R21), zero-extended. -/
def State.getA (s : State) (w : Width) : Word := w.trunc s.c

/-- `(A if m8 else C) <- v`: an 8-bit write leaves B (R21). -/
def State.setA (w : Width) (v : Word) (s : State) : State := { s with c := w.merge s.c v }

/-- `(XL if x8 else X) <- v` (R22). -/
def State.setX (w : Width) (v : Word) (s : State) : State := { s with x := w.merge s.x v }

/-- `(YL if x8 else Y) <- v` (R22). -/
def State.setY (w : Width) (v : Word) (s : State) : State := { s with y := w.merge s.y v }

/-- `SH <- 0x01` if E = 1: the end of a wide-stack instruction (R167, R168, D10). -/
def State.restoreSH (s : State) : State := if s.e then { s with sp := (0x01 : Byte) ++ loByte s.sp } else s

/-! ## Memory (R70) -/

/-- What a byte that nothing has written reads as. The spec leaves memory to the platform (D1, R77); its test vectors
take plain RAM in which "Memory not listed holds 00". DESIGN CHOICE, log entry 2. -/
def unlistedByte : Byte := 0x00

/-- The byte at an address. -/
def Memory.read : Memory → Nat → Byte
  | [], _ => unlistedByte
  | (k, v) :: rest, a => if k = a then v else Memory.read rest a

/-- Put a byte in its place in the rising order, in place of the byte of that address if there is one. -/
def Memory.insert : Memory → Nat → Byte → Memory
  | [], a, v => [(a, v)]
  | (k, b) :: rest, a, v =>
    if k = a then (a, v) :: rest
    else if a < k then (a, v) :: (k, b) :: rest
    else (k, b) :: Memory.insert rest a v

/-- Store a byte: storing what an unlisted address reads as takes the address out of the list. -/
def Memory.write (m : Memory) (a : Nat) (v : Byte) : Memory :=
  if v = unlistedByte then m.filter (fun cell => cell.1 != a) else m.insert a v

/-- Memory after a list of bytes is stored in order. -/
def Memory.writeAll : List (Addr × Byte) → Memory → Memory
  | [], m => m
  | (a, v) :: rest, m => Memory.writeAll rest (m.write a.toNat v)

/-- Every address of a list is above `lo`. -/
def Memory.above (lo : Nat) (m : Memory) : Bool := m.all (fun cell => lo < cell.1)

/-- The canonical form: addresses strictly rising and below 2^24, no byte that an unlisted address reads as. -/
def Memory.wf : Memory → Bool
  | [] => true
  | (k, v) :: rest => (k < 2 ^ 24) && (v != unlistedByte) && Memory.above k rest && Memory.wf rest

/-- The byte that memory holds at an address: what the processor last stored there, or the platform since. -/
def State.byteAt (s : State) (a : Addr) : Byte := s.mem.read a.toNat

/-- `MemWrite(addr, 1, v)` (R11). -/
def State.storeByte (a : Addr) (v : Byte) (s : State) : State := { s with mem := s.mem.write a.toNat v }

/-- The platform shows other bytes than memory held (R7's `MEM`, D1; log entry 3). -/
def State.platformShows (cells : List (Addr × Byte)) (s : State) : State := { s with mem := Memory.writeAll cells s.mem }

/-- The answer to a read access, if the platform gives one of its own. -/
def answerTo (kind : ReadKind) (a : Addr) : List Answer → Option Byte
  | [] => none
  | x :: rest => if x.kind = kind ∧ x.addr = a then some x.data else answerTo kind a rest

/-- `MemRead(addr, 1)` (R11): the platform's own answer, else what memory holds (R7's `MEM`, D1; log entry 3). -/
def State.read (s : State) (kind : ReadKind) (a : Addr) : Byte := (answerTo kind a s.answers).getD (s.byteAt a)

/-- `MemRead(addr, 2)` of an operand: 24-bit increment (R11, R141). -/
def State.wordAt (s : State) (a : Addr) : Word := wordOfBytes (s.read .data a) (s.read .data (a + 1))

/-- `MemRead0(a16, 2)`: bank 0, 16-bit increment (R11, R160). -/
def State.word0 (s : State) (kind : ReadKind) (a : Word) : Word :=
  wordOfBytes (s.read kind (bank0 a)) (s.read kind (bank0 (a + 1)))

/-- `MemRead0(a16, 3)` of a pointer: bank 0, 16-bit increment (R11, R147, R157). -/
def State.long0 (s : State) (a : Word) : Addr :=
  addrOfBytes (s.read .pointer (bank0 a)) (s.read .pointer (bank0 (a + 1))) (s.read .pointer (bank0 (a + 2)))

/-- `MemReadPB(a16, 2)` of a pointer: program bank, 16-bit increment (R11, R144). -/
def State.wordPB (s : State) (a : Word) : Word :=
  wordOfBytes (s.read .pointer (bankAddr s.pbr a)) (s.read .pointer (bankAddr s.pbr (a + 1)))

/-! ## Fetch (R110 to R114) -/

/-- The byte at `PBR:(PC + k) mod 2^16` (R27, R111). -/
def State.codeByte (s : State) (k : Word) : Byte := s.read .fetch (bankAddr s.pbr (s.pc + k))

/-- The instruction at PBR:PC, its immediate length by the P.M and P.X in force (R112, R114). -/
def State.fetch (s : State) : Instr :=
  (formOf (s.codeByte 0)).build (s.flag .m) (s.flag .x) (s.codeByte 1) (s.codeByte 2) (s.codeByte 3)

/-- PC after `n` instruction bytes were fetched: it wraps inside the program bank (R27). -/
def State.advance (n : Nat) (s : State) : State := { s with pc := s.pc + BitVec.ofNat 16 n }

/-- An operand byte that is fetched AFTER the instruction has pushed (R298, R299): the byte `b` that decoding saw, unless
the pushes have changed what is read at its address since. Log entry 15. -/
def lateOperandByte (before after : State) (a : Addr) (b : Byte) : Byte :=
  if after.read .fetch a = before.read .fetch a then b else after.read .fetch a

/-! ## The stack (R165 to R168) -/

/-- S one lower: within page 1 (SL only) when E = 1, modulo 2^16 when E = 0 (R165). -/
def State.spDown (s : State) : Word := if s.e then hiByte s.sp ++ (loByte s.sp - 1) else s.sp - 1

/-- S one higher: within page 1 (SL only) when E = 1, modulo 2^16 when E = 0 (R166). -/
def State.spUp (s : State) : Word := if s.e then hiByte s.sp ++ (loByte s.sp + 1) else s.sp + 1

/-- `Push8` (R165). -/
def State.push8 (v : Byte) (s : State) : State := { s.storeByte (bank0 s.sp) v with sp := s.spDown }

/-- `Push16` (R165): high byte first. -/
def State.push16 (v : Word) (s : State) : State := (s.push8 (hiByte v)).push8 (loByte v)

/-- `Pull8` (R166): the byte and the state after it. -/
def State.pull8 (s : State) : Byte × State := (s.read .data (bank0 s.spUp), { s with sp := s.spUp })

/-- `Pull16` (R166): low byte first. -/
def State.pull16 (s : State) : Word × State :=
  (wordOfBytes s.pull8.1 s.pull8.2.pull8.1, s.pull8.2.pull8.2)

/-- `Push8w` (R167): 16-bit arithmetic on S in both modes. -/
def State.push8w (v : Byte) (s : State) : State := { s.storeByte (bank0 s.sp) v with sp := s.sp - 1 }

/-- `Push16w` (R167). -/
def State.push16w (v : Word) (s : State) : State := (s.push8w (hiByte v)).push8w (loByte v)

/-- `Pull16w` (R168). -/
def State.pull16w (s : State) : Word × State :=
  (wordOfBytes (s.read .data (bank0 (s.sp + 1))) (s.read .data (bank0 (s.sp + 2))), { s with sp := s.sp + 2 })

/-- `Pull24w` (R168). -/
def State.pull24w (s : State) : Addr × State :=
  (addrOfBytes (s.read .data (bank0 (s.sp + 1))) (s.read .data (bank0 (s.sp + 2))) (s.read .data (bank0 (s.sp + 3))),
    { s with sp := s.sp + 3 })

/-- Push a register at a width: one byte, or two (R321, R326, R327). -/
def State.pushAt (w : Width) (v : Word) (s : State) : State :=
  match w with
  | .w8 => s.push8 (loByte v)
  | .w16 => s.push16 v

/-- Pull a value at a width (R328, R332, R333), zero-extended. -/
def State.pullAt (w : Width) (s : State) : Word × State :=
  match w with
  | .w8 => (zext8 s.pull8.1, s.pull8.2)
  | .w16 => s.pull16

/-! ## Taking an interrupt (R450) -/

/-- The vector of each kind (R74, R75, R440): `e` is the emulation flag. -/
def InterruptKind.vector (e : Bool) : InterruptKind → Word
  | .abort => if e then 0xFFF8 else 0xFFE8
  | .nmi => if e then 0xFFFA else 0xFFEA
  | .irq => if e then 0xFFFE else 0xFFEE
  | .brk => if e then 0xFFFE else 0xFFE6
  | .cop => if e then 0xFFF4 else 0xFFE4

/-- The RESET vector (R74, R502). -/
def resetVector : Word := 0xFFFC

/-- `Pimage(kind)` (R453): the byte of P pushed. In Emulation mode bit 5 is 1 and bit 4 is the Break flag, 0 for a
hardware interrupt and 1 for BRK and COP. -/
def InterruptKind.pImage (kind : InterruptKind) (e : Bool) (p : Byte) : Byte :=
  match e, kind with
  | false, _ => p
  | true, .abort => (p ||| 0x20) &&& 0xEF
  | true, .nmi => (p ||| 0x20) &&& 0xEF
  | true, .irq => (p ||| 0x20) &&& 0xEF
  | true, .brk => p ||| 0x30
  | true, .cop => p ||| 0x30

/-- The frame of R450 pushed: PBR in Native mode only, PCH, PCL, then the image of P. `bank` and `ret` are the return
address of R451. -/
def State.pushFrame (kind : InterruptKind) (bank : Byte) (ret : Word) (s : State) : State :=
  ((if s.e then s else s.push8 bank).push16 ret).push8 (kind.pImage s.e s.p)

/-- `Interrupt(kind)` (R450): push the frame, then I = 1 and D = 0 (R454), PBR = 00 (R455), PC from the vector (R457),
Running. DBR and every other register stay (R456). -/
def State.interrupt (kind : InterruptKind) (bank : Byte) (ret : Word) (s : State) : State :=
  let t := ((s.pushFrame kind bank ret).setFlag .i true).setFlag .d false
  { t with pbr := 0x00, pc := t.word0 .vector (kind.vector s.e), run := .running }

/-- The return from an interrupt (R424): P, PCL, PCH and, in Native mode only, PBR are pulled; PC is used as pulled. -/
def State.returnFromInterrupt (s : State) : State :=
  let t := s.pull8.2.loadP s.pull8.1
  if s.e then { t.pull16.2 with pc := t.pull16.1 }
  else { t.pull16.2.pull8.2 with pc := t.pull16.1, pbr := t.pull16.2.pull8.1 }

/-! ## Reset (R500 to R504) -/

/-- The status byte while RESB is low: M = X = I = 1, D = 0 (R60), N, V, Z, C drawn (R61, D5). -/
def resetP (k : Nat) : Byte :=
  withFlag .n (Config.resetN k) (withFlag .v (Config.resetV k)
    (withFlag .z (Config.resetZ k) (withFlag .c (Config.resetCarry k) 0x34)))

/-- The Reset conditioning period (R501, R60): D, DBR, PBR, SH, XH, YH, E, M, X, D and I are forced; C, XL, YL, SL, N, V,
Z and C are drawn (R61, D5; log entry 9). No memory access. The spec gives PC no value until RESB rises: here PC keeps the
one it has, which of a cut instruction is the old or the new one (`State.cutByReset`); DESIGN CHOICE, log entry 39. -/
def State.resetConditioning (s : State) : State :=
  { s with
    c := Config.resetC s.draws
    x := zext8 (Config.resetXL s.draws)
    y := zext8 (Config.resetYL s.draws)
    sp := (0x01 : Byte) ++ Config.resetSL s.draws
    d := 0x0000
    dbr := 0x00
    pbr := 0x00
    p := resetP s.draws
    e := true
    resetLine := true
    draws := s.draws + 1 }

/-- RESB returns high (R502, R503): PC from 00FFFC,D, Running, both latches cleared, no byte of memory written. Whether the
three stack-address cycles move S is not stated: here they leave it, whose low byte a reset has drawn free; DESIGN CHOICE,
log entry 40. -/
def State.resetExit (s : State) : State :=
  let t := (s.setFlag .i true).setFlag .d false
  { t with
    pbr := 0x00
    e := true
    pc := t.word0 .vector resetVector
    run := .running
    nmiPending := false
    abortPending := none
    resetLine := false }

end Sys2Proof.Machine
end

