-- ==== Sys2Proof/Machine/Operands.lean ====
section
/-!
DEFINITION. Every operand form (40_addressing_modes.md): the effective address of each data addressing mode, the reads
and writes of R140, the address lists that frames and the bus trace speak of, and the targets of the control-transfer
modes.
-/

namespace Sys2Proof.Machine

/-! ## Direct page (R160, R161) -/

/-- Whether the emulation-mode page wrap applies: E = 1 and DL = 0 (R161). -/
def State.pageWraps (s : State) : Bool := s.e && loByte s.d == 0x00

/-- `DPaddr(off, idx)` (R161). -/
def dpAddr (s : State) (off : Byte) (idx : Word) : Word :=
  if s.pageWraps then hiByte s.d ++ (off + loByte idx) else s.d + zext8 off + idx

/-- `DPnext(a, off, idx, k)` for a wrapping object (R161): where byte `k` of a 16-bit pointer lies. -/
def dpNext (s : State) (off : Byte) (idx : Word) (k : Byte) : Word :=
  if s.pageWraps then hiByte s.d ++ (off + loByte idx + k) else dpAddr s off idx + zext8 k

/-- `MemReadDP(off, idx, 2)` (R11, R161): a pointer in the direct page. -/
def dpPointer (s : State) (off : Byte) (idx : Word) : Word :=
  wordOfBytes (s.read .pointer (bank0 (dpAddr s off idx))) (s.read .pointer (bank0 (dpNext s off idx 1)))

/-! ## Operand locations (R140) -/

/-- Where an operand is (R140). -/
inductive Loc where
  /-- The mode has no data operand; no meaning reads or writes one there. -/
  | nowhere
  /-- `Acc`. -/
  | acc
  /-- `Imm(v)`. -/
  | imm (v : Word)
  /-- `Mem24(ea)`: byte `k` at `(ea + k) mod 2^24`. -/
  | mem24 (ea : Addr)
  /-- `Mem0(a16)`: byte `k` at `cat(0x00, (a16 + k) mod 2^16)`. -/
  | mem0 (a : Word)
deriving DecidableEq, Repr

/-- The value of an immediate, zero-extended (R140 takes its low bytes; log entry 17). -/
def immValue : Imm → Word
  | .byte b => zext8 b
  | .word w => w

/-- The location of an operand in a state (R142 to R171). Index additions of the modes of R141 are carried out on 24 bits;
those of the direct and stack modes on 16 bits in bank 0. -/
def State.locate (s : State) : Operand → Loc
  | .acc => .acc
  | .imm v => .imm (immValue v)
  | .dir off => .mem0 (dpAddr s off 0)
  | .dirX off => .mem0 (dpAddr s off s.x)
  | .dirY off => .mem0 (dpAddr s off s.y)
  | .dirInd off => .mem24 (bankAddr s.dbr (dpPointer s off 0))
  | .dirXInd off => .mem24 (bankAddr s.dbr (dpPointer s off s.x))
  | .dirIndY off => .mem24 (bankAddr s.dbr (dpPointer s off 0) + zext24 s.y)
  | .dirIndLong off => .mem24 (s.long0 (dpAddr s off 0))
  | .dirIndLongY off => .mem24 (s.long0 (dpAddr s off 0) + zext24 s.y)
  | .stk off => .mem0 (s.sp + zext8 off)
  | .stkIndY off => .mem24 (bankAddr s.dbr (s.word0 .pointer (s.sp + zext8 off)) + zext24 s.y)
  | .abs addr => .mem24 (bankAddr s.dbr addr)
  | .absX addr => .mem24 (bankAddr s.dbr addr + zext24 s.x)
  | .absY addr => .mem24 (bankAddr s.dbr addr + zext24 s.y)
  | .long addr => .mem24 addr
  | .longX addr => .mem24 (addr + zext24 s.x)
  | .implied | .stack0 | .stack1 _ | .stack2 _ | .rel _ | .relLong _ | .absInd _ | .absXInd _ | .blockMove _ _
  | .wdm _ => .nowhere

/-- Where byte `k` of a memory operand is (R140). -/
def Loc.byteAddr (k : Nat) : Loc → Option Addr
  | .mem24 ea => some (ea + BitVec.ofNat 24 k)
  | .mem0 a => some (bank0 (a + BitVec.ofNat 16 k))
  | .nowhere | .acc | .imm _ => none

/-- The addresses of an operand of a width, low byte first; none for the accumulator and immediates. -/
def Loc.addrs (w : Width) (loc : Loc) : List Addr :=
  match w with
  | .w8 => (loc.byteAddr 0).toList
  | .w16 => (loc.byteAddr 0).toList ++ (loc.byteAddr 1).toList

/-- `Read(loc, n)` (R140), zero-extended. -/
def Loc.read (w : Width) (s : State) : Loc → Word
  | .nowhere => 0x0000
  | .acc => s.getA w
  | .imm v => w.trunc v
  | .mem24 ea => match w with
    | .w8 => zext8 (s.read .data ea)
    | .w16 => s.wordAt ea
  | .mem0 a => match w with
    | .w8 => zext8 (s.read .data (bank0 a))
    | .w16 => s.word0 .data a

/-- `Write(loc, n, v)` (R140) in the order of a store: low byte, then high byte (R78 (c)). -/
def Loc.write (w : Width) (v : Word) (loc : Loc) (s : State) : State :=
  match loc with
  | .nowhere | .imm _ => s
  | .acc => s.setA w v
  | .mem24 ea => match w with
    | .w8 => s.storeByte ea (loByte v)
    | .w16 => (s.storeByte ea (loByte v)).storeByte (ea + 1) (hiByte v)
  | .mem0 a => match w with
    | .w8 => s.storeByte (bank0 a) (loByte v)
    | .w16 => (s.storeByte (bank0 a) (loByte v)).storeByte (bank0 (a + 1)) (hiByte v)

/-- `Write(loc, n, v)` in the order of a read-modify-write: high byte, then low byte (R78 (d), R250). -/
def Loc.writeBack (w : Width) (v : Word) (loc : Loc) (s : State) : State :=
  match loc with
  | .nowhere | .imm _ => s
  | .acc => s.setA w v
  | .mem24 ea => match w with
    | .w8 => s.storeByte ea (loByte v)
    | .w16 => (s.storeByte (ea + 1) (hiByte v)).storeByte ea (loByte v)
  | .mem0 a => match w with
    | .w8 => s.storeByte (bank0 a) (loByte v)
    | .w16 => (s.storeByte (bank0 (a + 1)) (hiByte v)).storeByte (bank0 a) (loByte v)

/-- The addresses of the pointer bytes an indirect mode reads, in ascending order (R152, R155 to R158, R171, R144, R147).
JML's third pointer byte is not among those of `(a)`. -/
def State.pointerAddrs (s : State) : Operand → List Addr
  | .dirInd off => [bank0 (dpAddr s off 0), bank0 (dpNext s off 0 1)]
  | .dirXInd off => [bank0 (dpAddr s off s.x), bank0 (dpNext s off s.x 1)]
  | .dirIndY off => [bank0 (dpAddr s off 0), bank0 (dpNext s off 0 1)]
  | .dirIndLong off => [bank0 (dpAddr s off 0), bank0 (dpAddr s off 0 + 1), bank0 (dpAddr s off 0 + 2)]
  | .dirIndLongY off => [bank0 (dpAddr s off 0), bank0 (dpAddr s off 0 + 1), bank0 (dpAddr s off 0 + 2)]
  | .stkIndY off => [bank0 (s.sp + zext8 off), bank0 (s.sp + zext8 off + 1)]
  | .absInd addr => [bank0 addr, bank0 (addr + 1)]
  | .absXInd addr => [bankAddr s.pbr (addr + s.x), bankAddr s.pbr (addr + s.x + 1)]
  | .implied | .acc | .stack0 | .stack1 _ | .stack2 _ | .imm _ | .rel _ | .relLong _ | .dir _ | .dirX _ | .dirY _
  | .stk _ | .abs _ | .absX _ | .absY _ | .long _ | .longX _ | .blockMove _ _ | .wdm _ => []

/-- The state whose PC is past an instruction with this operand (R113: `PC_next`). -/
def State.past (o : Operand) (s : State) : State := s.advance (1 + o.size)

/-! ## Control-transfer targets (R143, R144, R147, R172, R173) -/

/-- `r` (R173): `s` has PC past the instruction. -/
def relTarget (off : Byte) (s : State) : Word := s.pc + sext8 off

/-- `rl` (R172): `s` has PC past the instruction. -/
def relLongTarget (off : Word) (s : State) : Word := s.pc + off

/-- `(a,x)` (R144): the pointer is in the program bank; the sum stays in it. -/
def absXIndTarget (addr : Word) (s : State) : Word := s.wordPB (addr + s.x)

/-- `(a)` of JMP (R147): the pointer is in bank 0. -/
def absIndTarget (addr : Word) (s : State) : Word := s.word0 .pointer addr

/-- `(a)` of JML (R147): three pointer bytes in bank 0. -/
def absIndLongTarget (addr : Word) (s : State) : Addr := s.long0 addr

end Sys2Proof.Machine
end

