-- ==== Sys2Proof/Machine/Flags.lean ====
section
/-!
DEFINITION. Every flag computation: binary and decimal addition and subtraction (R211 to R214), comparison (R218), bit
test (R221), increment and decrement, shifts and rotates (R251 to R258). Operands of either width are carried
zero-extended in 16 bits; sums are taken as numbers and narrowed at the end.
-/

namespace Sys2Proof.Machine

/-! ## Binary addition (R211, R213) -/

/-- `a + m + P.C`, unbounded. -/
def addTotal (a m : Word) (carry : Bool) : Nat := a.toNat + m.toNat + carry.toNat

/-- `sum mod 2^w`. -/
def addValue (w : Width) (a m : Word) (carry : Bool) : Word := BitVec.ofNat 16 (addTotal a m carry % 2 ^ w.bits)

/-- `sum >= 2^w`. -/
def addCarry (w : Width) (a m : Word) (carry : Bool) : Bool := 2 ^ w.bits ≤ addTotal a m carry

/-- `msb((a xor r) and (m xor r), w)`. -/
def addOverflow (w : Width) (a m : Word) (carry : Bool) : Bool :=
  w.msb ((a ^^^ addValue w a m carry) &&& (m ^^^ addValue w a m carry))

/-- `(not m) mod 2^w` (R213). -/
def onesComplement (w : Width) (m : Word) : Word := w.trunc (~~~m)

/-- Binary ADC of `a` and `m` into the accumulator (R211); binary SBC is this with the complemented operand (R213). -/
def State.addBinary (w : Width) (a m : Word) (s : State) : State :=
  let carry := s.flag .c
  (((s.setA w (addValue w a m carry)).setFlag .c (addCarry w a m carry)).setFlag .v
    (addOverflow w a m carry)).setNZ w (addValue w a m carry)

/-! ## Packed BCD (R212, R214) -/

/-- The number of decimal digits of a width: `w/4`. -/
def Width.digits : Width → Nat
  | .w8 => 2
  | .w16 => 4

/-- Every one of the low `k` nibbles is 0 to 9. -/
def bcdValid : Nat → Nat → Bool
  | 0, _ => true
  | k + 1, v => (v % 16 ≤ 9) && bcdValid k (v / 16)

/-- `dec(x)` of `k` packed digits. -/
def bcdDecode : Nat → Nat → Nat
  | 0, _ => 0
  | k + 1, v => v % 16 + 10 * bcdDecode k (v / 16)

/-- `bcd(n)` in `k` packed digits. -/
def bcdEncode : Nat → Nat → Nat
  | 0, _ => 0
  | k + 1, n => n % 10 + 16 * bcdEncode k (n / 10)

/-- `dec(x)` at a width. -/
def decOf (w : Width) (v : Word) : Nat := bcdDecode w.digits v.toNat

/-- Both operands are packed BCD. -/
def bcdOperands (w : Width) (a m : Word) : Bool := bcdValid w.digits a.toNat && bcdValid w.digits m.toNat

/-- `dec(a) + dec(m) + P.C` (R212). -/
def decAddTotal (w : Width) (a m : Word) (carry : Bool) : Nat := decOf w a + decOf w m + carry.toNat

/-- `bcd(n mod 10^(w/4))` (R212). -/
def decAddValue (w : Width) (a m : Word) (carry : Bool) : Word :=
  BitVec.ofNat 16 (bcdEncode w.digits (decAddTotal w a m carry % 10 ^ w.digits))

/-- `n >= 10^(w/4)` (R212). -/
def decAddCarry (w : Width) (a m : Word) (carry : Bool) : Bool := 10 ^ w.digits ≤ decAddTotal w a m carry

/-- `dec(a) - dec(m) - (1 - P.C)` (R214). -/
def decSubTotal (w : Width) (a m : Word) (carry : Bool) : Int :=
  (decOf w a : Int) - (decOf w m : Int) - (1 - (carry.toNat : Int))

/-- `bcd(n mod 10^(w/4))` with the mathematical mod (R214). -/
def decSubValue (w : Width) (a m : Word) (carry : Bool) : Word :=
  BitVec.ofNat 16 (bcdEncode w.digits (decSubTotal w a m carry % ((10 ^ w.digits : Nat) : Int)).toNat)

/-- `n >= 0` (R214). -/
def decSubCarry (w : Width) (a m : Word) (carry : Bool) : Bool := 0 ≤ decSubTotal w a m carry

/-- The effect of a decimal ADC or SBC on BCD operands, given result and carry: V is DECIMAL_V, a free value (D11; log
entry 5). -/
def State.decimalResult (w : Width) (r : Word) (carry : Bool) (s : State) : State :=
  { (((s.setA w r).setFlag .c carry).setFlag .v (Config.decimalV s.draws)).setNZ w r with draws := s.draws + 1 }

/-- The effect of a decimal ADC or SBC when a nibble of an operand is above 9: the result and all four flags are
DECIMAL_INVALID, free values (D12; log entry 6). "The instruction never faults and always completes" (U4). -/
def State.decimalInvalid (w : Width) (s : State) : State :=
  { ((((s.setA w (Config.decimalInvalidResult s.draws)).setFlag .n (Config.decimalInvalidN s.draws)).setFlag .v
      (Config.decimalInvalidV s.draws)).setFlag .z (Config.decimalInvalidZ s.draws)).setFlag .c
      (Config.decimalInvalidC s.draws) with draws := s.draws + 1 }

/-- ADC of `a` and `m` (R211, R212). -/
def State.addWithCarry (w : Width) (a m : Word) (s : State) : State :=
  if s.flag .d then
    if bcdOperands w a m then
      s.decimalResult w (decAddValue w a m (s.flag .c)) (decAddCarry w a m (s.flag .c))
    else s.decimalInvalid w
  else s.addBinary w a m

/-- SBC of `m` from `a` (R213, R214). -/
def State.subWithBorrow (w : Width) (a m : Word) (s : State) : State :=
  if s.flag .d then
    if bcdOperands w a m then
      s.decimalResult w (decSubValue w a m (s.flag .c)) (decSubCarry w a m (s.flag .c))
    else s.decimalInvalid w
  else s.addBinary w a (onesComplement w m)

/-! ## Compare and bit test (R218 to R221) -/

/-- Compare a register with an operand: C = (r >= m) unsigned, N and Z from the difference; binary whatever P.D is. -/
def State.compare (w : Width) (r m : Word) (s : State) : State :=
  (s.setFlag .c (m.toNat ≤ r.toNat)).setNZ w (w.trunc (r - m))

/-- BIT: Z = ((a and m) = 0) (R221); the part every form has. -/
def State.bitZ (a m : Word) (s : State) : State := s.setFlag .z ((a &&& m) == 0)

/-- BIT with a memory operand: N and V are its two top bits (R221). -/
def State.bitNV (w : Width) (m : Word) (s : State) : State := (s.setFlag .n (w.msb m)).setFlag .v (w.nextMsb m)

/-! ## Increment and decrement (R222 to R229) -/

/-- `(v + 1) mod 2^w`. -/
def incValue (w : Width) (v : Word) : Word := w.trunc (v + 1)

/-- `(v - 1) mod 2^w`. -/
def decValue (w : Width) (v : Word) : Word := w.trunc (v - 1)

/-! ## Shifts and rotates (R251 to R258) -/

/-- `(v * 2) mod 2^w`. -/
def aslValue (w : Width) (v : Word) : Word := w.trunc (v <<< 1)

/-- `v div 2`. -/
def lsrValue (v : Word) : Word := v >>> 1

/-- `((v * 2) mod 2^w) or c`. -/
def rolValue (w : Width) (v : Word) (carry : Bool) : Word := aslValue w v ||| (if carry then 0x0001 else 0x0000)

/-- `2^(w-1)`. -/
def Width.msbMask : Width → Word
  | .w8 => 0x0080
  | .w16 => 0x8000

/-- `(v div 2) or (c * 2^(w-1))`. -/
def rorValue (w : Width) (v : Word) (carry : Bool) : Word := lsrValue v ||| (if carry then w.msbMask else 0x0000)

/-- The flags of a shift or rotate: C is the bit shifted out, N and Z come from the result. -/
def State.shiftFlags (w : Width) (out : Bool) (r : Word) (s : State) : State := (s.setFlag .c out).setNZ w r

end Sys2Proof.Machine
end

