-- ==== Sys2Proof/Machine/Branch.lean ====
section
/-!
DEFINITION. Branches, jumps, subroutine calls and returns (44_branch_jump.md, R280 to R301).
-/

namespace Sys2Proof.Machine

/-- `Branch(cond)` (R280): PC past the two bytes, then the signed offset if the condition holds. -/
def State.branch (cond : Bool) (off : Byte) (s : State) : State :=
  let t := s.past (.rel off)
  if cond then { t with pc := relTarget off t } else t

/-- BRL (R290). -/
def State.branchLong (off : Word) (s : State) : State :=
  let t := s.past (.relLong off)
  { t with pc := relLongTarget off t }

/-- JSR a (R297): the address of the instruction's last byte is pushed, ordinary pushes. -/
def State.callAbs (addr : Word) (s : State) : State :=
  let t := s.advance 2
  { t.push16 t.pc with pc := addr }

/-- JSR (a,x) (R298): the return address is pushed before the high operand byte is fetched; wide pushes. -/
def State.callAbsXInd (addr : Word) (s : State) : State :=
  let t := s.advance 2
  let u := t.push16w t.pc
  let high := lateOperandByte t u (bankAddr t.pbr t.pc) (hiByte addr)
  ({ u with pc := absXIndTarget (wordOfBytes (loByte addr) high) u }).restoreSH

/-- JSL (R299): PBR is pushed before the bank byte is fetched, then the address of the last byte; wide pushes. -/
def State.callLong (addr : Addr) (s : State) : State :=
  let t := s.advance 3
  let u := t.push8w t.pbr
  let bank := lateOperandByte t u (bankAddr t.pbr t.pc) (addrBank addr)
  ({ u.push16w u.pc with pbr := bank, pc := addrOffset addr }).restoreSH

/-- RTS (R300): ordinary pull, plus one within the bank. -/
def State.returnShort (s : State) : State := { s.pull16.2 with pc := s.pull16.1 + 1 }

/-- RTL (R301): wide pull; the increment does not carry into the bank. -/
def State.returnLong (s : State) : State :=
  ({ s.pull24w.2 with pc := addrOffset s.pull24w.1 + 1, pbr := addrBank s.pull24w.1 }).restoreSH

/-- BCC `r`, opcode 90 (R281, mode R173). -/
def execBcc (off : Byte) (s : State) : Result := .next (s.branch (!s.flag .c) off)

/-- BCS `r`, opcode B0 (R282, mode R173). -/
def execBcs (off : Byte) (s : State) : Result := .next (s.branch (s.flag .c) off)

/-- BEQ `r`, opcode F0 (R283, mode R173). -/
def execBeq (off : Byte) (s : State) : Result := .next (s.branch (s.flag .z) off)

/-- BMI `r`, opcode 30 (R284, mode R173). -/
def execBmi (off : Byte) (s : State) : Result := .next (s.branch (s.flag .n) off)

/-- BNE `r`, opcode D0 (R285, mode R173). -/
def execBne (off : Byte) (s : State) : Result := .next (s.branch (!s.flag .z) off)

/-- BPL `r`, opcode 10 (R286, mode R173). -/
def execBpl (off : Byte) (s : State) : Result := .next (s.branch (!s.flag .n) off)

/-- BVC `r`, opcode 50 (R287, mode R173). -/
def execBvc (off : Byte) (s : State) : Result := .next (s.branch (!s.flag .v) off)

/-- BVS `r`, opcode 70 (R288, mode R173). -/
def execBvs (off : Byte) (s : State) : Result := .next (s.branch (s.flag .v) off)

/-- BRA `r`, opcode 80 (R289, mode R173). -/
def execBra (off : Byte) (s : State) : Result := .next (s.branch true off)

/-- BRL `rl`, opcode 82 (R290, mode R172). -/
def execBrl (off : Word) (s : State) : Result := .next (s.branchLong off)

/-- JMP `a`, opcode 4C (R291, mode R143). -/
def execJmpAbs (addr : Word) (s : State) : Result := .next { s with pc := addr }

/-- JMP `al`, opcode 5C (R292, mode R149). -/
def execJmpLong (addr : Addr) (s : State) : Result := .next { s with pc := addrOffset addr, pbr := addrBank addr }

/-- JMP `(a)`, opcode 6C (R294, mode R147). -/
def execJmpAbsInd (addr : Word) (s : State) : Result := .next { s with pc := absIndTarget addr s }

/-- JMP `(a,x)`, opcode 7C (R293, mode R144). -/
def execJmpAbsXInd (addr : Word) (s : State) : Result := .next { s with pc := absXIndTarget addr s }

/-- JML `(a)`, opcode DC (R296, mode R147). -/
def execJml (addr : Word) (s : State) : Result := .next { s with pc := addrOffset (absIndLongTarget addr s), pbr := addrBank (absIndLongTarget addr s) }

/-- JSR `a`, opcode 20 (R297, mode R143). -/
def execJsrAbs (addr : Word) (s : State) : Result := .next (s.callAbs addr)

/-- JSR `(a,x)`, opcode FC (R298, mode R144). -/
def execJsrAbsXInd (addr : Word) (s : State) : Result := .next (s.callAbsXInd addr)

/-- JSL `al`, opcode 22 (R299, mode R149). -/
def execJsl (addr : Addr) (s : State) : Result := .next (s.callLong addr)

/-- RTS `s`, opcode 60 (R300, mode R169). -/
def execRts (s : State) : Result := .next (s.returnShort)

/-- RTL `s`, opcode 6B (R301, mode R169). -/
def execRtl (s : State) : Result := .next (s.returnLong)

end Sys2Proof.Machine
end

