-- ==== Sys2Proof/Machine/Stack.lean ====
section
/-!
DEFINITION. Push, pull and push effective address (45_stack.md, R320 to R336).
-/

namespace Sys2Proof.Machine

/-- A push of one byte after the instruction's one byte (R322, R324, R325). -/
def State.pushByte (v : Byte) (s : State) : State := (s.past .stack0).push8 v

/-- A push of a register at a width (R321, R326, R327). -/
def State.pushReg (w : Width) (v : Word) (s : State) : State := (s.past .stack0).pushAt w v

/-- A wide push of 16 bits after an instruction with operand `o`, then SH back to 01 if E = 1 (R320 (d)). -/
def State.pushWide (o : Operand) (v : Word) (s : State) : State := ((s.past o).push16w v).restoreSH

/-- PLA (R328). -/
def State.pullA (s : State) : State :=
  let t := (s.past .stack0).pullAt s.wA
  (t.2.setA s.wA t.1).setNZ s.wA t.1

/-- PLX (R332). -/
def State.pullX (s : State) : State :=
  let t := (s.past .stack0).pullAt s.wX
  (t.2.setX s.wX t.1).setNZ s.wX t.1

/-- PLY (R333). -/
def State.pullY (s : State) : State :=
  let t := (s.past .stack0).pullAt s.wX
  (t.2.setY s.wX t.1).setNZ s.wX t.1

/-- PLB (R329): 8 bits. -/
def State.pullB (s : State) : State :=
  let t := (s.past .stack0).pull8
  ({ t.2 with dbr := t.1 }).setNZ .w8 (zext8 t.1)

/-- PLD (R330): 16 bits, wide pull. -/
def State.pullD (s : State) : State :=
  let t := (s.past .stack0).pull16w
  (({ t.2 with d := t.1 }).setNZ .w16 t.1).restoreSH

/-- PLP (R331). -/
def State.pullP (s : State) : State :=
  let t := (s.past .stack0).pull8
  t.2.loadP t.1

/-- The word PEI pushes (R335): at the direct address, a non-wrapping object. -/
def State.peiWord (off : Byte) (s : State) : Word := s.word0 .data (dpAddr s off 0)

/-- PHA `s`, opcode 48 (R321, mode R169). -/
def execPha (s : State) : Result := .next (s.pushReg s.wA s.c)

/-- PHB `s`, opcode 8B (R322, mode R169). -/
def execPhb (s : State) : Result := .next (s.pushByte s.dbr)

/-- PHD `s`, opcode 0B (R323, mode R169). -/
def execPhd (s : State) : Result := .next (s.pushWide .stack0 s.d)

/-- PHK `s`, opcode 4B (R324, mode R169). -/
def execPhk (s : State) : Result := .next (s.pushByte s.pbr)

/-- PHP `s`, opcode 08 (R325, mode R169). -/
def execPhp (s : State) : Result := .next (s.pushByte s.p)

/-- PHX `s`, opcode DA (R326, mode R169). -/
def execPhx (s : State) : Result := .next (s.pushReg s.wX s.x)

/-- PHY `s`, opcode 5A (R327, mode R169). -/
def execPhy (s : State) : Result := .next (s.pushReg s.wX s.y)

/-- PLA `s`, opcode 68 (R328, mode R169). -/
def execPla (s : State) : Result := .next (s.pullA)

/-- PLB `s`, opcode AB (R329, mode R169). -/
def execPlb (s : State) : Result := .next (s.pullB)

/-- PLD `s`, opcode 2B (R330, mode R169). -/
def execPld (s : State) : Result := .next (s.pullD)

/-- PLP `s`, opcode 28 (R331, mode R169). -/
def execPlp (s : State) : Result := .next (s.pullP)

/-- PLX `s`, opcode FA (R332, mode R169). -/
def execPlx (s : State) : Result := .next (s.pullX)

/-- PLY `s`, opcode 7A (R333, mode R169). -/
def execPly (s : State) : Result := .next (s.pullY)

/-- PEA `s`, opcode F4 (R334, mode R169). -/
def execPea (v : Word) (s : State) : Result := .next (s.pushWide (.stack2 v) v)

/-- PEI `s`, opcode D4 (R335, mode R169). -/
def execPei (off : Byte) (s : State) : Result := .next (s.pushWide (.stack1 off) (s.peiWord off))

/-- PER `s`, opcode 62 (R336, mode R169). -/
def execPer (off : Word) (s : State) : Result := .next (s.pushWide (.stack2 off) (relLongTarget off (s.past (.stack2 off))))

end Sys2Proof.Machine
end

