-- ==== Sys2Proof/Machine/Bus.lean ====
section
/-!
DEFINITION. The bus: the qualified accesses of each instruction and interrupt sequence, in order, with the status outputs of
their cycles (R55, R78, R82, R88, R90). Internal-operation cycles are no accesses (D8) and are not listed. The list is a
function of instruction and state, not a field of State (log entry 31).
-/

namespace Sys2Proof.Machine

/-- What the VDA, VPA and VPB outputs say of a qualified cycle (R55, R532). -/
inductive AccessKind where
  /-- VDA = VPA = 1: opcode fetch. -/
  | opcode
  /-- VDA = 0, VPA = 1: operand byte of the instruction. -/
  | program
  /-- VDA = 1, VPA = 0: data, pointer or stack byte. -/
  | data
  /-- VDA = 1, VPA = 0, VPB low: vector byte (R457). -/
  | vector
deriving DecidableEq, Repr

/-- One qualified bus cycle: one byte (R70). -/
structure BusAccess where
  kind : AccessKind
  addr : Addr
  data : Byte
  /-- RWB low. -/
  write : Bool
  /-- MLB low (R88). -/
  locked : Bool
deriving DecidableEq, Repr

/-- The VDA output in a cycle. -/
def BusAccess.vda (b : BusAccess) : Bool := b.kind != .program

/-- The VPA output in a cycle. -/
def BusAccess.vpa (b : BusAccess) : Bool := b.kind == .opcode || b.kind == .program

/-- The VPB output in a cycle: low (false) for a vector byte (R457). -/
def BusAccess.vpb (b : BusAccess) : Bool := b.kind != .vector

/-- The RWB output in a cycle: high (true) for a read. -/
def BusAccess.rwb (b : BusAccess) : Bool := !b.write

/-- The MLB output in a cycle: low (false) while the bus is locked. -/
def BusAccess.mlb (b : BusAccess) : Bool := !b.locked

/-! ## Building blocks -/

/-- A read of a pointer, operand or pulled byte: VDA = 1, VPA = 0 whichever it is. -/
def readCycle (kind : ReadKind) (s : State) (a : Addr) : BusAccess := ⟨.data, a, s.read kind a, false, false⟩

/-- A data write. -/
def writeCycle (a : Addr) (v : Byte) : BusAccess := ⟨.data, a, v, true, false⟩

/-- The same cycle with MLB low. -/
def BusAccess.lock (b : BusAccess) : BusAccess := { b with locked := true }

/-- Operand bytes fetched from `PBR:(PC + k)` on, in ascending order (R78 (a)). -/
def operandCycles (s : State) : Nat → List Byte → List BusAccess
  | _, [] => []
  | k, b :: rest => ⟨.program, bankAddr s.pbr (s.pc + BitVec.ofNat 16 k), b, false, false⟩ :: operandCycles s (k + 1) rest

/-- The opcode fetch. -/
def opcodeCycle (i : Instr) (s : State) : BusAccess := ⟨.opcode, bankAddr s.pbr s.pc, i.opcode, false, false⟩

/-- The fetch of a whole instruction. -/
def fetchCycles (i : Instr) (s : State) : List BusAccess := opcodeCycle i s :: operandCycles s 1 i.operand.bytes

/-- The pointer bytes of an indirect mode (R78 (g)). -/
def pointerCycles (o : Operand) (s : State) : List BusAccess := (s.pointerAddrs o).map (readCycle .pointer s)

/-- An operand read, low byte first (R78 (b)). -/
def Loc.readCycles (w : Width) (s : State) (loc : Loc) : List BusAccess := (loc.addrs w).map (readCycle .data s)

/-- An operand store, low byte first (R78 (c)). -/
def Loc.writeCycles (w : Width) (v : Word) (loc : Loc) : List BusAccess :=
  List.zipWith writeCycle (loc.addrs w) [loByte v, hiByte v]

/-- A read-modify-write (R78 (d), R88): read low, read high, write high, write low, MLB low throughout. -/
def Loc.rmwCycles (w : Width) (s : State) (r : Word) (loc : Loc) : List BusAccess :=
  (loc.readCycles w s ++ (loc.writeCycles w r).reverse).map BusAccess.lock

/-- Ordinary pushes of the bytes given, first byte first (R78 (e)). -/
def pushCycles : List Byte → State → List BusAccess
  | [], _ => []
  | v :: rest, s => writeCycle (bank0 s.sp) v :: pushCycles rest { s with sp := s.spDown }

/-- Wide pushes. -/
def widePushCycles : List Byte → Word → List BusAccess
  | [], _ => []
  | v :: rest, sp => writeCycle (bank0 sp) v :: widePushCycles rest (sp - 1)

/-- Ordinary pulls of `n` bytes (R78 (f)). -/
def pullCycles : Nat → State → List BusAccess
  | 0, _ => []
  | n + 1, s => readCycle .data s (bank0 s.spUp) :: pullCycles n { s with sp := s.spUp }

/-- Wide pulls of `n` bytes. -/
def widePullCycles (s : State) : Nat → Word → List BusAccess
  | 0, _ => []
  | n + 1, sp => readCycle .data s (bank0 (sp + 1)) :: widePullCycles s n (sp + 1)

/-- The bytes a push of a register at a width writes, in order: high byte first. -/
def Width.pushBytes (w : Width) (v : Word) : List Byte :=
  match w with
  | .w8 => [loByte v]
  | .w16 => [hiByte v, loByte v]

/-- A vector read, low then high (R78 (h)), in the state after the pushes. -/
def vectorCycles (s : State) (va : Word) : List BusAccess :=
  [⟨.vector, bank0 va, s.read .vector (bank0 va), false, false⟩,
   ⟨.vector, bank0 (va + 1), s.read .vector (bank0 (va + 1)), false, false⟩]

/-- The bytes of an interrupt frame in the order they are pushed (R450). -/
def frameBytes (kind : InterruptKind) (bank : Byte) (ret : Word) (s : State) : List Byte :=
  (if s.e then [] else [bank]) ++ [hiByte ret, loByte ret, kind.pImage s.e s.p]

/-- The accesses of an interrupt sequence (R450, entry 22a). -/
def interruptCycles (kind : InterruptKind) (bank : Byte) (ret : Word) (s : State) : List BusAccess :=
  pushCycles (frameBytes kind bank ret s) s ++ vectorCycles (s.pushFrame kind bank ret) (kind.vector s.e)

/-- The accesses of the reset sequence: the vector only, "RWB remains in the high state during the stack address cycles"
(R502). -/
def resetCycles (s : State) : List BusAccess := vectorCycles s resetVector

/-! ## Each instruction -/

/-- The value a read-modify-write writes back (R223, R225, R252 to R263). -/
def rmwValue (mn : Mnemonic) (s : State) (m : Word) : Word :=
  match mn with
  | .INC => incValue s.wA m
  | .DEC => decValue s.wA m
  | .ASL => aslValue s.wA m
  | .LSR => lsrValue m
  | .ROL => rolValue s.wA m (s.flag .c)
  | .ROR => rorValue s.wA m (s.flag .c)
  | .TSB => m ||| s.getA s.wA
  | .TRB => m &&& ~~~(s.getA s.wA)
  | _ => m

/-- The accesses after the fetch, for every instruction that fetches all its bytes first. -/
def dataCycles (i : Instr) (s : State) : List BusAccess :=
  let o := i.operand
  let loc := s.locate o
  match i.mnemonic with
  | .ADC | .SBC | .AND | .ORA | .EOR | .CMP | .BIT | .LDA => pointerCycles o s ++ loc.readCycles s.wA s
  | .CPX | .CPY | .LDX | .LDY => loc.readCycles s.wX s
  | .STA => pointerCycles o s ++ loc.writeCycles s.wA s.c
  | .STX => loc.writeCycles s.wX s.x
  | .STY => loc.writeCycles s.wX s.y
  | .STZ => loc.writeCycles s.wA 0x0000
  | .INC | .DEC | .ASL | .LSR | .ROL | .ROR | .TSB | .TRB =>
    loc.rmwCycles s.wA s (rmwValue i.mnemonic s (loc.read s.wA s))
  | .JMP => pointerCycles o s
  | .JML => (pointerCycles o s) ++ (match o with
    | .absInd addr => [readCycle .pointer s (bank0 (addr + 2))]
    | _ => [])
  | .JSR => pushCycles [hiByte (s.advance 2).pc, loByte (s.advance 2).pc] s
  | .RTS => pullCycles 2 s
  | .RTL => widePullCycles s 3 s.sp
  | .RTI => pullCycles (if s.e then 3 else 4) s
  | .PHA => pushCycles (s.wA.pushBytes s.c) s
  | .PHX => pushCycles (s.wX.pushBytes s.x) s
  | .PHY => pushCycles (s.wX.pushBytes s.y) s
  | .PHB => pushCycles [s.dbr] s
  | .PHK => pushCycles [s.pbr] s
  | .PHP => pushCycles [s.p] s
  | .PHD => widePushCycles [hiByte s.d, loByte s.d] s.sp
  | .PLA => pullCycles s.wA.bytes s
  | .PLX | .PLY => pullCycles s.wX.bytes s
  | .PLB | .PLP => pullCycles 1 s
  | .PLD => widePullCycles s 2 s.sp
  | .PEA => match o with
    | .stack2 v => widePushCycles [hiByte v, loByte v] s.sp
    | _ => []
  | .PEI => match o with
    | .stack1 off =>
      [readCycle .data s (bank0 (dpAddr s off 0)), readCycle .data s (bank0 (dpAddr s off 0 + 1))] ++
        widePushCycles [hiByte (s.peiWord off), loByte (s.peiWord off)] s.sp
    | _ => []
  | .PER => match o with
    | .stack2 off =>
      let r := relLongTarget off (s.past o)
      widePushCycles [hiByte r, loByte r] s.sp
    | _ => []
  | .BRK => interruptCycles .brk (s.past o).pbr (s.past o).pc s
  | .COP => interruptCycles .cop (s.past o).pbr (s.past o).pc s
  | .MVN | .MVP => match o with
    | .blockMove dst src =>
      [readCycle .data s (bankAddr src s.x), writeCycle (bankAddr dst s.y) (s.read .data (bankAddr src s.x))]
    | _ => []
  | .BCC | .BCS | .BEQ | .BMI | .BNE | .BPL | .BRA | .BRL | .BVC | .BVS | .CLC | .CLD | .CLI | .CLV | .DEX | .DEY | .INX
  | .INY | .JSL | .NOP | .REP | .SEC | .SED | .SEI | .SEP | .STP | .TAX | .TAY | .TCD | .TCS | .TDC | .TSC | .TSX | .TXA
  | .TXS | .TXY | .TYA | .TYX | .WAI | .WDM | .XBA | .XCE => []

/-- The qualified accesses of an instruction in a state, in order. JSR (a,x) and JSL push before they fetch their last
operand byte (R298, R299); every other instruction fetches first. -/
def busAccesses (i : Instr) (s : State) : List BusAccess :=
  match i with
  | .jsrAbsXInd addr =>
    let t := s.advance 2
    let u := t.push16w t.pc
    let a := bankAddr t.pbr t.pc
    let high := lateOperandByte t u a (hiByte addr)
    opcodeCycle i s :: operandCycles s 1 [loByte addr] ++ widePushCycles [hiByte t.pc, loByte t.pc] s.sp ++
      [⟨.program, a, high, false, false⟩] ++
      [readCycle .pointer u (bankAddr u.pbr (wordOfBytes (loByte addr) high + u.x)),
       readCycle .pointer u (bankAddr u.pbr (wordOfBytes (loByte addr) high + u.x + 1))]
  | .jsl addr =>
    let t := s.advance 3
    let u := t.push8w t.pbr
    let a := bankAddr t.pbr t.pc
    opcodeCycle i s :: operandCycles s 1 [loByte (addrOffset addr), hiByte (addrOffset addr)] ++
      widePushCycles [s.pbr] s.sp ++ [⟨.program, a, lateOperandByte t u a (addrBank addr), false, false⟩] ++
      widePushCycles [hiByte t.pc, loByte t.pc] (s.sp - 1)
  | i => fetchCycles i s ++ dataCycles i s

/-! ## Replaying writes -/

/-- Memory after the writes of a list of accesses, in order. -/
def replayWrites : List BusAccess → Memory → Memory
  | [], m => m
  | b :: rest, m => replayWrites rest (if b.write then m.write b.addr.toNat b.data else m)

/-- Memory after those writes of a list that `done` lets happen, counted from `j`: an instruction cut by a reset leaves
"each memory write the cut instruction had still to do ... independently done or not done" (U15). -/
def replayCut (done : Nat → Bool) : Nat → List BusAccess → Memory → Memory
  | _, [], m => m
  | j, b :: rest, m => replayCut done (j + 1) rest (if b.write && done j then m.write b.addr.toNat b.data else m)

end Sys2Proof.Machine
end

