-- ==== Sys2Proof/Machine/Arithmetic.lean ====
section
/-!
DEFINITION. Arithmetic, logic, compare, bit test, increment and decrement (42_arithmetic_logic.md, R210 to R229): the shared
operations and one meaning per row of the table.
-/

namespace Sys2Proof.Machine

/-- ADC (R211, R212). -/
def State.adc (o : Operand) (s : State) : State :=
  (s.past o).addWithCarry s.wA (s.getA s.wA) ((s.locate o).read s.wA s)

/-- SBC (R213, R214). -/
def State.sbc (o : Operand) (s : State) : State :=
  (s.past o).subWithBorrow s.wA (s.getA s.wA) ((s.locate o).read s.wA s)

/-- The three logic instructions: a bitwise function of accumulator and operand into the accumulator, N and Z. -/
def State.logic (f : Word → Word → Word) (o : Operand) (s : State) : State :=
  let r := f (s.getA s.wA) ((s.locate o).read s.wA s)
  ((s.past o).setA s.wA r).setNZ s.wA r

/-- AND (R215). -/
def State.and (o : Operand) (s : State) : State := s.logic (· &&& ·) o

/-- ORA (R216). -/
def State.ora (o : Operand) (s : State) : State := s.logic (· ||| ·) o

/-- EOR (R217). -/
def State.eor (o : Operand) (s : State) : State := s.logic (· ^^^ ·) o

/-- CMP (R218). -/
def State.cmp (o : Operand) (s : State) : State :=
  (s.past o).compare s.wA (s.getA s.wA) ((s.locate o).read s.wA s)

/-- CPX (R219). -/
def State.cpx (o : Operand) (s : State) : State :=
  (s.past o).compare s.wX (s.wX.trunc s.x) ((s.locate o).read s.wX s)

/-- CPY (R220). -/
def State.cpy (o : Operand) (s : State) : State :=
  (s.past o).compare s.wX (s.wX.trunc s.y) ((s.locate o).read s.wX s)

/-- BIT with a memory operand (R221): Z, and N and V from the operand. -/
def State.bitMemory (o : Operand) (s : State) : State :=
  let m := (s.locate o).read s.wA s
  ((s.past o).bitZ (s.getA s.wA) m).bitNV s.wA m

/-- BIT # (R221): "Bit immediate N and V flags not affected". -/
def State.bitImmediate (o : Operand) (s : State) : State :=
  (s.past o).bitZ (s.getA s.wA) ((s.locate o).read s.wA s)

/-- INC (R222, R223). -/
def State.inc (o : Operand) (s : State) : State :=
  let r := incValue s.wA ((s.locate o).read s.wA s)
  (s.locate o).writeBack s.wA r ((s.past o).setNZ s.wA r)

/-- DEC (R224, R225). -/
def State.dec (o : Operand) (s : State) : State :=
  let r := decValue s.wA ((s.locate o).read s.wA s)
  (s.locate o).writeBack s.wA r ((s.past o).setNZ s.wA r)

/-- INX and DEX (R226, R228): `f` is the new value from the old one. -/
def State.stepX (f : Width → Word → Word) (s : State) : State :=
  ((s.past .implied).setX s.wX (f s.wX s.x)).setNZ s.wX (f s.wX s.x)

/-- INY and DEY (R227, R229). -/
def State.stepY (f : Width → Word → Word) (s : State) : State :=
  ((s.past .implied).setY s.wX (f s.wX s.y)).setNZ s.wX (f s.wX s.y)

/-- ADC `(d,x)`, opcode 61 (R211, mode R152). -/
def execAdcDirXInd (off : Byte) (s : State) : Result := .next (s.adc (.dirXInd off))

/-- ADC `d,s`, opcode 63 (R211, mode R170). -/
def execAdcStk (off : Byte) (s : State) : Result := .next (s.adc (.stk off))

/-- ADC `d`, opcode 65 (R211, mode R159). -/
def execAdcDir (off : Byte) (s : State) : Result := .next (s.adc (.dir off))

/-- ADC `[d]`, opcode 67 (R211, mode R157). -/
def execAdcDirIndLong (off : Byte) (s : State) : Result := .next (s.adc (.dirIndLong off))

/-- ADC `#`, opcode 69 (R211, mode R162). -/
def execAdcImm (v : Imm) (s : State) : Result := .next (s.adc (.imm v))

/-- ADC `a`, opcode 6D (R211, mode R142). -/
def execAdcAbs (addr : Word) (s : State) : Result := .next (s.adc (.abs addr))

/-- ADC `al`, opcode 6F (R211, mode R149). -/
def execAdcLong (addr : Addr) (s : State) : Result := .next (s.adc (.long addr))

/-- ADC `(d),y`, opcode 71 (R211, mode R155). -/
def execAdcDirIndY (off : Byte) (s : State) : Result := .next (s.adc (.dirIndY off))

/-- ADC `(d)`, opcode 72 (R211, mode R158). -/
def execAdcDirInd (off : Byte) (s : State) : Result := .next (s.adc (.dirInd off))

/-- ADC `(d,s),y`, opcode 73 (R211, mode R171). -/
def execAdcStkIndY (off : Byte) (s : State) : Result := .next (s.adc (.stkIndY off))

/-- ADC `d,x`, opcode 75 (R211, mode R153). -/
def execAdcDirX (off : Byte) (s : State) : Result := .next (s.adc (.dirX off))

/-- ADC `[d],y`, opcode 77 (R211, mode R156). -/
def execAdcDirIndLongY (off : Byte) (s : State) : Result := .next (s.adc (.dirIndLongY off))

/-- ADC `a,y`, opcode 79 (R211, mode R146). -/
def execAdcAbsY (addr : Word) (s : State) : Result := .next (s.adc (.absY addr))

/-- ADC `a,x`, opcode 7D (R211, mode R145). -/
def execAdcAbsX (addr : Word) (s : State) : Result := .next (s.adc (.absX addr))

/-- ADC `al,x`, opcode 7F (R211, mode R148). -/
def execAdcLongX (addr : Addr) (s : State) : Result := .next (s.adc (.longX addr))

/-- SBC `(d,x)`, opcode E1 (R213, mode R152). -/
def execSbcDirXInd (off : Byte) (s : State) : Result := .next (s.sbc (.dirXInd off))

/-- SBC `d,s`, opcode E3 (R213, mode R170). -/
def execSbcStk (off : Byte) (s : State) : Result := .next (s.sbc (.stk off))

/-- SBC `d`, opcode E5 (R213, mode R159). -/
def execSbcDir (off : Byte) (s : State) : Result := .next (s.sbc (.dir off))

/-- SBC `[d]`, opcode E7 (R213, mode R157). -/
def execSbcDirIndLong (off : Byte) (s : State) : Result := .next (s.sbc (.dirIndLong off))

/-- SBC `#`, opcode E9 (R213, mode R162). -/
def execSbcImm (v : Imm) (s : State) : Result := .next (s.sbc (.imm v))

/-- SBC `a`, opcode ED (R213, mode R142). -/
def execSbcAbs (addr : Word) (s : State) : Result := .next (s.sbc (.abs addr))

/-- SBC `al`, opcode EF (R213, mode R149). -/
def execSbcLong (addr : Addr) (s : State) : Result := .next (s.sbc (.long addr))

/-- SBC `(d),y`, opcode F1 (R213, mode R155). -/
def execSbcDirIndY (off : Byte) (s : State) : Result := .next (s.sbc (.dirIndY off))

/-- SBC `(d)`, opcode F2 (R213, mode R158). -/
def execSbcDirInd (off : Byte) (s : State) : Result := .next (s.sbc (.dirInd off))

/-- SBC `(d,s),y`, opcode F3 (R213, mode R171). -/
def execSbcStkIndY (off : Byte) (s : State) : Result := .next (s.sbc (.stkIndY off))

/-- SBC `d,x`, opcode F5 (R213, mode R153). -/
def execSbcDirX (off : Byte) (s : State) : Result := .next (s.sbc (.dirX off))

/-- SBC `[d],y`, opcode F7 (R213, mode R156). -/
def execSbcDirIndLongY (off : Byte) (s : State) : Result := .next (s.sbc (.dirIndLongY off))

/-- SBC `a,y`, opcode F9 (R213, mode R146). -/
def execSbcAbsY (addr : Word) (s : State) : Result := .next (s.sbc (.absY addr))

/-- SBC `a,x`, opcode FD (R213, mode R145). -/
def execSbcAbsX (addr : Word) (s : State) : Result := .next (s.sbc (.absX addr))

/-- SBC `al,x`, opcode FF (R213, mode R148). -/
def execSbcLongX (addr : Addr) (s : State) : Result := .next (s.sbc (.longX addr))

/-- AND `(d,x)`, opcode 21 (R215, mode R152). -/
def execAndDirXInd (off : Byte) (s : State) : Result := .next (s.and (.dirXInd off))

/-- AND `d,s`, opcode 23 (R215, mode R170). -/
def execAndStk (off : Byte) (s : State) : Result := .next (s.and (.stk off))

/-- AND `d`, opcode 25 (R215, mode R159). -/
def execAndDir (off : Byte) (s : State) : Result := .next (s.and (.dir off))

/-- AND `[d]`, opcode 27 (R215, mode R157). -/
def execAndDirIndLong (off : Byte) (s : State) : Result := .next (s.and (.dirIndLong off))

/-- AND `#`, opcode 29 (R215, mode R162). -/
def execAndImm (v : Imm) (s : State) : Result := .next (s.and (.imm v))

/-- AND `a`, opcode 2D (R215, mode R142). -/
def execAndAbs (addr : Word) (s : State) : Result := .next (s.and (.abs addr))

/-- AND `al`, opcode 2F (R215, mode R149). -/
def execAndLong (addr : Addr) (s : State) : Result := .next (s.and (.long addr))

/-- AND `(d),y`, opcode 31 (R215, mode R155). -/
def execAndDirIndY (off : Byte) (s : State) : Result := .next (s.and (.dirIndY off))

/-- AND `(d)`, opcode 32 (R215, mode R158). -/
def execAndDirInd (off : Byte) (s : State) : Result := .next (s.and (.dirInd off))

/-- AND `(d,s),y`, opcode 33 (R215, mode R171). -/
def execAndStkIndY (off : Byte) (s : State) : Result := .next (s.and (.stkIndY off))

/-- AND `d,x`, opcode 35 (R215, mode R153). -/
def execAndDirX (off : Byte) (s : State) : Result := .next (s.and (.dirX off))

/-- AND `[d],y`, opcode 37 (R215, mode R156). -/
def execAndDirIndLongY (off : Byte) (s : State) : Result := .next (s.and (.dirIndLongY off))

/-- AND `a,y`, opcode 39 (R215, mode R146). -/
def execAndAbsY (addr : Word) (s : State) : Result := .next (s.and (.absY addr))

/-- AND `a,x`, opcode 3D (R215, mode R145). -/
def execAndAbsX (addr : Word) (s : State) : Result := .next (s.and (.absX addr))

/-- AND `al,x`, opcode 3F (R215, mode R148). -/
def execAndLongX (addr : Addr) (s : State) : Result := .next (s.and (.longX addr))

/-- ORA `(d,x)`, opcode 01 (R216, mode R152). -/
def execOraDirXInd (off : Byte) (s : State) : Result := .next (s.ora (.dirXInd off))

/-- ORA `d,s`, opcode 03 (R216, mode R170). -/
def execOraStk (off : Byte) (s : State) : Result := .next (s.ora (.stk off))

/-- ORA `d`, opcode 05 (R216, mode R159). -/
def execOraDir (off : Byte) (s : State) : Result := .next (s.ora (.dir off))

/-- ORA `[d]`, opcode 07 (R216, mode R157). -/
def execOraDirIndLong (off : Byte) (s : State) : Result := .next (s.ora (.dirIndLong off))

/-- ORA `#`, opcode 09 (R216, mode R162). -/
def execOraImm (v : Imm) (s : State) : Result := .next (s.ora (.imm v))

/-- ORA `a`, opcode 0D (R216, mode R142). -/
def execOraAbs (addr : Word) (s : State) : Result := .next (s.ora (.abs addr))

/-- ORA `al`, opcode 0F (R216, mode R149). -/
def execOraLong (addr : Addr) (s : State) : Result := .next (s.ora (.long addr))

/-- ORA `(d),y`, opcode 11 (R216, mode R155). -/
def execOraDirIndY (off : Byte) (s : State) : Result := .next (s.ora (.dirIndY off))

/-- ORA `(d)`, opcode 12 (R216, mode R158). -/
def execOraDirInd (off : Byte) (s : State) : Result := .next (s.ora (.dirInd off))

/-- ORA `(d,s),y`, opcode 13 (R216, mode R171). -/
def execOraStkIndY (off : Byte) (s : State) : Result := .next (s.ora (.stkIndY off))

/-- ORA `d,x`, opcode 15 (R216, mode R153). -/
def execOraDirX (off : Byte) (s : State) : Result := .next (s.ora (.dirX off))

/-- ORA `[d],y`, opcode 17 (R216, mode R156). -/
def execOraDirIndLongY (off : Byte) (s : State) : Result := .next (s.ora (.dirIndLongY off))

/-- ORA `a,y`, opcode 19 (R216, mode R146). -/
def execOraAbsY (addr : Word) (s : State) : Result := .next (s.ora (.absY addr))

/-- ORA `a,x`, opcode 1D (R216, mode R145). -/
def execOraAbsX (addr : Word) (s : State) : Result := .next (s.ora (.absX addr))

/-- ORA `al,x`, opcode 1F (R216, mode R148). -/
def execOraLongX (addr : Addr) (s : State) : Result := .next (s.ora (.longX addr))

/-- EOR `(d,x)`, opcode 41 (R217, mode R152). -/
def execEorDirXInd (off : Byte) (s : State) : Result := .next (s.eor (.dirXInd off))

/-- EOR `d,s`, opcode 43 (R217, mode R170). -/
def execEorStk (off : Byte) (s : State) : Result := .next (s.eor (.stk off))

/-- EOR `d`, opcode 45 (R217, mode R159). -/
def execEorDir (off : Byte) (s : State) : Result := .next (s.eor (.dir off))

/-- EOR `[d]`, opcode 47 (R217, mode R157). -/
def execEorDirIndLong (off : Byte) (s : State) : Result := .next (s.eor (.dirIndLong off))

/-- EOR `#`, opcode 49 (R217, mode R162). -/
def execEorImm (v : Imm) (s : State) : Result := .next (s.eor (.imm v))

/-- EOR `a`, opcode 4D (R217, mode R142). -/
def execEorAbs (addr : Word) (s : State) : Result := .next (s.eor (.abs addr))

/-- EOR `al`, opcode 4F (R217, mode R149). -/
def execEorLong (addr : Addr) (s : State) : Result := .next (s.eor (.long addr))

/-- EOR `(d),y`, opcode 51 (R217, mode R155). -/
def execEorDirIndY (off : Byte) (s : State) : Result := .next (s.eor (.dirIndY off))

/-- EOR `(d)`, opcode 52 (R217, mode R158). -/
def execEorDirInd (off : Byte) (s : State) : Result := .next (s.eor (.dirInd off))

/-- EOR `(d,s),y`, opcode 53 (R217, mode R171). -/
def execEorStkIndY (off : Byte) (s : State) : Result := .next (s.eor (.stkIndY off))

/-- EOR `d,x`, opcode 55 (R217, mode R153). -/
def execEorDirX (off : Byte) (s : State) : Result := .next (s.eor (.dirX off))

/-- EOR `[d],y`, opcode 57 (R217, mode R156). -/
def execEorDirIndLongY (off : Byte) (s : State) : Result := .next (s.eor (.dirIndLongY off))

/-- EOR `a,y`, opcode 59 (R217, mode R146). -/
def execEorAbsY (addr : Word) (s : State) : Result := .next (s.eor (.absY addr))

/-- EOR `a,x`, opcode 5D (R217, mode R145). -/
def execEorAbsX (addr : Word) (s : State) : Result := .next (s.eor (.absX addr))

/-- EOR `al,x`, opcode 5F (R217, mode R148). -/
def execEorLongX (addr : Addr) (s : State) : Result := .next (s.eor (.longX addr))

/-- CMP `(d,x)`, opcode C1 (R218, mode R152). -/
def execCmpDirXInd (off : Byte) (s : State) : Result := .next (s.cmp (.dirXInd off))

/-- CMP `d,s`, opcode C3 (R218, mode R170). -/
def execCmpStk (off : Byte) (s : State) : Result := .next (s.cmp (.stk off))

/-- CMP `d`, opcode C5 (R218, mode R159). -/
def execCmpDir (off : Byte) (s : State) : Result := .next (s.cmp (.dir off))

/-- CMP `[d]`, opcode C7 (R218, mode R157). -/
def execCmpDirIndLong (off : Byte) (s : State) : Result := .next (s.cmp (.dirIndLong off))

/-- CMP `#`, opcode C9 (R218, mode R162). -/
def execCmpImm (v : Imm) (s : State) : Result := .next (s.cmp (.imm v))

/-- CMP `a`, opcode CD (R218, mode R142). -/
def execCmpAbs (addr : Word) (s : State) : Result := .next (s.cmp (.abs addr))

/-- CMP `al`, opcode CF (R218, mode R149). -/
def execCmpLong (addr : Addr) (s : State) : Result := .next (s.cmp (.long addr))

/-- CMP `(d),y`, opcode D1 (R218, mode R155). -/
def execCmpDirIndY (off : Byte) (s : State) : Result := .next (s.cmp (.dirIndY off))

/-- CMP `(d)`, opcode D2 (R218, mode R158). -/
def execCmpDirInd (off : Byte) (s : State) : Result := .next (s.cmp (.dirInd off))

/-- CMP `(d,s),y`, opcode D3 (R218, mode R171). -/
def execCmpStkIndY (off : Byte) (s : State) : Result := .next (s.cmp (.stkIndY off))

/-- CMP `d,x`, opcode D5 (R218, mode R153). -/
def execCmpDirX (off : Byte) (s : State) : Result := .next (s.cmp (.dirX off))

/-- CMP `[d],y`, opcode D7 (R218, mode R156). -/
def execCmpDirIndLongY (off : Byte) (s : State) : Result := .next (s.cmp (.dirIndLongY off))

/-- CMP `a,y`, opcode D9 (R218, mode R146). -/
def execCmpAbsY (addr : Word) (s : State) : Result := .next (s.cmp (.absY addr))

/-- CMP `a,x`, opcode DD (R218, mode R145). -/
def execCmpAbsX (addr : Word) (s : State) : Result := .next (s.cmp (.absX addr))

/-- CMP `al,x`, opcode DF (R218, mode R148). -/
def execCmpLongX (addr : Addr) (s : State) : Result := .next (s.cmp (.longX addr))

/-- CPX `#`, opcode E0 (R219, mode R162). -/
def execCpxImm (v : Imm) (s : State) : Result := .next (s.cpx (.imm v))

/-- CPX `d`, opcode E4 (R219, mode R159). -/
def execCpxDir (off : Byte) (s : State) : Result := .next (s.cpx (.dir off))

/-- CPX `a`, opcode EC (R219, mode R142). -/
def execCpxAbs (addr : Word) (s : State) : Result := .next (s.cpx (.abs addr))

/-- CPY `#`, opcode C0 (R220, mode R162). -/
def execCpyImm (v : Imm) (s : State) : Result := .next (s.cpy (.imm v))

/-- CPY `d`, opcode C4 (R220, mode R159). -/
def execCpyDir (off : Byte) (s : State) : Result := .next (s.cpy (.dir off))

/-- CPY `a`, opcode CC (R220, mode R142). -/
def execCpyAbs (addr : Word) (s : State) : Result := .next (s.cpy (.abs addr))

/-- BIT `d`, opcode 24 (R221, mode R159). -/
def execBitDir (off : Byte) (s : State) : Result := .next (s.bitMemory (.dir off))

/-- BIT `a`, opcode 2C (R221, mode R142). -/
def execBitAbs (addr : Word) (s : State) : Result := .next (s.bitMemory (.abs addr))

/-- BIT `d,x`, opcode 34 (R221, mode R153). -/
def execBitDirX (off : Byte) (s : State) : Result := .next (s.bitMemory (.dirX off))

/-- BIT `a,x`, opcode 3C (R221, mode R145). -/
def execBitAbsX (addr : Word) (s : State) : Result := .next (s.bitMemory (.absX addr))

/-- BIT `#`, opcode 89 (R221, mode R162). -/
def execBitImm (v : Imm) (s : State) : Result := .next (s.bitImmediate (.imm v))

/-- INC `A`, opcode 1A (R222, mode R150). -/
def execIncAcc (s : State) : Result := .next (s.inc .acc)

/-- INC `d`, opcode E6 (R223, mode R159). -/
def execIncDir (off : Byte) (s : State) : Result := .next (s.inc (.dir off))

/-- INC `a`, opcode EE (R223, mode R142). -/
def execIncAbs (addr : Word) (s : State) : Result := .next (s.inc (.abs addr))

/-- INC `d,x`, opcode F6 (R223, mode R153). -/
def execIncDirX (off : Byte) (s : State) : Result := .next (s.inc (.dirX off))

/-- INC `a,x`, opcode FE (R223, mode R145). -/
def execIncAbsX (addr : Word) (s : State) : Result := .next (s.inc (.absX addr))

/-- DEC `A`, opcode 3A (R224, mode R150). -/
def execDecAcc (s : State) : Result := .next (s.dec .acc)

/-- DEC `d`, opcode C6 (R225, mode R159). -/
def execDecDir (off : Byte) (s : State) : Result := .next (s.dec (.dir off))

/-- DEC `a`, opcode CE (R225, mode R142). -/
def execDecAbs (addr : Word) (s : State) : Result := .next (s.dec (.abs addr))

/-- DEC `d,x`, opcode D6 (R225, mode R153). -/
def execDecDirX (off : Byte) (s : State) : Result := .next (s.dec (.dirX off))

/-- DEC `a,x`, opcode DE (R225, mode R145). -/
def execDecAbsX (addr : Word) (s : State) : Result := .next (s.dec (.absX addr))

/-- INX `i`, opcode E8 (R226, mode R164). -/
def execInx (s : State) : Result := .next (s.stepX incValue)

/-- INY `i`, opcode C8 (R227, mode R164). -/
def execIny (s : State) : Result := .next (s.stepY incValue)

/-- DEX `i`, opcode CA (R228, mode R164). -/
def execDex (s : State) : Result := .next (s.stepX decValue)

/-- DEY `i`, opcode 88 (R229, mode R164). -/
def execDey (s : State) : Result := .next (s.stepY decValue)

end Sys2Proof.Machine
end

