-- ==== Sys2Proof/Machine/BlockMove.lean ====
section
/-!
DEFINITION. Block move (47_block_move.md, R410 to R415): one byte moved is one step of the machine (R411, D14).
-/

namespace Sys2Proof.Machine

/-- MVN_MVP_FINAL_C (R414, D13): one of two values, left open. Log entry 7. -/
def blockMoveFinalC : Word := if Config.blockMoveEndsAllOnes then 0xFFFF else 0x0000

/-- `BlockMoveStep(delta)` (R411): one byte from `src:X` to `dst:Y`, DBR = dst, X and Y moved by `delta` at the index
width. While C is not 0 it is decremented and PC stays at the opcode; when C is 0 the instruction is complete. -/
def State.blockMoveStep (delta : Word) (dst src : Byte) (s : State) : State :=
  let v := s.read .data (bankAddr src s.x)
  let t := State.storeByte (bankAddr dst s.y) v { s with dbr := dst }
  let u := (t.setX s.wX (s.x + delta)).setY s.wX (s.y + delta)
  if s.c = 0x0000 then { u.past (.blockMove dst src) with c := blockMoveFinalC } else { u with c := s.c - 1 }

/-- MVN `xyc`, opcode 54 (R412, mode R151). -/
def execMvn (dst : Byte) (src : Byte) (s : State) : Result := .next (s.blockMoveStep 1 dst src)

/-- MVP `xyc`, opcode 44 (R413, mode R151). -/
def execMvp (dst : Byte) (src : Byte) (s : State) : Result := .next (s.blockMoveStep (-1) dst src)

end Sys2Proof.Machine
end

