-- ==== Sys2Proof/Machine/LoadStore.lean ====
section
/-!
DEFINITION. Load and store (41_load_store.md, R190 to R197): the seven shared operations and one meaning per row of the table.
-/

namespace Sys2Proof.Machine

/-- LDA (R191): N and Z from the value at the accumulator width. -/
def State.loadA (o : Operand) (s : State) : State :=
  let v := (s.locate o).read s.wA s
  ((s.past o).setA s.wA v).setNZ s.wA v

/-- LDX (R192): at the index width. -/
def State.loadX (o : Operand) (s : State) : State :=
  let v := (s.locate o).read s.wX s
  ((s.past o).setX s.wX v).setNZ s.wX v

/-- LDY (R193): at the index width. -/
def State.loadY (o : Operand) (s : State) : State :=
  let v := (s.locate o).read s.wX s
  ((s.past o).setY s.wX v).setNZ s.wX v

/-- STA (R194): `A` or `C`; no flag. -/
def State.storeA (o : Operand) (s : State) : State := (s.locate o).write s.wA s.c (s.past o)

/-- STX (R195). -/
def State.storeX (o : Operand) (s : State) : State := (s.locate o).write s.wX s.x (s.past o)

/-- STY (R196). -/
def State.storeY (o : Operand) (s : State) : State := (s.locate o).write s.wX s.y (s.past o)

/-- STZ (R197): zero at the accumulator width. -/
def State.storeZero (o : Operand) (s : State) : State := (s.locate o).write s.wA 0x0000 (s.past o)

/-- LDA `(d,x)`, opcode A1 (R191, mode R152). -/
def execLdaDirXInd (off : Byte) (s : State) : Result := .next (s.loadA (.dirXInd off))

/-- LDA `d,s`, opcode A3 (R191, mode R170). -/
def execLdaStk (off : Byte) (s : State) : Result := .next (s.loadA (.stk off))

/-- LDA `d`, opcode A5 (R191, mode R159). -/
def execLdaDir (off : Byte) (s : State) : Result := .next (s.loadA (.dir off))

/-- LDA `[d]`, opcode A7 (R191, mode R157). -/
def execLdaDirIndLong (off : Byte) (s : State) : Result := .next (s.loadA (.dirIndLong off))

/-- LDA `#`, opcode A9 (R191, mode R162). -/
def execLdaImm (v : Imm) (s : State) : Result := .next (s.loadA (.imm v))

/-- LDA `a`, opcode AD (R191, mode R142). -/
def execLdaAbs (addr : Word) (s : State) : Result := .next (s.loadA (.abs addr))

/-- LDA `al`, opcode AF (R191, mode R149). -/
def execLdaLong (addr : Addr) (s : State) : Result := .next (s.loadA (.long addr))

/-- LDA `(d),y`, opcode B1 (R191, mode R155). -/
def execLdaDirIndY (off : Byte) (s : State) : Result := .next (s.loadA (.dirIndY off))

/-- LDA `(d)`, opcode B2 (R191, mode R158). -/
def execLdaDirInd (off : Byte) (s : State) : Result := .next (s.loadA (.dirInd off))

/-- LDA `(d,s),y`, opcode B3 (R191, mode R171). -/
def execLdaStkIndY (off : Byte) (s : State) : Result := .next (s.loadA (.stkIndY off))

/-- LDA `d,x`, opcode B5 (R191, mode R153). -/
def execLdaDirX (off : Byte) (s : State) : Result := .next (s.loadA (.dirX off))

/-- LDA `[d],y`, opcode B7 (R191, mode R156). -/
def execLdaDirIndLongY (off : Byte) (s : State) : Result := .next (s.loadA (.dirIndLongY off))

/-- LDA `a,y`, opcode B9 (R191, mode R146). -/
def execLdaAbsY (addr : Word) (s : State) : Result := .next (s.loadA (.absY addr))

/-- LDA `a,x`, opcode BD (R191, mode R145). -/
def execLdaAbsX (addr : Word) (s : State) : Result := .next (s.loadA (.absX addr))

/-- LDA `al,x`, opcode BF (R191, mode R148). -/
def execLdaLongX (addr : Addr) (s : State) : Result := .next (s.loadA (.longX addr))

/-- LDX `#`, opcode A2 (R192, mode R162). -/
def execLdxImm (v : Imm) (s : State) : Result := .next (s.loadX (.imm v))

/-- LDX `d`, opcode A6 (R192, mode R159). -/
def execLdxDir (off : Byte) (s : State) : Result := .next (s.loadX (.dir off))

/-- LDX `a`, opcode AE (R192, mode R142). -/
def execLdxAbs (addr : Word) (s : State) : Result := .next (s.loadX (.abs addr))

/-- LDX `d,y`, opcode B6 (R192, mode R154). -/
def execLdxDirY (off : Byte) (s : State) : Result := .next (s.loadX (.dirY off))

/-- LDX `a,y`, opcode BE (R192, mode R146). -/
def execLdxAbsY (addr : Word) (s : State) : Result := .next (s.loadX (.absY addr))

/-- LDY `#`, opcode A0 (R193, mode R162). -/
def execLdyImm (v : Imm) (s : State) : Result := .next (s.loadY (.imm v))

/-- LDY `d`, opcode A4 (R193, mode R159). -/
def execLdyDir (off : Byte) (s : State) : Result := .next (s.loadY (.dir off))

/-- LDY `a`, opcode AC (R193, mode R142). -/
def execLdyAbs (addr : Word) (s : State) : Result := .next (s.loadY (.abs addr))

/-- LDY `d,x`, opcode B4 (R193, mode R153). -/
def execLdyDirX (off : Byte) (s : State) : Result := .next (s.loadY (.dirX off))

/-- LDY `a,x`, opcode BC (R193, mode R145). -/
def execLdyAbsX (addr : Word) (s : State) : Result := .next (s.loadY (.absX addr))

/-- STA `(d,x)`, opcode 81 (R194, mode R152). -/
def execStaDirXInd (off : Byte) (s : State) : Result := .next (s.storeA (.dirXInd off))

/-- STA `d,s`, opcode 83 (R194, mode R170). -/
def execStaStk (off : Byte) (s : State) : Result := .next (s.storeA (.stk off))

/-- STA `d`, opcode 85 (R194, mode R159). -/
def execStaDir (off : Byte) (s : State) : Result := .next (s.storeA (.dir off))

/-- STA `[d]`, opcode 87 (R194, mode R157). -/
def execStaDirIndLong (off : Byte) (s : State) : Result := .next (s.storeA (.dirIndLong off))

/-- STA `a`, opcode 8D (R194, mode R142). -/
def execStaAbs (addr : Word) (s : State) : Result := .next (s.storeA (.abs addr))

/-- STA `al`, opcode 8F (R194, mode R149). -/
def execStaLong (addr : Addr) (s : State) : Result := .next (s.storeA (.long addr))

/-- STA `(d),y`, opcode 91 (R194, mode R155). -/
def execStaDirIndY (off : Byte) (s : State) : Result := .next (s.storeA (.dirIndY off))

/-- STA `(d)`, opcode 92 (R194, mode R158). -/
def execStaDirInd (off : Byte) (s : State) : Result := .next (s.storeA (.dirInd off))

/-- STA `(d,s),y`, opcode 93 (R194, mode R171). -/
def execStaStkIndY (off : Byte) (s : State) : Result := .next (s.storeA (.stkIndY off))

/-- STA `d,x`, opcode 95 (R194, mode R153). -/
def execStaDirX (off : Byte) (s : State) : Result := .next (s.storeA (.dirX off))

/-- STA `[d],y`, opcode 97 (R194, mode R156). -/
def execStaDirIndLongY (off : Byte) (s : State) : Result := .next (s.storeA (.dirIndLongY off))

/-- STA `a,y`, opcode 99 (R194, mode R146). -/
def execStaAbsY (addr : Word) (s : State) : Result := .next (s.storeA (.absY addr))

/-- STA `a,x`, opcode 9D (R194, mode R145). -/
def execStaAbsX (addr : Word) (s : State) : Result := .next (s.storeA (.absX addr))

/-- STA `al,x`, opcode 9F (R194, mode R148). -/
def execStaLongX (addr : Addr) (s : State) : Result := .next (s.storeA (.longX addr))

/-- STX `d`, opcode 86 (R195, mode R159). -/
def execStxDir (off : Byte) (s : State) : Result := .next (s.storeX (.dir off))

/-- STX `a`, opcode 8E (R195, mode R142). -/
def execStxAbs (addr : Word) (s : State) : Result := .next (s.storeX (.abs addr))

/-- STX `d,y`, opcode 96 (R195, mode R154). -/
def execStxDirY (off : Byte) (s : State) : Result := .next (s.storeX (.dirY off))

/-- STY `d`, opcode 84 (R196, mode R159). -/
def execStyDir (off : Byte) (s : State) : Result := .next (s.storeY (.dir off))

/-- STY `a`, opcode 8C (R196, mode R142). -/
def execStyAbs (addr : Word) (s : State) : Result := .next (s.storeY (.abs addr))

/-- STY `d,x`, opcode 94 (R196, mode R153). -/
def execStyDirX (off : Byte) (s : State) : Result := .next (s.storeY (.dirX off))

/-- STZ `d`, opcode 64 (R197, mode R159). -/
def execStzDir (off : Byte) (s : State) : Result := .next (s.storeZero (.dir off))

/-- STZ `d,x`, opcode 74 (R197, mode R153). -/
def execStzDirX (off : Byte) (s : State) : Result := .next (s.storeZero (.dirX off))

/-- STZ `a`, opcode 9C (R197, mode R142). -/
def execStzAbs (addr : Word) (s : State) : Result := .next (s.storeZero (.abs addr))

/-- STZ `a,x`, opcode 9E (R197, mode R145). -/
def execStzAbsX (addr : Word) (s : State) : Result := .next (s.storeZero (.absX addr))

end Sys2Proof.Machine
end

