-- ==== Sys2Proof/Machine/Shift.lean ====
section
/-!
DEFINITION. Shift, rotate, test and modify (43_shift_rmw.md, R250 to R263). The memory forms read, then write high byte first
(R250); the accumulator forms are the same operations on the location `Acc`.
-/

namespace Sys2Proof.Machine

/-- ASL (R251, R252). -/
def State.asl (o : Operand) (s : State) : State :=
  let v := (s.locate o).read s.wA s
  let r := aslValue s.wA v
  (s.locate o).writeBack s.wA r ((s.past o).shiftFlags s.wA (s.wA.msb v) r)

/-- LSR (R253, R254). -/
def State.lsr (o : Operand) (s : State) : State :=
  let v := (s.locate o).read s.wA s
  let r := lsrValue v
  (s.locate o).writeBack s.wA r ((s.past o).shiftFlags s.wA (v.getLsbD 0) r)

/-- ROL (R255, R256). -/
def State.rol (o : Operand) (s : State) : State :=
  let v := (s.locate o).read s.wA s
  let r := rolValue s.wA v (s.flag .c)
  (s.locate o).writeBack s.wA r ((s.past o).shiftFlags s.wA (s.wA.msb v) r)

/-- ROR (R257, R258). -/
def State.ror (o : Operand) (s : State) : State :=
  let v := (s.locate o).read s.wA s
  let r := rorValue s.wA v (s.flag .c)
  (s.locate o).writeBack s.wA r ((s.past o).shiftFlags s.wA (v.getLsbD 0) r)

/-- TSB (R262): Z from the bits tested, before they are set. -/
def State.tsb (o : Operand) (s : State) : State :=
  let m := (s.locate o).read s.wA s
  (s.locate o).writeBack s.wA (m ||| s.getA s.wA) ((s.past o).bitZ (s.getA s.wA) m)

/-- TRB (R263): Z from the bits tested, before they are cleared. -/
def State.trb (o : Operand) (s : State) : State :=
  let m := (s.locate o).read s.wA s
  (s.locate o).writeBack s.wA (m &&& ~~~(s.getA s.wA)) ((s.past o).bitZ (s.getA s.wA) m)

/-- ASL `d`, opcode 06 (R252, mode R159). -/
def execAslDir (off : Byte) (s : State) : Result := .next (s.asl (.dir off))

/-- ASL `A`, opcode 0A (R251, mode R150). -/
def execAslAcc (s : State) : Result := .next (s.asl .acc)

/-- ASL `a`, opcode 0E (R252, mode R142). -/
def execAslAbs (addr : Word) (s : State) : Result := .next (s.asl (.abs addr))

/-- ASL `d,x`, opcode 16 (R252, mode R153). -/
def execAslDirX (off : Byte) (s : State) : Result := .next (s.asl (.dirX off))

/-- ASL `a,x`, opcode 1E (R252, mode R145). -/
def execAslAbsX (addr : Word) (s : State) : Result := .next (s.asl (.absX addr))

/-- LSR `d`, opcode 46 (R254, mode R159). -/
def execLsrDir (off : Byte) (s : State) : Result := .next (s.lsr (.dir off))

/-- LSR `A`, opcode 4A (R253, mode R150). -/
def execLsrAcc (s : State) : Result := .next (s.lsr .acc)

/-- LSR `a`, opcode 4E (R254, mode R142). -/
def execLsrAbs (addr : Word) (s : State) : Result := .next (s.lsr (.abs addr))

/-- LSR `d,x`, opcode 56 (R254, mode R153). -/
def execLsrDirX (off : Byte) (s : State) : Result := .next (s.lsr (.dirX off))

/-- LSR `a,x`, opcode 5E (R254, mode R145). -/
def execLsrAbsX (addr : Word) (s : State) : Result := .next (s.lsr (.absX addr))

/-- ROL `d`, opcode 26 (R256, mode R159). -/
def execRolDir (off : Byte) (s : State) : Result := .next (s.rol (.dir off))

/-- ROL `A`, opcode 2A (R255, mode R150). -/
def execRolAcc (s : State) : Result := .next (s.rol .acc)

/-- ROL `a`, opcode 2E (R256, mode R142). -/
def execRolAbs (addr : Word) (s : State) : Result := .next (s.rol (.abs addr))

/-- ROL `d,x`, opcode 36 (R256, mode R153). -/
def execRolDirX (off : Byte) (s : State) : Result := .next (s.rol (.dirX off))

/-- ROL `a,x`, opcode 3E (R256, mode R145). -/
def execRolAbsX (addr : Word) (s : State) : Result := .next (s.rol (.absX addr))

/-- ROR `d`, opcode 66 (R258, mode R159). -/
def execRorDir (off : Byte) (s : State) : Result := .next (s.ror (.dir off))

/-- ROR `A`, opcode 6A (R257, mode R150). -/
def execRorAcc (s : State) : Result := .next (s.ror .acc)

/-- ROR `a`, opcode 6E (R258, mode R142). -/
def execRorAbs (addr : Word) (s : State) : Result := .next (s.ror (.abs addr))

/-- ROR `d,x`, opcode 76 (R258, mode R153). -/
def execRorDirX (off : Byte) (s : State) : Result := .next (s.ror (.dirX off))

/-- ROR `a,x`, opcode 7E (R258, mode R145). -/
def execRorAbsX (addr : Word) (s : State) : Result := .next (s.ror (.absX addr))

/-- TSB `d`, opcode 04 (R262, mode R159). -/
def execTsbDir (off : Byte) (s : State) : Result := .next (s.tsb (.dir off))

/-- TSB `a`, opcode 0C (R262, mode R142). -/
def execTsbAbs (addr : Word) (s : State) : Result := .next (s.tsb (.abs addr))

/-- TRB `d`, opcode 14 (R263, mode R159). -/
def execTrbDir (off : Byte) (s : State) : Result := .next (s.trb (.dir off))

/-- TRB `a`, opcode 1C (R263, mode R142). -/
def execTrbAbs (addr : Word) (s : State) : Result := .next (s.trb (.abs addr))

end Sys2Proof.Machine
end

