-- ==== Sys2Proof/Machine/System.lean ====
section
/-!
DEFINITION. The system instructions (48_system.md, R420 to R428). BRK and COP take the interrupt that Machine/Ops.lean defines; WAI and
STP change the run state, which `step` obeys.
-/

namespace Sys2Proof.Machine

/-- BRK and COP (R420, R421): the signature byte is fetched and ignored (R422); the return address is PC_op + 2. -/
def State.softwareInterrupt (kind : InterruptKind) (sig : Byte) (s : State) : State :=
  let t := s.past (.stack1 sig)
  t.interrupt kind t.pbr t.pc

/-- WAI (R426): the wait begins, unless RDY is forced high from outside. -/
def State.waitForInterrupt (s : State) : State :=
  { s.past .implied with run := if s.rdyForcedHigh then .running else .waiting }

/-- STP (R428). -/
def State.stopClock (s : State) : State := { s.past .implied with run := .stopped }

/-- BRK `s`, opcode 00 (R420, mode R169). -/
def execBrk (sig : Byte) (s : State) : Result := .next (s.softwareInterrupt .brk sig)

/-- COP `s`, opcode 02 (R421, mode R169). -/
def execCop (sig : Byte) (s : State) : Result := .next (s.softwareInterrupt .cop sig)

/-- RTI `s`, opcode 40 (R424, mode R169). -/
def execRti (s : State) : Result := .next (s.returnFromInterrupt)

/-- WAI `i`, opcode CB (R426, mode R164). -/
def execWai (s : State) : Result := .next (s.waitForInterrupt)

/-- STP `i`, opcode DB (R428, mode R164). -/
def execStp (s : State) : Result := .next (s.stopClock)

end Sys2Proof.Machine
end

