-- ==== Sys2Proof/Machine/Transfer.lean ====
section
/-!
DEFINITION. Register transfers, exchanges, flag instructions, REP, SEP, NOP and WDM (46_transfer_status.md, R360 to R385).
-/

namespace Sys2Proof.Machine

/-- A transfer into X from a full 16-bit source (R360, R361, R367, R372). -/
def State.transferX (v : Word) (s : State) : State :=
  ((s.past .implied).setX s.wX (s.wX.trunc v)).setNZ s.wX (s.wX.trunc v)

/-- A transfer into Y (R362, R370). -/
def State.transferY (v : Word) (s : State) : State :=
  ((s.past .implied).setY s.wX (s.wX.trunc v)).setNZ s.wX (s.wX.trunc v)

/-- A transfer into the accumulator at its width (R368, R371). -/
def State.transferA (v : Word) (s : State) : State :=
  ((s.past .implied).setA s.wA (s.wA.trunc v)).setNZ s.wA (s.wA.trunc v)

/-- A transfer of 16 bits into C whatever P.M is (R365, R366). -/
def State.transferC (v : Word) (s : State) : State := ({ s.past .implied with c := v }).setNZ .w16 v

/-- TCD (R363). -/
def State.transferD (s : State) : State := ({ s.past .implied with d := s.c }).setNZ .w16 s.c

/-- A transfer into S (R364, R369): SL only when E = 1; no flag. -/
def State.transferS (v : Word) (s : State) : State :=
  { s.past .implied with sp := if s.e then hiByte s.sp ++ loByte v else v }

/-- XBA (R373): N and Z from the new A, 8 bits. -/
def State.exchangeBA (s : State) : State :=
  let r : Word := loByte s.c ++ hiByte s.c
  ({ s.past .implied with c := r }).setNZ .w8 r

/-- What Emulation mode forces (R39, R374). -/
def State.enterEmulation (s : State) : State :=
  let t := ((s.setFlag .m true).setFlag .x true).clearIndexHigh
  { t with sp := (0x01 : Byte) ++ loByte s.sp }

/-- XCE (R374): C and E change places; the forced values apply whenever the new E is 1. -/
def State.exchangeCE (s : State) : State :=
  let t : State := { (s.past .implied).setFlag .c s.e with e := s.flag .c }
  if t.e then t.enterEmulation else t

/-- A single-flag instruction (R375 to R381). -/
def State.writeFlag (f : Flag) (b : Bool) (s : State) : State := (s.past .implied).setFlag f b

/-- REP (R382): with E = 1 M and X cannot be cleared. -/
def State.repBits (mask : Byte) (s : State) : State :=
  let m := if s.e then mask &&& 0xCF else mask
  { s.past (.imm (.byte mask)) with p := s.p &&& ~~~m }

/-- SEP (R383). -/
def State.sepBits (mask : Byte) (s : State) : State :=
  State.narrowIndex { s.past (.imm (.byte mask)) with p := s.p ||| mask }

/-- TAX `i`, opcode AA (R361, mode R164). -/
def execTax (s : State) : Result := .next (s.transferX s.c)

/-- TAY `i`, opcode A8 (R362, mode R164). -/
def execTay (s : State) : Result := .next (s.transferY s.c)

/-- TCD `i`, opcode 5B (R363, mode R164). -/
def execTcd (s : State) : Result := .next (s.transferD)

/-- TCS `i`, opcode 1B (R364, mode R164). -/
def execTcs (s : State) : Result := .next (s.transferS s.c)

/-- TDC `i`, opcode 7B (R365, mode R164). -/
def execTdc (s : State) : Result := .next (s.transferC s.d)

/-- TSC `i`, opcode 3B (R366, mode R164). -/
def execTsc (s : State) : Result := .next (s.transferC s.sp)

/-- TSX `i`, opcode BA (R367, mode R164). -/
def execTsx (s : State) : Result := .next (s.transferX s.sp)

/-- TXA `i`, opcode 8A (R368, mode R164). -/
def execTxa (s : State) : Result := .next (s.transferA s.x)

/-- TXS `i`, opcode 9A (R369, mode R164). -/
def execTxs (s : State) : Result := .next (s.transferS s.x)

/-- TXY `i`, opcode 9B (R370, mode R164). -/
def execTxy (s : State) : Result := .next (s.transferY s.x)

/-- TYA `i`, opcode 98 (R371, mode R164). -/
def execTya (s : State) : Result := .next (s.transferA s.y)

/-- TYX `i`, opcode BB (R372, mode R164). -/
def execTyx (s : State) : Result := .next (s.transferX s.y)

/-- XBA `i`, opcode EB (R373, mode R164). -/
def execXba (s : State) : Result := .next (s.exchangeBA)

/-- XCE `i`, opcode FB (R374, mode R164). -/
def execXce (s : State) : Result := .next (s.exchangeCE)

/-- CLC `i`, opcode 18 (R375, mode R164). -/
def execClc (s : State) : Result := .next (s.writeFlag .c false)

/-- CLD `i`, opcode D8 (R376, mode R164). -/
def execCld (s : State) : Result := .next (s.writeFlag .d false)

/-- CLI `i`, opcode 58 (R377, mode R164). -/
def execCli (s : State) : Result := .next (s.writeFlag .i false)

/-- CLV `i`, opcode B8 (R378, mode R164). -/
def execClv (s : State) : Result := .next (s.writeFlag .v false)

/-- SEC `i`, opcode 38 (R379, mode R164). -/
def execSec (s : State) : Result := .next (s.writeFlag .c true)

/-- SED `i`, opcode F8 (R380, mode R164). -/
def execSed (s : State) : Result := .next (s.writeFlag .d true)

/-- SEI `i`, opcode 78 (R381, mode R164). -/
def execSei (s : State) : Result := .next (s.writeFlag .i true)

/-- REP `#`, opcode C2 (R382, mode R162). -/
def execRep (mask : Byte) (s : State) : Result := .next (s.repBits mask)

/-- SEP `#`, opcode E2 (R383, mode R162). -/
def execSep (mask : Byte) (s : State) : Result := .next (s.sepBits mask)

/-- NOP `i`, opcode EA (R384, mode R164). -/
def execNop (s : State) : Result := .next (s.past .implied)

/-- WDM `wdm`, opcode 42 (R385). -/
def execWdm (operand : Byte) (s : State) : Result := .next (s.past (.wdm operand))

end Sys2Proof.Machine
end

