-- ==== Sys2Proof/Machine/Dispatch.lean ====
section
/-! DEFINITION. The dispatch: one arm per row of spec/opcode_table.json, each a direct call of its meaning. -/

namespace Sys2Proof.Machine

def exec (i : Instr) (s : State) : Host.Outcome State Fault Refusal :=
  match i with
  | .brk sig => Sys2Proof.Machine.execBrk sig s
  | .oraDirXInd off => Sys2Proof.Machine.execOraDirXInd off s
  | .cop sig => Sys2Proof.Machine.execCop sig s
  | .oraStk off => Sys2Proof.Machine.execOraStk off s
  | .tsbDir off => Sys2Proof.Machine.execTsbDir off s
  | .oraDir off => Sys2Proof.Machine.execOraDir off s
  | .aslDir off => Sys2Proof.Machine.execAslDir off s
  | .oraDirIndLong off => Sys2Proof.Machine.execOraDirIndLong off s
  | .oraImm v => Sys2Proof.Machine.execOraImm v s
  | .tsbAbs addr => Sys2Proof.Machine.execTsbAbs addr s
  | .oraAbs addr => Sys2Proof.Machine.execOraAbs addr s
  | .aslAbs addr => Sys2Proof.Machine.execAslAbs addr s
  | .oraLong addr => Sys2Proof.Machine.execOraLong addr s
  | .bpl off => Sys2Proof.Machine.execBpl off s
  | .oraDirIndY off => Sys2Proof.Machine.execOraDirIndY off s
  | .oraDirInd off => Sys2Proof.Machine.execOraDirInd off s
  | .oraStkIndY off => Sys2Proof.Machine.execOraStkIndY off s
  | .trbDir off => Sys2Proof.Machine.execTrbDir off s
  | .oraDirX off => Sys2Proof.Machine.execOraDirX off s
  | .aslDirX off => Sys2Proof.Machine.execAslDirX off s
  | .oraDirIndLongY off => Sys2Proof.Machine.execOraDirIndLongY off s
  | .oraAbsY addr => Sys2Proof.Machine.execOraAbsY addr s
  | .trbAbs addr => Sys2Proof.Machine.execTrbAbs addr s
  | .oraAbsX addr => Sys2Proof.Machine.execOraAbsX addr s
  | .aslAbsX addr => Sys2Proof.Machine.execAslAbsX addr s
  | .oraLongX addr => Sys2Proof.Machine.execOraLongX addr s
  | .jsrAbs addr => Sys2Proof.Machine.execJsrAbs addr s
  | .andDirXInd off => Sys2Proof.Machine.execAndDirXInd off s
  | .jsl addr => Sys2Proof.Machine.execJsl addr s
  | .andStk off => Sys2Proof.Machine.execAndStk off s
  | .bitDir off => Sys2Proof.Machine.execBitDir off s
  | .andDir off => Sys2Proof.Machine.execAndDir off s
  | .rolDir off => Sys2Proof.Machine.execRolDir off s
  | .andDirIndLong off => Sys2Proof.Machine.execAndDirIndLong off s
  | .andImm v => Sys2Proof.Machine.execAndImm v s
  | .bitAbs addr => Sys2Proof.Machine.execBitAbs addr s
  | .andAbs addr => Sys2Proof.Machine.execAndAbs addr s
  | .rolAbs addr => Sys2Proof.Machine.execRolAbs addr s
  | .andLong addr => Sys2Proof.Machine.execAndLong addr s
  | .bmi off => Sys2Proof.Machine.execBmi off s
  | .andDirIndY off => Sys2Proof.Machine.execAndDirIndY off s
  | .andDirInd off => Sys2Proof.Machine.execAndDirInd off s
  | .andStkIndY off => Sys2Proof.Machine.execAndStkIndY off s
  | .bitDirX off => Sys2Proof.Machine.execBitDirX off s
  | .andDirX off => Sys2Proof.Machine.execAndDirX off s
  | .rolDirX off => Sys2Proof.Machine.execRolDirX off s
  | .andDirIndLongY off => Sys2Proof.Machine.execAndDirIndLongY off s
  | .andAbsY addr => Sys2Proof.Machine.execAndAbsY addr s
  | .bitAbsX addr => Sys2Proof.Machine.execBitAbsX addr s
  | .andAbsX addr => Sys2Proof.Machine.execAndAbsX addr s
  | .rolAbsX addr => Sys2Proof.Machine.execRolAbsX addr s
  | .andLongX addr => Sys2Proof.Machine.execAndLongX addr s
  | .eorDirXInd off => Sys2Proof.Machine.execEorDirXInd off s
  | .wdm operand => Sys2Proof.Machine.execWdm operand s
  | .eorStk off => Sys2Proof.Machine.execEorStk off s
  | .mvp dst src => Sys2Proof.Machine.execMvp dst src s
  | .eorDir off => Sys2Proof.Machine.execEorDir off s
  | .lsrDir off => Sys2Proof.Machine.execLsrDir off s
  | .eorDirIndLong off => Sys2Proof.Machine.execEorDirIndLong off s
  | .eorImm v => Sys2Proof.Machine.execEorImm v s
  | .jmpAbs addr => Sys2Proof.Machine.execJmpAbs addr s
  | .eorAbs addr => Sys2Proof.Machine.execEorAbs addr s
  | .lsrAbs addr => Sys2Proof.Machine.execLsrAbs addr s
  | .eorLong addr => Sys2Proof.Machine.execEorLong addr s
  | .bvc off => Sys2Proof.Machine.execBvc off s
  | .eorDirIndY off => Sys2Proof.Machine.execEorDirIndY off s
  | .eorDirInd off => Sys2Proof.Machine.execEorDirInd off s
  | .eorStkIndY off => Sys2Proof.Machine.execEorStkIndY off s
  | .mvn dst src => Sys2Proof.Machine.execMvn dst src s
  | .eorDirX off => Sys2Proof.Machine.execEorDirX off s
  | .lsrDirX off => Sys2Proof.Machine.execLsrDirX off s
  | .eorDirIndLongY off => Sys2Proof.Machine.execEorDirIndLongY off s
  | .eorAbsY addr => Sys2Proof.Machine.execEorAbsY addr s
  | .jmpLong addr => Sys2Proof.Machine.execJmpLong addr s
  | .eorAbsX addr => Sys2Proof.Machine.execEorAbsX addr s
  | .lsrAbsX addr => Sys2Proof.Machine.execLsrAbsX addr s
  | .eorLongX addr => Sys2Proof.Machine.execEorLongX addr s
  | .adcDirXInd off => Sys2Proof.Machine.execAdcDirXInd off s
  | .per off => Sys2Proof.Machine.execPer off s
  | .adcStk off => Sys2Proof.Machine.execAdcStk off s
  | .stzDir off => Sys2Proof.Machine.execStzDir off s
  | .adcDir off => Sys2Proof.Machine.execAdcDir off s
  | .rorDir off => Sys2Proof.Machine.execRorDir off s
  | .adcDirIndLong off => Sys2Proof.Machine.execAdcDirIndLong off s
  | .adcImm v => Sys2Proof.Machine.execAdcImm v s
  | .jmpAbsInd addr => Sys2Proof.Machine.execJmpAbsInd addr s
  | .adcAbs addr => Sys2Proof.Machine.execAdcAbs addr s
  | .rorAbs addr => Sys2Proof.Machine.execRorAbs addr s
  | .adcLong addr => Sys2Proof.Machine.execAdcLong addr s
  | .bvs off => Sys2Proof.Machine.execBvs off s
  | .adcDirIndY off => Sys2Proof.Machine.execAdcDirIndY off s
  | .adcDirInd off => Sys2Proof.Machine.execAdcDirInd off s
  | .adcStkIndY off => Sys2Proof.Machine.execAdcStkIndY off s
  | .stzDirX off => Sys2Proof.Machine.execStzDirX off s
  | .adcDirX off => Sys2Proof.Machine.execAdcDirX off s
  | .rorDirX off => Sys2Proof.Machine.execRorDirX off s
  | .adcDirIndLongY off => Sys2Proof.Machine.execAdcDirIndLongY off s
  | .adcAbsY addr => Sys2Proof.Machine.execAdcAbsY addr s
  | .jmpAbsXInd addr => Sys2Proof.Machine.execJmpAbsXInd addr s
  | .adcAbsX addr => Sys2Proof.Machine.execAdcAbsX addr s
  | .rorAbsX addr => Sys2Proof.Machine.execRorAbsX addr s
  | .adcLongX addr => Sys2Proof.Machine.execAdcLongX addr s
  | .bra off => Sys2Proof.Machine.execBra off s
  | .staDirXInd off => Sys2Proof.Machine.execStaDirXInd off s
  | .brl off => Sys2Proof.Machine.execBrl off s
  | .staStk off => Sys2Proof.Machine.execStaStk off s
  | .styDir off => Sys2Proof.Machine.execStyDir off s
  | .staDir off => Sys2Proof.Machine.execStaDir off s
  | .stxDir off => Sys2Proof.Machine.execStxDir off s
  | .staDirIndLong off => Sys2Proof.Machine.execStaDirIndLong off s
  | .bitImm v => Sys2Proof.Machine.execBitImm v s
  | .styAbs addr => Sys2Proof.Machine.execStyAbs addr s
  | .staAbs addr => Sys2Proof.Machine.execStaAbs addr s
  | .stxAbs addr => Sys2Proof.Machine.execStxAbs addr s
  | .staLong addr => Sys2Proof.Machine.execStaLong addr s
  | .bcc off => Sys2Proof.Machine.execBcc off s
  | .staDirIndY off => Sys2Proof.Machine.execStaDirIndY off s
  | .staDirInd off => Sys2Proof.Machine.execStaDirInd off s
  | .staStkIndY off => Sys2Proof.Machine.execStaStkIndY off s
  | .styDirX off => Sys2Proof.Machine.execStyDirX off s
  | .staDirX off => Sys2Proof.Machine.execStaDirX off s
  | .stxDirY off => Sys2Proof.Machine.execStxDirY off s
  | .staDirIndLongY off => Sys2Proof.Machine.execStaDirIndLongY off s
  | .staAbsY addr => Sys2Proof.Machine.execStaAbsY addr s
  | .stzAbs addr => Sys2Proof.Machine.execStzAbs addr s
  | .staAbsX addr => Sys2Proof.Machine.execStaAbsX addr s
  | .stzAbsX addr => Sys2Proof.Machine.execStzAbsX addr s
  | .staLongX addr => Sys2Proof.Machine.execStaLongX addr s
  | .ldyImm v => Sys2Proof.Machine.execLdyImm v s
  | .ldaDirXInd off => Sys2Proof.Machine.execLdaDirXInd off s
  | .ldxImm v => Sys2Proof.Machine.execLdxImm v s
  | .ldaStk off => Sys2Proof.Machine.execLdaStk off s
  | .ldyDir off => Sys2Proof.Machine.execLdyDir off s
  | .ldaDir off => Sys2Proof.Machine.execLdaDir off s
  | .ldxDir off => Sys2Proof.Machine.execLdxDir off s
  | .ldaDirIndLong off => Sys2Proof.Machine.execLdaDirIndLong off s
  | .ldaImm v => Sys2Proof.Machine.execLdaImm v s
  | .ldyAbs addr => Sys2Proof.Machine.execLdyAbs addr s
  | .ldaAbs addr => Sys2Proof.Machine.execLdaAbs addr s
  | .ldxAbs addr => Sys2Proof.Machine.execLdxAbs addr s
  | .ldaLong addr => Sys2Proof.Machine.execLdaLong addr s
  | .bcs off => Sys2Proof.Machine.execBcs off s
  | .ldaDirIndY off => Sys2Proof.Machine.execLdaDirIndY off s
  | .ldaDirInd off => Sys2Proof.Machine.execLdaDirInd off s
  | .ldaStkIndY off => Sys2Proof.Machine.execLdaStkIndY off s
  | .ldyDirX off => Sys2Proof.Machine.execLdyDirX off s
  | .ldaDirX off => Sys2Proof.Machine.execLdaDirX off s
  | .ldxDirY off => Sys2Proof.Machine.execLdxDirY off s
  | .ldaDirIndLongY off => Sys2Proof.Machine.execLdaDirIndLongY off s
  | .ldaAbsY addr => Sys2Proof.Machine.execLdaAbsY addr s
  | .ldyAbsX addr => Sys2Proof.Machine.execLdyAbsX addr s
  | .ldaAbsX addr => Sys2Proof.Machine.execLdaAbsX addr s
  | .ldxAbsY addr => Sys2Proof.Machine.execLdxAbsY addr s
  | .ldaLongX addr => Sys2Proof.Machine.execLdaLongX addr s
  | .cpyImm v => Sys2Proof.Machine.execCpyImm v s
  | .cmpDirXInd off => Sys2Proof.Machine.execCmpDirXInd off s
  | .rep mask => Sys2Proof.Machine.execRep mask s
  | .cmpStk off => Sys2Proof.Machine.execCmpStk off s
  | .cpyDir off => Sys2Proof.Machine.execCpyDir off s
  | .cmpDir off => Sys2Proof.Machine.execCmpDir off s
  | .decDir off => Sys2Proof.Machine.execDecDir off s
  | .cmpDirIndLong off => Sys2Proof.Machine.execCmpDirIndLong off s
  | .cmpImm v => Sys2Proof.Machine.execCmpImm v s
  | .cpyAbs addr => Sys2Proof.Machine.execCpyAbs addr s
  | .cmpAbs addr => Sys2Proof.Machine.execCmpAbs addr s
  | .decAbs addr => Sys2Proof.Machine.execDecAbs addr s
  | .cmpLong addr => Sys2Proof.Machine.execCmpLong addr s
  | .bne off => Sys2Proof.Machine.execBne off s
  | .cmpDirIndY off => Sys2Proof.Machine.execCmpDirIndY off s
  | .cmpDirInd off => Sys2Proof.Machine.execCmpDirInd off s
  | .cmpStkIndY off => Sys2Proof.Machine.execCmpStkIndY off s
  | .pei off => Sys2Proof.Machine.execPei off s
  | .cmpDirX off => Sys2Proof.Machine.execCmpDirX off s
  | .decDirX off => Sys2Proof.Machine.execDecDirX off s
  | .cmpDirIndLongY off => Sys2Proof.Machine.execCmpDirIndLongY off s
  | .cmpAbsY addr => Sys2Proof.Machine.execCmpAbsY addr s
  | .jml addr => Sys2Proof.Machine.execJml addr s
  | .cmpAbsX addr => Sys2Proof.Machine.execCmpAbsX addr s
  | .decAbsX addr => Sys2Proof.Machine.execDecAbsX addr s
  | .cmpLongX addr => Sys2Proof.Machine.execCmpLongX addr s
  | .cpxImm v => Sys2Proof.Machine.execCpxImm v s
  | .sbcDirXInd off => Sys2Proof.Machine.execSbcDirXInd off s
  | .sep mask => Sys2Proof.Machine.execSep mask s
  | .sbcStk off => Sys2Proof.Machine.execSbcStk off s
  | .cpxDir off => Sys2Proof.Machine.execCpxDir off s
  | .sbcDir off => Sys2Proof.Machine.execSbcDir off s
  | .incDir off => Sys2Proof.Machine.execIncDir off s
  | .sbcDirIndLong off => Sys2Proof.Machine.execSbcDirIndLong off s
  | .sbcImm v => Sys2Proof.Machine.execSbcImm v s
  | .cpxAbs addr => Sys2Proof.Machine.execCpxAbs addr s
  | .sbcAbs addr => Sys2Proof.Machine.execSbcAbs addr s
  | .incAbs addr => Sys2Proof.Machine.execIncAbs addr s
  | .sbcLong addr => Sys2Proof.Machine.execSbcLong addr s
  | .beq off => Sys2Proof.Machine.execBeq off s
  | .sbcDirIndY off => Sys2Proof.Machine.execSbcDirIndY off s
  | .sbcDirInd off => Sys2Proof.Machine.execSbcDirInd off s
  | .sbcStkIndY off => Sys2Proof.Machine.execSbcStkIndY off s
  | .pea v => Sys2Proof.Machine.execPea v s
  | .sbcDirX off => Sys2Proof.Machine.execSbcDirX off s
  | .incDirX off => Sys2Proof.Machine.execIncDirX off s
  | .sbcDirIndLongY off => Sys2Proof.Machine.execSbcDirIndLongY off s
  | .sbcAbsY addr => Sys2Proof.Machine.execSbcAbsY addr s
  | .jsrAbsXInd addr => Sys2Proof.Machine.execJsrAbsXInd addr s
  | .sbcAbsX addr => Sys2Proof.Machine.execSbcAbsX addr s
  | .incAbsX addr => Sys2Proof.Machine.execIncAbsX addr s
  | .sbcLongX addr => Sys2Proof.Machine.execSbcLongX addr s
  | .php => Sys2Proof.Machine.execPhp s
  | .aslAcc => Sys2Proof.Machine.execAslAcc s
  | .phd => Sys2Proof.Machine.execPhd s
  | .clc => Sys2Proof.Machine.execClc s
  | .incAcc => Sys2Proof.Machine.execIncAcc s
  | .tcs => Sys2Proof.Machine.execTcs s
  | .plp => Sys2Proof.Machine.execPlp s
  | .rolAcc => Sys2Proof.Machine.execRolAcc s
  | .pld => Sys2Proof.Machine.execPld s
  | .sec => Sys2Proof.Machine.execSec s
  | .decAcc => Sys2Proof.Machine.execDecAcc s
  | .tsc => Sys2Proof.Machine.execTsc s
  | .rti => Sys2Proof.Machine.execRti s
  | .pha => Sys2Proof.Machine.execPha s
  | .lsrAcc => Sys2Proof.Machine.execLsrAcc s
  | .phk => Sys2Proof.Machine.execPhk s
  | .cli => Sys2Proof.Machine.execCli s
  | .phy => Sys2Proof.Machine.execPhy s
  | .tcd => Sys2Proof.Machine.execTcd s
  | .rts => Sys2Proof.Machine.execRts s
  | .pla => Sys2Proof.Machine.execPla s
  | .rorAcc => Sys2Proof.Machine.execRorAcc s
  | .rtl => Sys2Proof.Machine.execRtl s
  | .sei => Sys2Proof.Machine.execSei s
  | .ply => Sys2Proof.Machine.execPly s
  | .tdc => Sys2Proof.Machine.execTdc s
  | .dey => Sys2Proof.Machine.execDey s
  | .txa => Sys2Proof.Machine.execTxa s
  | .phb => Sys2Proof.Machine.execPhb s
  | .tya => Sys2Proof.Machine.execTya s
  | .txs => Sys2Proof.Machine.execTxs s
  | .txy => Sys2Proof.Machine.execTxy s
  | .tay => Sys2Proof.Machine.execTay s
  | .tax => Sys2Proof.Machine.execTax s
  | .plb => Sys2Proof.Machine.execPlb s
  | .clv => Sys2Proof.Machine.execClv s
  | .tsx => Sys2Proof.Machine.execTsx s
  | .tyx => Sys2Proof.Machine.execTyx s
  | .iny => Sys2Proof.Machine.execIny s
  | .dex => Sys2Proof.Machine.execDex s
  | .wai => Sys2Proof.Machine.execWai s
  | .cld => Sys2Proof.Machine.execCld s
  | .phx => Sys2Proof.Machine.execPhx s
  | .stp => Sys2Proof.Machine.execStp s
  | .inx => Sys2Proof.Machine.execInx s
  | .nop => Sys2Proof.Machine.execNop s
  | .xba => Sys2Proof.Machine.execXba s
  | .sed => Sys2Proof.Machine.execSed s
  | .plx => Sys2Proof.Machine.execPlx s
  | .xce => Sys2Proof.Machine.execXce s

end Sys2Proof.Machine
end

