-- ==== Sys2Proof/Machine/Boundary.lean ====
section
/-!
DEFINITION. What happens at an instruction boundary (R441 to R443): the environment's inputs are sampled, RESB is obeyed, a
stopped or waiting processor stays so or wakes, the highest-priority pending interrupt is taken, else an instruction
executes, perhaps aborted (R470).
-/

namespace Sys2Proof.Machine

/-! ## The environment's inputs (log entry 12) -/

/-- The inputs when the environment has scheduled none: the levels stay, no edge, no pulse, and every read is
answered with what memory holds (DESIGN CHOICE, log entry 12). -/
def State.heldInput (s : State) : PinInput where
  resb := if s.resetLine then .low else .high
  nmiEdge := false
  irqLow := s.irqLine
  abort := .none
  rdyForcedHigh := s.rdyForcedHigh
  platform := []
  answers := []

/-- The inputs of the next step. -/
def State.input (s : State) : PinInput :=
  match s.env with
  | [] => s.heldInput
  | i :: _ => i

/-- The state with the inputs of this step consumed: what the platform shows and answers, and the two levels that need no
decision. -/
def State.sampled (s : State) : State :=
  { s.platformShows s.input.platform with
    answers := s.input.answers
    env := s.env.tail
    irqLine := s.input.irqLow
    rdyForcedHigh := s.input.rdyForcedHigh }

/-- An NMIB edge is latched (R48). -/
def State.latchNmi (edge : Bool) (s : State) : State := { s with nmiPending := s.nmiPending || edge }

/-- An ABORTB pulse while Waiting marks the WAI as aborted (R427): the latch takes its address, one before PC, unless it
holds the address already (log entry 24). -/
def State.latchAbortWaiting (s : State) : State :=
  { s with abortPending := some (s.abortPending.getD (bankAddr s.pbr (s.pc - 1))) }

/-! ## Recognition and priority (R441, R442) -/

/-- The interrupt sequence that is due, with its return address (R451): ABORT, then NMI, then IRQ if P.I = 0. -/
def State.nextSequence (s : State) : Option (InterruptKind × Byte × Word) :=
  match s.abortPending with
  | some a => some (.abort, addrBank a, addrOffset a)
  | none =>
    if s.nmiPending then some (.nmi, s.pbr, s.pc)
    else if s.irqLine && !s.flag .i then some (.irq, s.pbr, s.pc)
    else none

/-- Taking a sequence clears its latch (R48, R49, R443); IRQB has none (R50). -/
def State.clearLatch (kind : InterruptKind) (s : State) : State :=
  match kind with
  | .abort => { s with abortPending := none }
  | .nmi => { s with nmiPending := false }
  | .irq | .brk | .cop => s

/-- What a step is to do. -/
inductive Action where
  /-- The step is over, with this state. -/
  | settle (s : State)
  /-- The input is refused. -/
  | refuse (r : Refusal)
  /-- Execute the instruction at PBR:PC. -/
  | execute (s : State)
  /-- Execute the instruction at PBR:PC, aborted (R470). -/
  | executeAborted (s : State)

/-- The boundary of a running processor (R441): take the sequence that is due, else execute. ABORTB during a sequence is
refused (R472, U7), ABORTB outside its window too (R471, U6). -/
def recognise (abort : AbortInput) (s : State) : Action :=
  match s.nextSequence with
  | some (kind, bank, ret) =>
    if abort = .none then .settle ((s.clearLatch kind).interrupt kind bank ret) else .refuse .abortDuringSequence
  | none =>
    match abort with
    | .none => .execute s
    | .atStart => .executeAborted s
    | .inWindow => .executeAborted s
    | .outsideWindow => .refuse .abortOutsideWindow

/-! ## The wait of WAI (R426, R427) -/

/-- What ends the wait: an NMI edge latched, IRQB low (whatever P.I is) or RDY forced high. -/
def State.wakes (s : State) : Bool := s.nmiPending || s.irqLine || s.rdyForcedHigh

/-- The running processor that the wait leaves behind in this step, an ABORTB pulse of the wait latched. -/
def State.woken (input : PinInput) (s : State) : State :=
  let t := { s.latchNmi input.nmiEdge with run := .running }
  if input.abort = .atStart then t.latchAbortWaiting else t

/-- What is left of ABORTB once the wait is over: a pulse that came in the wait is latched and over. -/
def AbortInput.afterWait (abort : AbortInput) : AbortInput := if abort = .atStart then .none else abort

/-- The boundary of a waiting processor: when the wait ends, the step goes on as a running processor's; else ABORTB is
latched and the processor waits on. A pulse held too long is refused (U6). -/
def waitBoundary (input : PinInput) (s : State) : Action :=
  let t := s.latchNmi input.nmiEdge
  if t.wakes then recognise input.abort.afterWait (s.woken input)
  else match input.abort with
    | .none => .settle t
    | .atStart => .settle t.latchAbortWaiting
    | .inWindow => .settle t.latchAbortWaiting
    | .outsideWindow => .refuse .abortOutsideWindow

/-! ## A reset in mid-instruction (R501) -/

/-- The state in which this step's instruction or sequence begins; none if the step starts neither. -/
def State.begun (input : PinInput) (s : State) : Option State :=
  if s.resetLine then none
  else match s.run with
    | .running => some (s.latchNmi input.nmiEdge)
    | .waiting => if (s.latchNmi input.nmiEdge).wakes then some (s.woken input) else none
    | .stopped => none

/-- The accesses of the instruction or sequence that begins in a state. -/
def State.dueCycles (s : State) : List BusAccess :=
  match s.nextSequence with
  | some (kind, bank, ret) => interruptCycles kind bank ret s
  | none => busAccesses s.fetch s

/-- The PC that it leaves. -/
def State.duePc (s : State) : Word :=
  match s.nextSequence with
  | some (kind, bank, ret) => (s.interrupt kind bank ret).pc
  | none => match exec s.fetch s with
    | .next t => t.pc
    | .fault _ | .refused _ => s.pc

/-- RESB falls while the instruction or sequence that this step starts is in progress (R501): each of its writes is done or
not (U15; log entry 10), and PC holds the old or the new value (log entry 39). Every other register that it may write is forced or drawn
by `State.resetConditioning`. -/
def State.cutByReset (input : PinInput) (s : State) : State :=
  match s.begun input with
  | none => s
  | some t =>
    { s with
      mem := replayCut (Config.cutWriteDone s.draws) 0 t.dueCycles s.mem
      pc := if Config.cutPcWritten s.draws then t.duePc else s.pc }

/-! ## The boundary (R441) -/

/-- RESB returns high: the reset sequence (R502), in which ABORTB is refused (R472, U7). -/
def releaseBoundary (abort : AbortInput) (s : State) : Action :=
  if abort = .none then .settle s.resetExit else .refuse .abortDuringSequence

/-- The boundary (R441): RESB first, then the run state, then recognition. -/
def boundary (input : PinInput) (s : State) : Action :=
  match input.resb with
  | .low => .settle s.resetConditioning
  | .lowMidInstruction => .settle (s.cutByReset input).resetConditioning
  | .high =>
    if s.resetLine then releaseBoundary input.abort s
    else match s.run with
      | .stopped => .settle s
      | .waiting => waitBoundary input s
      | .running => recognise input.abort (s.latchNmi input.nmiEdge)

/-! ## An aborted instruction (R470) -/

/-- The state after an aborted instruction: every register as before it, its writes done or not by ABORT_WRITES (D15; log
entry 8), the latch set with the address of its opcode. `s` is the state before it and `t` the state it would have
given. An aborted WAI still waits: ABORTB "will abort the WAI instruction, but will not restart the processor" (R427); an
aborted STP does not stop (log entry 25). -/
def State.undo (s t : State) : State :=
  { s with
    run := if t.run = .waiting then .waiting else s.run
    mem := if Config.abortWritesPerformed then t.mem else s.mem
    draws := t.draws
    abortPending := some (bankAddr s.pbr s.pc) }

/-- BRK and COP are interrupt sequences, for which ABORTB is refused (U7). -/
def Instr.isSequence (i : Instr) : Bool := i.mnemonic == .BRK || i.mnemonic == .COP

/-- The outcome of an aborted instruction from the outcome it would have had. -/
def abortedResult (i : Instr) (s : State) (r : Result) : Result :=
  if Instr.isSequence i then .refused .abortDuringSequence
  else match r with
    | .next t => .next (s.undo t)
    | .fault f => .fault f
    | .refused why => .refused why

end Sys2Proof.Machine
end

