-- ==== Sys2Proof/Machine/Step.lean ====
section
/-!
DEFINITION. One step of the machine (R441): the inputs are sampled, and the boundary decides between an interrupt or reset
sequence, a wait, and the execution of one instruction (one byte of a block move).
-/

namespace Sys2Proof.Machine

/-- One step. -/
def step (s : State) : Host.Outcome State Fault Refusal :=
  match boundary s.input s.sampled with
  | .settle t => .next t
  | .refuse r => .refused r
  | .execute t => exec t.fetch t
  | .executeAborted t => abortedResult t.fetch t (exec t.fetch t)

/-- `s` with the instruction of the table's number `w` of `nbits` bits (the bits above are 0) stored at PBR:PC, four bytes
in ascending order, so that the next step of a running processor with nothing pending fetches and executes it, unless the
schedule has the platform answer that fetch itself (log entry 3). This is also how a program comes to memory: it is loaded
from outside (log entry 4). -/
def State.withFetchWord (s : State) (nbits w : Nat) : State :=
  let v := w % 2 ^ nbits
  (((s.storeByte (bankAddr s.pbr s.pc) (byteOfNat v 0)).storeByte (bankAddr s.pbr (s.pc + 1)) (byteOfNat v 1)).storeByte
    (bankAddr s.pbr (s.pc + 2)) (byteOfNat v 2)).storeByte (bankAddr s.pbr (s.pc + 3)) (byteOfNat v 3)

end Sys2Proof.Machine
end

