-- ==== Sys2Proof/Machine/Assembler.lean ====
section
/-!
DEFINITION. What the assembler conventions of 30_encoding.md compute (R128, R130, R131, R133): alternate mnemonics, the byte
selection of immediates, forced address sizes and the choice among JMP and JML. Source text itself is no part of the
machine (log entry 37).
-/

namespace Sys2Proof.Machine

/-! ## Alternate mnemonics (R128) -/

/-- The alternate mnemonics that name one instruction whatever their operand. -/
inductive AliasMnemonic where
  | BLT
  | BGE
  | DEA
  | INA
  | TAD
  | TAS
  | TDA
  | TSA
  | SWA
deriving DecidableEq, Repr

/-- The opcode each one assembles to. `CMA = CMP A` has no opcode (N18). -/
def AliasMnemonic.opcode : AliasMnemonic → Byte
  | .BLT => 0x90
  | .BGE => 0xB0
  | .DEA => 0x3A
  | .INA => 0x1A
  | .TAD => 0x5B
  | .TAS => 0x1B
  | .TDA => 0x7B
  | .TSA => 0x3B
  | .SWA => 0xEB

/-! ## Immediate byte selection (R130) -/

/-- The characters `<`, `>` and `^` after `#`. -/
inductive ByteSelect where
  | low
  | high
  | bank
deriving DecidableEq, Repr

/-- How far the selection starts, in bits. -/
def ByteSelect.shift : ByteSelect → Nat
  | .low => 0
  | .high => 8
  | .bank => 16

/-- The immediate assembled from a value, of one byte or of two. -/
def selectImm (narrow : Bool) (select : ByteSelect) (value : Nat) : Imm :=
  if narrow then .byte (BitVec.ofNat 8 (value / 2 ^ select.shift))
  else .word (BitVec.ofNat 16 (value / 2 ^ select.shift))

/-! ## Address size (R131) -/

/-- One byte (`<`), two bytes (`|` or `!`), three bytes (`>`). -/
inductive AddressSize where
  | direct
  | absolute
  | long
deriving DecidableEq, Repr

/-- The operand bytes of a value at a size: "truncated without error", or padded with zeroes. -/
def sizedBytes (size : AddressSize) (value : Nat) : List Byte :=
  match size with
  | .direct => [byteOfNat value 0]
  | .absolute => [byteOfNat value 0, byteOfNat value 1]
  | .long => [byteOfNat value 0, byteOfNat value 1, byteOfNat value 2]

/-! ## JMP and JML (R133) -/

/-- `JMP addr`: 4C when the address fits 16 bits, else 5C. -/
def assembleJmp (addr : Nat) : Instr :=
  if addr < 2 ^ 16 then .jmpAbs (BitVec.ofNat 16 addr) else .jmpLong (BitVec.ofNat 24 addr)

/-- `JML addr`: always 5C. -/
def assembleJml (addr : Nat) : Instr := .jmpLong (BitVec.ofNat 24 addr)

/-- `JMP (addr)`: 6C with the low 16 bits. -/
def assembleJmpIndirect (addr : Nat) : Instr := .jmpAbsInd (BitVec.ofNat 16 addr)

/-- `JMP [addr]` and `JML (addr)`: DC with the low 16 bits. -/
def assembleJmlIndirect (addr : Nat) : Instr := .jml (BitVec.ofNat 16 addr)

end Sys2Proof.Machine
end

