-- ==== Sys2Proof/Machine/Pins.lean ====
section
/-!
DEFINITION. The status outputs that are functions of the state (R52, R54, R60, R520). Those of a bus cycle are in
Machine/Bus.lean. No step reads them.
-/

namespace Sys2Proof.Machine

/-- The E output (R54). -/
def pinE (s : State) : Bool := s.e

/-- Whether the MX output is invalid in the opcode fetch that follows an instruction (R520); RTI is taken in because it
changes M and X too (U9; log entry 27). -/
def mxInvalidAfter : Mnemonic → Bool
  | .REP => true
  | .SEP => true
  | .PLP => true
  | .RTI => true
  | _ => false

/-- The MX output in the opcode fetch of the next instruction: its M half and its X half (R54). `previous` is the
instruction before. Where the output is invalid it shows a free value (U2, U9), which is that of the draw counter: two invalid
outputs between which nothing is drawn show the same; DESIGN CHOICE, log entry 27. -/
def pinMX (previous : Option Mnemonic) (s : State) : Bool × Bool :=
  match previous with
  | some mn => if mxInvalidAfter mn then Config.mxInvalid s.draws else (s.flag .m, s.flag .x)
  | none => (s.flag .m, s.flag .x)

/-- RDY as an output: pulled low (`true`) by the wait of WAI (R52's `WAI_wait`), and high again when RESB, ABORTB, NMIB or
IRQB is active (R52, R426), though after ABORTB the processor waits on (R427). -/
def pinRdyPulledLow (s : State) : Bool :=
  s.run == .waiting && !s.resetLine && s.abortPending.isNone && !s.nmiPending && !s.irqLine

/-- The outputs while RESB is low (R60): E = 1, MX = 1, RWB = 1, VDA = 0, VPB = 1, VPA = 0. -/
structure ResetPins where
  e : Bool
  mx : Bool × Bool
  rwb : Bool
  vda : Bool
  vpb : Bool
  vpa : Bool
deriving DecidableEq, Repr

/-- Their values (R60, R501). -/
def resetPins : ResetPins where
  e := true
  mx := (true, true)
  rwb := true
  vda := false
  vpb := true
  vpa := false

end Sys2Proof.Machine
end

