-- ==== Sys2Proof/Machine/Timing.lean ====
section
/-!
DEFINITION. Cycle counts (R530, R481): PHI2 cycles of each instruction and of each sequence. They change no result and no step
uses them (log entry 36).
-/

namespace Sys2Proof.Machine

/-- The `cycles` figures of the opcode matrix (R117), sixteen rows of sixteen, with FC taken as 8 and 82 as 4 as R530 says; a
taken branch is counted by `branchCycles`, which makes 80 BRA 3. -/
def baseCycleTable : List (List Nat) := [
  [7, 6, 7, 4, 5, 3, 5, 6, 3, 2, 2, 4, 6, 4, 6, 5],
  [2, 5, 5, 7, 5, 4, 6, 6, 2, 4, 2, 2, 6, 4, 7, 5],
  [6, 6, 8, 4, 3, 3, 5, 6, 4, 2, 2, 5, 4, 4, 6, 5],
  [2, 5, 5, 7, 4, 4, 6, 6, 2, 4, 2, 2, 4, 4, 7, 5],
  [7, 6, 2, 4, 7, 3, 5, 6, 3, 2, 2, 3, 3, 4, 6, 5],
  [2, 5, 5, 7, 7, 4, 6, 6, 2, 4, 3, 2, 4, 4, 7, 5],
  [6, 6, 6, 4, 3, 3, 5, 6, 4, 2, 2, 6, 5, 4, 6, 5],
  [2, 5, 5, 7, 4, 4, 6, 6, 2, 4, 4, 2, 6, 4, 7, 5],
  [2, 6, 4, 4, 3, 3, 3, 6, 2, 2, 2, 3, 4, 4, 4, 5],
  [2, 6, 5, 7, 4, 4, 4, 6, 2, 5, 2, 2, 4, 5, 5, 5],
  [2, 6, 2, 4, 3, 3, 3, 6, 2, 2, 2, 4, 4, 4, 4, 5],
  [2, 5, 5, 7, 4, 4, 4, 6, 2, 4, 2, 2, 4, 4, 4, 5],
  [2, 6, 3, 4, 3, 3, 5, 6, 2, 2, 2, 3, 4, 4, 6, 5],
  [2, 5, 5, 7, 6, 4, 6, 6, 2, 4, 3, 3, 6, 4, 7, 5],
  [2, 6, 3, 4, 3, 3, 5, 6, 2, 2, 2, 3, 4, 4, 6, 5],
  [2, 5, 5, 7, 5, 4, 6, 6, 2, 4, 4, 2, 8, 4, 7, 5]]

/-- The figure of an opcode. -/
def baseCycles (op : Byte) : Nat := (baseCycleTable.getD (op.toNat / 16) []).getD (op.toNat % 16) 0

/-- One cycle if the width is 16 bits. -/
def Width.extra : Width → Nat
  | .w8 => 0
  | .w16 => 1

/-- Note 1: one cycle for 16-bit data; a 16-bit read-modify-write of memory adds two. -/
def widthCycles (i : Instr) (s : State) : Nat :=
  match i.mnemonic with
  | .ADC | .SBC | .AND | .ORA | .EOR | .CMP | .BIT | .LDA | .STA | .STZ | .PHA | .PLA => s.wA.extra
  | .CPX | .CPY | .LDX | .LDY | .STX | .STY | .PHX | .PHY | .PLX | .PLY => s.wX.extra
  | .INC | .DEC | .ASL | .LSR | .ROL | .ROR | .TSB | .TRB => if i.operand = .acc then 0 else 2 * s.wA.extra
  | .BCC | .BCS | .BEQ | .BMI | .BNE | .BPL | .BRA | .BRK | .BRL | .BVC | .BVS | .CLC | .CLD | .CLI | .CLV | .COP | .DEX
  | .DEY | .INX | .INY | .JML | .JMP | .JSL | .JSR | .MVN | .MVP | .NOP | .PEA | .PEI | .PER | .PHB | .PHD | .PHK | .PHP
  | .PLB | .PLD | .PLP | .REP | .RTI | .RTL | .RTS | .SEC | .SED | .SEI | .SEP | .STP | .TAX | .TAY | .TCD | .TCS | .TDC
  | .TSC | .TSX | .TXA | .TXS | .TXY | .TYA | .TYX | .WAI | .WDM | .XBA | .XCE => 0

/-- Note 2: one cycle for a direct-page operand when DL is not 0 (R159, R335). -/
def directCycles (i : Instr) (s : State) : Nat :=
  let direct := match i.operand with
    | .dir _ | .dirX _ | .dirY _ | .dirInd _ | .dirXInd _ | .dirIndY _ | .dirIndLong _ | .dirIndLongY _ => true
    | .stack1 _ => i.mnemonic == .PEI
    | .implied | .acc | .stack0 | .stack2 _ | .imm _ | .rel _ | .relLong _ | .stk _ | .stkIndY _ | .abs _ | .absX _
    | .absY _ | .long _ | .longX _ | .absInd _ | .absXInd _ | .blockMove _ _ | .wdm _ => false
  if direct && loByte s.d != 0x00 then 1 else 0

/-- Whether two addresses lie in different pages. -/
def pageCrossed (a b : Word) : Bool := hiByte a != hiByte b

/-- The instructions that only read their operand; for a store or a read-modify-write the cycle of note 4 is in the base
figure. -/
def readsOnly : Mnemonic → Bool
  | .ADC | .SBC | .AND | .ORA | .EOR | .CMP | .BIT | .LDA | .LDX | .LDY => true
  | _ => false

/-- Note 4: one cycle for indexing across a page, or with 16-bit index registers. -/
def indexCycles (i : Instr) (s : State) : Nat :=
  let cost (base index : Word) := if s.wX = .w16 || pageCrossed base (base + index) then 1 else 0
  if readsOnly i.mnemonic then
    match i.operand with
    | .absX addr => cost addr s.x
    | .absY addr => cost addr s.y
    | .dirIndY off => cost (dpPointer s off 0) s.y
    | .implied | .acc | .stack0 | .stack1 _ | .stack2 _ | .imm _ | .rel _ | .relLong _ | .dir _ | .dirX _ | .dirY _
    | .dirInd _ | .dirXInd _ | .dirIndLong _ | .dirIndLongY _ | .stk _ | .stkIndY _ | .abs _ | .long _ | .longX _
    | .absInd _ | .absXInd _ | .blockMove _ _ | .wdm _ => 0
  else 0

/-- Whether a relative branch is taken (R281 to R289). -/
def branchTaken (mn : Mnemonic) (s : State) : Bool :=
  match mn with
  | .BCC => !s.flag .c
  | .BCS => s.flag .c
  | .BEQ => s.flag .z
  | .BNE => !s.flag .z
  | .BMI => s.flag .n
  | .BPL => !s.flag .n
  | .BVC => !s.flag .v
  | .BVS => s.flag .v
  | .BRA => true
  | _ => false

/-- Notes 5 and 6: one cycle if the branch is taken, one more if it is taken across a page with E = 1. -/
def branchCycles (i : Instr) (s : State) : Nat :=
  match i.operand with
  | .rel off =>
    let t := s.past i.operand
    if branchTaken i.mnemonic s then
      1 + (if s.e && pageCrossed t.pc (relTarget off t) then 1 else 0)
    else 0
  | .implied | .acc | .stack0 | .stack1 _ | .stack2 _ | .imm _ | .relLong _ | .dir _ | .dirX _ | .dirY _ | .dirInd _
  | .dirXInd _ | .dirIndY _ | .dirIndLong _ | .dirIndLongY _ | .stk _ | .stkIndY _ | .abs _ | .absX _ | .absY _ | .long _
  | .longX _ | .absInd _ | .absXInd _ | .blockMove _ _ | .wdm _ => 0

/-- The cycles of an interrupt sequence, of BRK and of COP (R481): 7 with E = 1, 8 with E = 0 (note 7). -/
def sequenceCycles (s : State) : Nat := if s.e then 7 else 8

/-- The cycles of the reset sequence: entry 22a in its Emulation-mode form (R502). -/
def resetSequenceCycles : Nat := 7

/-- The cycles of an instruction in a state: for MVN and MVP, of the one byte that the step moves; for WAI and STP, before
the wait. BRK, COP and RTI follow R481. -/
def instrCycles (i : Instr) (s : State) : Nat :=
  match i.mnemonic with
  | .BRK | .COP => sequenceCycles s
  | .RTI => if s.e then 6 else 7
  | _ => baseCycles i.opcode + widthCycles i s + directCycles i s + indexCycles i s + branchCycles i s

end Sys2Proof.Machine
end

