-- ==== Sys2Proof/Safety.lean ====
section
/-!
DEFINITION. The terms that claims are stated in: the registers by name, what a step leaves unchanged (Frame), a value
written at a width, the signed value of an operand, the slots of the stack, what an interrupt sequence does, the
invariant of the machine, and an undisturbed state.
-/

namespace Sys2Proof.Machine

/-! ## Registers and frames -/

/-- The registers of R20 that hold bytes and words; P is spoken of by its flags. -/
inductive Reg where
  | c
  | x
  | y
  | sp
  | d
  | pc
  | dbr
  | pbr
deriving DecidableEq, Repr

/-- A register's contents, the bank registers zero-extended. -/
def State.reg (s : State) : Reg → Word
  | .c => s.c
  | .x => s.x
  | .y => s.y
  | .sp => s.sp
  | .d => s.d
  | .pc => s.pc
  | .dbr => zext8 s.dbr
  | .pbr => zext8 s.pbr

/-- `t` differs from `s` at most in the registers `regs`, the flags `flags` and the bytes at the addresses `stored`: every
other register, flag and byte, E, the run state, the latches, the levels of the pins, the scheduled inputs, the draw counter
and the platform's answers are the same. -/
structure Frame (regs : List Reg) (flags : List Flag) (stored : List Addr) (s t : State) : Prop where
  reg : ∀ r, r ∉ regs → t.reg r = s.reg r
  flag : ∀ f, f ∉ flags → t.flag f = s.flag f
  byte : ∀ a, a ∉ stored → t.byteAt a = s.byteAt a
  e : t.e = s.e
  run : t.run = s.run
  nmiPending : t.nmiPending = s.nmiPending
  abortPending : t.abortPending = s.abortPending
  irqLine : t.irqLine = s.irqLine
  resetLine : t.resetLine = s.resetLine
  rdyForcedHigh : t.rdyForcedHigh = s.rdyForcedHigh
  env : t.env = s.env
  draws : t.draws = s.draws
  answers : t.answers = s.answers

/-! ## Values at a width -/

/-- Of a 16-bit register that held `old`, `new` is the contents after a write of `v` at a width: at 8 bits the low byte
of `v` and the old high byte, at 16 bits `v`. -/
def Width.wrote (w : Width) (old v new : Word) : Prop :=
  match w with
  | .w8 => loByte new = loByte v ∧ hiByte new = hiByte old
  | .w16 => new = v

/-- The unsigned value of the low `w` bits. -/
def Width.value (w : Width) (v : Word) : Nat := v.toNat % 2 ^ w.bits

/-- The two's complement value of the low `w` bits. -/
def Width.signed (w : Width) (v : Word) : Int :=
  if w.value v < 2 ^ (w.bits - 1) then (w.value v : Int) else (w.value v : Int) - (2 ^ w.bits : Nat)

/-- A number is a two's complement value of `w` bits. -/
def Width.representable (w : Width) (n : Int) : Prop :=
  -((2 ^ (w.bits - 1) : Nat) : Int) ≤ n ∧ n < ((2 ^ (w.bits - 1) : Nat) : Int)

/-- N is the top bit of `v` at a width, and Z says whether `v` is zero at that width. -/
def Width.nzOf (w : Width) (v : Word) (t : State) : Prop :=
  (t.flag .n = true ↔ 2 ^ (w.bits - 1) ≤ w.value v) ∧ (t.flag .z = true ↔ w.value v = 0)

/-- The bytes of a value at a width in memory order, low byte first. -/
def Width.bytesOf (w : Width) (v : Word) : List Byte :=
  match w with
  | .w8 => [loByte v]
  | .w16 => [loByte v, hiByte v]

/-- The value of the operand of an instruction, read in the state it starts in. -/
def State.operandValue (s : State) (w : Width) (i : Instr) : Word := (s.locate i.operand).read w s

/-- The addresses of the operand of an instruction. -/
def State.operandAddrs (s : State) (w : Width) (i : Instr) : List Addr := (s.locate i.operand).addrs w

/-- PC past an instruction (R27). -/
def State.pcPast (s : State) (i : Instr) : Word := s.pc + BitVec.ofNat 16 i.length

/-- `t` is `s` after an instruction that writes `v` back to its own operand: to the accumulator for the form `A`, else to
the operand's bytes in memory (R250). The flags `flags` may change. -/
def State.wroteBack (s : State) (w : Width) (i : Instr) (v : Word) (flags : List Flag) (t : State) : Prop :=
  if i.operand = .acc then w.wrote s.c v t.c ∧ Frame [.c, .pc] flags [] s t
  else (s.operandAddrs w i).map t.byteAt = w.bytesOf v ∧ Frame [.pc] flags (s.operandAddrs w i) s t

/-! ## The stack -/

/-- Where the byte after `k` ordinary pushes goes, and S after them (R165): page 1 keeps its high byte with E = 1. -/
def State.slotDown (s : State) (k : Nat) : Word :=
  if s.e then hiByte s.sp ++ (loByte s.sp - BitVec.ofNat 8 k) else s.sp - BitVec.ofNat 16 k

/-- Where the byte of the `k`-th ordinary pull (from 1) comes from, and S after it (R166). -/
def State.slotUp (s : State) (k : Nat) : Word :=
  if s.e then hiByte s.sp ++ (loByte s.sp + BitVec.ofNat 8 k) else s.sp + BitVec.ofNat 16 k

/-- The addresses of `n` ordinary pushes, in the order they are made. -/
def State.pushed (s : State) (n : Nat) : List Addr := (List.range n).map fun k => bank0 (s.slotDown k)

/-- S after a wide-stack instruction that leaves 16-bit arithmetic at `sp`: SH is 01 again if E = 1 (R167, R168). -/
def State.wideEnd (s : State) (sp : Word) : Word := if s.e then (0x01 : Byte) ++ loByte sp else sp

/-- The addresses of `n` wide pushes, in the order they are made (R167). -/
def State.widePushed (s : State) (n : Nat) : List Addr := (List.range n).map fun k => bank0 (s.sp - BitVec.ofNat 16 k)

/-! ## Interrupt sequences -/

/-- How many bytes an interrupt frame has: 4 in Native mode, 3 in Emulation mode (R450). -/
def State.frameSize (s : State) : Nat := if s.e then 3 else 4

/-- `t` is `s` after the interrupt sequence of a kind with return address `bank:ret` (R450): the frame stands on the
stack, I = 1, D = 0, PBR = 00, PC holds the vector's contents, the processor runs, the rest is unchanged. -/
structure Entered (kind : InterruptKind) (bank : Byte) (ret : Word) (s t : State) : Prop where
  frame : (s.pushed s.frameSize).map t.byteAt =
    (if s.e then [] else [bank]) ++ [hiByte ret, loByte ret, kind.pImage s.e s.p]
  sp : t.sp = s.slotDown s.frameSize
  i : t.flag .i = true
  d : t.flag .d = false
  pbr : t.pbr = 0x00
  pc : t.pc = wordOfBytes (t.read .vector (bank0 (kind.vector s.e))) (t.read .vector (bank0 (kind.vector s.e + 1)))
  run : t.run = .running
  rest : Frame [.sp, .pc, .pbr] [.i, .d] (s.pushed s.frameSize) s { t with run := s.run }

/-! ## Block moves -/

/-- An index register after `k` steps of `delta` at a width. -/
def Width.stepped (w : Width) (v delta : Word) (k : Nat) : Word :=
  match w with
  | .w8 => hiByte v ++ (loByte v + loByte delta * BitVec.ofNat 8 k)
  | .w16 => v + delta * BitVec.ofNat 16 k

/-- The same instruction executed `n` times. -/
def execTimes (i : Instr) : Nat → State → Result
  | 0, s => .next s
  | n + 1, s =>
    match exec i s with
    | .next t => execTimes i n t
    | .fault f => .fault f
    | .refused r => .refused r

/-! ## The invariant -/

/-- What every step keeps: with E = 1 the M and X flags are 1 and SH is 01 (R23, R36); with P.X = 1 the high bytes of X and
Y are zero (R22); memory is in its canonical form; and while RESB is low the forced values stand (R60). -/
structure State.Inv (s : State) : Prop where
  emulation : s.e = true → s.flag .m = true ∧ s.flag .x = true ∧ hiByte s.sp = 0x01
  index : s.flag .x = true → hiByte s.x = 0x00 ∧ hiByte s.y = 0x00
  memory : Memory.wf s.mem = true
  reset : s.resetLine = true →
    s.e = true ∧ s.d = 0x0000 ∧ s.dbr = 0x00 ∧ s.pbr = 0x00 ∧ s.flag .i = true ∧ s.flag .d = false

/-! ## Undisturbed states -/

/-- The next step of `s` executes an instruction to its end: RESB and ABORTB stay high, the processor runs, and no interrupt
sequence is due. -/
structure State.undisturbed (s : State) : Prop where
  running : s.run = .running
  noReset : s.resetLine = false
  resbHigh : s.input.resb = .high
  noAbort : s.input.abort = .none
  abortDone : s.abortPending = none
  nmiDone : s.nmiPending = false
  noNmi : s.input.nmiEdge = false
  irqOff : s.input.irqLow = false ∨ s.flag .i = true

/-- A safe step: it answers a next state. The only steps that do not are those that meet ABORTB where the spec refuses it. -/
def safeStep (s : State) : Prop := ∃ t, step s = .next t

end Sys2Proof.Machine
end

