-- ==== Sys2Proof/Certificates/Slice0/Obligations.lean ====
section
/-!
DEFINITION. The statements for the provers. "t" is the state after, "s" the state before. A result statement has as its
conclusion that `exec` answers a next state, what that state holds, and by `Frame` that nothing else changed.
-/

section

open Sys2Proof
open Sys2Proof.Machine

/-! ## Decoding and encoding -/

/-- Decoding an encoded well-formed instruction gives it back, whatever bytes follow (30_encoding.md, R110 to R114). -/
def Obligations.DecodeOfEncode : Prop :=
  ∀ (m x : Bool) (i : Instr) (rest : List Byte),
    i.wellFormed m x = true → decode m x (encode i ++ rest) = .ok i rest

/-- What the decoder accepts is the encoding of its answer, and its answer is well-formed: no bit of a word is dropped. -/
def Obligations.EncodeOfDecode : Prop :=
  ∀ (m x : Bool) (bytes : List Byte) (i : Instr) (rest : List Byte),
    decode m x bytes = .ok i rest → bytes = encode i ++ rest ∧ i.wellFormed m x = true

/-- R124: every value of the first byte is an instruction, with every value of the bytes after it, and every instruction
executes in every state of either mode. -/
def Obligations.EveryOpcodeExecutes : Prop :=
  (∀ (m x : Bool) (op b1 b2 b3 : Byte) (rest : List Byte),
    ∃ i after, decode m x (op :: b1 :: b2 :: b3 :: rest) = .ok i after ∧ i.opcode = op) ∧
  ∀ (i : Instr) (s : State), ∃ t, exec i s = .next t

/-- R112: the eight immediates that P.M governs, the four that P.X governs, REP and SEP with one operand byte, every other
opcode of one length; the flags are those at the fetch; in Emulation mode all immediates have one byte. -/
def Obligations.ImmediateLengths : Prop :=
  (∀ i : Instr, i.opcode ∈ [0x09, 0x29, 0x49, 0x69, 0x89, 0xA9, 0xC9, 0xE9] ↔
    ∃ v, i ∈ [.oraImm v, .andImm v, .eorImm v, .adcImm v, .bitImm v, .ldaImm v, .cmpImm v, .sbcImm v]) ∧
  (∀ i : Instr, i.opcode ∈ [0xA0, 0xA2, 0xC0, 0xE0] ↔ ∃ v, i ∈ [.ldyImm v, .ldxImm v, .cpyImm v, .cpxImm v]) ∧
  (∀ (m x : Bool) (i : Instr), i.wellFormed m x = true →
    (i.opcode ∈ [0x09, 0x29, 0x49, 0x69, 0x89, 0xA9, 0xC9, 0xE9] → i.length = if m then 2 else 3) ∧
    (i.opcode ∈ [0xA0, 0xA2, 0xC0, 0xE0] → i.length = if x then 2 else 3)) ∧
  (∀ i : Instr, i.opcode ∈ [0xC2, 0xE2] → i.length = 2 ∧ ∀ s : State, instrCycles i s = 3) ∧
  (∀ i j : Instr, i.opcode = j.opcode →
    i.opcode ∉ [0x09, 0x29, 0x49, 0x69, 0x89, 0xA9, 0xC9, 0xE9, 0xA0, 0xA2, 0xC0, 0xE0] → i.length = j.length) ∧
  (∀ s : State, s.fetch.wellFormed (s.flag .m) (s.flag .x) = true) ∧
  ∀ s : State, s.Inv → s.e = true → ∀ v, s.fetch.operand = .imm v → s.fetch.length = 2

/-- Words written out from the formats of R111 and the cells of R117 decode to their instructions, one and more of each
family. -/
def Obligations.DecodeWords : Prop :=
  decode true true [0xA9, 0x34] = .ok (.ldaImm (.byte 0x34)) [] ∧
  decode false true [0xA9, 0x34, 0x12] = .ok (.ldaImm (.word 0x1234)) [] ∧
  decode true true [0x8F, 0x56, 0x34, 0x12] = .ok (.staLong 0x123456) [] ∧
  decode true true [0x71, 0x10] = .ok (.adcDirIndY 0x10) [] ∧
  decode true true [0x1E, 0x34, 0x12] = .ok (.aslAbsX 0x1234) [] ∧
  decode true true [0xF0, 0xFE] = .ok (.beq 0xFE) [] ∧
  decode true true [0xFC, 0x34, 0x12] = .ok (.jsrAbsXInd 0x1234) [] ∧
  decode true true [0x62, 0x34, 0x12] = .ok (.per 0x1234) [] ∧
  decode true true [0xFB] = .ok .xce [] ∧
  decode true true [0x54, 0x02, 0x01] = .ok (.mvn 0x02 0x01) [] ∧
  decode true true [0x02, 0x7F] = .ok (.cop 0x7F) []

/-! ## The machine -/

/-- State.reset meets the invariant and holds every value that R60 forces; PC is what the reset vector holds in its
memory. What R61 leaves open is not spoken of (log entry 1 names the model's values). -/
def Obligations.ResetState : Prop :=
  State.reset.Inv ∧ State.reset.d = 0x0000 ∧ State.reset.dbr = 0x00 ∧ State.reset.pbr = 0x00 ∧
  hiByte State.reset.sp = 0x01 ∧ hiByte State.reset.x = 0x00 ∧ hiByte State.reset.y = 0x00 ∧
  State.reset.e = true ∧ State.reset.flag .m = true ∧ State.reset.flag .x = true ∧
  State.reset.flag .d = false ∧ State.reset.flag .i = true ∧ State.reset.run = .running ∧
  State.reset.pc = wordOfBytes (State.reset.byteAt 0x00FFFC) (State.reset.byteAt 0x00FFFD)

/-- Every step keeps the invariant: Emulation mode has M = X = 1 and SH = 01 (R23, R36), 8-bit index registers have zero
high bytes (R22), memory keeps its canonical form, and the values that RESB low forces stand (R60). -/
def Obligations.StepKeepsInvariant : Prop :=
  ∀ s t : State, s.Inv → step s = .next t → t.Inv

/-- A step of an undisturbed processor runs the instruction that the bytes at PBR:PC decode to, with the widths in force,
after the inputs of this step were taken from the schedule. What is read is the platform's (R7's MEM, D1): its own answer
to that read access, the first if it lists more, else the byte that memory holds, which is the last byte it shows anew at
that address, every other address holding what it held. That the platform's answers come by a schedule is how the model
takes them (log entries 3 and 12). -/
def Obligations.StepRunsDecoded : Prop :=
  (∀ (s s0 : State) (i : Instr) (rest : List Byte), s.undisturbed →
    s0 = { s.platformShows s.input.platform with
      answers := s.input.answers, env := s.env.tail, irqLine := s.input.irqLow, rdyForcedHigh := s.input.rdyForcedHigh } →
    decode (s.flag .m) (s.flag .x) [s0.codeByte 0, s0.codeByte 1, s0.codeByte 2, s0.codeByte 3] = .ok i rest →
    step s = exec i s0) ∧
  (∀ (s : State) (kind : ReadKind) (a : Addr), (∀ x ∈ s.answers, ¬ (x.kind = kind ∧ x.addr = a)) →
    s.read kind a = s.byteAt a) ∧
  (∀ (s : State) (x : Answer) (before later : List Answer), s.answers = before ++ x :: later →
    (∀ y ∈ before, ¬ (y.kind = x.kind ∧ y.addr = x.addr)) → s.read x.kind x.addr = x.data) ∧
  ∀ (s : State) (cells : List (Addr × Byte)),
    (∀ a, a ∉ cells.map Prod.fst → (s.platformShows cells).byteAt a = s.byteAt a) ∧
    ∀ a v before later, cells = before ++ (a, v) :: later → a ∉ later.map Prod.fst →
      (s.platformShows cells).byteAt a = v

/-- When a step stops: never without ABORTB, with RESB low or while stopped. ABORTB is refused in the step that releases
RESB and where a sequence is due or the instruction is BRK or COP (R472, U7), and outside its window or held too long
(R471, U6); a pulse in the wait (R427) or inside the window of another instruction (R470) is not. That `atStart` and
`inWindow` tell these apart is how the model takes its inputs (log entries 12 and 24). -/
def Obligations.StepStops : Prop :=
  ∀ s : State,
    (s.input.abort = .none ∨ s.input.resb ≠ .high ∨ (s.resetLine = false ∧ s.run = .stopped) → safeStep s) ∧
    (s.input.abort ≠ .none → s.input.resb = .high → s.resetLine = true → step s = .refused .abortDuringSequence) ∧
    ∀ awake : Prop,
      (awake ↔ s.nmiPending = true ∨ s.input.nmiEdge = true ∨ s.input.irqLow = true ∨ s.input.rdyForcedHigh = true) →
      s.input.abort ≠ .none → s.input.resb = .high → s.resetLine = false →
      (s.run = .waiting → ¬ awake →
        (s.input.abort = .outsideWindow → step s = .refused .abortOutsideWindow) ∧
        (s.input.abort ≠ .outsideWindow → safeStep s)) ∧
      (s.run = .waiting → awake → s.input.abort = .atStart → safeStep s) ∧
      (s.run = .running ∨ (s.run = .waiting ∧ awake ∧ s.input.abort ≠ .atStart) →
        (s.abortPending ≠ none ∨ s.nmiPending = true ∨ s.input.nmiEdge = true ∨
          (s.input.irqLow = true ∧ s.flag .i = false) → step s = .refused .abortDuringSequence) ∧
        (s.abortPending = none → s.nmiPending = false → s.input.nmiEdge = false →
          (s.input.irqLow = false ∨ s.flag .i = true) →
            (s.input.abort = .outsideWindow → step s = .refused .abortOutsideWindow) ∧
            (s.input.abort ≠ .outsideWindow → s.sampled.fetch.mnemonic ∈ [.BRK, .COP] →
              step s = .refused .abortDuringSequence) ∧
            (s.input.abort ≠ .outsideWindow → s.sampled.fetch.mnemonic ∉ [.BRK, .COP] → safeStep s)))

/-- Which instructions can change which register (R23 to R26, R36, R40): no other instruction changes it. -/
def Obligations.RegisterWriters : Prop :=
  ∀ (i : Instr) (s t : State), exec i s = .next t →
    (t.c ≠ s.c → i.mnemonic ∈ [.ADC, .AND, .ASL, .DEC, .EOR, .INC, .LDA, .LSR, .ORA, .PLA, .ROL, .ROR, .SBC, .TDC, .TSC,
      .TXA, .TYA, .XBA, .MVN, .MVP]) ∧
    (t.x ≠ s.x → i.mnemonic ∈ [.DEX, .INX, .LDX, .PLX, .TAX, .TSX, .TYX, .MVN, .MVP, .SEP, .PLP, .RTI, .XCE]) ∧
    (t.y ≠ s.y → i.mnemonic ∈ [.DEY, .INY, .LDY, .PLY, .TAY, .TXY, .MVN, .MVP, .SEP, .PLP, .RTI, .XCE]) ∧
    (t.sp ≠ s.sp → i.mnemonic ∈ [.TXS, .TCS, .XCE, .PHA, .PHB, .PHD, .PHK, .PHP, .PHX, .PHY, .PEA, .PEI, .PER, .PLA, .PLB,
      .PLD, .PLP, .PLX, .PLY, .JSR, .JSL, .RTS, .RTL, .RTI, .BRK, .COP]) ∧
    (t.d ≠ s.d → i.mnemonic ∈ [.TCD, .PLD]) ∧
    (t.dbr ≠ s.dbr → i.mnemonic ∈ [.PLB, .MVN, .MVP]) ∧
    (t.pbr ≠ s.pbr → i.mnemonic ∈ [.RTI, .RTL, .JML, .JSL, .BRK, .COP] ∨ ∃ addr, i = .jmpLong addr) ∧
    (t.e ≠ s.e → i = .xce) ∧
    (s.run = .running → t.run ≠ .running → i = .wai ∨ i = .stp)

/-- Which instructions can change which flag (R29 to R37, R66). -/
def Obligations.FlagWriters : Prop :=
  ∀ (i : Instr) (s t : State), exec i s = .next t →
    (t.flag .n ≠ s.flag .n → i.mnemonic ∈ [.LDA, .LDX, .LDY, .PLA, .PLX, .PLY, .PLB, .PLD, .TAX, .TAY, .TCD, .TDC, .TSC,
      .TSX, .TXA, .TXY, .TYA, .TYX, .ADC, .SBC, .AND, .ORA, .EOR, .CMP, .CPX, .CPY, .BIT, .ASL, .LSR, .ROL, .ROR, .INC,
      .DEC, .INX, .INY, .DEX, .DEY, .XBA, .PLP, .RTI, .REP, .SEP]) ∧
    (t.flag .v ≠ s.flag .v → i.mnemonic ∈ [.ADC, .SBC, .BIT, .CLV, .PLP, .RTI, .REP, .SEP]) ∧
    (t.flag .m ≠ s.flag .m → i.mnemonic ∈ [.PLP, .RTI, .REP, .SEP, .XCE]) ∧
    (t.flag .x ≠ s.flag .x → i.mnemonic ∈ [.PLP, .RTI, .REP, .SEP, .XCE]) ∧
    (t.flag .d ≠ s.flag .d → i.mnemonic ∈ [.SED, .CLD, .PLP, .RTI, .REP, .SEP, .BRK, .COP]) ∧
    (t.flag .i ≠ s.flag .i → i.mnemonic ∈ [.SEI, .CLI, .PLP, .RTI, .REP, .SEP, .BRK, .COP]) ∧
    (t.flag .z ≠ s.flag .z → i.mnemonic ∈ [.LDA, .LDX, .LDY, .PLA, .PLX, .PLY, .PLB, .PLD, .TAX, .TAY, .TCD, .TDC, .TSC,
      .TSX, .TXA, .TXY, .TYA, .TYX, .ADC, .SBC, .AND, .ORA, .EOR, .CMP, .CPX, .CPY, .BIT, .TSB, .TRB, .ASL, .LSR, .ROL,
      .ROR, .INC, .DEC, .INX, .INY, .DEX, .DEY, .XBA, .PLP, .RTI, .REP, .SEP]) ∧
    (t.flag .c ≠ s.flag .c → i.mnemonic ∈ [.ADC, .SBC, .CMP, .CPX, .CPY, .ASL, .LSR, .ROL, .ROR, .CLC, .SEC, .XCE, .PLP,
      .RTI, .REP, .SEP])

/-- The writes of the bus trace, replayed in order on the memory before, give the memory after, for every instruction: the
byte accesses of R78 and the meanings of the family files agree. -/
def Obligations.BusTraceGivesMemory : Prop :=
  ∀ (i : Instr) (s t : State), exec i s = .next t → t.mem = replayWrites (busAccesses i s) s.mem

/-! ## Operands -/

/-- Effective addresses of the modes that reach all of memory (R141, R142, R145, R146, R148, R149, R152, R155 to R158,
R171): sums carry into the bank (R141 (a), 90_conflicts.md C22); the high byte of a word is at the next 24-bit address.
The wrap at the top of memory is the spec's decision D3, the wraps of pointer bytes its decision D4, and the sum of
(d,s),y's pointer its decision D2 (log entry 21). -/
def Obligations.EffectiveAddressesLong : Prop :=
  ∀ s : State,
    (∀ addr, ∃ ea, s.locate (.abs addr) = .mem24 ea ∧ ea.toNat = s.dbr.toNat * 2 ^ 16 + addr.toNat) ∧
    (∀ addr, ∃ ea, s.locate (.absX addr) = .mem24 ea ∧
      ea.toNat = (s.dbr.toNat * 2 ^ 16 + addr.toNat + s.x.toNat) % 2 ^ 24) ∧
    (∀ addr, ∃ ea, s.locate (.absY addr) = .mem24 ea ∧
      ea.toNat = (s.dbr.toNat * 2 ^ 16 + addr.toNat + s.y.toNat) % 2 ^ 24) ∧
    (∀ addr, s.locate (.long addr) = .mem24 addr) ∧
    (∀ addr, ∃ ea, s.locate (.longX addr) = .mem24 ea ∧ ea.toNat = (addr.toNat + s.x.toNat) % 2 ^ 24) ∧
    (∀ off, ∃ ea, s.locate (.dirInd off) = .mem24 ea ∧
      ea.toNat = s.dbr.toNat * 2 ^ 16 + (s.read .pointer (bank0 (dpAddr s off 0))).toNat +
        2 ^ 8 * (s.read .pointer (bank0 (dpNext s off 0 1))).toNat) ∧
    (∀ off, ∃ ea, s.locate (.dirXInd off) = .mem24 ea ∧
      ea.toNat = s.dbr.toNat * 2 ^ 16 + (s.read .pointer (bank0 (dpAddr s off s.x))).toNat +
        2 ^ 8 * (s.read .pointer (bank0 (dpNext s off s.x 1))).toNat) ∧
    (∀ off, ∃ ea, s.locate (.dirIndY off) = .mem24 ea ∧
      ea.toNat = (s.dbr.toNat * 2 ^ 16 + (s.read .pointer (bank0 (dpAddr s off 0))).toNat +
        2 ^ 8 * (s.read .pointer (bank0 (dpNext s off 0 1))).toNat + s.y.toNat) % 2 ^ 24) ∧
    (∀ off, ∃ ea, s.locate (.dirIndLong off) = .mem24 ea ∧
      ea.toNat = (s.read .pointer (bank0 (dpAddr s off 0))).toNat +
        2 ^ 8 * (s.read .pointer (bank0 (dpAddr s off 0 + 1))).toNat +
        2 ^ 16 * (s.read .pointer (bank0 (dpAddr s off 0 + 2))).toNat) ∧
    (∀ off, ∃ ea, s.locate (.dirIndLongY off) = .mem24 ea ∧
      ea.toNat = ((s.read .pointer (bank0 (dpAddr s off 0))).toNat +
        2 ^ 8 * (s.read .pointer (bank0 (dpAddr s off 0 + 1))).toNat +
        2 ^ 16 * (s.read .pointer (bank0 (dpAddr s off 0 + 2))).toNat + s.y.toNat) % 2 ^ 24) ∧
    (∀ off, ∃ ea, s.locate (.stkIndY off) = .mem24 ea ∧
      ea.toNat = (s.dbr.toNat * 2 ^ 16 + (s.read .pointer (bank0 (s.sp + zext8 off))).toNat +
        2 ^ 8 * (s.read .pointer (bank0 (s.sp + zext8 off + 1))).toNat + s.y.toNat) % 2 ^ 24) ∧
    (∀ ea : Addr, (Loc.mem24 ea).addrs .w8 = [ea] ∧ (Loc.mem24 ea).addrs .w16 = [ea, ea + 1] ∧
      ((Loc.mem24 ea).read .w8 s).toNat = (s.read .data ea).toNat ∧
      ((Loc.mem24 ea).read .w16 s).toNat = (s.read .data ea).toNat + 2 ^ 8 * (s.read .data (ea + 1)).toNat)

/-- Effective addresses of the modes that stay in bank 0 (R153, R154, R159 to R161, R170): sums wrap at 64 KByte, in
Emulation mode with DL = 0 within the direct page; the high byte of a word operand is at the next address of bank 0. The
stack-relative sum is the spec's decision D2, the wraps of second bytes its decision D4 (log entry 21). With them the two
operands that have no address: the immediate as it stands in the instruction (R162), zero-extended, and the accumulator, A
or C by the width (R150). -/
def Obligations.EffectiveAddressesBankZero : Prop :=
  ∀ s : State,
    (∀ off, s.locate (.dir off) = .mem0 (dpAddr s off 0)) ∧
    (∀ off, s.locate (.dirX off) = .mem0 (dpAddr s off s.x)) ∧
    (∀ off, s.locate (.dirY off) = .mem0 (dpAddr s off s.y)) ∧
    (∀ off, ∃ a, s.locate (.stk off) = .mem0 a ∧ a.toNat = (s.sp.toNat + off.toNat) % 2 ^ 16) ∧
    (∀ (off : Byte) (idx : Word),
      (s.e = true ∧ s.d.toNat % 2 ^ 8 = 0 →
        (dpAddr s off idx).toNat = s.d.toNat + (off.toNat + idx.toNat) % 2 ^ 8 ∧
        (dpNext s off idx 1).toNat = s.d.toNat + (off.toNat + idx.toNat + 1) % 2 ^ 8) ∧
      (¬ (s.e = true ∧ s.d.toNat % 2 ^ 8 = 0) →
        (dpAddr s off idx).toNat = (s.d.toNat + off.toNat + idx.toNat) % 2 ^ 16 ∧
        (dpNext s off idx 1).toNat = (s.d.toNat + off.toNat + idx.toNat + 1) % 2 ^ 16)) ∧
    (∀ a : Word, (bank0 a).toNat = a.toNat ∧
      (Loc.mem0 a).addrs .w8 = [bank0 a] ∧ (Loc.mem0 a).addrs .w16 = [bank0 a, bank0 (a + 1)] ∧
      ((Loc.mem0 a).read .w8 s).toNat = (s.read .data (bank0 a)).toNat ∧
      ((Loc.mem0 a).read .w16 s).toNat = (s.read .data (bank0 a)).toNat + 2 ^ 8 * (s.read .data (bank0 (a + 1))).toNat) ∧
    (∀ (i : Instr) (v : Imm), i ∈ [.oraImm v, .andImm v, .eorImm v, .adcImm v, .bitImm v, .ldaImm v, .cmpImm v, .sbcImm v,
      .ldyImm v, .ldxImm v, .cpyImm v, .cpxImm v] → i.operand = .imm v) ∧
    (∀ i : Instr, i ∈ [.aslAcc, .incAcc, .rolAcc, .decAcc, .lsrAcc, .rorAcc] → i.operand = .acc) ∧
    (∀ (i : Instr) (w : Width) (b : Byte), i.operand = .imm (.byte b) → (s.operandValue w i).toNat = b.toNat) ∧
    (∀ (i : Instr) (v : Word), i.operand = .imm (.word v) → s.operandValue .w16 i = v) ∧
    ∀ i : Instr, i.operand = .acc →
      (s.operandValue .w8 i).toNat = s.c.toNat % 2 ^ 8 ∧ s.operandValue .w16 i = s.c

/-! ## Load and store -/

/-- LDA (R191) with each of its fifteen operand forms. N and Z are general knowledge in the spec (log entry 23). -/
def Obligations.LoadAccumulator : Prop :=
  ∀ (i : Instr) (s : State), i.mnemonic = .LDA →
    ∃ t, exec i s = .next t ∧ s.wA.wrote s.c (s.operandValue s.wA i) t.c ∧ s.wA.nzOf (s.operandValue s.wA i) t ∧
      t.pc = s.pcPast i ∧ Frame [.c, .pc] [.n, .z] [] s t

/-- LDX and LDY (R192, R193). N and Z are general knowledge in the spec (log entry 23). -/
def Obligations.LoadIndex : Prop :=
  ∀ (i : Instr) (s : State),
    (i.mnemonic = .LDX →
      ∃ t, exec i s = .next t ∧ s.wX.wrote s.x (s.operandValue s.wX i) t.x ∧ s.wX.nzOf (s.operandValue s.wX i) t ∧
        t.pc = s.pcPast i ∧ Frame [.x, .pc] [.n, .z] [] s t) ∧
    (i.mnemonic = .LDY →
      ∃ t, exec i s = .next t ∧ s.wX.wrote s.y (s.operandValue s.wX i) t.y ∧ s.wX.nzOf (s.operandValue s.wX i) t ∧
        t.pc = s.pcPast i ∧ Frame [.y, .pc] [.n, .z] [] s t)

/-- STA, STX, STY and STZ (R194 to R197): the register's bytes at the operand's addresses, no flag. That STZ has the width
of P.M, and that a store writes no flag (R190 (d)), is general knowledge in the spec (log entry 23). -/
def Obligations.Stores : Prop :=
  ∀ (i : Instr) (s : State),
    (i.mnemonic = .STA → ∃ t, exec i s = .next t ∧ (s.operandAddrs s.wA i).map t.byteAt = s.wA.bytesOf s.c ∧
      t.pc = s.pcPast i ∧ Frame [.pc] [] (s.operandAddrs s.wA i) s t) ∧
    (i.mnemonic = .STX → ∃ t, exec i s = .next t ∧ (s.operandAddrs s.wX i).map t.byteAt = s.wX.bytesOf s.x ∧
      t.pc = s.pcPast i ∧ Frame [.pc] [] (s.operandAddrs s.wX i) s t) ∧
    (i.mnemonic = .STY → ∃ t, exec i s = .next t ∧ (s.operandAddrs s.wX i).map t.byteAt = s.wX.bytesOf s.y ∧
      t.pc = s.pcPast i ∧ Frame [.pc] [] (s.operandAddrs s.wX i) s t) ∧
    (i.mnemonic = .STZ → ∃ t, exec i s = .next t ∧ (s.operandAddrs s.wA i).map t.byteAt = s.wA.bytesOf 0x0000 ∧
      t.pc = s.pcPast i ∧ Frame [.pc] [] (s.operandAddrs s.wA i) s t)

/-! ## Arithmetic and logic -/

/-- ADC in binary mode (R211, general knowledge in the spec): the sum with carry at the width, C its carry, V its signed
overflow. -/
def Obligations.AdcBinary : Prop :=
  ∀ (i : Instr) (s : State), i.mnemonic = .ADC → s.flag .d = false →
    ∃ t, exec i s = .next t ∧
      s.wA.value t.c =
        (s.wA.value s.c + s.wA.value (s.operandValue s.wA i) + (s.flag .c).toNat) % 2 ^ s.wA.bits ∧
      s.wA.wrote s.c t.c t.c ∧ s.wA.nzOf t.c t ∧
      (t.flag .c = true ↔
        2 ^ s.wA.bits ≤ s.wA.value s.c + s.wA.value (s.operandValue s.wA i) + (s.flag .c).toNat) ∧
      (t.flag .v = true ↔
        ¬ s.wA.representable (s.wA.signed s.c + s.wA.signed (s.operandValue s.wA i) + (s.flag .c).toNat)) ∧
      t.pc = s.pcPast i ∧ Frame [.c, .pc] [.n, .v, .z, .c] [] s t

/-- SBC in binary mode (R213, general knowledge in the spec): the difference with borrow at the width, C = no borrow, V its
signed overflow. -/
def Obligations.SbcBinary : Prop :=
  ∀ (i : Instr) (s : State), i.mnemonic = .SBC → s.flag .d = false →
    ∃ t, exec i s = .next t ∧
      (s.wA.value t.c : Int) =
        ((s.wA.value s.c : Int) - s.wA.value (s.operandValue s.wA i) - (1 - (s.flag .c).toNat)) %
          (2 ^ s.wA.bits : Nat) ∧
      s.wA.wrote s.c t.c t.c ∧ s.wA.nzOf t.c t ∧
      (t.flag .c = true ↔ s.wA.value (s.operandValue s.wA i) + (1 - (s.flag .c).toNat) ≤ s.wA.value s.c) ∧
      (t.flag .v = true ↔
        ¬ s.wA.representable (s.wA.signed s.c - s.wA.signed (s.operandValue s.wA i) - (1 - (s.flag .c).toNat))) ∧
      t.pc = s.pcPast i ∧ Frame [.c, .pc] [.n, .v, .z, .c] [] s t

/-- ADC and SBC in decimal mode on packed BCD operands (R212, R214, general knowledge in the spec): the decimal sum or
difference in packed BCD, C its carry or no borrow, N and Z from the result. V is free (log entry 5): nothing is said of it.
-/
def Obligations.DecimalValid : Prop :=
  ∀ (i : Instr) (s : State), s.flag .d = true →
    bcdOperands s.wA (s.getA s.wA) (s.operandValue s.wA i) = true →
    (i.mnemonic = .ADC →
      ∃ t, exec i s = .next t ∧ bcdValid s.wA.digits (s.wA.value t.c) = true ∧
        decOf s.wA (t.getA s.wA) =
          (decOf s.wA (s.getA s.wA) + decOf s.wA (s.operandValue s.wA i) + (s.flag .c).toNat) % 10 ^ s.wA.digits ∧
        s.wA.wrote s.c t.c t.c ∧ s.wA.nzOf t.c t ∧
        (t.flag .c = true ↔
          10 ^ s.wA.digits ≤ decOf s.wA (s.getA s.wA) + decOf s.wA (s.operandValue s.wA i) + (s.flag .c).toNat) ∧
        t.pc = s.pcPast i ∧ Frame [.c, .pc] [.n, .v, .z, .c] [] s { t with draws := s.draws }) ∧
    (i.mnemonic = .SBC →
      ∃ t, exec i s = .next t ∧ bcdValid s.wA.digits (s.wA.value t.c) = true ∧
        (decOf s.wA (t.getA s.wA) : Int) =
          ((decOf s.wA (s.getA s.wA) : Int) - decOf s.wA (s.operandValue s.wA i) - (1 - (s.flag .c).toNat)) %
            (10 ^ s.wA.digits : Nat) ∧
        s.wA.wrote s.c t.c t.c ∧ s.wA.nzOf t.c t ∧
        (t.flag .c = true ↔
          decOf s.wA (s.operandValue s.wA i) + (1 - (s.flag .c).toNat) ≤ decOf s.wA (s.getA s.wA)) ∧
        t.pc = s.pcPast i ∧ Frame [.c, .pc] [.n, .v, .z, .c] [] s { t with draws := s.draws })

/-- ADC and SBC in decimal mode with a nibble above 9 (U4, D12): the instruction completes; the accumulator at its width and
the four flags are free (log entry 6), B of an 8-bit operation and everything else are unchanged. -/
def Obligations.DecimalInvalid : Prop :=
  ∀ (i : Instr) (s : State), i.mnemonic ∈ [.ADC, .SBC] → s.flag .d = true →
    bcdOperands s.wA (s.getA s.wA) (s.operandValue s.wA i) = false →
    ∃ t, exec i s = .next t ∧ s.wA.wrote s.c t.c t.c ∧ t.pc = s.pcPast i ∧
      Frame [.c, .pc] [.n, .v, .z, .c] [] s { t with draws := s.draws }

/-- AND, ORA and EOR (R215 to R217). N and Z are general knowledge in the spec. -/
def Obligations.Logic : Prop :=
  ∀ (i : Instr) (s : State),
    (i.mnemonic = .AND → ∃ t, exec i s = .next t ∧ s.wA.wrote s.c (s.c &&& s.operandValue s.wA i) t.c ∧
      s.wA.nzOf t.c t ∧ t.pc = s.pcPast i ∧ Frame [.c, .pc] [.n, .z] [] s t) ∧
    (i.mnemonic = .ORA → ∃ t, exec i s = .next t ∧ s.wA.wrote s.c (s.c ||| s.operandValue s.wA i) t.c ∧
      s.wA.nzOf t.c t ∧ t.pc = s.pcPast i ∧ Frame [.c, .pc] [.n, .z] [] s t) ∧
    (i.mnemonic = .EOR → ∃ t, exec i s = .next t ∧ s.wA.wrote s.c (s.c ^^^ s.operandValue s.wA i) t.c ∧
      s.wA.nzOf t.c t ∧ t.pc = s.pcPast i ∧ Frame [.c, .pc] [.n, .z] [] s t)

/-- CMP, CPX and CPY (R218 to R220, general knowledge in the spec): C, Z and N of the difference, unsigned and binary; no
register changes. -/
def Obligations.Compare : Prop :=
  ∀ (i : Instr) (s : State) (w : Width) (r : Word),
    (i.mnemonic = .CMP ∧ w = s.wA ∧ r = s.c) ∨ (i.mnemonic = .CPX ∧ w = s.wX ∧ r = s.x) ∨
      (i.mnemonic = .CPY ∧ w = s.wX ∧ r = s.y) →
    ∃ t, exec i s = .next t ∧
      (t.flag .c = true ↔ w.value (s.operandValue w i) ≤ w.value r) ∧
      (t.flag .z = true ↔ w.value r = w.value (s.operandValue w i)) ∧
      (t.flag .n = true ↔
        2 ^ (w.bits - 1) ≤ (w.value r + 2 ^ w.bits - w.value (s.operandValue w i)) % 2 ^ w.bits) ∧
      t.pc = s.pcPast i ∧ Frame [.pc] [.n, .z, .c] [] s t

/-- BIT (R221): with a memory operand N and V are its two top bits; the immediate form leaves them. That Z is the zero test
is general knowledge in the spec. -/
def Obligations.BitTest : Prop :=
  ∀ (i : Instr) (s : State), i.mnemonic = .BIT →
    ∃ t, exec i s = .next t ∧ (t.flag .z = true ↔ s.wA.value (s.c &&& s.operandValue s.wA i) = 0) ∧
      t.pc = s.pcPast i ∧
      ((∃ v, i = .bitImm v) → Frame [.pc] [.z] [] s t) ∧
      ((∀ v, i ≠ .bitImm v) →
        (t.flag .n = (s.operandValue s.wA i).getLsbD (s.wA.bits - 1)) ∧
        (t.flag .v = (s.operandValue s.wA i).getLsbD (s.wA.bits - 2)) ∧ Frame [.pc] [.n, .v, .z] [] s t)

/-- INC and DEC, of the accumulator and of memory (R222 to R225): C and V stay. The flags are general knowledge in the
spec. -/
def Obligations.IncrementDecrement : Prop :=
  ∀ (i : Instr) (s : State),
    (i.mnemonic = .INC → ∃ t, exec i s = .next t ∧
      s.wroteBack s.wA i (s.operandValue s.wA i + 1) [.n, .z] t ∧
      s.wA.nzOf (s.operandValue s.wA i + 1) t ∧ t.pc = s.pcPast i) ∧
    (i.mnemonic = .DEC → ∃ t, exec i s = .next t ∧
      s.wroteBack s.wA i (s.operandValue s.wA i - 1) [.n, .z] t ∧
      s.wA.nzOf (s.operandValue s.wA i - 1) t ∧ t.pc = s.pcPast i)

/-- INX, DEX, INY and DEY (R226 to R229). The flags are general knowledge in the spec. -/
def Obligations.IndexSteps : Prop :=
  ∀ s : State,
    (∃ t, exec .inx s = .next t ∧ s.wX.wrote s.x (s.x + 1) t.x ∧ s.wX.nzOf (s.x + 1) t ∧ t.pc = s.pc + 1 ∧
      Frame [.x, .pc] [.n, .z] [] s t) ∧
    (∃ t, exec .dex s = .next t ∧ s.wX.wrote s.x (s.x - 1) t.x ∧ s.wX.nzOf (s.x - 1) t ∧ t.pc = s.pc + 1 ∧
      Frame [.x, .pc] [.n, .z] [] s t) ∧
    (∃ t, exec .iny s = .next t ∧ s.wX.wrote s.y (s.y + 1) t.y ∧ s.wX.nzOf (s.y + 1) t ∧ t.pc = s.pc + 1 ∧
      Frame [.y, .pc] [.n, .z] [] s t) ∧
    (∃ t, exec .dey s = .next t ∧ s.wX.wrote s.y (s.y - 1) t.y ∧ s.wX.nzOf (s.y - 1) t ∧ t.pc = s.pc + 1 ∧
      Frame [.y, .pc] [.n, .z] [] s t)

/-! ## Shift, rotate, test and modify -/

/-- ASL, LSR, ROL and ROR, of the accumulator and of memory (R251 to R258, general knowledge in the spec): the rotates go
through the carry. -/
def Obligations.Shifts : Prop :=
  ∀ (i : Instr) (s : State) (v r out : Nat), v = s.wA.value (s.operandValue s.wA i) →
    (i.mnemonic = .ASL ∧ r = (2 * v) % 2 ^ s.wA.bits ∧ out = v / 2 ^ (s.wA.bits - 1)) ∨
    (i.mnemonic = .LSR ∧ r = v / 2 ∧ out = v % 2) ∨
    (i.mnemonic = .ROL ∧ r = (2 * v + (s.flag .c).toNat) % 2 ^ s.wA.bits ∧ out = v / 2 ^ (s.wA.bits - 1)) ∨
    (i.mnemonic = .ROR ∧ r = v / 2 + (s.flag .c).toNat * 2 ^ (s.wA.bits - 1) ∧ out = v % 2) →
    ∃ t, exec i s = .next t ∧ s.wroteBack s.wA i (BitVec.ofNat 16 r) [.n, .z, .c] t ∧
      s.wA.nzOf (BitVec.ofNat 16 r) t ∧ (t.flag .c).toNat = out ∧ t.pc = s.pcPast i

/-- TSB and TRB (R262, R263, general knowledge in the spec): only Z is written, from the bits as they were. -/
def Obligations.TestAndModify : Prop :=
  ∀ (i : Instr) (s : State),
    (i.mnemonic = .TSB → ∃ t, exec i s = .next t ∧
      (s.operandAddrs s.wA i).map t.byteAt = s.wA.bytesOf (s.operandValue s.wA i ||| s.c) ∧
      (t.flag .z = true ↔ s.wA.value (s.c &&& s.operandValue s.wA i) = 0) ∧ t.pc = s.pcPast i ∧
      Frame [.pc] [.z] (s.operandAddrs s.wA i) s t) ∧
    (i.mnemonic = .TRB → ∃ t, exec i s = .next t ∧
      (s.operandAddrs s.wA i).map t.byteAt = s.wA.bytesOf (s.operandValue s.wA i &&& ~~~s.c) ∧
      (t.flag .z = true ↔ s.wA.value (s.c &&& s.operandValue s.wA i) = 0) ∧ t.pc = s.pcPast i ∧
      Frame [.pc] [.z] (s.operandAddrs s.wA i) s t)

/-! ## Branch, jump, call, return -/

/-- The conditional branches (R281 to R288), BRA and BRL: PC past the instruction, plus the signed displacement if the
condition holds, within the bank. -/
def Obligations.Branches : Prop :=
  (∀ (s : State) (off : Byte) (i : Instr) (op : Byte) (taken : Bool),
    (i = .bcc off ∧ op = 0x90 ∧ taken = !s.flag .c) ∨ (i = .bcs off ∧ op = 0xB0 ∧ taken = s.flag .c) ∨
    (i = .beq off ∧ op = 0xF0 ∧ taken = s.flag .z) ∨ (i = .bmi off ∧ op = 0x30 ∧ taken = s.flag .n) ∨
    (i = .bne off ∧ op = 0xD0 ∧ taken = !s.flag .z) ∨ (i = .bpl off ∧ op = 0x10 ∧ taken = !s.flag .n) ∨
    (i = .bvc off ∧ op = 0x50 ∧ taken = !s.flag .v) ∨ (i = .bvs off ∧ op = 0x70 ∧ taken = s.flag .v) ∨
    (i = .bra off ∧ op = 0x80 ∧ taken = true) →
    encode i = [op, off] ∧
    ∃ t, exec i s = .next t ∧
      (t.pc.toNat : Int) = (s.pc.toNat + 2 + (if taken then off.toInt else 0)) % 2 ^ 16 ∧
      Frame [.pc] [] [] s t) ∧
  ∀ (s : State) (off : Word),
    encode (.brl off) = [0x82, loByte off, hiByte off] ∧
    ∃ t, exec (.brl off) s = .next t ∧ (t.pc.toNat : Int) = (s.pc.toNat + 3 + off.toInt) % 2 ^ 16 ∧
      Frame [.pc] [] [] s t

/-- JMP in its four modes and JML (R291 to R296), with the bytes that JMP a, JMP (a,x) and JMP (a) access and their
cycles. That the later bytes of a pointer wrap within the bank is the spec's decision D4 (R144, R147; log entry 21); that
the pointer bytes of (a,x) are listed as data reads is the model's reading (log entry 31). -/
def Obligations.Jumps : Prop :=
  (∀ (s : State) (addr : Word),
    (∃ t, exec (.jmpAbs addr) s = .next t ∧ t.pc = addr ∧ Frame [.pc] [] [] s t) ∧
    instrCycles (.jmpAbs addr) s = 3 ∧
    busAccesses (.jmpAbs addr) s =
      [⟨.opcode, bankAddr s.pbr s.pc, 0x4C, false, false⟩, ⟨.program, bankAddr s.pbr (s.pc + 1), loByte addr, false, false⟩,
       ⟨.program, bankAddr s.pbr (s.pc + 2), hiByte addr, false, false⟩]) ∧
  (∀ (s : State) (addr : Addr),
    ∃ t, exec (.jmpLong addr) s = .next t ∧ t.pc = addrOffset addr ∧ t.pbr = addrBank addr ∧
      Frame [.pc, .pbr] [] [] s t) ∧
  (∀ (s : State) (addr : Word),
    (∃ t, exec (.jmpAbsXInd addr) s = .next t ∧
      t.pc = wordOfBytes (s.read .pointer (bankAddr s.pbr (addr + s.x)))
        (s.read .pointer (bankAddr s.pbr (addr + s.x + 1))) ∧
      Frame [.pc] [] [] s t) ∧
    instrCycles (.jmpAbsXInd addr) s = 6 ∧
    busAccesses (.jmpAbsXInd addr) s =
      [⟨.opcode, bankAddr s.pbr s.pc, 0x7C, false, false⟩, ⟨.program, bankAddr s.pbr (s.pc + 1), loByte addr, false, false⟩,
       ⟨.program, bankAddr s.pbr (s.pc + 2), hiByte addr, false, false⟩,
       ⟨.data, bankAddr s.pbr (addr + s.x), s.read .pointer (bankAddr s.pbr (addr + s.x)), false, false⟩,
       ⟨.data, bankAddr s.pbr (addr + s.x + 1), s.read .pointer (bankAddr s.pbr (addr + s.x + 1)), false, false⟩]) ∧
  (∀ (s : State) (addr : Word),
    (∃ t, exec (.jmpAbsInd addr) s = .next t ∧
      t.pc = wordOfBytes (s.read .pointer (bank0 addr)) (s.read .pointer (bank0 (addr + 1))) ∧ Frame [.pc] [] [] s t) ∧
    instrCycles (.jmpAbsInd addr) s = 5 ∧
    busAccesses (.jmpAbsInd addr) s =
      [⟨.opcode, bankAddr s.pbr s.pc, 0x6C, false, false⟩, ⟨.program, bankAddr s.pbr (s.pc + 1), loByte addr, false, false⟩,
       ⟨.program, bankAddr s.pbr (s.pc + 2), hiByte addr, false, false⟩,
       ⟨.data, bank0 addr, s.read .pointer (bank0 addr), false, false⟩,
       ⟨.data, bank0 (addr + 1), s.read .pointer (bank0 (addr + 1)), false, false⟩]) ∧
  ∀ (s : State) (addr : Word),
    ∃ t, exec (.jml addr) s = .next t ∧
      t.pc = wordOfBytes (s.read .pointer (bank0 addr)) (s.read .pointer (bank0 (addr + 1))) ∧
      t.pbr = s.read .pointer (bank0 (addr + 2)) ∧ Frame [.pc, .pbr] [] [] s t

/-- JSR a (R297): the address of its last byte is pushed. The pushed value is general knowledge in the spec. -/
def Obligations.JsrAbsolute : Prop :=
  ∀ (s : State) (addr : Word),
    ∃ t, exec (.jsrAbs addr) s = .next t ∧ t.pc = addr ∧
      (s.pushed 2).map t.byteAt = [hiByte (s.pc + 2), loByte (s.pc + 2)] ∧ t.sp = s.slotDown 2 ∧
      Frame [.sp, .pc] [] (s.pushed 2) s t

/-- JSR (a,x) (R298) of the instruction that is read at PC: the pushes come first, so the high operand byte and the pointer
are read after them; wide stack. That SH is 01 again with E = 1 is the spec's decision D10 (log entry 20), that the
pointer's second byte wraps within the bank its decision D4 (log entry 21). The value pushed is general knowledge in the
spec. -/
def Obligations.JsrIndexedIndirect : Prop :=
  ∀ (s : State) (addr : Word), s.read .fetch (bankAddr s.pbr (s.pc + 2)) = hiByte addr →
    ∃ t, exec (.jsrAbsXInd addr) s = .next t ∧
      (∀ p, p = wordOfBytes (loByte addr) (t.read .fetch (bankAddr s.pbr (s.pc + 2))) + s.x →
        t.pc = wordOfBytes (t.read .pointer (bankAddr s.pbr p)) (t.read .pointer (bankAddr s.pbr (p + 1)))) ∧
      (s.widePushed 2).map t.byteAt = [hiByte (s.pc + 2), loByte (s.pc + 2)] ∧ t.sp = s.wideEnd (s.sp - 2) ∧
      Frame [.sp, .pc] [] (s.widePushed 2) s t

/-- JSL (R299) of the instruction that is read at PC: PBR is pushed before the bank byte is fetched, so that a bank byte
that the push overwrites in memory is the one pushed, unless the platform answers that fetch itself (D1, log entry 3); then
the address of the last byte is pushed; wide stack. That SH is 01 again with E = 1 is the spec's decision D10 (log entry
20). The value pushed is general knowledge in the spec. -/
def Obligations.JslLong : Prop :=
  ∀ (s : State) (addr : Addr), s.read .fetch (bankAddr s.pbr (s.pc + 3)) = addrBank addr →
    ∃ t, exec (.jsl addr) s = .next t ∧ t.pc = addrOffset addr ∧
      (bankAddr s.pbr (s.pc + 3) ≠ bank0 s.sp ∨ answerTo .fetch (bankAddr s.pbr (s.pc + 3)) s.answers ≠ none →
        t.pbr = addrBank addr) ∧
      (bankAddr s.pbr (s.pc + 3) = bank0 s.sp → answerTo .fetch (bankAddr s.pbr (s.pc + 3)) s.answers = none →
        t.pbr = s.pbr) ∧
      (s.widePushed 3).map t.byteAt = [s.pbr, hiByte (s.pc + 3), loByte (s.pc + 3)] ∧ t.sp = s.wideEnd (s.sp - 3) ∧
      Frame [.sp, .pc, .pbr] [] (s.widePushed 3) s t

/-- RTS and RTL (R300, R301): one past the pulled address, within the bank. The increment is general knowledge in the
spec; that SH is 01 again with E = 1 after RTL is its decision D10 (log entry 20). -/
def Obligations.Returns : Prop :=
  ∀ s : State,
    (∃ t, exec .rts s = .next t ∧
      t.pc = wordOfBytes (s.read .data (bank0 (s.slotUp 1))) (s.read .data (bank0 (s.slotUp 2))) + 1 ∧ t.sp = s.slotUp 2 ∧
      Frame [.sp, .pc] [] [] s t) ∧
    (∃ t, exec .rtl s = .next t ∧
      t.pc = wordOfBytes (s.read .data (bank0 (s.sp + 1))) (s.read .data (bank0 (s.sp + 2))) + 1 ∧
      t.pbr = s.read .data (bank0 (s.sp + 3)) ∧ t.sp = s.wideEnd (s.sp + 3) ∧ Frame [.sp, .pc, .pbr] [] [] s t)

/-- RTS after JSR a comes back to the instruction after the call with the stack pointer as before it, in either mode and
wherever the stack is; RTL does so after JSL in Native mode. The pulls must read what the pushes stored, so the platform
answers no data read otherwise than memory does (D1, log entry 3). -/
def Obligations.SubroutineRoundTrip : Prop :=
  (∀ (s : State) (addr : Word), (∀ x ∈ s.answers, x.kind ≠ .data) →
    ∃ t u, exec (.jsrAbs addr) s = .next t ∧ exec .rts t = .next u ∧ u.pc = s.pc + 3 ∧ Frame [.pc] [] (s.pushed 2) s u) ∧
  ∀ (s : State) (addr : Addr), (∀ x ∈ s.answers, x.kind ≠ .data) → s.e = false →
    ∃ t u, exec (.jsl addr) s = .next t ∧ exec .rtl t = .next u ∧ u.pc = s.pc + 4 ∧ Frame [.pc] [] (s.widePushed 3) s u

/-! ## Stack -/

/-- PHA, PHX and PHY (R321, R326, R327): one byte or two, high byte first; opcodes and cycles as the rules give them. -/
def Obligations.PushRegisters : Prop :=
  ∀ (i : Instr) (s : State) (op : Byte) (w : Width) (v : Word),
    (i = .pha ∧ op = 0x48 ∧ w = s.wA ∧ v = s.c) ∨ (i = .phx ∧ op = 0xDA ∧ w = s.wX ∧ v = s.x) ∨
      (i = .phy ∧ op = 0x5A ∧ w = s.wX ∧ v = s.y) →
    encode i = [op] ∧
    ∃ t, exec i s = .next t ∧
      (w = .w8 → (s.pushed 1).map t.byteAt = [loByte v]) ∧
      (w = .w16 → (s.pushed 2).map t.byteAt = [hiByte v, loByte v]) ∧
      t.sp = s.slotDown w.bytes ∧ t.pc = s.pc + 1 ∧ Frame [.sp, .pc] [] (s.pushed w.bytes) s t ∧
      instrCycles i s = (if w = .w8 then 3 else 4)

/-- PHB, PHK and PHP (R322, R324, R325): one byte, in either mode. -/
def Obligations.PushBytes : Prop :=
  ∀ (i : Instr) (s : State) (op v : Byte),
    (i = .phb ∧ op = 0x8B ∧ v = s.dbr) ∨ (i = .phk ∧ op = 0x4B ∧ v = s.pbr) ∨ (i = .php ∧ op = 0x08 ∧ v = s.p) →
    encode i = [op] ∧
    ∃ t, exec i s = .next t ∧ t.byteAt (bank0 s.sp) = v ∧ t.sp = s.slotDown 1 ∧ t.pc = s.pc + 1 ∧
      Frame [.sp, .pc] [] [bank0 s.sp] s t ∧ instrCycles i s = 3

/-- PHD, PEA, PEI and PER (R323, R334 to R336): 16 bits on the wide stack, high byte first. -/
def Obligations.PushWide : Prop :=
  ∀ (i : Instr) (s : State) (v : Word),
    (i = .phd ∧ v = s.d) ∨ i = .pea v ∨
      (∃ off, i = .pei off ∧
        v = wordOfBytes (s.read .data (bank0 (dpAddr s off 0))) (s.read .data (bank0 (dpAddr s off 0 + 1)))) ∨
      (∃ off, i = .per off ∧ v = s.pc + 3 + off) →
    ∃ t, exec i s = .next t ∧ (s.widePushed 2).map t.byteAt = [hiByte v, loByte v] ∧ t.sp = s.wideEnd (s.sp - 2) ∧
      t.pc = s.pcPast i ∧ Frame [.sp, .pc] [] (s.widePushed 2) s t

/-- PLA, PLX and PLY (R328, R332, R333): one byte or two, low byte first. N and Z are general knowledge in the spec. -/
def Obligations.PullRegisters : Prop :=
  ∀ (s : State) (w : Width) (v : Word),
    v = (match w with
      | .w8 => zext8 (s.read .data (bank0 (s.slotUp 1)))
      | .w16 => wordOfBytes (s.read .data (bank0 (s.slotUp 1))) (s.read .data (bank0 (s.slotUp 2)))) →
    (w = s.wA → ∃ t, exec .pla s = .next t ∧ w.wrote s.c v t.c ∧ w.nzOf v t ∧ t.sp = s.slotUp w.bytes ∧
      t.pc = s.pc + 1 ∧ Frame [.c, .sp, .pc] [.n, .z] [] s t) ∧
    (w = s.wX →
      (∃ t, exec .plx s = .next t ∧ w.wrote s.x v t.x ∧ w.nzOf v t ∧ t.sp = s.slotUp w.bytes ∧
        t.pc = s.pc + 1 ∧ Frame [.x, .sp, .pc] [.n, .z] [] s t) ∧
      (∃ t, exec .ply s = .next t ∧ w.wrote s.y v t.y ∧ w.nzOf v t ∧ t.sp = s.slotUp w.bytes ∧
        t.pc = s.pc + 1 ∧ Frame [.y, .sp, .pc] [.n, .z] [] s t))

/-- PLB (R329), an ordinary pull of one byte, and PLD (R330), a wide pull of two. N and Z are general knowledge in the
spec. -/
def Obligations.PullBankAndDirect : Prop :=
  ∀ s : State,
    (∃ t, exec .plb s = .next t ∧ t.dbr = s.read .data (bank0 (s.slotUp 1)) ∧
      Width.w8.nzOf (zext8 (s.read .data (bank0 (s.slotUp 1)))) t ∧ t.sp = s.slotUp 1 ∧ t.pc = s.pc + 1 ∧
      Frame [.dbr, .sp, .pc] [.n, .z] [] s t) ∧
    (∃ t, exec .pld s = .next t ∧
      t.d = wordOfBytes (s.read .data (bank0 (s.sp + 1))) (s.read .data (bank0 (s.sp + 2))) ∧
      Width.w16.nzOf t.d t ∧ t.sp = s.wideEnd (s.sp + 2) ∧ t.pc = s.pc + 1 ∧
      Frame [.d, .sp, .pc] [.n, .z] [] s t)

/-- PLP (R331): all eight flags in Native mode, with the index registers narrowed if X is set; six in Emulation mode. -/
def Obligations.PullStatus : Prop :=
  ∀ s : State,
    ∃ t, exec .plp s = .next t ∧
      t.p = (if s.e then s.read .data (bank0 (s.slotUp 1)) ||| 0x30 else s.read .data (bank0 (s.slotUp 1))) ∧
      (s.e = false ∧ t.flag .x = true → t.x = zext8 (loByte s.x) ∧ t.y = zext8 (loByte s.y)) ∧
      (s.e = true ∨ t.flag .x = false → t.x = s.x ∧ t.y = s.y) ∧
      t.sp = s.slotUp 1 ∧ t.pc = s.pc + 1 ∧
      Frame [.x, .y, .sp, .pc] [.n, .v, .m, .x, .d, .i, .z, .c] [] s t

/-! ## Transfers, exchanges, flags -/

/-- TXY, TYA and TYX (R370 to R372), the transfers whose rows survive in the sources. -/
def Obligations.TransfersOfIndex : Prop :=
  ∀ s : State,
    (∃ t, exec .txy s = .next t ∧ Instr.txy.opcode = 0x9B ∧ s.wX.wrote s.y s.x t.y ∧ s.wX.nzOf s.x t ∧ t.pc = s.pc + 1 ∧
      Frame [.y, .pc] [.n, .z] [] s t) ∧
    (∃ t, exec .tya s = .next t ∧ Instr.tya.opcode = 0x98 ∧ s.wA.wrote s.c s.y t.c ∧ s.wA.nzOf s.y t ∧ t.pc = s.pc + 1 ∧
      Frame [.c, .pc] [.n, .z] [] s t) ∧
    (∃ t, exec .tyx s = .next t ∧ Instr.tyx.opcode = 0xBB ∧ s.wX.wrote s.x s.y t.x ∧ s.wX.nzOf s.y t ∧ t.pc = s.pc + 1 ∧
      Frame [.x, .pc] [.n, .z] [] s t)

/-- TAX, TAY, TSX and TXA (R361, R362, R367, R368): a full 16-bit source, the destination's width. N and Z are general
knowledge in the spec. -/
def Obligations.TransfersByWidth : Prop :=
  ∀ s : State,
    (∃ t, exec .tax s = .next t ∧ s.wX.wrote s.x s.c t.x ∧ s.wX.nzOf s.c t ∧ t.pc = s.pc + 1 ∧
      Frame [.x, .pc] [.n, .z] [] s t) ∧
    (∃ t, exec .tay s = .next t ∧ s.wX.wrote s.y s.c t.y ∧ s.wX.nzOf s.c t ∧ t.pc = s.pc + 1 ∧
      Frame [.y, .pc] [.n, .z] [] s t) ∧
    (∃ t, exec .tsx s = .next t ∧ s.wX.wrote s.x s.sp t.x ∧ s.wX.nzOf s.sp t ∧ t.pc = s.pc + 1 ∧
      Frame [.x, .pc] [.n, .z] [] s t) ∧
    (∃ t, exec .txa s = .next t ∧ s.wA.wrote s.c s.x t.c ∧ s.wA.nzOf s.x t ∧ t.pc = s.pc + 1 ∧
      Frame [.c, .pc] [.n, .z] [] s t)

/-- TCD, TDC, TSC (R363, R365, R366), always 16 bits, and TCS, TXS (R364, R369): SL only in Emulation mode, no flag. The
flags of TCD, TDC, TSC and TCS are general knowledge in the spec. -/
def Obligations.TransfersOfSixteen : Prop :=
  ∀ s : State,
    (∃ t, exec .tcd s = .next t ∧ t.d = s.c ∧ Width.w16.nzOf s.c t ∧ t.pc = s.pc + 1 ∧
      Frame [.d, .pc] [.n, .z] [] s t) ∧
    (∃ t, exec .tdc s = .next t ∧ t.c = s.d ∧ Width.w16.nzOf s.d t ∧ t.pc = s.pc + 1 ∧
      Frame [.c, .pc] [.n, .z] [] s t) ∧
    (∃ t, exec .tsc s = .next t ∧ t.c = s.sp ∧ Width.w16.nzOf s.sp t ∧ t.pc = s.pc + 1 ∧
      Frame [.c, .pc] [.n, .z] [] s t) ∧
    (∃ t, exec .tcs s = .next t ∧ (if s.e then Width.w8 else Width.w16).wrote s.sp s.c t.sp ∧ t.pc = s.pc + 1 ∧
      Frame [.sp, .pc] [] [] s t) ∧
    (∃ t, exec .txs s = .next t ∧ (if s.e then Width.w8 else Width.w16).wrote s.sp s.x t.sp ∧ t.pc = s.pc + 1 ∧
      Frame [.sp, .pc] [] [] s t)

/-- XBA (R373): the bytes of C change places whatever P.M is; N and Z from the new A. The flags' width is general knowledge
in the spec. -/
def Obligations.ExchangeBytes : Prop :=
  ∀ s : State,
    ∃ t, exec .xba s = .next t ∧ loByte t.c = hiByte s.c ∧ hiByte t.c = loByte s.c ∧ Width.w8.nzOf t.c t ∧
      t.pc = s.pc + 1 ∧ Frame [.c, .pc] [.n, .z] [] s t

/-- XCE (R374, R39): C and E change places; when the new E is 1 the Emulation-mode values are forced, when it is 0 nothing
else changes. -/
def Obligations.ExchangeModes : Prop :=
  ∀ s : State,
    ∃ t, exec .xce s = .next t ∧ t.e = s.flag .c ∧ t.flag .c = s.e ∧ t.pc = s.pc + 1 ∧
      (s.flag .c = true →
        t.flag .m = true ∧ t.flag .x = true ∧ t.x = zext8 (loByte s.x) ∧ t.y = zext8 (loByte s.y) ∧
        hiByte t.sp = 0x01 ∧ loByte t.sp = loByte s.sp ∧
        Frame [.x, .y, .sp, .pc] [.m, .x, .c] [] s { t with e := s.e }) ∧
      (s.flag .c = false → Frame [.pc] [.c] [] s { t with e := s.e })

/-- The seven single-flag instructions (R375 to R381), each at its opcode. -/
def Obligations.FlagInstructions : Prop :=
  ∀ (s : State) (i : Instr) (op : Byte) (f : Flag) (b : Bool),
    (i = .clc ∧ op = 0x18 ∧ f = .c ∧ b = false) ∨ (i = .cld ∧ op = 0xD8 ∧ f = .d ∧ b = false) ∨
    (i = .cli ∧ op = 0x58 ∧ f = .i ∧ b = false) ∨ (i = .clv ∧ op = 0xB8 ∧ f = .v ∧ b = false) ∨
    (i = .sec ∧ op = 0x38 ∧ f = .c ∧ b = true) ∨ (i = .sed ∧ op = 0xF8 ∧ f = .d ∧ b = true) ∨
    (i = .sei ∧ op = 0x78 ∧ f = .i ∧ b = true) →
    encode i = [op] ∧ ∃ t, exec i s = .next t ∧ t.flag f = b ∧ t.pc = s.pc + 1 ∧ Frame [.pc] [f] [] s t

/-- REP and SEP (R382, R383): each 1 bit of the operand clears or sets its flag; M and X cannot be cleared in Emulation
mode; setting X clears the high bytes of the index registers. The bitwise formula is general knowledge in the spec. -/
def Obligations.RepSep : Prop :=
  ∀ (s : State) (mask : Byte),
    (∃ t, exec (.rep mask) s = .next t ∧
      (∀ f, t.flag f = (s.flag f && !(mask.getLsbD f.bit && !(s.e && (f == .m || f == .x))))) ∧
      t.pc = s.pc + 2 ∧ Frame [.pc] [.n, .v, .m, .x, .d, .i, .z, .c] [] s t) ∧
    (∃ t, exec (.sep mask) s = .next t ∧
      (∀ f, t.flag f = (s.flag f || mask.getLsbD f.bit)) ∧
      (t.flag .x = true → t.x = zext8 (loByte s.x) ∧ t.y = zext8 (loByte s.y)) ∧
      (t.flag .x = false → t.x = s.x ∧ t.y = s.y) ∧
      t.pc = s.pc + 2 ∧ Frame [.x, .y, .pc] [.n, .v, .m, .x, .d, .i, .z, .c] [] s t)

/-- NOP (R384) and WDM (R385) only move PC, by one and by two. That WDM's second byte is fetched and ignored is the spec's
decision D17 (log entry 29). -/
def Obligations.NoOperations : Prop :=
  ∀ s : State,
    (∃ t, exec .nop s = .next t ∧ Instr.nop.opcode = 0xEA ∧ Instr.nop.length = 1 ∧ instrCycles .nop s = 2 ∧
      t.pc = s.pc + 1 ∧ Frame [.pc] [] [] s t) ∧
    ∀ b, ∃ t, exec (.wdm b) s = .next t ∧ t.pc = s.pc + 2 ∧ Frame [.pc] [] [] s t

/-! ## Block move -/

/-- One byte of MVN and MVP (R411): the byte at src:X to dst:Y, DBR = dst, X and Y stepped at the index width; C counts
down while PC stays, and with C = 0 the instruction is complete. That a step moves one byte is the spec's decision D14
(log entry 33), which of FFFF and 0000 C ends with is open (D13, log entry 7), and that no flag is written is general
knowledge in the spec (R410 (e), log entry 23). -/
def Obligations.BlockMoveByte : Prop :=
  ∀ (s : State) (dst src : Byte) (i : Instr) (delta : Word),
    (i = .mvn dst src ∧ delta = 1) ∨ (i = .mvp dst src ∧ delta = -1) →
    ∃ t, exec i s = .next t ∧ t.byteAt (bankAddr dst s.y) = s.read .data (bankAddr src s.x) ∧ t.dbr = dst ∧
      s.wX.wrote s.x (s.x + delta) t.x ∧ s.wX.wrote s.y (s.y + delta) t.y ∧
      (s.c ≠ 0x0000 → t.c = s.c - 1 ∧ t.pc = s.pc) ∧
      (s.c = 0x0000 → (t.c = 0xFFFF ∨ t.c = 0x0000) ∧ t.pc = s.pc + 3) ∧
      Frame [.c, .x, .y, .dbr, .pc] [] [bankAddr dst s.y] s t

/-- The whole move from C = n (R411 to R414): PC stays at the opcode for n steps, the step n + 1 completes it; then X and
Y have moved by n + 1 at the index width, DBR = dst, and if no byte of the destination is one of the source, every byte
has been copied. That a step moves one byte is the spec's decision D14 (log entry 33); which of FFFF and 0000 C ends with
is open (D13, log entry 7); that no flag is written is general knowledge in the spec (R410 (e), log entry 23). Of blocks
that overlap, or where the platform answers a data read otherwise than memory does (D1, log entry 3), only the registers and
the frame are spoken of. -/
def Obligations.BlockMoveWhole : Prop :=
  ∀ (s : State) (dst src : Byte) (i : Instr) (delta : Word),
    (i = .mvn dst src ∧ delta = 1) ∨ (i = .mvp dst src ∧ delta = -1) →
    (∀ k, k ≤ s.c.toNat → ∃ u, execTimes i k s = .next u ∧ u.pc = s.pc ∧ u.c = s.c - BitVec.ofNat 16 k) ∧
    ∃ t, execTimes i (s.c.toNat + 1) s = .next t ∧ t.pc = s.pc + 3 ∧ t.dbr = dst ∧
      (t.c = 0xFFFF ∨ t.c = 0x0000) ∧
      t.x = s.wX.stepped s.x delta (s.c.toNat + 1) ∧ t.y = s.wX.stepped s.y delta (s.c.toNat + 1) ∧
      ((∀ x ∈ s.answers, x.kind ≠ .data) →
        (∀ j k, j ≤ s.c.toNat → k ≤ s.c.toNat →
          bankAddr dst (s.wX.stepped s.y delta j) ≠ bankAddr src (s.wX.stepped s.x delta k)) →
        ∀ k, k ≤ s.c.toNat → t.byteAt (bankAddr dst (s.wX.stepped s.y delta k)) =
          s.byteAt (bankAddr src (s.wX.stepped s.x delta k))) ∧
      Frame [.c, .x, .y, .dbr, .pc] []
        ((List.range (s.c.toNat + 1)).map fun k => bankAddr dst (s.wX.stepped s.y delta k)) s t

/-! ## System instructions and interrupts -/

/-- BRK and COP (R420 to R422, R450): the interrupt sequence with the address after the signature byte, whatever the
signature and whatever P.I is; vectors and images as R440 and R453 give them. -/
def Obligations.SoftwareInterrupts : Prop :=
  (∀ (s : State) (sig : Byte),
    (∃ t, exec (.brk sig) s = .next t ∧ Entered .brk s.pbr (s.pc + 2) { s with pc := s.pc + 2 } t) ∧
    (∃ t, exec (.cop sig) s = .next t ∧ Entered .cop s.pbr (s.pc + 2) { s with pc := s.pc + 2 } t)) ∧
  (∀ e : Bool, InterruptKind.brk.vector e = (if e then 0xFFFE else 0xFFE6) ∧
    InterruptKind.cop.vector e = (if e then 0xFFF4 else 0xFFE4)) ∧
  ∀ p : Byte, InterruptKind.brk.pImage false p = p ∧ InterruptKind.brk.pImage true p = p ||| 0x30 ∧
    InterruptKind.cop.pImage false p = p ∧ InterruptKind.cop.pImage true p = p ||| 0x30

/-- RTI (R424): P, PC and in Native mode PBR are pulled; PC is used as pulled. -/
def Obligations.ReturnFromInterrupt : Prop :=
  ∀ s : State,
    ∃ t, exec .rti s = .next t ∧
      t.p = (if s.e then s.read .data (bank0 (s.slotUp 1)) ||| 0x30 else s.read .data (bank0 (s.slotUp 1))) ∧
      t.pc = wordOfBytes (s.read .data (bank0 (s.slotUp 2))) (s.read .data (bank0 (s.slotUp 3))) ∧
      t.pbr = (if s.e then s.pbr else s.read .data (bank0 (s.slotUp 4))) ∧
      (s.e = false ∧ t.flag .x = true → t.x = zext8 (loByte s.x) ∧ t.y = zext8 (loByte s.y)) ∧
      (s.e = true ∨ t.flag .x = false → t.x = s.x ∧ t.y = s.y) ∧
      t.sp = s.slotUp s.frameSize ∧
      Frame [.x, .y, .sp, .pc, .pbr] [.n, .v, .m, .x, .d, .i, .z, .c] [] s t

/-- RTI after any interrupt sequence gives back every register and flag as they were, PC the return address and PBR its bank
in Native mode; in Emulation mode PBR stays 00 (R424, R450, R455). The pulls must read what the pushes stored, so the
platform answers no data read otherwise than memory does (D1, log entry 3). That the sequence leaves DBR is R456 (log entry
22). -/
def Obligations.InterruptRoundTrip : Prop :=
  ∀ (kind : InterruptKind) (bank : Byte) (ret : Word) (s t : State), s.Inv → (∀ x ∈ s.answers, x.kind ≠ .data) →
    Entered kind bank ret s t →
    ∃ u, exec .rti t = .next u ∧ u.pc = ret ∧ u.pbr = (if s.e then 0x00 else bank) ∧ u.p = s.p ∧
      Frame [.pc, .pbr] [] (s.pushed s.frameSize) s { u with run := s.run }

/-- WAI (R426) and STP (R428): PC past the instruction, then the wait or the stop; RDY forced high defeats WAI. -/
def Obligations.WaitAndStop : Prop :=
  ∀ s : State,
    (∃ t, exec .wai s = .next t ∧ t.pc = s.pc + 1 ∧ t.run = (if s.rdyForcedHigh then .running else .waiting) ∧
      Frame [.pc] [] [] s { t with run := s.run }) ∧
    (∃ t, exec .stp s = .next t ∧ t.pc = s.pc + 1 ∧ t.run = .stopped ∧ Frame [.pc] [] [] s { t with run := s.run })

/-- The hardware interrupts at an instruction boundary (R441, R442, R450, R451): ABORT first, with the address of the
aborted opcode, then NMI, then IRQ if P.I = 0, each with the address of the next instruction; each clears its own latch
and leaves the others pending. Vectors and images as R440 and R453 give them. That the inputs are looked at once a step,
with the P.I the last instruction left, is the spec's decision D18 (log entry 19); that DBR is kept is R456 (log entry
22). -/
def Obligations.HardwareInterrupts : Prop :=
  (∀ s : State, s.run = .running → s.resetLine = false → s.input.resb = .high → s.input.abort = .none →
    (∀ a, s.abortPending = some a →
      ∃ t, step s = .next t ∧ Entered .abort (addrBank a) (addrOffset a)
        { s.sampled with nmiPending := s.nmiPending || s.input.nmiEdge, abortPending := none } t) ∧
    (s.abortPending = none → (s.nmiPending = true ∨ s.input.nmiEdge = true) →
      ∃ t, step s = .next t ∧ Entered .nmi s.pbr s.pc { s.sampled with nmiPending := false } t) ∧
    (s.abortPending = none → s.nmiPending = false → s.input.nmiEdge = false → s.input.irqLow = true →
      s.flag .i = false → ∃ t, step s = .next t ∧ Entered .irq s.pbr s.pc s.sampled t)) ∧
  (∀ e : Bool, InterruptKind.abort.vector e = (if e then 0xFFF8 else 0xFFE8) ∧
    InterruptKind.nmi.vector e = (if e then 0xFFFA else 0xFFEA) ∧
    InterruptKind.irq.vector e = (if e then 0xFFFE else 0xFFEE)) ∧
  ∀ (kind : InterruptKind) (p : Byte), kind ∈ [.abort, .nmi, .irq] →
    kind.pImage false p = p ∧ kind.pImage true p = (p ||| 0x20) &&& 0xEF

/-- A waiting processor (R426, R427): it waits on while nothing wakes it, remembering ABORTB with the address of the WAI,
RDY pulled low (R52) until then; an NMI edge, IRQB low or RDY forced high ends the wait; then ABORT, NMI, IRQ with P.I = 0
are taken in that order, else the instruction after WAI executes. The address latched is a reading of the spec, and so is
that RDY stays high after the pulse (log entries 24 and 27). ABORTB in the instruction that ends the wait is spoken of in
StepStops and AbortedInstruction. -/
def Obligations.Waiting : Prop :=
  ∀ (s base : State), s.run = .waiting → s.resetLine = false → s.input.resb = .high →
    base = { s.sampled with
      run := .running
      nmiPending := s.nmiPending || s.input.nmiEdge
      abortPending := if s.input.abort = .none then s.abortPending
        else some (s.abortPending.getD (bankAddr s.pbr (s.pc - 1))) } →
    (base.nmiPending = false → base.irqLine = false → base.rdyForcedHigh = false → s.input.abort ≠ .outsideWindow →
      step s = .next { base with run := .waiting } ∧
      (pinRdyPulledLow { base with run := .waiting } = true ↔ s.abortPending = none ∧ s.input.abort = .none)) ∧
    (base.nmiPending = true ∨ base.irqLine = true ∨ base.rdyForcedHigh = true →
      s.input.abort = .none ∨ s.input.abort = .atStart →
      (∀ a, base.abortPending = some a →
        ∃ t, step s = .next t ∧ Entered .abort (addrBank a) (addrOffset a) { base with abortPending := none } t) ∧
      (base.abortPending = none → base.nmiPending = true →
        ∃ t, step s = .next t ∧ Entered .nmi s.pbr s.pc { base with nmiPending := false } t) ∧
      (base.abortPending = none → base.nmiPending = false → base.irqLine = true → s.flag .i = false →
        ∃ t, step s = .next t ∧ Entered .irq s.pbr s.pc base t) ∧
      (base.abortPending = none → base.nmiPending = false → base.irqLine = false ∨ s.flag .i = true →
        step s = exec base.fetch base))

/-- A stopped processor (R428, R51): while RESB stays high nothing but the levels of the pins changes, for any number of
steps, whatever comes on NMIB, IRQB and ABORTB; memory too stays unless the platform changes it. -/
def Obligations.Stopped : Prop :=
  ∀ (n : Nat) (s : State), s.run = .stopped → s.resetLine = false → (∀ q ∈ s.env, q.resb = .high) →
    ∃ t, Host.Core.run Sys2Proof.core n s = .next t ∧ t.run = .stopped ∧ (∀ r, t.reg r = s.reg r) ∧ t.p = s.p ∧
      t.e = s.e ∧ t.nmiPending = s.nmiPending ∧ t.abortPending = s.abortPending ∧
      ((∀ q ∈ s.env, q.platform = []) → t.mem = s.mem)

/-- Reset (R60, R501 to R504): while RESB is low the forced values stand, from any state, and RDY is high (R52); when it
returns high PC is loaded from 00FFFC,D and the processor runs, waiting or stopped before; the processor changes no byte
of memory (beside what the platform shows) unless RESB fell while an instruction or sequence was in progress (R501, U15;
log entry 10). That the latches are cleared is the spec's decision D19 (R503; log entry 32), that its three stack-address
cycles leave S is the model's choice (log entry 40). What R61 leaves open is free:
nothing is said of it, nor of PC while RESB is low. -/
def Obligations.ResetSequence : Prop :=
  (∀ s : State, s.input.resb ≠ .high →
    ∃ t, step s = .next t ∧ t.d = 0x0000 ∧ t.dbr = 0x00 ∧ t.pbr = 0x00 ∧ hiByte t.sp = 0x01 ∧ hiByte t.x = 0x00 ∧
      hiByte t.y = 0x00 ∧ t.e = true ∧ t.flag .m = true ∧ t.flag .x = true ∧ t.flag .d = false ∧ t.flag .i = true ∧
      t.resetLine = true ∧ pinRdyPulledLow t = false ∧
      (s.input.resb = .low ∨ s.resetLine = true ∨ s.run = .stopped ∨
        (s.run = .waiting ∧ s.nmiPending = false ∧ s.input.nmiEdge = false ∧ s.input.irqLow = false ∧
          s.input.rdyForcedHigh = false) → t.mem = s.sampled.mem)) ∧
  (∀ s : State, s.resetLine = true → s.input.resb = .high → s.input.abort = .none →
    ∃ t, step s = .next t ∧ t.pc = wordOfBytes (t.read .vector 0x00FFFC) (t.read .vector 0x00FFFD) ∧ t.run = .running ∧
      t.e = true ∧ t.pbr = 0x00 ∧ t.flag .i = true ∧ t.flag .d = false ∧ t.resetLine = false ∧
      t.nmiPending = false ∧ t.abortPending = none ∧ t.mem = s.sampled.mem ∧
      (∀ r, r ∉ [.pc, .pbr] → t.reg r = s.reg r) ∧ (∀ f, f ∉ [.i, .d] → t.flag f = s.flag f)) ∧
  resetPins.e = true ∧ resetPins.mx = (true, true) ∧ resetPins.rwb = true ∧ resetPins.vda = false ∧
  resetPins.vpb = true ∧ resetPins.vpa = false

/-- An aborted instruction (R470), of a running processor or the one that a wait goes on with: every register, P and E are
as before it, PC at its opcode, and the latch holds that address; its writes are all done or all suppressed (D15, log
entry 8), what the platform shows in the step (log entry 3) beside them. The processor runs on, after an aborted STP too,
which is the model's reading (log entry 25), but an aborted WAI waits (R427). BRK and COP are refused (StepStops). -/
def Obligations.AbortedInstruction : Prop :=
  ∀ s : State, s.resetLine = false → s.input.resb = .high →
    (s.run = .running ∧ s.input.abort ∈ [.atStart, .inWindow]) ∨
      (s.run = .waiting ∧ s.input.abort = .inWindow ∧ (s.input.irqLow = true ∨ s.input.rdyForcedHigh = true)) →
    s.abortPending = none → s.nmiPending = false → s.input.nmiEdge = false →
    (s.input.irqLow = false ∨ s.flag .i = true) → s.sampled.fetch.mnemonic ∉ [.BRK, .COP] →
    ∃ t u, step s = .next t ∧ exec s.sampled.fetch { s.sampled with run := .running } = .next u ∧
      (∀ r, t.reg r = s.reg r) ∧ t.p = s.p ∧ t.e = s.e ∧
      t.run = (if s.sampled.fetch = .wai ∧ s.input.rdyForcedHigh = false then .waiting else .running) ∧
      t.abortPending = some (bankAddr s.pbr s.pc) ∧ t.nmiPending = false ∧ (t.mem = s.sampled.mem ∨ t.mem = u.mem)

end
end

