-- ==== Sys2Proof/Laws/Bits.lean ====
section
/-!
SUPPORT. Bytes, words and addresses: values as numbers, taking apart what was put together, and when two addresses are equal.
-/

namespace Sys2Proof

/-! ## Values as numbers -/

theorem append_toNat {n : Nat} (h : BitVec n) (l : Byte) : (h ++ l).toNat = 2 ^ 8 * h.toNat + l.toNat := by
  rw [BitVec.toNat_append, ← Nat.shiftLeft_add_eq_or_of_lt l.isLt, Nat.shiftLeft_eq]
  omega

theorem append_word_toNat (k : Byte) (a : Word) : (k ++ a : BitVec 24).toNat = 2 ^ 16 * k.toNat + a.toNat := by
  rw [BitVec.toNat_append, ← Nat.shiftLeft_add_eq_or_of_lt a.isLt, Nat.shiftLeft_eq]
  omega

theorem wordOfBytes_toNat (l h : Byte) : (wordOfBytes l h).toNat = l.toNat + 2 ^ 8 * h.toNat := by
  rw [wordOfBytes, append_toNat]
  omega

theorem addrOfBytes_toNat (l h k : Byte) :
    (addrOfBytes l h k).toNat = l.toNat + 2 ^ 8 * h.toNat + 2 ^ 16 * k.toNat := by
  rw [addrOfBytes, append_word_toNat, append_toNat]
  omega

theorem loByte_toNat (v : Word) : (loByte v).toNat = v.toNat % 2 ^ 8 := by
  simp [loByte]

theorem hiByte_toNat (v : Word) : (hiByte v).toNat = v.toNat / 2 ^ 8 := by
  simp only [hiByte, BitVec.extractLsb'_toNat, Nat.shiftRight_eq_div_pow]
  have := v.isLt
  omega

theorem addrOffset_toNat (a : Addr) : (addrOffset a).toNat = a.toNat % 2 ^ 16 := by
  simp [addrOffset]

theorem addrBank_toNat (a : Addr) : (addrBank a).toNat = a.toNat / 2 ^ 16 := by
  simp only [addrBank, BitVec.extractLsb'_toNat, Nat.shiftRight_eq_div_pow]
  have := a.isLt
  omega

/-! ## Parts of a word -/

@[simp] theorem loByte_append (h l : Byte) : loByte (h ++ l : BitVec 16) = l := by
  apply BitVec.eq_of_toNat_eq
  rw [loByte_toNat, append_toNat]
  have := l.isLt
  omega

@[simp] theorem hiByte_append (h l : Byte) : hiByte (h ++ l : BitVec 16) = h := by
  apply BitVec.eq_of_toNat_eq
  rw [hiByte_toNat, append_toNat]
  have := l.isLt
  omega

@[simp] theorem loByte_wordOfBytes (l h : Byte) : loByte (wordOfBytes l h) = l := loByte_append h l

@[simp] theorem hiByte_wordOfBytes (l h : Byte) : hiByte (wordOfBytes l h) = h := hiByte_append h l

@[simp] theorem wordOfBytes_lo_hi (v : Word) : wordOfBytes (loByte v) (hiByte v) = v := by
  apply BitVec.eq_of_toNat_eq
  rw [wordOfBytes_toNat, loByte_toNat, hiByte_toNat]
  omega

@[simp] theorem hi_append_lo (v : Word) : (hiByte v ++ loByte v : BitVec 16) = v := wordOfBytes_lo_hi v

theorem word_ext {v w : Word} (hl : loByte v = loByte w) (hh : hiByte v = hiByte w) : v = w := by
  rw [← wordOfBytes_lo_hi v, ← wordOfBytes_lo_hi w, hl, hh]

@[simp] theorem addrOffset_addrOfBytes (l h k : Byte) : addrOffset (addrOfBytes l h k) = wordOfBytes l h := by
  apply BitVec.eq_of_toNat_eq
  rw [addrOffset_toNat, addrOfBytes_toNat, wordOfBytes_toNat]
  have := l.isLt
  have := h.isLt
  omega

@[simp] theorem addrBank_addrOfBytes (l h k : Byte) : addrBank (addrOfBytes l h k) = k := by
  apply BitVec.eq_of_toNat_eq
  rw [addrBank_toNat, addrOfBytes_toNat]
  have := l.isLt
  have := h.isLt
  omega

@[simp] theorem addrOfBytes_parts (a : Addr) :
    addrOfBytes (loByte (addrOffset a)) (hiByte (addrOffset a)) (addrBank a) = a := by
  apply BitVec.eq_of_toNat_eq
  rw [addrOfBytes_toNat, loByte_toNat, hiByte_toNat, addrOffset_toNat, addrBank_toNat]
  omega

end Sys2Proof

namespace Sys2Proof.Machine

theorem zext8_toNat (b : Byte) : (zext8 b).toNat = b.toNat := by
  simp only [zext8, BitVec.toNat_setWidth]
  have := b.isLt
  omega

@[simp] theorem loByte_zext8 (b : Byte) : loByte (zext8 b) = b := by
  apply BitVec.eq_of_toNat_eq
  rw [loByte_toNat, zext8_toNat]
  have := b.isLt
  omega

@[simp] theorem hiByte_zext8 (b : Byte) : hiByte (zext8 b) = 0x00 := by
  apply BitVec.eq_of_toNat_eq
  rw [hiByte_toNat, zext8_toNat]
  exact Nat.div_eq_of_lt b.isLt

theorem zext8_loByte {v : Word} (h : hiByte v = 0x00) : zext8 (loByte v) = v := word_ext (by simp) (by simp [h])

theorem zext8_inj {a b : Byte} (h : zext8 a = zext8 b) : a = b := by
  rw [← loByte_zext8 a, h, loByte_zext8]

/-! ## Addresses -/

theorem bankAddr_toNat (bank : Byte) (a : Word) : (bankAddr bank a).toNat = 2 ^ 16 * bank.toNat + a.toNat :=
  append_word_toNat bank a

theorem bank0_toNat (a : Word) : (bank0 a).toNat = a.toNat := by
  rw [bank0, bankAddr_toNat]
  show 2 ^ 16 * 0 + a.toNat = a.toNat
  omega

theorem bankAddr_inj {b c : Byte} {a d : Word} (h : bankAddr b a = bankAddr c d) : b = c ∧ a = d := by
  have hn := congrArg BitVec.toNat h
  rw [bankAddr_toNat, bankAddr_toNat] at hn
  have := a.isLt
  have := d.isLt
  constructor <;> apply BitVec.eq_of_toNat_eq <;> omega

@[simp] theorem bankAddr_eq_iff (b c : Byte) (a d : Word) : bankAddr b a = bankAddr c d ↔ b = c ∧ a = d :=
  ⟨bankAddr_inj, fun h => by rw [h.1, h.2]⟩

theorem bank0_inj {a b : Word} (h : bank0 a = bank0 b) : a = b := (bankAddr_inj h).2

@[simp] theorem bank0_eq_iff (a b : Word) : bank0 a = bank0 b ↔ a = b := ⟨bank0_inj, fun h => by rw [h]⟩

@[simp] theorem addrOffset_bankAddr (b : Byte) (a : Word) : addrOffset (bankAddr b a) = a := by
  apply BitVec.eq_of_toNat_eq
  rw [addrOffset_toNat, bankAddr_toNat]
  have := a.isLt
  omega

@[simp] theorem addrBank_bankAddr (b : Byte) (a : Word) : addrBank (bankAddr b a) = b := by
  apply BitVec.eq_of_toNat_eq
  rw [addrBank_toNat, bankAddr_toNat]
  have := a.isLt
  omega

theorem zext24_toNat (v : Word) : (zext24 v).toNat = v.toNat := by
  simp only [zext24, BitVec.toNat_setWidth]
  have := v.isLt
  omega

/-! ## Widths -/

@[simp] theorem Width.trunc_w16 (v : Word) : Width.w16.trunc v = v := rfl

@[simp] theorem Width.trunc_w8 (v : Word) : Width.w8.trunc v = zext8 (loByte v) := rfl

theorem Width.trunc_toNat (w : Width) (v : Word) : (w.trunc v).toNat = v.toNat % 2 ^ w.bits := by
  cases w
  · simp [Width.bits, zext8_toNat, loByte_toNat]
  · have := v.isLt
    simp only [Width.trunc, Width.bits]
    omega

@[simp] theorem Width.trunc_trunc (w : Width) (v : Word) : w.trunc (w.trunc v) = w.trunc v := by
  cases w <;> simp

@[simp] theorem Width.loByte_trunc (w : Width) (v : Word) : loByte (w.trunc v) = loByte v := by
  cases w <;> simp

@[simp] theorem Width.merge_w16 (old v : Word) : Width.w16.merge old v = v := rfl

@[simp] theorem Width.merge_w8 (old v : Word) : Width.w8.merge old v = hiByte old ++ loByte v := rfl

end Sys2Proof.Machine
end

