-- ==== Sys2Proof/Laws/Exec.lean ====
section
/-!
SUPPORT. The meanings by mnemonic: every form of an instruction that has several is its family's shared operation on the form's
operand.
-/

namespace Sys2Proof.Machine

/-- All of them in one case analysis. -/
theorem exec_family (i : Instr) (s : State) :
    match i.mnemonic with
    | .LDA => exec i s = .next (s.loadA i.operand)
    | .LDX => exec i s = .next (s.loadX i.operand)
    | .LDY => exec i s = .next (s.loadY i.operand)
    | .STA => exec i s = .next (s.storeA i.operand)
    | .STX => exec i s = .next (s.storeX i.operand)
    | .STY => exec i s = .next (s.storeY i.operand)
    | .STZ => exec i s = .next (s.storeZero i.operand)
    | .ADC => exec i s = .next (s.adc i.operand)
    | .SBC => exec i s = .next (s.sbc i.operand)
    | .AND => exec i s = .next (s.and i.operand)
    | .ORA => exec i s = .next (s.ora i.operand)
    | .EOR => exec i s = .next (s.eor i.operand)
    | .CMP => exec i s = .next (s.cmp i.operand)
    | .CPX => exec i s = .next (s.cpx i.operand)
    | .CPY => exec i s = .next (s.cpy i.operand)
    | .INC => exec i s = .next (s.inc i.operand)
    | .DEC => exec i s = .next (s.dec i.operand)
    | .ASL => exec i s = .next (s.asl i.operand)
    | .LSR => exec i s = .next (s.lsr i.operand)
    | .ROL => exec i s = .next (s.rol i.operand)
    | .ROR => exec i s = .next (s.ror i.operand)
    | .TSB => exec i s = .next (s.tsb i.operand)
    | .TRB => exec i s = .next (s.trb i.operand)
    | .BIT => (∃ v, i = .bitImm v ∧ exec i s = .next (s.bitImmediate i.operand)) ∨
        ((∀ v, i ≠ .bitImm v) ∧ exec i s = .next (s.bitMemory i.operand))
    | _ => True := by
  cases i <;> first | exact True.intro | rfl | exact .inl ⟨_, rfl, rfl⟩ | exact .inr ⟨nofun, rfl⟩

theorem exec_LDA {i : Instr} (h : i.mnemonic = .LDA) (s : State) : exec i s = .next (s.loadA i.operand) := by
  have hf := exec_family i s
  rw [h] at hf
  exact hf

theorem exec_LDX {i : Instr} (h : i.mnemonic = .LDX) (s : State) : exec i s = .next (s.loadX i.operand) := by
  have hf := exec_family i s
  rw [h] at hf
  exact hf

theorem exec_LDY {i : Instr} (h : i.mnemonic = .LDY) (s : State) : exec i s = .next (s.loadY i.operand) := by
  have hf := exec_family i s
  rw [h] at hf
  exact hf

theorem exec_STA {i : Instr} (h : i.mnemonic = .STA) (s : State) : exec i s = .next (s.storeA i.operand) := by
  have hf := exec_family i s
  rw [h] at hf
  exact hf

theorem exec_STX {i : Instr} (h : i.mnemonic = .STX) (s : State) : exec i s = .next (s.storeX i.operand) := by
  have hf := exec_family i s
  rw [h] at hf
  exact hf

theorem exec_STY {i : Instr} (h : i.mnemonic = .STY) (s : State) : exec i s = .next (s.storeY i.operand) := by
  have hf := exec_family i s
  rw [h] at hf
  exact hf

theorem exec_STZ {i : Instr} (h : i.mnemonic = .STZ) (s : State) : exec i s = .next (s.storeZero i.operand) := by
  have hf := exec_family i s
  rw [h] at hf
  exact hf

theorem exec_ADC {i : Instr} (h : i.mnemonic = .ADC) (s : State) : exec i s = .next (s.adc i.operand) := by
  have hf := exec_family i s
  rw [h] at hf
  exact hf

theorem exec_SBC {i : Instr} (h : i.mnemonic = .SBC) (s : State) : exec i s = .next (s.sbc i.operand) := by
  have hf := exec_family i s
  rw [h] at hf
  exact hf

theorem exec_AND {i : Instr} (h : i.mnemonic = .AND) (s : State) : exec i s = .next (s.and i.operand) := by
  have hf := exec_family i s
  rw [h] at hf
  exact hf

theorem exec_ORA {i : Instr} (h : i.mnemonic = .ORA) (s : State) : exec i s = .next (s.ora i.operand) := by
  have hf := exec_family i s
  rw [h] at hf
  exact hf

theorem exec_EOR {i : Instr} (h : i.mnemonic = .EOR) (s : State) : exec i s = .next (s.eor i.operand) := by
  have hf := exec_family i s
  rw [h] at hf
  exact hf

theorem exec_CMP {i : Instr} (h : i.mnemonic = .CMP) (s : State) : exec i s = .next (s.cmp i.operand) := by
  have hf := exec_family i s
  rw [h] at hf
  exact hf

theorem exec_CPX {i : Instr} (h : i.mnemonic = .CPX) (s : State) : exec i s = .next (s.cpx i.operand) := by
  have hf := exec_family i s
  rw [h] at hf
  exact hf

theorem exec_CPY {i : Instr} (h : i.mnemonic = .CPY) (s : State) : exec i s = .next (s.cpy i.operand) := by
  have hf := exec_family i s
  rw [h] at hf
  exact hf

theorem exec_INC {i : Instr} (h : i.mnemonic = .INC) (s : State) : exec i s = .next (s.inc i.operand) := by
  have hf := exec_family i s
  rw [h] at hf
  exact hf

theorem exec_DEC {i : Instr} (h : i.mnemonic = .DEC) (s : State) : exec i s = .next (s.dec i.operand) := by
  have hf := exec_family i s
  rw [h] at hf
  exact hf

theorem exec_ASL {i : Instr} (h : i.mnemonic = .ASL) (s : State) : exec i s = .next (s.asl i.operand) := by
  have hf := exec_family i s
  rw [h] at hf
  exact hf

theorem exec_LSR {i : Instr} (h : i.mnemonic = .LSR) (s : State) : exec i s = .next (s.lsr i.operand) := by
  have hf := exec_family i s
  rw [h] at hf
  exact hf

theorem exec_ROL {i : Instr} (h : i.mnemonic = .ROL) (s : State) : exec i s = .next (s.rol i.operand) := by
  have hf := exec_family i s
  rw [h] at hf
  exact hf

theorem exec_ROR {i : Instr} (h : i.mnemonic = .ROR) (s : State) : exec i s = .next (s.ror i.operand) := by
  have hf := exec_family i s
  rw [h] at hf
  exact hf

theorem exec_TSB {i : Instr} (h : i.mnemonic = .TSB) (s : State) : exec i s = .next (s.tsb i.operand) := by
  have hf := exec_family i s
  rw [h] at hf
  exact hf

theorem exec_TRB {i : Instr} (h : i.mnemonic = .TRB) (s : State) : exec i s = .next (s.trb i.operand) := by
  have hf := exec_family i s
  rw [h] at hf
  exact hf

theorem exec_BIT {i : Instr} (h : i.mnemonic = .BIT) (s : State) :
    (∃ v, i = .bitImm v ∧ exec i s = .next (s.bitImmediate i.operand)) ∨
      ((∀ v, i ≠ .bitImm v) ∧ exec i s = .next (s.bitMemory i.operand)) := by
  have hf := exec_family i s
  rw [h] at hf
  exact hf

/-! ## The operands of a family -/

/-- The operand of an instruction that stores is in memory. -/
theorem operand_of_store {i : Instr} (h : i.mnemonic ∈ [Mnemonic.STA, .STX, .STY, .STZ, .TSB, .TRB]) (s : State) :
    (∃ ea, s.locate i.operand = .mem24 ea) ∨ ∃ a, s.locate i.operand = .mem0 a := by
  cases i <;> first | exact .inl ⟨_, rfl⟩ | exact .inr ⟨_, rfl⟩ | (simp [Instr.mnemonic] at h)

/-- The operand of a read-modify-write instruction is the accumulator or in memory. -/
theorem operand_of_rmw {i : Instr} (h : i.mnemonic ∈ [Mnemonic.INC, .DEC, .ASL, .LSR, .ROL, .ROR]) (s : State) :
    (i.operand = .acc ∧ s.locate i.operand = .acc) ∨
      (i.operand ≠ .acc ∧ ((∃ ea, s.locate i.operand = .mem24 ea) ∨ ∃ a, s.locate i.operand = .mem0 a)) := by
  cases i <;> first
    | exact .inl ⟨rfl, rfl⟩
    | exact .inr ⟨nofun, .inl ⟨_, rfl⟩⟩
    | exact .inr ⟨nofun, .inr ⟨_, rfl⟩⟩
    | (simp [Instr.mnemonic] at h)

end Sys2Proof.Machine
end

