-- ==== Sys2Proof/Laws/Flags.lean ====
section
/-!
SUPPORT. Flags: what one write of a flag does to every flag, and that a status byte is its eight flags.
-/

namespace Sys2Proof.Machine

/-- One flag of a status byte after a write of one flag. -/
theorem flagOf_withFlag (f g : Flag) (b : Bool) (p : Byte) :
    flagOf g (withFlag f b p) = if g = f then b else flagOf g p := by
  cases b <;> cases f <;> cases g <;>
    simp [flagOf, withFlag, Flag.bit, Flag.mask]

@[simp] theorem flagOf_withFlag_same (f : Flag) (b : Bool) (p : Byte) : flagOf f (withFlag f b p) = b := by
  rw [flagOf_withFlag, if_pos rfl]

theorem flagOf_withFlag_other {f g : Flag} (h : g ≠ f) (b : Bool) (p : Byte) :
    flagOf g (withFlag f b p) = flagOf g p := by
  rw [flagOf_withFlag, if_neg h]

/-- Two status bytes with the same flags are the same. -/
theorem status_ext {p q : Byte} (h : ∀ f, flagOf f p = flagOf f q) : p = q := by
  apply BitVec.eq_of_getLsbD_eq
  intro k hk
  match k, hk with
  | 0, _ => exact h .c
  | 1, _ => exact h .z
  | 2, _ => exact h .i
  | 3, _ => exact h .d
  | 4, _ => exact h .x
  | 5, _ => exact h .m
  | 6, _ => exact h .v
  | 7, _ => exact h .n

/-- A flag of `p or q`. -/
theorem flagOf_or (f : Flag) (p q : Byte) : flagOf f (p ||| q) = (flagOf f p || flagOf f q) := by
  simp [flagOf]

/-- A flag of `p and q`. -/
theorem flagOf_and (f : Flag) (p q : Byte) : flagOf f (p &&& q) = (flagOf f p && flagOf f q) := by
  simp [flagOf]

/-- A flag of the complement. -/
theorem flagOf_not (f : Flag) (p : Byte) : flagOf f (~~~p) = !flagOf f p := by
  cases f <;> simp [flagOf, Flag.bit]

/-! ## Flags of the state -/

theorem State.flag_setFlag (f g : Flag) (b : Bool) (s : State) :
    (s.setFlag f b).flag g = if g = f then b else s.flag g := flagOf_withFlag f g b s.p

@[simp] theorem State.flag_setFlag_same (f : Flag) (b : Bool) (s : State) : (s.setFlag f b).flag f = b :=
  flagOf_withFlag_same f b s.p

theorem State.flag_setFlag_other {f g : Flag} (h : g ≠ f) (b : Bool) (s : State) :
    (s.setFlag f b).flag g = s.flag g := flagOf_withFlag_other h b s.p

theorem State.flag_setNZ (w : Width) (v : Word) (g : Flag) (s : State) :
    (State.setNZ w v s).flag g =
      if g = .z then w.trunc v == 0 else if g = .n then w.msb v else s.flag g := by
  simp only [State.setNZ, State.flag_setFlag]

@[simp] theorem State.setNZ_z (w : Width) (v : Word) (s : State) : (State.setNZ w v s).flag .z = (w.trunc v == 0) := by
  simp [State.flag_setNZ]

@[simp] theorem State.setNZ_n (w : Width) (v : Word) (s : State) : (State.setNZ w v s).flag .n = w.msb v := by
  simp [State.flag_setNZ]

theorem State.setNZ_other {g : Flag} (hz : g ≠ .z) (hn : g ≠ .n) (w : Width) (v : Word) (s : State) :
    (State.setNZ w v s).flag g = s.flag g := by
  simp [State.flag_setNZ, hz, hn]

/-! ## Top bits as numbers -/

/-- The most significant bit says whether the value reaches half the range. -/
theorem Width.msb_iff (w : Width) (v : Word) : w.msb v = true ↔ 2 ^ (w.bits - 1) ≤ v.toNat % 2 ^ w.bits := by
  have := v.isLt
  cases w
  · simp only [Width.msb, Width.bits, BitVec.getLsbD, Nat.testBit_eq_decide_div_mod_eq, decide_eq_true_eq]
    omega
  · simp only [Width.msb, Width.bits, BitVec.getLsbD, Nat.testBit_eq_decide_div_mod_eq, decide_eq_true_eq]
    omega

/-- The zero test at a width, on numbers. -/
theorem Width.trunc_eq_zero_iff (w : Width) (v : Word) : (w.trunc v == 0) = true ↔ v.toNat % 2 ^ w.bits = 0 := by
  rw [beq_iff_eq, ← w.trunc_toNat v]
  constructor
  · intro h; rw [h]; rfl
  · intro h; exact BitVec.eq_of_toNat_eq h

end Sys2Proof.Machine
end

