-- ==== Sys2Proof/Laws/Memory.lean ====
section
/-!
SUPPORT. Memory: a read after a write, at the same address and at another, for any list; and every memory operation keeps the
canonical form.
-/

namespace Sys2Proof.Machine

/-! ## Read after write -/

theorem Memory.read_insert_same (m : Memory) (a : Nat) (v : Byte) : (Memory.insert m a v).read a = v := by
  induction m with
  | nil => simp [Memory.insert, Memory.read]
  | cons cell rest ih =>
    obtain ⟨k, b⟩ := cell
    unfold Memory.insert
    split
    · simp [Memory.read]
    · split
      · simp [Memory.read]
      · simp [Memory.read, *]

theorem Memory.read_insert_other (m : Memory) {a b : Nat} (v : Byte) (h : b ≠ a) :
    (Memory.insert m a v).read b = m.read b := by
  induction m with
  | nil => simp [Memory.insert, Memory.read, Ne.symm h]
  | cons cell rest ih =>
    obtain ⟨k, c⟩ := cell
    unfold Memory.insert
    split
    · next hk => subst hk; simp [Memory.read, Ne.symm h]
    · split
      · simp [Memory.read, Ne.symm h]
      · simp [Memory.read, ih]

theorem Memory.read_remove_same (m : Memory) (a : Nat) :
    Memory.read (m.filter (fun cell => cell.1 != a)) a = unlistedByte := by
  induction m with
  | nil => rfl
  | cons cell rest ih =>
    obtain ⟨k, c⟩ := cell
    by_cases hk : k = a
    · simp [hk, ih]
    · simp [hk, Memory.read, ih]

theorem Memory.read_remove_other (m : Memory) {a b : Nat} (h : b ≠ a) :
    Memory.read (m.filter (fun cell => cell.1 != a)) b = m.read b := by
  induction m with
  | nil => rfl
  | cons cell rest ih =>
    obtain ⟨k, c⟩ := cell
    by_cases hk : k = a
    · subst hk; simp [Memory.read, ih, Ne.symm h]
    · simp [hk, Memory.read, ih]

@[simp] theorem Memory.read_write_same (m : Memory) (a : Nat) (v : Byte) : (Memory.write m a v).read a = v := by
  unfold Memory.write
  split
  · next h => rw [Memory.read_remove_same, h]
  · exact Memory.read_insert_same m a v

theorem Memory.read_write_other (m : Memory) {a b : Nat} (v : Byte) (h : b ≠ a) :
    (Memory.write m a v).read b = m.read b := by
  unfold Memory.write
  split
  · exact Memory.read_remove_other m h
  · exact Memory.read_insert_other m v h

/-- A read after a write, in one equation. -/
theorem Memory.read_write (m : Memory) (a b : Nat) (v : Byte) :
    (Memory.write m a v).read b = if b = a then v else m.read b := by
  split
  · next h => subst h; simp
  · next h => exact Memory.read_write_other m v h

/-! ## The canonical form -/

theorem Memory.above_trans {lo hi : Nat} {m : Memory} (h : lo < hi) (hm : Memory.above hi m = true) :
    Memory.above lo m = true := by
  simp only [Memory.above, List.all_eq_true, decide_eq_true_eq] at *
  intro cell hc
  exact Nat.lt_trans h (hm cell hc)

theorem Memory.above_filter {lo : Nat} {m : Memory} (p : Host.Cell → Bool) (hm : Memory.above lo m = true) :
    Memory.above lo (m.filter p) = true := by
  simp only [Memory.above, List.all_eq_true, decide_eq_true_eq] at *
  intro cell hc
  exact hm cell (List.mem_filter.mp hc).1

theorem Memory.above_insert {lo a : Nat} {m : Memory} (v : Byte) (h : lo < a) (hm : Memory.above lo m = true) :
    Memory.above lo (m.insert a v) = true := by
  induction m with
  | nil => simp [Memory.insert, Memory.above, h]
  | cons cell rest ih =>
    obtain ⟨k, c⟩ := cell
    simp only [Memory.above, List.all_cons, Bool.and_eq_true, decide_eq_true_eq] at hm
    unfold Memory.insert
    split
    · simp only [Memory.above, List.all_cons, Bool.and_eq_true, decide_eq_true_eq]
      exact ⟨h, hm.2⟩
    · split
      · simp only [Memory.above, List.all_cons, Bool.and_eq_true, decide_eq_true_eq]
        exact ⟨h, hm.1, hm.2⟩
      · simp only [Memory.above, List.all_cons, Bool.and_eq_true, decide_eq_true_eq]
        exact ⟨hm.1, ih hm.2⟩

theorem Memory.wf_filter {m : Memory} (p : Host.Cell → Bool) (hm : Memory.wf m = true) : Memory.wf (m.filter p) = true := by
  induction m with
  | nil => rfl
  | cons cell rest ih =>
    obtain ⟨k, c⟩ := cell
    simp only [Memory.wf, Bool.and_eq_true] at hm
    simp only [List.filter]
    split
    · simp only [Memory.wf, Bool.and_eq_true]
      exact ⟨⟨hm.1.1, Memory.above_filter p hm.1.2⟩, ih hm.2⟩
    · exact ih hm.2

theorem Memory.wf_insert {m : Memory} {a : Nat} {v : Byte} (ha : a < 2 ^ 24) (hv : v ≠ unlistedByte)
    (hm : Memory.wf m = true) : Memory.wf (m.insert a v) = true := by
  induction m with
  | nil => simp [Memory.insert, Memory.wf, Memory.above, hv]; omega
  | cons cell rest ih =>
    obtain ⟨k, c⟩ := cell
    have hm' := hm
    simp only [Memory.wf, Bool.and_eq_true, decide_eq_true_eq, bne_iff_ne] at hm
    unfold Memory.insert
    split
    · next hk =>
      subst hk
      simp only [Memory.wf, Bool.and_eq_true, decide_eq_true_eq, bne_iff_ne]
      exact ⟨⟨⟨ha, hv⟩, hm.1.2⟩, hm.2⟩
    · next hk =>
      split
      · next hlt =>
        have hab : Memory.above a ((k, c) :: rest) = true := by
          simp only [Memory.above, List.all_cons, Bool.and_eq_true, decide_eq_true_eq]
          exact ⟨hlt, Memory.above_trans hlt hm.1.2⟩
        rw [Memory.wf]
        simp only [Bool.and_eq_true, decide_eq_true_eq, bne_iff_ne]
        exact ⟨⟨⟨ha, hv⟩, hab⟩, hm'⟩
      · next hlt =>
        simp only [Memory.wf, Bool.and_eq_true, decide_eq_true_eq, bne_iff_ne]
        exact ⟨⟨hm.1.1, Memory.above_insert v (by omega) hm.1.2⟩, ih hm.2⟩

/-- Every write keeps the canonical form. -/
theorem Memory.wf_write {m : Memory} {a : Nat} (v : Byte) (ha : a < 2 ^ 24) (hm : Memory.wf m = true) :
    Memory.wf (m.write a v) = true := by
  unfold Memory.write
  split
  · exact Memory.wf_filter _ hm
  · next hv => exact Memory.wf_insert ha hv hm

/-- Storing a list of bytes keeps the canonical form. -/
theorem Memory.wf_writeAll {m : Memory} (cells : List (Addr × Byte)) (hm : Memory.wf m = true) :
    Memory.wf (Memory.writeAll cells m) = true := by
  induction cells generalizing m with
  | nil => exact hm
  | cons cell rest ih => exact ih (Memory.wf_write cell.2 cell.1.isLt hm)

theorem reset_memory_wf : Memory.wf State.reset.mem = true := rfl

/-! ## Bytes of the state -/

@[simp] theorem State.byteAt_storeByte_same (s : State) (a : Addr) (v : Byte) : (s.storeByte a v).byteAt a = v := by
  simp [State.byteAt, State.storeByte]

theorem State.byteAt_storeByte_other (s : State) {a b : Addr} (v : Byte) (h : b ≠ a) :
    (s.storeByte a v).byteAt b = s.byteAt b := by
  simp only [State.byteAt, State.storeByte]
  exact Memory.read_write_other _ _ (fun e => h (BitVec.eq_of_toNat_eq e))

/-- A byte after a store, in one equation. -/
theorem State.byteAt_storeByte (s : State) (a b : Addr) (v : Byte) :
    (s.storeByte a v).byteAt b = if b = a then v else s.byteAt b := by
  split
  · next h => subst h; simp
  · next h => exact State.byteAt_storeByte_other s v h

/-- A byte the platform does not show anew is as before. -/
theorem State.byteAt_platformShows_other {cells : List (Addr × Byte)} {a : Addr} (h : a ∉ cells.map Prod.fst) (s : State) :
    (s.platformShows cells).byteAt a = s.byteAt a := by
  induction cells generalizing s with
  | nil => rfl
  | cons cell rest ih =>
    simp only [List.map_cons, List.mem_cons, not_or] at h
    exact (ih h.2 (s.storeByte cell.1 cell.2)).trans (State.byteAt_storeByte_other s cell.2 h.1)

/-- The last entry for an address is what the platform shows there. -/
theorem State.byteAt_platformShows_last (before : List (Addr × Byte)) {later : List (Addr × Byte)} {a : Addr} (v : Byte)
    (h : a ∉ later.map Prod.fst) (s : State) : (s.platformShows (before ++ (a, v) :: later)).byteAt a = v := by
  induction before generalizing s with
  | nil => exact (State.byteAt_platformShows_other h (s.storeByte a v)).trans (State.byteAt_storeByte_same s a v)
  | cons cell rest ih => exact ih (s.storeByte cell.1 cell.2)

/-! ## Reads -/

@[simp] theorem answerTo_nil (kind : ReadKind) (a : Addr) : answerTo kind a [] = none := rfl

/-- A read to which the platform gives no answer of its own. -/
theorem answerTo_none {kind : ReadKind} {a : Addr} {answers : List Answer}
    (h : ∀ x ∈ answers, ¬ (x.kind = kind ∧ x.addr = a)) : answerTo kind a answers = none := by
  induction answers with
  | nil => rfl
  | cons x rest ih =>
    unfold answerTo
    rw [if_neg (h x (List.mem_cons_self ..))]
    exact ih fun y hy => h y (List.mem_cons_of_mem _ hy)

/-- The first answer to an access is the one given. -/
theorem answerTo_first {before later : List Answer} {x : Answer}
    (h : ∀ y ∈ before, ¬ (y.kind = x.kind ∧ y.addr = x.addr)) :
    answerTo x.kind x.addr (before ++ x :: later) = some x.data := by
  induction before with
  | nil => exact if_pos ⟨rfl, rfl⟩
  | cons y rest ih =>
    show (if y.kind = x.kind ∧ y.addr = x.addr then some y.data else answerTo x.kind x.addr (rest ++ x :: later)) = _
    rw [if_neg (h y (List.mem_cons_self ..))]
    exact ih fun z hz => h z (List.mem_cons_of_mem _ hz)

/-- Where the platform answers nothing of its own, a read gives what memory holds. -/
theorem State.read_of_none {s : State} {kind : ReadKind} {a : Addr} (h : answerTo kind a s.answers = none) :
    s.read kind a = s.byteAt a := by
  unfold State.read
  rw [h]
  rfl

/-- On plain RAM every read gives what memory holds. -/
theorem State.read_of_nil {s : State} (h : s.answers = []) (kind : ReadKind) (a : Addr) : s.read kind a = s.byteAt a :=
  State.read_of_none (by rw [h]; rfl)

/-- A read to which the platform gives its own answer. -/
theorem State.read_of_some {s : State} {kind : ReadKind} {a : Addr} {v : Byte} (h : answerTo kind a s.answers = some v) :
    s.read kind a = v := by
  unfold State.read
  rw [h]
  rfl

theorem State.platformShows_wf {s : State} (cells : List (Addr × Byte)) (h : Memory.wf s.mem = true) :
    Memory.wf (s.platformShows cells).mem = true :=
  Memory.wf_writeAll cells h

theorem State.storeByte_wf {s : State} (a : Addr) (v : Byte) (h : Memory.wf s.mem = true) :
    Memory.wf (s.storeByte a v).mem = true :=
  Memory.wf_write v a.isLt h

end Sys2Proof.Machine
end

