-- ==== Sys2Proof/Laws/State.lean ====
section
/-!
SUPPORT. One lemma per field of State and named update: what the update leaves alone, as a rewrite. For the updates that leave P
or memory alone, also what they leave of flags, widths and bytes.
-/

namespace Sys2Proof.Machine

/-! ## setFlag -/

@[simp] theorem State.setFlag_c (f : Flag) (b : Bool) (s : State) : (s.setFlag f b).c = s.c := rfl
@[simp] theorem State.setFlag_x (f : Flag) (b : Bool) (s : State) : (s.setFlag f b).x = s.x := rfl
@[simp] theorem State.setFlag_y (f : Flag) (b : Bool) (s : State) : (s.setFlag f b).y = s.y := rfl
@[simp] theorem State.setFlag_sp (f : Flag) (b : Bool) (s : State) : (s.setFlag f b).sp = s.sp := rfl
@[simp] theorem State.setFlag_d (f : Flag) (b : Bool) (s : State) : (s.setFlag f b).d = s.d := rfl
@[simp] theorem State.setFlag_pc (f : Flag) (b : Bool) (s : State) : (s.setFlag f b).pc = s.pc := rfl
@[simp] theorem State.setFlag_dbr (f : Flag) (b : Bool) (s : State) : (s.setFlag f b).dbr = s.dbr := rfl
@[simp] theorem State.setFlag_pbr (f : Flag) (b : Bool) (s : State) : (s.setFlag f b).pbr = s.pbr := rfl
@[simp] theorem State.setFlag_e (f : Flag) (b : Bool) (s : State) : (s.setFlag f b).e = s.e := rfl
@[simp] theorem State.setFlag_run (f : Flag) (b : Bool) (s : State) : (s.setFlag f b).run = s.run := rfl
@[simp] theorem State.setFlag_nmiPending (f : Flag) (b : Bool) (s : State) : (s.setFlag f b).nmiPending = s.nmiPending := rfl
@[simp] theorem State.setFlag_abortPending (f : Flag) (b : Bool) (s : State) : (s.setFlag f b).abortPending = s.abortPending := rfl
@[simp] theorem State.setFlag_irqLine (f : Flag) (b : Bool) (s : State) : (s.setFlag f b).irqLine = s.irqLine := rfl
@[simp] theorem State.setFlag_resetLine (f : Flag) (b : Bool) (s : State) : (s.setFlag f b).resetLine = s.resetLine := rfl
@[simp] theorem State.setFlag_rdyForcedHigh (f : Flag) (b : Bool) (s : State) : (s.setFlag f b).rdyForcedHigh = s.rdyForcedHigh := rfl
@[simp] theorem State.setFlag_mem (f : Flag) (b : Bool) (s : State) : (s.setFlag f b).mem = s.mem := rfl
@[simp] theorem State.setFlag_env (f : Flag) (b : Bool) (s : State) : (s.setFlag f b).env = s.env := rfl
@[simp] theorem State.setFlag_draws (f : Flag) (b : Bool) (s : State) : (s.setFlag f b).draws = s.draws := rfl
@[simp] theorem State.setFlag_answers (f : Flag) (b : Bool) (s : State) : (s.setFlag f b).answers = s.answers := rfl
@[simp] theorem State.setFlag_byteAt (f : Flag) (b : Bool) (s : State) (addr : Addr) : (s.setFlag f b).byteAt addr = s.byteAt addr := rfl
@[simp] theorem State.setFlag_read (f : Flag) (b : Bool) (s : State) (kind : ReadKind) (addr : Addr) : (s.setFlag f b).read kind addr = s.read kind addr := by simp [State.read]

/-! ## setNZ -/

@[simp] theorem State.setNZ_c (w : Width) (v : Word) (s : State) : (State.setNZ w v s).c = s.c := rfl
@[simp] theorem State.setNZ_x (w : Width) (v : Word) (s : State) : (State.setNZ w v s).x = s.x := rfl
@[simp] theorem State.setNZ_y (w : Width) (v : Word) (s : State) : (State.setNZ w v s).y = s.y := rfl
@[simp] theorem State.setNZ_sp (w : Width) (v : Word) (s : State) : (State.setNZ w v s).sp = s.sp := rfl
@[simp] theorem State.setNZ_d (w : Width) (v : Word) (s : State) : (State.setNZ w v s).d = s.d := rfl
@[simp] theorem State.setNZ_pc (w : Width) (v : Word) (s : State) : (State.setNZ w v s).pc = s.pc := rfl
@[simp] theorem State.setNZ_dbr (w : Width) (v : Word) (s : State) : (State.setNZ w v s).dbr = s.dbr := rfl
@[simp] theorem State.setNZ_pbr (w : Width) (v : Word) (s : State) : (State.setNZ w v s).pbr = s.pbr := rfl
@[simp] theorem State.setNZ_e (w : Width) (v : Word) (s : State) : (State.setNZ w v s).e = s.e := rfl
@[simp] theorem State.setNZ_run (w : Width) (v : Word) (s : State) : (State.setNZ w v s).run = s.run := rfl
@[simp] theorem State.setNZ_nmiPending (w : Width) (v : Word) (s : State) : (State.setNZ w v s).nmiPending = s.nmiPending := rfl
@[simp] theorem State.setNZ_abortPending (w : Width) (v : Word) (s : State) : (State.setNZ w v s).abortPending = s.abortPending := rfl
@[simp] theorem State.setNZ_irqLine (w : Width) (v : Word) (s : State) : (State.setNZ w v s).irqLine = s.irqLine := rfl
@[simp] theorem State.setNZ_resetLine (w : Width) (v : Word) (s : State) : (State.setNZ w v s).resetLine = s.resetLine := rfl
@[simp] theorem State.setNZ_rdyForcedHigh (w : Width) (v : Word) (s : State) : (State.setNZ w v s).rdyForcedHigh = s.rdyForcedHigh := rfl
@[simp] theorem State.setNZ_mem (w : Width) (v : Word) (s : State) : (State.setNZ w v s).mem = s.mem := rfl
@[simp] theorem State.setNZ_env (w : Width) (v : Word) (s : State) : (State.setNZ w v s).env = s.env := rfl
@[simp] theorem State.setNZ_draws (w : Width) (v : Word) (s : State) : (State.setNZ w v s).draws = s.draws := rfl
@[simp] theorem State.setNZ_answers (w : Width) (v : Word) (s : State) : (State.setNZ w v s).answers = s.answers := rfl
@[simp] theorem State.setNZ_byteAt (w : Width) (v : Word) (s : State) (addr : Addr) : (State.setNZ w v s).byteAt addr = s.byteAt addr := rfl
@[simp] theorem State.setNZ_read (w : Width) (v : Word) (s : State) (kind : ReadKind) (addr : Addr) : (State.setNZ w v s).read kind addr = s.read kind addr := by simp [State.read]

/-! ## setA -/

@[simp] theorem State.setA_x (w : Width) (v : Word) (s : State) : (State.setA w v s).x = s.x := rfl
@[simp] theorem State.setA_y (w : Width) (v : Word) (s : State) : (State.setA w v s).y = s.y := rfl
@[simp] theorem State.setA_sp (w : Width) (v : Word) (s : State) : (State.setA w v s).sp = s.sp := rfl
@[simp] theorem State.setA_d (w : Width) (v : Word) (s : State) : (State.setA w v s).d = s.d := rfl
@[simp] theorem State.setA_pc (w : Width) (v : Word) (s : State) : (State.setA w v s).pc = s.pc := rfl
@[simp] theorem State.setA_dbr (w : Width) (v : Word) (s : State) : (State.setA w v s).dbr = s.dbr := rfl
@[simp] theorem State.setA_pbr (w : Width) (v : Word) (s : State) : (State.setA w v s).pbr = s.pbr := rfl
@[simp] theorem State.setA_p (w : Width) (v : Word) (s : State) : (State.setA w v s).p = s.p := rfl
@[simp] theorem State.setA_e (w : Width) (v : Word) (s : State) : (State.setA w v s).e = s.e := rfl
@[simp] theorem State.setA_run (w : Width) (v : Word) (s : State) : (State.setA w v s).run = s.run := rfl
@[simp] theorem State.setA_nmiPending (w : Width) (v : Word) (s : State) : (State.setA w v s).nmiPending = s.nmiPending := rfl
@[simp] theorem State.setA_abortPending (w : Width) (v : Word) (s : State) : (State.setA w v s).abortPending = s.abortPending := rfl
@[simp] theorem State.setA_irqLine (w : Width) (v : Word) (s : State) : (State.setA w v s).irqLine = s.irqLine := rfl
@[simp] theorem State.setA_resetLine (w : Width) (v : Word) (s : State) : (State.setA w v s).resetLine = s.resetLine := rfl
@[simp] theorem State.setA_rdyForcedHigh (w : Width) (v : Word) (s : State) : (State.setA w v s).rdyForcedHigh = s.rdyForcedHigh := rfl
@[simp] theorem State.setA_mem (w : Width) (v : Word) (s : State) : (State.setA w v s).mem = s.mem := rfl
@[simp] theorem State.setA_env (w : Width) (v : Word) (s : State) : (State.setA w v s).env = s.env := rfl
@[simp] theorem State.setA_draws (w : Width) (v : Word) (s : State) : (State.setA w v s).draws = s.draws := rfl
@[simp] theorem State.setA_answers (w : Width) (v : Word) (s : State) : (State.setA w v s).answers = s.answers := rfl
@[simp] theorem State.setA_flag (w : Width) (v : Word) (s : State) (g : Flag) : (State.setA w v s).flag g = s.flag g := rfl
@[simp] theorem State.setA_wA (w : Width) (v : Word) (s : State) : (State.setA w v s).wA = s.wA := rfl
@[simp] theorem State.setA_wX (w : Width) (v : Word) (s : State) : (State.setA w v s).wX = s.wX := rfl
@[simp] theorem State.setA_byteAt (w : Width) (v : Word) (s : State) (addr : Addr) : (State.setA w v s).byteAt addr = s.byteAt addr := rfl
@[simp] theorem State.setA_read (w : Width) (v : Word) (s : State) (kind : ReadKind) (addr : Addr) : (State.setA w v s).read kind addr = s.read kind addr := by simp [State.read]

/-! ## setX -/

@[simp] theorem State.setX_c (w : Width) (v : Word) (s : State) : (State.setX w v s).c = s.c := rfl
@[simp] theorem State.setX_y (w : Width) (v : Word) (s : State) : (State.setX w v s).y = s.y := rfl
@[simp] theorem State.setX_sp (w : Width) (v : Word) (s : State) : (State.setX w v s).sp = s.sp := rfl
@[simp] theorem State.setX_d (w : Width) (v : Word) (s : State) : (State.setX w v s).d = s.d := rfl
@[simp] theorem State.setX_pc (w : Width) (v : Word) (s : State) : (State.setX w v s).pc = s.pc := rfl
@[simp] theorem State.setX_dbr (w : Width) (v : Word) (s : State) : (State.setX w v s).dbr = s.dbr := rfl
@[simp] theorem State.setX_pbr (w : Width) (v : Word) (s : State) : (State.setX w v s).pbr = s.pbr := rfl
@[simp] theorem State.setX_p (w : Width) (v : Word) (s : State) : (State.setX w v s).p = s.p := rfl
@[simp] theorem State.setX_e (w : Width) (v : Word) (s : State) : (State.setX w v s).e = s.e := rfl
@[simp] theorem State.setX_run (w : Width) (v : Word) (s : State) : (State.setX w v s).run = s.run := rfl
@[simp] theorem State.setX_nmiPending (w : Width) (v : Word) (s : State) : (State.setX w v s).nmiPending = s.nmiPending := rfl
@[simp] theorem State.setX_abortPending (w : Width) (v : Word) (s : State) : (State.setX w v s).abortPending = s.abortPending := rfl
@[simp] theorem State.setX_irqLine (w : Width) (v : Word) (s : State) : (State.setX w v s).irqLine = s.irqLine := rfl
@[simp] theorem State.setX_resetLine (w : Width) (v : Word) (s : State) : (State.setX w v s).resetLine = s.resetLine := rfl
@[simp] theorem State.setX_rdyForcedHigh (w : Width) (v : Word) (s : State) : (State.setX w v s).rdyForcedHigh = s.rdyForcedHigh := rfl
@[simp] theorem State.setX_mem (w : Width) (v : Word) (s : State) : (State.setX w v s).mem = s.mem := rfl
@[simp] theorem State.setX_env (w : Width) (v : Word) (s : State) : (State.setX w v s).env = s.env := rfl
@[simp] theorem State.setX_draws (w : Width) (v : Word) (s : State) : (State.setX w v s).draws = s.draws := rfl
@[simp] theorem State.setX_answers (w : Width) (v : Word) (s : State) : (State.setX w v s).answers = s.answers := rfl
@[simp] theorem State.setX_flag (w : Width) (v : Word) (s : State) (g : Flag) : (State.setX w v s).flag g = s.flag g := rfl
@[simp] theorem State.setX_wA (w : Width) (v : Word) (s : State) : (State.setX w v s).wA = s.wA := rfl
@[simp] theorem State.setX_wX (w : Width) (v : Word) (s : State) : (State.setX w v s).wX = s.wX := rfl
@[simp] theorem State.setX_byteAt (w : Width) (v : Word) (s : State) (addr : Addr) : (State.setX w v s).byteAt addr = s.byteAt addr := rfl
@[simp] theorem State.setX_read (w : Width) (v : Word) (s : State) (kind : ReadKind) (addr : Addr) : (State.setX w v s).read kind addr = s.read kind addr := by simp [State.read]

/-! ## setY -/

@[simp] theorem State.setY_c (w : Width) (v : Word) (s : State) : (State.setY w v s).c = s.c := rfl
@[simp] theorem State.setY_x (w : Width) (v : Word) (s : State) : (State.setY w v s).x = s.x := rfl
@[simp] theorem State.setY_sp (w : Width) (v : Word) (s : State) : (State.setY w v s).sp = s.sp := rfl
@[simp] theorem State.setY_d (w : Width) (v : Word) (s : State) : (State.setY w v s).d = s.d := rfl
@[simp] theorem State.setY_pc (w : Width) (v : Word) (s : State) : (State.setY w v s).pc = s.pc := rfl
@[simp] theorem State.setY_dbr (w : Width) (v : Word) (s : State) : (State.setY w v s).dbr = s.dbr := rfl
@[simp] theorem State.setY_pbr (w : Width) (v : Word) (s : State) : (State.setY w v s).pbr = s.pbr := rfl
@[simp] theorem State.setY_p (w : Width) (v : Word) (s : State) : (State.setY w v s).p = s.p := rfl
@[simp] theorem State.setY_e (w : Width) (v : Word) (s : State) : (State.setY w v s).e = s.e := rfl
@[simp] theorem State.setY_run (w : Width) (v : Word) (s : State) : (State.setY w v s).run = s.run := rfl
@[simp] theorem State.setY_nmiPending (w : Width) (v : Word) (s : State) : (State.setY w v s).nmiPending = s.nmiPending := rfl
@[simp] theorem State.setY_abortPending (w : Width) (v : Word) (s : State) : (State.setY w v s).abortPending = s.abortPending := rfl
@[simp] theorem State.setY_irqLine (w : Width) (v : Word) (s : State) : (State.setY w v s).irqLine = s.irqLine := rfl
@[simp] theorem State.setY_resetLine (w : Width) (v : Word) (s : State) : (State.setY w v s).resetLine = s.resetLine := rfl
@[simp] theorem State.setY_rdyForcedHigh (w : Width) (v : Word) (s : State) : (State.setY w v s).rdyForcedHigh = s.rdyForcedHigh := rfl
@[simp] theorem State.setY_mem (w : Width) (v : Word) (s : State) : (State.setY w v s).mem = s.mem := rfl
@[simp] theorem State.setY_env (w : Width) (v : Word) (s : State) : (State.setY w v s).env = s.env := rfl
@[simp] theorem State.setY_draws (w : Width) (v : Word) (s : State) : (State.setY w v s).draws = s.draws := rfl
@[simp] theorem State.setY_answers (w : Width) (v : Word) (s : State) : (State.setY w v s).answers = s.answers := rfl
@[simp] theorem State.setY_flag (w : Width) (v : Word) (s : State) (g : Flag) : (State.setY w v s).flag g = s.flag g := rfl
@[simp] theorem State.setY_wA (w : Width) (v : Word) (s : State) : (State.setY w v s).wA = s.wA := rfl
@[simp] theorem State.setY_wX (w : Width) (v : Word) (s : State) : (State.setY w v s).wX = s.wX := rfl
@[simp] theorem State.setY_byteAt (w : Width) (v : Word) (s : State) (addr : Addr) : (State.setY w v s).byteAt addr = s.byteAt addr := rfl
@[simp] theorem State.setY_read (w : Width) (v : Word) (s : State) (kind : ReadKind) (addr : Addr) : (State.setY w v s).read kind addr = s.read kind addr := by simp [State.read]

/-! ## clearIndexHigh -/

@[simp] theorem State.clearIndexHigh_c (s : State) : (s.clearIndexHigh).c = s.c := rfl
@[simp] theorem State.clearIndexHigh_sp (s : State) : (s.clearIndexHigh).sp = s.sp := rfl
@[simp] theorem State.clearIndexHigh_d (s : State) : (s.clearIndexHigh).d = s.d := rfl
@[simp] theorem State.clearIndexHigh_pc (s : State) : (s.clearIndexHigh).pc = s.pc := rfl
@[simp] theorem State.clearIndexHigh_dbr (s : State) : (s.clearIndexHigh).dbr = s.dbr := rfl
@[simp] theorem State.clearIndexHigh_pbr (s : State) : (s.clearIndexHigh).pbr = s.pbr := rfl
@[simp] theorem State.clearIndexHigh_p (s : State) : (s.clearIndexHigh).p = s.p := rfl
@[simp] theorem State.clearIndexHigh_e (s : State) : (s.clearIndexHigh).e = s.e := rfl
@[simp] theorem State.clearIndexHigh_run (s : State) : (s.clearIndexHigh).run = s.run := rfl
@[simp] theorem State.clearIndexHigh_nmiPending (s : State) : (s.clearIndexHigh).nmiPending = s.nmiPending := rfl
@[simp] theorem State.clearIndexHigh_abortPending (s : State) : (s.clearIndexHigh).abortPending = s.abortPending := rfl
@[simp] theorem State.clearIndexHigh_irqLine (s : State) : (s.clearIndexHigh).irqLine = s.irqLine := rfl
@[simp] theorem State.clearIndexHigh_resetLine (s : State) : (s.clearIndexHigh).resetLine = s.resetLine := rfl
@[simp] theorem State.clearIndexHigh_rdyForcedHigh (s : State) : (s.clearIndexHigh).rdyForcedHigh = s.rdyForcedHigh := rfl
@[simp] theorem State.clearIndexHigh_mem (s : State) : (s.clearIndexHigh).mem = s.mem := rfl
@[simp] theorem State.clearIndexHigh_env (s : State) : (s.clearIndexHigh).env = s.env := rfl
@[simp] theorem State.clearIndexHigh_draws (s : State) : (s.clearIndexHigh).draws = s.draws := rfl
@[simp] theorem State.clearIndexHigh_answers (s : State) : (s.clearIndexHigh).answers = s.answers := rfl
@[simp] theorem State.clearIndexHigh_flag (s : State) (g : Flag) : (s.clearIndexHigh).flag g = s.flag g := rfl
@[simp] theorem State.clearIndexHigh_wA (s : State) : (s.clearIndexHigh).wA = s.wA := rfl
@[simp] theorem State.clearIndexHigh_wX (s : State) : (s.clearIndexHigh).wX = s.wX := rfl
@[simp] theorem State.clearIndexHigh_byteAt (s : State) (addr : Addr) : (s.clearIndexHigh).byteAt addr = s.byteAt addr := rfl
@[simp] theorem State.clearIndexHigh_read (s : State) (kind : ReadKind) (addr : Addr) : (s.clearIndexHigh).read kind addr = s.read kind addr := by simp [State.read]

/-! ## narrowIndex -/

@[simp] theorem State.narrowIndex_c (s : State) : (s.narrowIndex).c = s.c := by unfold State.narrowIndex; split <;> rfl
@[simp] theorem State.narrowIndex_sp (s : State) : (s.narrowIndex).sp = s.sp := by unfold State.narrowIndex; split <;> rfl
@[simp] theorem State.narrowIndex_d (s : State) : (s.narrowIndex).d = s.d := by unfold State.narrowIndex; split <;> rfl
@[simp] theorem State.narrowIndex_pc (s : State) : (s.narrowIndex).pc = s.pc := by unfold State.narrowIndex; split <;> rfl
@[simp] theorem State.narrowIndex_dbr (s : State) : (s.narrowIndex).dbr = s.dbr := by unfold State.narrowIndex; split <;> rfl
@[simp] theorem State.narrowIndex_pbr (s : State) : (s.narrowIndex).pbr = s.pbr := by unfold State.narrowIndex; split <;> rfl
@[simp] theorem State.narrowIndex_p (s : State) : (s.narrowIndex).p = s.p := by unfold State.narrowIndex; split <;> rfl
@[simp] theorem State.narrowIndex_e (s : State) : (s.narrowIndex).e = s.e := by unfold State.narrowIndex; split <;> rfl
@[simp] theorem State.narrowIndex_run (s : State) : (s.narrowIndex).run = s.run := by unfold State.narrowIndex; split <;> rfl
@[simp] theorem State.narrowIndex_nmiPending (s : State) : (s.narrowIndex).nmiPending = s.nmiPending := by unfold State.narrowIndex; split <;> rfl
@[simp] theorem State.narrowIndex_abortPending (s : State) : (s.narrowIndex).abortPending = s.abortPending := by unfold State.narrowIndex; split <;> rfl
@[simp] theorem State.narrowIndex_irqLine (s : State) : (s.narrowIndex).irqLine = s.irqLine := by unfold State.narrowIndex; split <;> rfl
@[simp] theorem State.narrowIndex_resetLine (s : State) : (s.narrowIndex).resetLine = s.resetLine := by unfold State.narrowIndex; split <;> rfl
@[simp] theorem State.narrowIndex_rdyForcedHigh (s : State) : (s.narrowIndex).rdyForcedHigh = s.rdyForcedHigh := by unfold State.narrowIndex; split <;> rfl
@[simp] theorem State.narrowIndex_mem (s : State) : (s.narrowIndex).mem = s.mem := by unfold State.narrowIndex; split <;> rfl
@[simp] theorem State.narrowIndex_env (s : State) : (s.narrowIndex).env = s.env := by unfold State.narrowIndex; split <;> rfl
@[simp] theorem State.narrowIndex_draws (s : State) : (s.narrowIndex).draws = s.draws := by unfold State.narrowIndex; split <;> rfl
@[simp] theorem State.narrowIndex_answers (s : State) : (s.narrowIndex).answers = s.answers := by unfold State.narrowIndex; split <;> rfl
@[simp] theorem State.narrowIndex_flag (s : State) (g : Flag) : (s.narrowIndex).flag g = s.flag g := by simp [State.flag]
@[simp] theorem State.narrowIndex_wA (s : State) : (s.narrowIndex).wA = s.wA := by simp [State.wA]
@[simp] theorem State.narrowIndex_wX (s : State) : (s.narrowIndex).wX = s.wX := by simp [State.wX]
@[simp] theorem State.narrowIndex_byteAt (s : State) (addr : Addr) : (s.narrowIndex).byteAt addr = s.byteAt addr := by simp [State.byteAt]
@[simp] theorem State.narrowIndex_read (s : State) (kind : ReadKind) (addr : Addr) : (s.narrowIndex).read kind addr = s.read kind addr := by simp [State.read]

/-! ## loadP -/

@[simp] theorem State.loadP_c (v : Byte) (s : State) : (s.loadP v).c = s.c := by unfold State.loadP; split <;> simp
@[simp] theorem State.loadP_sp (v : Byte) (s : State) : (s.loadP v).sp = s.sp := by unfold State.loadP; split <;> simp
@[simp] theorem State.loadP_d (v : Byte) (s : State) : (s.loadP v).d = s.d := by unfold State.loadP; split <;> simp
@[simp] theorem State.loadP_pc (v : Byte) (s : State) : (s.loadP v).pc = s.pc := by unfold State.loadP; split <;> simp
@[simp] theorem State.loadP_dbr (v : Byte) (s : State) : (s.loadP v).dbr = s.dbr := by unfold State.loadP; split <;> simp
@[simp] theorem State.loadP_pbr (v : Byte) (s : State) : (s.loadP v).pbr = s.pbr := by unfold State.loadP; split <;> simp
@[simp] theorem State.loadP_e (v : Byte) (s : State) : (s.loadP v).e = s.e := by unfold State.loadP; split <;> simp
@[simp] theorem State.loadP_run (v : Byte) (s : State) : (s.loadP v).run = s.run := by unfold State.loadP; split <;> simp
@[simp] theorem State.loadP_nmiPending (v : Byte) (s : State) : (s.loadP v).nmiPending = s.nmiPending := by unfold State.loadP; split <;> simp
@[simp] theorem State.loadP_abortPending (v : Byte) (s : State) : (s.loadP v).abortPending = s.abortPending := by unfold State.loadP; split <;> simp
@[simp] theorem State.loadP_irqLine (v : Byte) (s : State) : (s.loadP v).irqLine = s.irqLine := by unfold State.loadP; split <;> simp
@[simp] theorem State.loadP_resetLine (v : Byte) (s : State) : (s.loadP v).resetLine = s.resetLine := by unfold State.loadP; split <;> simp
@[simp] theorem State.loadP_rdyForcedHigh (v : Byte) (s : State) : (s.loadP v).rdyForcedHigh = s.rdyForcedHigh := by unfold State.loadP; split <;> simp
@[simp] theorem State.loadP_mem (v : Byte) (s : State) : (s.loadP v).mem = s.mem := by unfold State.loadP; split <;> simp
@[simp] theorem State.loadP_env (v : Byte) (s : State) : (s.loadP v).env = s.env := by unfold State.loadP; split <;> simp
@[simp] theorem State.loadP_draws (v : Byte) (s : State) : (s.loadP v).draws = s.draws := by unfold State.loadP; split <;> simp
@[simp] theorem State.loadP_answers (v : Byte) (s : State) : (s.loadP v).answers = s.answers := by unfold State.loadP; split <;> simp
@[simp] theorem State.loadP_byteAt (v : Byte) (s : State) (addr : Addr) : (s.loadP v).byteAt addr = s.byteAt addr := by simp [State.byteAt]
@[simp] theorem State.loadP_read (v : Byte) (s : State) (kind : ReadKind) (addr : Addr) : (s.loadP v).read kind addr = s.read kind addr := by simp [State.read]

/-! ## restoreSH -/

@[simp] theorem State.restoreSH_c (s : State) : (s.restoreSH).c = s.c := by unfold State.restoreSH; split <;> rfl
@[simp] theorem State.restoreSH_x (s : State) : (s.restoreSH).x = s.x := by unfold State.restoreSH; split <;> rfl
@[simp] theorem State.restoreSH_y (s : State) : (s.restoreSH).y = s.y := by unfold State.restoreSH; split <;> rfl
@[simp] theorem State.restoreSH_d (s : State) : (s.restoreSH).d = s.d := by unfold State.restoreSH; split <;> rfl
@[simp] theorem State.restoreSH_pc (s : State) : (s.restoreSH).pc = s.pc := by unfold State.restoreSH; split <;> rfl
@[simp] theorem State.restoreSH_dbr (s : State) : (s.restoreSH).dbr = s.dbr := by unfold State.restoreSH; split <;> rfl
@[simp] theorem State.restoreSH_pbr (s : State) : (s.restoreSH).pbr = s.pbr := by unfold State.restoreSH; split <;> rfl
@[simp] theorem State.restoreSH_p (s : State) : (s.restoreSH).p = s.p := by unfold State.restoreSH; split <;> rfl
@[simp] theorem State.restoreSH_e (s : State) : (s.restoreSH).e = s.e := by unfold State.restoreSH; split <;> rfl
@[simp] theorem State.restoreSH_run (s : State) : (s.restoreSH).run = s.run := by unfold State.restoreSH; split <;> rfl
@[simp] theorem State.restoreSH_nmiPending (s : State) : (s.restoreSH).nmiPending = s.nmiPending := by unfold State.restoreSH; split <;> rfl
@[simp] theorem State.restoreSH_abortPending (s : State) : (s.restoreSH).abortPending = s.abortPending := by unfold State.restoreSH; split <;> rfl
@[simp] theorem State.restoreSH_irqLine (s : State) : (s.restoreSH).irqLine = s.irqLine := by unfold State.restoreSH; split <;> rfl
@[simp] theorem State.restoreSH_resetLine (s : State) : (s.restoreSH).resetLine = s.resetLine := by unfold State.restoreSH; split <;> rfl
@[simp] theorem State.restoreSH_rdyForcedHigh (s : State) : (s.restoreSH).rdyForcedHigh = s.rdyForcedHigh := by unfold State.restoreSH; split <;> rfl
@[simp] theorem State.restoreSH_mem (s : State) : (s.restoreSH).mem = s.mem := by unfold State.restoreSH; split <;> rfl
@[simp] theorem State.restoreSH_env (s : State) : (s.restoreSH).env = s.env := by unfold State.restoreSH; split <;> rfl
@[simp] theorem State.restoreSH_draws (s : State) : (s.restoreSH).draws = s.draws := by unfold State.restoreSH; split <;> rfl
@[simp] theorem State.restoreSH_answers (s : State) : (s.restoreSH).answers = s.answers := by unfold State.restoreSH; split <;> rfl
@[simp] theorem State.restoreSH_flag (s : State) (g : Flag) : (s.restoreSH).flag g = s.flag g := by simp [State.flag]
@[simp] theorem State.restoreSH_wA (s : State) : (s.restoreSH).wA = s.wA := by simp [State.wA]
@[simp] theorem State.restoreSH_wX (s : State) : (s.restoreSH).wX = s.wX := by simp [State.wX]
@[simp] theorem State.restoreSH_byteAt (s : State) (addr : Addr) : (s.restoreSH).byteAt addr = s.byteAt addr := by simp [State.byteAt]
@[simp] theorem State.restoreSH_read (s : State) (kind : ReadKind) (addr : Addr) : (s.restoreSH).read kind addr = s.read kind addr := by simp [State.read]

/-! ## storeByte -/

@[simp] theorem State.storeByte_c (a : Addr) (v : Byte) (s : State) : (s.storeByte a v).c = s.c := rfl
@[simp] theorem State.storeByte_x (a : Addr) (v : Byte) (s : State) : (s.storeByte a v).x = s.x := rfl
@[simp] theorem State.storeByte_y (a : Addr) (v : Byte) (s : State) : (s.storeByte a v).y = s.y := rfl
@[simp] theorem State.storeByte_sp (a : Addr) (v : Byte) (s : State) : (s.storeByte a v).sp = s.sp := rfl
@[simp] theorem State.storeByte_d (a : Addr) (v : Byte) (s : State) : (s.storeByte a v).d = s.d := rfl
@[simp] theorem State.storeByte_pc (a : Addr) (v : Byte) (s : State) : (s.storeByte a v).pc = s.pc := rfl
@[simp] theorem State.storeByte_dbr (a : Addr) (v : Byte) (s : State) : (s.storeByte a v).dbr = s.dbr := rfl
@[simp] theorem State.storeByte_pbr (a : Addr) (v : Byte) (s : State) : (s.storeByte a v).pbr = s.pbr := rfl
@[simp] theorem State.storeByte_p (a : Addr) (v : Byte) (s : State) : (s.storeByte a v).p = s.p := rfl
@[simp] theorem State.storeByte_e (a : Addr) (v : Byte) (s : State) : (s.storeByte a v).e = s.e := rfl
@[simp] theorem State.storeByte_run (a : Addr) (v : Byte) (s : State) : (s.storeByte a v).run = s.run := rfl
@[simp] theorem State.storeByte_nmiPending (a : Addr) (v : Byte) (s : State) : (s.storeByte a v).nmiPending = s.nmiPending := rfl
@[simp] theorem State.storeByte_abortPending (a : Addr) (v : Byte) (s : State) : (s.storeByte a v).abortPending = s.abortPending := rfl
@[simp] theorem State.storeByte_irqLine (a : Addr) (v : Byte) (s : State) : (s.storeByte a v).irqLine = s.irqLine := rfl
@[simp] theorem State.storeByte_resetLine (a : Addr) (v : Byte) (s : State) : (s.storeByte a v).resetLine = s.resetLine := rfl
@[simp] theorem State.storeByte_rdyForcedHigh (a : Addr) (v : Byte) (s : State) : (s.storeByte a v).rdyForcedHigh = s.rdyForcedHigh := rfl
@[simp] theorem State.storeByte_env (a : Addr) (v : Byte) (s : State) : (s.storeByte a v).env = s.env := rfl
@[simp] theorem State.storeByte_draws (a : Addr) (v : Byte) (s : State) : (s.storeByte a v).draws = s.draws := rfl
@[simp] theorem State.storeByte_answers (a : Addr) (v : Byte) (s : State) : (s.storeByte a v).answers = s.answers := rfl
@[simp] theorem State.storeByte_flag (a : Addr) (v : Byte) (s : State) (g : Flag) : (s.storeByte a v).flag g = s.flag g := rfl
@[simp] theorem State.storeByte_wA (a : Addr) (v : Byte) (s : State) : (s.storeByte a v).wA = s.wA := rfl
@[simp] theorem State.storeByte_wX (a : Addr) (v : Byte) (s : State) : (s.storeByte a v).wX = s.wX := rfl

/-! ## advance -/

@[simp] theorem State.advance_c (n : Nat) (s : State) : (s.advance n).c = s.c := rfl
@[simp] theorem State.advance_x (n : Nat) (s : State) : (s.advance n).x = s.x := rfl
@[simp] theorem State.advance_y (n : Nat) (s : State) : (s.advance n).y = s.y := rfl
@[simp] theorem State.advance_sp (n : Nat) (s : State) : (s.advance n).sp = s.sp := rfl
@[simp] theorem State.advance_d (n : Nat) (s : State) : (s.advance n).d = s.d := rfl
@[simp] theorem State.advance_dbr (n : Nat) (s : State) : (s.advance n).dbr = s.dbr := rfl
@[simp] theorem State.advance_pbr (n : Nat) (s : State) : (s.advance n).pbr = s.pbr := rfl
@[simp] theorem State.advance_p (n : Nat) (s : State) : (s.advance n).p = s.p := rfl
@[simp] theorem State.advance_e (n : Nat) (s : State) : (s.advance n).e = s.e := rfl
@[simp] theorem State.advance_run (n : Nat) (s : State) : (s.advance n).run = s.run := rfl
@[simp] theorem State.advance_nmiPending (n : Nat) (s : State) : (s.advance n).nmiPending = s.nmiPending := rfl
@[simp] theorem State.advance_abortPending (n : Nat) (s : State) : (s.advance n).abortPending = s.abortPending := rfl
@[simp] theorem State.advance_irqLine (n : Nat) (s : State) : (s.advance n).irqLine = s.irqLine := rfl
@[simp] theorem State.advance_resetLine (n : Nat) (s : State) : (s.advance n).resetLine = s.resetLine := rfl
@[simp] theorem State.advance_rdyForcedHigh (n : Nat) (s : State) : (s.advance n).rdyForcedHigh = s.rdyForcedHigh := rfl
@[simp] theorem State.advance_mem (n : Nat) (s : State) : (s.advance n).mem = s.mem := rfl
@[simp] theorem State.advance_env (n : Nat) (s : State) : (s.advance n).env = s.env := rfl
@[simp] theorem State.advance_draws (n : Nat) (s : State) : (s.advance n).draws = s.draws := rfl
@[simp] theorem State.advance_answers (n : Nat) (s : State) : (s.advance n).answers = s.answers := rfl
@[simp] theorem State.advance_flag (n : Nat) (s : State) (g : Flag) : (s.advance n).flag g = s.flag g := rfl
@[simp] theorem State.advance_wA (n : Nat) (s : State) : (s.advance n).wA = s.wA := rfl
@[simp] theorem State.advance_wX (n : Nat) (s : State) : (s.advance n).wX = s.wX := rfl
@[simp] theorem State.advance_byteAt (n : Nat) (s : State) (addr : Addr) : (s.advance n).byteAt addr = s.byteAt addr := rfl
@[simp] theorem State.advance_read (n : Nat) (s : State) (kind : ReadKind) (addr : Addr) : (s.advance n).read kind addr = s.read kind addr := by simp [State.read]

/-! ## past -/

@[simp] theorem State.past_c (o : Operand) (s : State) : (s.past o).c = s.c := rfl
@[simp] theorem State.past_x (o : Operand) (s : State) : (s.past o).x = s.x := rfl
@[simp] theorem State.past_y (o : Operand) (s : State) : (s.past o).y = s.y := rfl
@[simp] theorem State.past_sp (o : Operand) (s : State) : (s.past o).sp = s.sp := rfl
@[simp] theorem State.past_d (o : Operand) (s : State) : (s.past o).d = s.d := rfl
@[simp] theorem State.past_dbr (o : Operand) (s : State) : (s.past o).dbr = s.dbr := rfl
@[simp] theorem State.past_pbr (o : Operand) (s : State) : (s.past o).pbr = s.pbr := rfl
@[simp] theorem State.past_p (o : Operand) (s : State) : (s.past o).p = s.p := rfl
@[simp] theorem State.past_e (o : Operand) (s : State) : (s.past o).e = s.e := rfl
@[simp] theorem State.past_run (o : Operand) (s : State) : (s.past o).run = s.run := rfl
@[simp] theorem State.past_nmiPending (o : Operand) (s : State) : (s.past o).nmiPending = s.nmiPending := rfl
@[simp] theorem State.past_abortPending (o : Operand) (s : State) : (s.past o).abortPending = s.abortPending := rfl
@[simp] theorem State.past_irqLine (o : Operand) (s : State) : (s.past o).irqLine = s.irqLine := rfl
@[simp] theorem State.past_resetLine (o : Operand) (s : State) : (s.past o).resetLine = s.resetLine := rfl
@[simp] theorem State.past_rdyForcedHigh (o : Operand) (s : State) : (s.past o).rdyForcedHigh = s.rdyForcedHigh := rfl
@[simp] theorem State.past_mem (o : Operand) (s : State) : (s.past o).mem = s.mem := rfl
@[simp] theorem State.past_env (o : Operand) (s : State) : (s.past o).env = s.env := rfl
@[simp] theorem State.past_draws (o : Operand) (s : State) : (s.past o).draws = s.draws := rfl
@[simp] theorem State.past_answers (o : Operand) (s : State) : (s.past o).answers = s.answers := rfl
@[simp] theorem State.past_flag (o : Operand) (s : State) (g : Flag) : (s.past o).flag g = s.flag g := rfl
@[simp] theorem State.past_wA (o : Operand) (s : State) : (s.past o).wA = s.wA := rfl
@[simp] theorem State.past_wX (o : Operand) (s : State) : (s.past o).wX = s.wX := rfl
@[simp] theorem State.past_byteAt (o : Operand) (s : State) (addr : Addr) : (s.past o).byteAt addr = s.byteAt addr := rfl
@[simp] theorem State.past_read (o : Operand) (s : State) (kind : ReadKind) (addr : Addr) : (s.past o).read kind addr = s.read kind addr := by simp [State.read]

/-! ## push8 -/

@[simp] theorem State.push8_c (v : Byte) (s : State) : (s.push8 v).c = s.c := rfl
@[simp] theorem State.push8_x (v : Byte) (s : State) : (s.push8 v).x = s.x := rfl
@[simp] theorem State.push8_y (v : Byte) (s : State) : (s.push8 v).y = s.y := rfl
@[simp] theorem State.push8_d (v : Byte) (s : State) : (s.push8 v).d = s.d := rfl
@[simp] theorem State.push8_pc (v : Byte) (s : State) : (s.push8 v).pc = s.pc := rfl
@[simp] theorem State.push8_dbr (v : Byte) (s : State) : (s.push8 v).dbr = s.dbr := rfl
@[simp] theorem State.push8_pbr (v : Byte) (s : State) : (s.push8 v).pbr = s.pbr := rfl
@[simp] theorem State.push8_p (v : Byte) (s : State) : (s.push8 v).p = s.p := rfl
@[simp] theorem State.push8_e (v : Byte) (s : State) : (s.push8 v).e = s.e := rfl
@[simp] theorem State.push8_run (v : Byte) (s : State) : (s.push8 v).run = s.run := rfl
@[simp] theorem State.push8_nmiPending (v : Byte) (s : State) : (s.push8 v).nmiPending = s.nmiPending := rfl
@[simp] theorem State.push8_abortPending (v : Byte) (s : State) : (s.push8 v).abortPending = s.abortPending := rfl
@[simp] theorem State.push8_irqLine (v : Byte) (s : State) : (s.push8 v).irqLine = s.irqLine := rfl
@[simp] theorem State.push8_resetLine (v : Byte) (s : State) : (s.push8 v).resetLine = s.resetLine := rfl
@[simp] theorem State.push8_rdyForcedHigh (v : Byte) (s : State) : (s.push8 v).rdyForcedHigh = s.rdyForcedHigh := rfl
@[simp] theorem State.push8_env (v : Byte) (s : State) : (s.push8 v).env = s.env := rfl
@[simp] theorem State.push8_draws (v : Byte) (s : State) : (s.push8 v).draws = s.draws := rfl
@[simp] theorem State.push8_answers (v : Byte) (s : State) : (s.push8 v).answers = s.answers := rfl
@[simp] theorem State.push8_flag (v : Byte) (s : State) (g : Flag) : (s.push8 v).flag g = s.flag g := rfl
@[simp] theorem State.push8_wA (v : Byte) (s : State) : (s.push8 v).wA = s.wA := rfl
@[simp] theorem State.push8_wX (v : Byte) (s : State) : (s.push8 v).wX = s.wX := rfl

/-! ## push16 -/

@[simp] theorem State.push16_c (v : Word) (s : State) : (s.push16 v).c = s.c := rfl
@[simp] theorem State.push16_x (v : Word) (s : State) : (s.push16 v).x = s.x := rfl
@[simp] theorem State.push16_y (v : Word) (s : State) : (s.push16 v).y = s.y := rfl
@[simp] theorem State.push16_d (v : Word) (s : State) : (s.push16 v).d = s.d := rfl
@[simp] theorem State.push16_pc (v : Word) (s : State) : (s.push16 v).pc = s.pc := rfl
@[simp] theorem State.push16_dbr (v : Word) (s : State) : (s.push16 v).dbr = s.dbr := rfl
@[simp] theorem State.push16_pbr (v : Word) (s : State) : (s.push16 v).pbr = s.pbr := rfl
@[simp] theorem State.push16_p (v : Word) (s : State) : (s.push16 v).p = s.p := rfl
@[simp] theorem State.push16_e (v : Word) (s : State) : (s.push16 v).e = s.e := rfl
@[simp] theorem State.push16_run (v : Word) (s : State) : (s.push16 v).run = s.run := rfl
@[simp] theorem State.push16_nmiPending (v : Word) (s : State) : (s.push16 v).nmiPending = s.nmiPending := rfl
@[simp] theorem State.push16_abortPending (v : Word) (s : State) : (s.push16 v).abortPending = s.abortPending := rfl
@[simp] theorem State.push16_irqLine (v : Word) (s : State) : (s.push16 v).irqLine = s.irqLine := rfl
@[simp] theorem State.push16_resetLine (v : Word) (s : State) : (s.push16 v).resetLine = s.resetLine := rfl
@[simp] theorem State.push16_rdyForcedHigh (v : Word) (s : State) : (s.push16 v).rdyForcedHigh = s.rdyForcedHigh := rfl
@[simp] theorem State.push16_env (v : Word) (s : State) : (s.push16 v).env = s.env := rfl
@[simp] theorem State.push16_draws (v : Word) (s : State) : (s.push16 v).draws = s.draws := rfl
@[simp] theorem State.push16_answers (v : Word) (s : State) : (s.push16 v).answers = s.answers := rfl
@[simp] theorem State.push16_flag (v : Word) (s : State) (g : Flag) : (s.push16 v).flag g = s.flag g := rfl
@[simp] theorem State.push16_wA (v : Word) (s : State) : (s.push16 v).wA = s.wA := rfl
@[simp] theorem State.push16_wX (v : Word) (s : State) : (s.push16 v).wX = s.wX := rfl

/-! ## push8w -/

@[simp] theorem State.push8w_c (v : Byte) (s : State) : (s.push8w v).c = s.c := rfl
@[simp] theorem State.push8w_x (v : Byte) (s : State) : (s.push8w v).x = s.x := rfl
@[simp] theorem State.push8w_y (v : Byte) (s : State) : (s.push8w v).y = s.y := rfl
@[simp] theorem State.push8w_d (v : Byte) (s : State) : (s.push8w v).d = s.d := rfl
@[simp] theorem State.push8w_pc (v : Byte) (s : State) : (s.push8w v).pc = s.pc := rfl
@[simp] theorem State.push8w_dbr (v : Byte) (s : State) : (s.push8w v).dbr = s.dbr := rfl
@[simp] theorem State.push8w_pbr (v : Byte) (s : State) : (s.push8w v).pbr = s.pbr := rfl
@[simp] theorem State.push8w_p (v : Byte) (s : State) : (s.push8w v).p = s.p := rfl
@[simp] theorem State.push8w_e (v : Byte) (s : State) : (s.push8w v).e = s.e := rfl
@[simp] theorem State.push8w_run (v : Byte) (s : State) : (s.push8w v).run = s.run := rfl
@[simp] theorem State.push8w_nmiPending (v : Byte) (s : State) : (s.push8w v).nmiPending = s.nmiPending := rfl
@[simp] theorem State.push8w_abortPending (v : Byte) (s : State) : (s.push8w v).abortPending = s.abortPending := rfl
@[simp] theorem State.push8w_irqLine (v : Byte) (s : State) : (s.push8w v).irqLine = s.irqLine := rfl
@[simp] theorem State.push8w_resetLine (v : Byte) (s : State) : (s.push8w v).resetLine = s.resetLine := rfl
@[simp] theorem State.push8w_rdyForcedHigh (v : Byte) (s : State) : (s.push8w v).rdyForcedHigh = s.rdyForcedHigh := rfl
@[simp] theorem State.push8w_env (v : Byte) (s : State) : (s.push8w v).env = s.env := rfl
@[simp] theorem State.push8w_draws (v : Byte) (s : State) : (s.push8w v).draws = s.draws := rfl
@[simp] theorem State.push8w_answers (v : Byte) (s : State) : (s.push8w v).answers = s.answers := rfl
@[simp] theorem State.push8w_flag (v : Byte) (s : State) (g : Flag) : (s.push8w v).flag g = s.flag g := rfl
@[simp] theorem State.push8w_wA (v : Byte) (s : State) : (s.push8w v).wA = s.wA := rfl
@[simp] theorem State.push8w_wX (v : Byte) (s : State) : (s.push8w v).wX = s.wX := rfl

/-! ## push16w -/

@[simp] theorem State.push16w_c (v : Word) (s : State) : (s.push16w v).c = s.c := rfl
@[simp] theorem State.push16w_x (v : Word) (s : State) : (s.push16w v).x = s.x := rfl
@[simp] theorem State.push16w_y (v : Word) (s : State) : (s.push16w v).y = s.y := rfl
@[simp] theorem State.push16w_d (v : Word) (s : State) : (s.push16w v).d = s.d := rfl
@[simp] theorem State.push16w_pc (v : Word) (s : State) : (s.push16w v).pc = s.pc := rfl
@[simp] theorem State.push16w_dbr (v : Word) (s : State) : (s.push16w v).dbr = s.dbr := rfl
@[simp] theorem State.push16w_pbr (v : Word) (s : State) : (s.push16w v).pbr = s.pbr := rfl
@[simp] theorem State.push16w_p (v : Word) (s : State) : (s.push16w v).p = s.p := rfl
@[simp] theorem State.push16w_e (v : Word) (s : State) : (s.push16w v).e = s.e := rfl
@[simp] theorem State.push16w_run (v : Word) (s : State) : (s.push16w v).run = s.run := rfl
@[simp] theorem State.push16w_nmiPending (v : Word) (s : State) : (s.push16w v).nmiPending = s.nmiPending := rfl
@[simp] theorem State.push16w_abortPending (v : Word) (s : State) : (s.push16w v).abortPending = s.abortPending := rfl
@[simp] theorem State.push16w_irqLine (v : Word) (s : State) : (s.push16w v).irqLine = s.irqLine := rfl
@[simp] theorem State.push16w_resetLine (v : Word) (s : State) : (s.push16w v).resetLine = s.resetLine := rfl
@[simp] theorem State.push16w_rdyForcedHigh (v : Word) (s : State) : (s.push16w v).rdyForcedHigh = s.rdyForcedHigh := rfl
@[simp] theorem State.push16w_env (v : Word) (s : State) : (s.push16w v).env = s.env := rfl
@[simp] theorem State.push16w_draws (v : Word) (s : State) : (s.push16w v).draws = s.draws := rfl
@[simp] theorem State.push16w_answers (v : Word) (s : State) : (s.push16w v).answers = s.answers := rfl
@[simp] theorem State.push16w_flag (v : Word) (s : State) (g : Flag) : (s.push16w v).flag g = s.flag g := rfl
@[simp] theorem State.push16w_wA (v : Word) (s : State) : (s.push16w v).wA = s.wA := rfl
@[simp] theorem State.push16w_wX (v : Word) (s : State) : (s.push16w v).wX = s.wX := rfl

/-! ## pushAt -/

@[simp] theorem State.pushAt_c (w : Width) (v : Word) (s : State) : (State.pushAt w v s).c = s.c := by cases w <;> rfl
@[simp] theorem State.pushAt_x (w : Width) (v : Word) (s : State) : (State.pushAt w v s).x = s.x := by cases w <;> rfl
@[simp] theorem State.pushAt_y (w : Width) (v : Word) (s : State) : (State.pushAt w v s).y = s.y := by cases w <;> rfl
@[simp] theorem State.pushAt_d (w : Width) (v : Word) (s : State) : (State.pushAt w v s).d = s.d := by cases w <;> rfl
@[simp] theorem State.pushAt_pc (w : Width) (v : Word) (s : State) : (State.pushAt w v s).pc = s.pc := by cases w <;> rfl
@[simp] theorem State.pushAt_dbr (w : Width) (v : Word) (s : State) : (State.pushAt w v s).dbr = s.dbr := by cases w <;> rfl
@[simp] theorem State.pushAt_pbr (w : Width) (v : Word) (s : State) : (State.pushAt w v s).pbr = s.pbr := by cases w <;> rfl
@[simp] theorem State.pushAt_p (w : Width) (v : Word) (s : State) : (State.pushAt w v s).p = s.p := by cases w <;> rfl
@[simp] theorem State.pushAt_e (w : Width) (v : Word) (s : State) : (State.pushAt w v s).e = s.e := by cases w <;> rfl
@[simp] theorem State.pushAt_run (w : Width) (v : Word) (s : State) : (State.pushAt w v s).run = s.run := by cases w <;> rfl
@[simp] theorem State.pushAt_nmiPending (w : Width) (v : Word) (s : State) : (State.pushAt w v s).nmiPending = s.nmiPending := by cases w <;> rfl
@[simp] theorem State.pushAt_abortPending (w : Width) (v : Word) (s : State) : (State.pushAt w v s).abortPending = s.abortPending := by cases w <;> rfl
@[simp] theorem State.pushAt_irqLine (w : Width) (v : Word) (s : State) : (State.pushAt w v s).irqLine = s.irqLine := by cases w <;> rfl
@[simp] theorem State.pushAt_resetLine (w : Width) (v : Word) (s : State) : (State.pushAt w v s).resetLine = s.resetLine := by cases w <;> rfl
@[simp] theorem State.pushAt_rdyForcedHigh (w : Width) (v : Word) (s : State) : (State.pushAt w v s).rdyForcedHigh = s.rdyForcedHigh := by cases w <;> rfl
@[simp] theorem State.pushAt_env (w : Width) (v : Word) (s : State) : (State.pushAt w v s).env = s.env := by cases w <;> rfl
@[simp] theorem State.pushAt_draws (w : Width) (v : Word) (s : State) : (State.pushAt w v s).draws = s.draws := by cases w <;> rfl
@[simp] theorem State.pushAt_answers (w : Width) (v : Word) (s : State) : (State.pushAt w v s).answers = s.answers := by cases w <;> rfl
@[simp] theorem State.pushAt_flag (w : Width) (v : Word) (s : State) (g : Flag) : (State.pushAt w v s).flag g = s.flag g := by simp [State.flag]
@[simp] theorem State.pushAt_wA (w : Width) (v : Word) (s : State) : (State.pushAt w v s).wA = s.wA := by simp [State.wA]
@[simp] theorem State.pushAt_wX (w : Width) (v : Word) (s : State) : (State.pushAt w v s).wX = s.wX := by simp [State.wX]

/-! ## pull8 -/

@[simp] theorem State.pull8_c (s : State) : (s.pull8.2).c = s.c := rfl
@[simp] theorem State.pull8_x (s : State) : (s.pull8.2).x = s.x := rfl
@[simp] theorem State.pull8_y (s : State) : (s.pull8.2).y = s.y := rfl
@[simp] theorem State.pull8_d (s : State) : (s.pull8.2).d = s.d := rfl
@[simp] theorem State.pull8_pc (s : State) : (s.pull8.2).pc = s.pc := rfl
@[simp] theorem State.pull8_dbr (s : State) : (s.pull8.2).dbr = s.dbr := rfl
@[simp] theorem State.pull8_pbr (s : State) : (s.pull8.2).pbr = s.pbr := rfl
@[simp] theorem State.pull8_p (s : State) : (s.pull8.2).p = s.p := rfl
@[simp] theorem State.pull8_e (s : State) : (s.pull8.2).e = s.e := rfl
@[simp] theorem State.pull8_run (s : State) : (s.pull8.2).run = s.run := rfl
@[simp] theorem State.pull8_nmiPending (s : State) : (s.pull8.2).nmiPending = s.nmiPending := rfl
@[simp] theorem State.pull8_abortPending (s : State) : (s.pull8.2).abortPending = s.abortPending := rfl
@[simp] theorem State.pull8_irqLine (s : State) : (s.pull8.2).irqLine = s.irqLine := rfl
@[simp] theorem State.pull8_resetLine (s : State) : (s.pull8.2).resetLine = s.resetLine := rfl
@[simp] theorem State.pull8_rdyForcedHigh (s : State) : (s.pull8.2).rdyForcedHigh = s.rdyForcedHigh := rfl
@[simp] theorem State.pull8_mem (s : State) : (s.pull8.2).mem = s.mem := rfl
@[simp] theorem State.pull8_env (s : State) : (s.pull8.2).env = s.env := rfl
@[simp] theorem State.pull8_draws (s : State) : (s.pull8.2).draws = s.draws := rfl
@[simp] theorem State.pull8_answers (s : State) : (s.pull8.2).answers = s.answers := rfl
@[simp] theorem State.pull8_flag (s : State) (g : Flag) : (s.pull8.2).flag g = s.flag g := rfl
@[simp] theorem State.pull8_wA (s : State) : (s.pull8.2).wA = s.wA := rfl
@[simp] theorem State.pull8_wX (s : State) : (s.pull8.2).wX = s.wX := rfl
@[simp] theorem State.pull8_byteAt (s : State) (addr : Addr) : (s.pull8.2).byteAt addr = s.byteAt addr := rfl
@[simp] theorem State.pull8_read (s : State) (kind : ReadKind) (addr : Addr) : (s.pull8.2).read kind addr = s.read kind addr := by simp [State.read]

/-! ## pull16 -/

@[simp] theorem State.pull16_c (s : State) : (s.pull16.2).c = s.c := rfl
@[simp] theorem State.pull16_x (s : State) : (s.pull16.2).x = s.x := rfl
@[simp] theorem State.pull16_y (s : State) : (s.pull16.2).y = s.y := rfl
@[simp] theorem State.pull16_d (s : State) : (s.pull16.2).d = s.d := rfl
@[simp] theorem State.pull16_pc (s : State) : (s.pull16.2).pc = s.pc := rfl
@[simp] theorem State.pull16_dbr (s : State) : (s.pull16.2).dbr = s.dbr := rfl
@[simp] theorem State.pull16_pbr (s : State) : (s.pull16.2).pbr = s.pbr := rfl
@[simp] theorem State.pull16_p (s : State) : (s.pull16.2).p = s.p := rfl
@[simp] theorem State.pull16_e (s : State) : (s.pull16.2).e = s.e := rfl
@[simp] theorem State.pull16_run (s : State) : (s.pull16.2).run = s.run := rfl
@[simp] theorem State.pull16_nmiPending (s : State) : (s.pull16.2).nmiPending = s.nmiPending := rfl
@[simp] theorem State.pull16_abortPending (s : State) : (s.pull16.2).abortPending = s.abortPending := rfl
@[simp] theorem State.pull16_irqLine (s : State) : (s.pull16.2).irqLine = s.irqLine := rfl
@[simp] theorem State.pull16_resetLine (s : State) : (s.pull16.2).resetLine = s.resetLine := rfl
@[simp] theorem State.pull16_rdyForcedHigh (s : State) : (s.pull16.2).rdyForcedHigh = s.rdyForcedHigh := rfl
@[simp] theorem State.pull16_mem (s : State) : (s.pull16.2).mem = s.mem := rfl
@[simp] theorem State.pull16_env (s : State) : (s.pull16.2).env = s.env := rfl
@[simp] theorem State.pull16_draws (s : State) : (s.pull16.2).draws = s.draws := rfl
@[simp] theorem State.pull16_answers (s : State) : (s.pull16.2).answers = s.answers := rfl
@[simp] theorem State.pull16_flag (s : State) (g : Flag) : (s.pull16.2).flag g = s.flag g := rfl
@[simp] theorem State.pull16_wA (s : State) : (s.pull16.2).wA = s.wA := rfl
@[simp] theorem State.pull16_wX (s : State) : (s.pull16.2).wX = s.wX := rfl
@[simp] theorem State.pull16_byteAt (s : State) (addr : Addr) : (s.pull16.2).byteAt addr = s.byteAt addr := rfl
@[simp] theorem State.pull16_read (s : State) (kind : ReadKind) (addr : Addr) : (s.pull16.2).read kind addr = s.read kind addr := by simp [State.read]

/-! ## pull16w -/

@[simp] theorem State.pull16w_c (s : State) : (s.pull16w.2).c = s.c := rfl
@[simp] theorem State.pull16w_x (s : State) : (s.pull16w.2).x = s.x := rfl
@[simp] theorem State.pull16w_y (s : State) : (s.pull16w.2).y = s.y := rfl
@[simp] theorem State.pull16w_d (s : State) : (s.pull16w.2).d = s.d := rfl
@[simp] theorem State.pull16w_pc (s : State) : (s.pull16w.2).pc = s.pc := rfl
@[simp] theorem State.pull16w_dbr (s : State) : (s.pull16w.2).dbr = s.dbr := rfl
@[simp] theorem State.pull16w_pbr (s : State) : (s.pull16w.2).pbr = s.pbr := rfl
@[simp] theorem State.pull16w_p (s : State) : (s.pull16w.2).p = s.p := rfl
@[simp] theorem State.pull16w_e (s : State) : (s.pull16w.2).e = s.e := rfl
@[simp] theorem State.pull16w_run (s : State) : (s.pull16w.2).run = s.run := rfl
@[simp] theorem State.pull16w_nmiPending (s : State) : (s.pull16w.2).nmiPending = s.nmiPending := rfl
@[simp] theorem State.pull16w_abortPending (s : State) : (s.pull16w.2).abortPending = s.abortPending := rfl
@[simp] theorem State.pull16w_irqLine (s : State) : (s.pull16w.2).irqLine = s.irqLine := rfl
@[simp] theorem State.pull16w_resetLine (s : State) : (s.pull16w.2).resetLine = s.resetLine := rfl
@[simp] theorem State.pull16w_rdyForcedHigh (s : State) : (s.pull16w.2).rdyForcedHigh = s.rdyForcedHigh := rfl
@[simp] theorem State.pull16w_mem (s : State) : (s.pull16w.2).mem = s.mem := rfl
@[simp] theorem State.pull16w_env (s : State) : (s.pull16w.2).env = s.env := rfl
@[simp] theorem State.pull16w_draws (s : State) : (s.pull16w.2).draws = s.draws := rfl
@[simp] theorem State.pull16w_answers (s : State) : (s.pull16w.2).answers = s.answers := rfl
@[simp] theorem State.pull16w_flag (s : State) (g : Flag) : (s.pull16w.2).flag g = s.flag g := rfl
@[simp] theorem State.pull16w_wA (s : State) : (s.pull16w.2).wA = s.wA := rfl
@[simp] theorem State.pull16w_wX (s : State) : (s.pull16w.2).wX = s.wX := rfl
@[simp] theorem State.pull16w_byteAt (s : State) (addr : Addr) : (s.pull16w.2).byteAt addr = s.byteAt addr := rfl
@[simp] theorem State.pull16w_read (s : State) (kind : ReadKind) (addr : Addr) : (s.pull16w.2).read kind addr = s.read kind addr := by simp [State.read]

/-! ## pull24w -/

@[simp] theorem State.pull24w_c (s : State) : (s.pull24w.2).c = s.c := rfl
@[simp] theorem State.pull24w_x (s : State) : (s.pull24w.2).x = s.x := rfl
@[simp] theorem State.pull24w_y (s : State) : (s.pull24w.2).y = s.y := rfl
@[simp] theorem State.pull24w_d (s : State) : (s.pull24w.2).d = s.d := rfl
@[simp] theorem State.pull24w_pc (s : State) : (s.pull24w.2).pc = s.pc := rfl
@[simp] theorem State.pull24w_dbr (s : State) : (s.pull24w.2).dbr = s.dbr := rfl
@[simp] theorem State.pull24w_pbr (s : State) : (s.pull24w.2).pbr = s.pbr := rfl
@[simp] theorem State.pull24w_p (s : State) : (s.pull24w.2).p = s.p := rfl
@[simp] theorem State.pull24w_e (s : State) : (s.pull24w.2).e = s.e := rfl
@[simp] theorem State.pull24w_run (s : State) : (s.pull24w.2).run = s.run := rfl
@[simp] theorem State.pull24w_nmiPending (s : State) : (s.pull24w.2).nmiPending = s.nmiPending := rfl
@[simp] theorem State.pull24w_abortPending (s : State) : (s.pull24w.2).abortPending = s.abortPending := rfl
@[simp] theorem State.pull24w_irqLine (s : State) : (s.pull24w.2).irqLine = s.irqLine := rfl
@[simp] theorem State.pull24w_resetLine (s : State) : (s.pull24w.2).resetLine = s.resetLine := rfl
@[simp] theorem State.pull24w_rdyForcedHigh (s : State) : (s.pull24w.2).rdyForcedHigh = s.rdyForcedHigh := rfl
@[simp] theorem State.pull24w_mem (s : State) : (s.pull24w.2).mem = s.mem := rfl
@[simp] theorem State.pull24w_env (s : State) : (s.pull24w.2).env = s.env := rfl
@[simp] theorem State.pull24w_draws (s : State) : (s.pull24w.2).draws = s.draws := rfl
@[simp] theorem State.pull24w_answers (s : State) : (s.pull24w.2).answers = s.answers := rfl
@[simp] theorem State.pull24w_flag (s : State) (g : Flag) : (s.pull24w.2).flag g = s.flag g := rfl
@[simp] theorem State.pull24w_wA (s : State) : (s.pull24w.2).wA = s.wA := rfl
@[simp] theorem State.pull24w_wX (s : State) : (s.pull24w.2).wX = s.wX := rfl
@[simp] theorem State.pull24w_byteAt (s : State) (addr : Addr) : (s.pull24w.2).byteAt addr = s.byteAt addr := rfl
@[simp] theorem State.pull24w_read (s : State) (kind : ReadKind) (addr : Addr) : (s.pull24w.2).read kind addr = s.read kind addr := by simp [State.read]

/-! ## pullAt -/

@[simp] theorem State.pullAt_c (w : Width) (s : State) : ((State.pullAt w s).2).c = s.c := by cases w <;> rfl
@[simp] theorem State.pullAt_x (w : Width) (s : State) : ((State.pullAt w s).2).x = s.x := by cases w <;> rfl
@[simp] theorem State.pullAt_y (w : Width) (s : State) : ((State.pullAt w s).2).y = s.y := by cases w <;> rfl
@[simp] theorem State.pullAt_d (w : Width) (s : State) : ((State.pullAt w s).2).d = s.d := by cases w <;> rfl
@[simp] theorem State.pullAt_pc (w : Width) (s : State) : ((State.pullAt w s).2).pc = s.pc := by cases w <;> rfl
@[simp] theorem State.pullAt_dbr (w : Width) (s : State) : ((State.pullAt w s).2).dbr = s.dbr := by cases w <;> rfl
@[simp] theorem State.pullAt_pbr (w : Width) (s : State) : ((State.pullAt w s).2).pbr = s.pbr := by cases w <;> rfl
@[simp] theorem State.pullAt_p (w : Width) (s : State) : ((State.pullAt w s).2).p = s.p := by cases w <;> rfl
@[simp] theorem State.pullAt_e (w : Width) (s : State) : ((State.pullAt w s).2).e = s.e := by cases w <;> rfl
@[simp] theorem State.pullAt_run (w : Width) (s : State) : ((State.pullAt w s).2).run = s.run := by cases w <;> rfl
@[simp] theorem State.pullAt_nmiPending (w : Width) (s : State) : ((State.pullAt w s).2).nmiPending = s.nmiPending := by cases w <;> rfl
@[simp] theorem State.pullAt_abortPending (w : Width) (s : State) : ((State.pullAt w s).2).abortPending = s.abortPending := by cases w <;> rfl
@[simp] theorem State.pullAt_irqLine (w : Width) (s : State) : ((State.pullAt w s).2).irqLine = s.irqLine := by cases w <;> rfl
@[simp] theorem State.pullAt_resetLine (w : Width) (s : State) : ((State.pullAt w s).2).resetLine = s.resetLine := by cases w <;> rfl
@[simp] theorem State.pullAt_rdyForcedHigh (w : Width) (s : State) : ((State.pullAt w s).2).rdyForcedHigh = s.rdyForcedHigh := by cases w <;> rfl
@[simp] theorem State.pullAt_mem (w : Width) (s : State) : ((State.pullAt w s).2).mem = s.mem := by cases w <;> rfl
@[simp] theorem State.pullAt_env (w : Width) (s : State) : ((State.pullAt w s).2).env = s.env := by cases w <;> rfl
@[simp] theorem State.pullAt_draws (w : Width) (s : State) : ((State.pullAt w s).2).draws = s.draws := by cases w <;> rfl
@[simp] theorem State.pullAt_answers (w : Width) (s : State) : ((State.pullAt w s).2).answers = s.answers := by cases w <;> rfl
@[simp] theorem State.pullAt_flag (w : Width) (s : State) (g : Flag) : ((State.pullAt w s).2).flag g = s.flag g := by simp [State.flag]
@[simp] theorem State.pullAt_wA (w : Width) (s : State) : ((State.pullAt w s).2).wA = s.wA := by simp [State.wA]
@[simp] theorem State.pullAt_wX (w : Width) (s : State) : ((State.pullAt w s).2).wX = s.wX := by simp [State.wX]
@[simp] theorem State.pullAt_byteAt (w : Width) (s : State) (addr : Addr) : ((State.pullAt w s).2).byteAt addr = s.byteAt addr := by simp [State.byteAt]
@[simp] theorem State.pullAt_read (w : Width) (s : State) (kind : ReadKind) (addr : Addr) : ((State.pullAt w s).2).read kind addr = s.read kind addr := by simp [State.read]

/-! ## addBinary -/

@[simp] theorem State.addBinary_x (w : Width) (a m : Word) (s : State) : (State.addBinary w a m s).x = s.x := rfl
@[simp] theorem State.addBinary_y (w : Width) (a m : Word) (s : State) : (State.addBinary w a m s).y = s.y := rfl
@[simp] theorem State.addBinary_sp (w : Width) (a m : Word) (s : State) : (State.addBinary w a m s).sp = s.sp := rfl
@[simp] theorem State.addBinary_d (w : Width) (a m : Word) (s : State) : (State.addBinary w a m s).d = s.d := rfl
@[simp] theorem State.addBinary_pc (w : Width) (a m : Word) (s : State) : (State.addBinary w a m s).pc = s.pc := rfl
@[simp] theorem State.addBinary_dbr (w : Width) (a m : Word) (s : State) : (State.addBinary w a m s).dbr = s.dbr := rfl
@[simp] theorem State.addBinary_pbr (w : Width) (a m : Word) (s : State) : (State.addBinary w a m s).pbr = s.pbr := rfl
@[simp] theorem State.addBinary_e (w : Width) (a m : Word) (s : State) : (State.addBinary w a m s).e = s.e := rfl
@[simp] theorem State.addBinary_run (w : Width) (a m : Word) (s : State) : (State.addBinary w a m s).run = s.run := rfl
@[simp] theorem State.addBinary_nmiPending (w : Width) (a m : Word) (s : State) : (State.addBinary w a m s).nmiPending = s.nmiPending := rfl
@[simp] theorem State.addBinary_abortPending (w : Width) (a m : Word) (s : State) : (State.addBinary w a m s).abortPending = s.abortPending := rfl
@[simp] theorem State.addBinary_irqLine (w : Width) (a m : Word) (s : State) : (State.addBinary w a m s).irqLine = s.irqLine := rfl
@[simp] theorem State.addBinary_resetLine (w : Width) (a m : Word) (s : State) : (State.addBinary w a m s).resetLine = s.resetLine := rfl
@[simp] theorem State.addBinary_rdyForcedHigh (w : Width) (a m : Word) (s : State) : (State.addBinary w a m s).rdyForcedHigh = s.rdyForcedHigh := rfl
@[simp] theorem State.addBinary_mem (w : Width) (a m : Word) (s : State) : (State.addBinary w a m s).mem = s.mem := rfl
@[simp] theorem State.addBinary_env (w : Width) (a m : Word) (s : State) : (State.addBinary w a m s).env = s.env := rfl
@[simp] theorem State.addBinary_draws (w : Width) (a m : Word) (s : State) : (State.addBinary w a m s).draws = s.draws := rfl
@[simp] theorem State.addBinary_answers (w : Width) (a m : Word) (s : State) : (State.addBinary w a m s).answers = s.answers := rfl
@[simp] theorem State.addBinary_byteAt (w : Width) (a m : Word) (s : State) (addr : Addr) : (State.addBinary w a m s).byteAt addr = s.byteAt addr := rfl
@[simp] theorem State.addBinary_read (w : Width) (a m : Word) (s : State) (kind : ReadKind) (addr : Addr) : (State.addBinary w a m s).read kind addr = s.read kind addr := by simp [State.read]

/-! ## compare -/

@[simp] theorem State.compare_c (w : Width) (r m : Word) (s : State) : (State.compare w r m s).c = s.c := rfl
@[simp] theorem State.compare_x (w : Width) (r m : Word) (s : State) : (State.compare w r m s).x = s.x := rfl
@[simp] theorem State.compare_y (w : Width) (r m : Word) (s : State) : (State.compare w r m s).y = s.y := rfl
@[simp] theorem State.compare_sp (w : Width) (r m : Word) (s : State) : (State.compare w r m s).sp = s.sp := rfl
@[simp] theorem State.compare_d (w : Width) (r m : Word) (s : State) : (State.compare w r m s).d = s.d := rfl
@[simp] theorem State.compare_pc (w : Width) (r m : Word) (s : State) : (State.compare w r m s).pc = s.pc := rfl
@[simp] theorem State.compare_dbr (w : Width) (r m : Word) (s : State) : (State.compare w r m s).dbr = s.dbr := rfl
@[simp] theorem State.compare_pbr (w : Width) (r m : Word) (s : State) : (State.compare w r m s).pbr = s.pbr := rfl
@[simp] theorem State.compare_e (w : Width) (r m : Word) (s : State) : (State.compare w r m s).e = s.e := rfl
@[simp] theorem State.compare_run (w : Width) (r m : Word) (s : State) : (State.compare w r m s).run = s.run := rfl
@[simp] theorem State.compare_nmiPending (w : Width) (r m : Word) (s : State) : (State.compare w r m s).nmiPending = s.nmiPending := rfl
@[simp] theorem State.compare_abortPending (w : Width) (r m : Word) (s : State) : (State.compare w r m s).abortPending = s.abortPending := rfl
@[simp] theorem State.compare_irqLine (w : Width) (r m : Word) (s : State) : (State.compare w r m s).irqLine = s.irqLine := rfl
@[simp] theorem State.compare_resetLine (w : Width) (r m : Word) (s : State) : (State.compare w r m s).resetLine = s.resetLine := rfl
@[simp] theorem State.compare_rdyForcedHigh (w : Width) (r m : Word) (s : State) : (State.compare w r m s).rdyForcedHigh = s.rdyForcedHigh := rfl
@[simp] theorem State.compare_mem (w : Width) (r m : Word) (s : State) : (State.compare w r m s).mem = s.mem := rfl
@[simp] theorem State.compare_env (w : Width) (r m : Word) (s : State) : (State.compare w r m s).env = s.env := rfl
@[simp] theorem State.compare_draws (w : Width) (r m : Word) (s : State) : (State.compare w r m s).draws = s.draws := rfl
@[simp] theorem State.compare_answers (w : Width) (r m : Word) (s : State) : (State.compare w r m s).answers = s.answers := rfl
@[simp] theorem State.compare_byteAt (w : Width) (r m : Word) (s : State) (addr : Addr) : (State.compare w r m s).byteAt addr = s.byteAt addr := rfl
@[simp] theorem State.compare_read (w : Width) (r m : Word) (s : State) (kind : ReadKind) (addr : Addr) : (State.compare w r m s).read kind addr = s.read kind addr := by simp [State.read]

/-! ## bitZ -/

@[simp] theorem State.bitZ_c (a m : Word) (s : State) : (State.bitZ a m s).c = s.c := rfl
@[simp] theorem State.bitZ_x (a m : Word) (s : State) : (State.bitZ a m s).x = s.x := rfl
@[simp] theorem State.bitZ_y (a m : Word) (s : State) : (State.bitZ a m s).y = s.y := rfl
@[simp] theorem State.bitZ_sp (a m : Word) (s : State) : (State.bitZ a m s).sp = s.sp := rfl
@[simp] theorem State.bitZ_d (a m : Word) (s : State) : (State.bitZ a m s).d = s.d := rfl
@[simp] theorem State.bitZ_pc (a m : Word) (s : State) : (State.bitZ a m s).pc = s.pc := rfl
@[simp] theorem State.bitZ_dbr (a m : Word) (s : State) : (State.bitZ a m s).dbr = s.dbr := rfl
@[simp] theorem State.bitZ_pbr (a m : Word) (s : State) : (State.bitZ a m s).pbr = s.pbr := rfl
@[simp] theorem State.bitZ_e (a m : Word) (s : State) : (State.bitZ a m s).e = s.e := rfl
@[simp] theorem State.bitZ_run (a m : Word) (s : State) : (State.bitZ a m s).run = s.run := rfl
@[simp] theorem State.bitZ_nmiPending (a m : Word) (s : State) : (State.bitZ a m s).nmiPending = s.nmiPending := rfl
@[simp] theorem State.bitZ_abortPending (a m : Word) (s : State) : (State.bitZ a m s).abortPending = s.abortPending := rfl
@[simp] theorem State.bitZ_irqLine (a m : Word) (s : State) : (State.bitZ a m s).irqLine = s.irqLine := rfl
@[simp] theorem State.bitZ_resetLine (a m : Word) (s : State) : (State.bitZ a m s).resetLine = s.resetLine := rfl
@[simp] theorem State.bitZ_rdyForcedHigh (a m : Word) (s : State) : (State.bitZ a m s).rdyForcedHigh = s.rdyForcedHigh := rfl
@[simp] theorem State.bitZ_mem (a m : Word) (s : State) : (State.bitZ a m s).mem = s.mem := rfl
@[simp] theorem State.bitZ_env (a m : Word) (s : State) : (State.bitZ a m s).env = s.env := rfl
@[simp] theorem State.bitZ_draws (a m : Word) (s : State) : (State.bitZ a m s).draws = s.draws := rfl
@[simp] theorem State.bitZ_answers (a m : Word) (s : State) : (State.bitZ a m s).answers = s.answers := rfl
@[simp] theorem State.bitZ_byteAt (a m : Word) (s : State) (addr : Addr) : (State.bitZ a m s).byteAt addr = s.byteAt addr := rfl
@[simp] theorem State.bitZ_read (a m : Word) (s : State) (kind : ReadKind) (addr : Addr) : (State.bitZ a m s).read kind addr = s.read kind addr := by simp [State.read]

/-! ## bitNV -/

@[simp] theorem State.bitNV_c (w : Width) (m : Word) (s : State) : (State.bitNV w m s).c = s.c := rfl
@[simp] theorem State.bitNV_x (w : Width) (m : Word) (s : State) : (State.bitNV w m s).x = s.x := rfl
@[simp] theorem State.bitNV_y (w : Width) (m : Word) (s : State) : (State.bitNV w m s).y = s.y := rfl
@[simp] theorem State.bitNV_sp (w : Width) (m : Word) (s : State) : (State.bitNV w m s).sp = s.sp := rfl
@[simp] theorem State.bitNV_d (w : Width) (m : Word) (s : State) : (State.bitNV w m s).d = s.d := rfl
@[simp] theorem State.bitNV_pc (w : Width) (m : Word) (s : State) : (State.bitNV w m s).pc = s.pc := rfl
@[simp] theorem State.bitNV_dbr (w : Width) (m : Word) (s : State) : (State.bitNV w m s).dbr = s.dbr := rfl
@[simp] theorem State.bitNV_pbr (w : Width) (m : Word) (s : State) : (State.bitNV w m s).pbr = s.pbr := rfl
@[simp] theorem State.bitNV_e (w : Width) (m : Word) (s : State) : (State.bitNV w m s).e = s.e := rfl
@[simp] theorem State.bitNV_run (w : Width) (m : Word) (s : State) : (State.bitNV w m s).run = s.run := rfl
@[simp] theorem State.bitNV_nmiPending (w : Width) (m : Word) (s : State) : (State.bitNV w m s).nmiPending = s.nmiPending := rfl
@[simp] theorem State.bitNV_abortPending (w : Width) (m : Word) (s : State) : (State.bitNV w m s).abortPending = s.abortPending := rfl
@[simp] theorem State.bitNV_irqLine (w : Width) (m : Word) (s : State) : (State.bitNV w m s).irqLine = s.irqLine := rfl
@[simp] theorem State.bitNV_resetLine (w : Width) (m : Word) (s : State) : (State.bitNV w m s).resetLine = s.resetLine := rfl
@[simp] theorem State.bitNV_rdyForcedHigh (w : Width) (m : Word) (s : State) : (State.bitNV w m s).rdyForcedHigh = s.rdyForcedHigh := rfl
@[simp] theorem State.bitNV_mem (w : Width) (m : Word) (s : State) : (State.bitNV w m s).mem = s.mem := rfl
@[simp] theorem State.bitNV_env (w : Width) (m : Word) (s : State) : (State.bitNV w m s).env = s.env := rfl
@[simp] theorem State.bitNV_draws (w : Width) (m : Word) (s : State) : (State.bitNV w m s).draws = s.draws := rfl
@[simp] theorem State.bitNV_answers (w : Width) (m : Word) (s : State) : (State.bitNV w m s).answers = s.answers := rfl
@[simp] theorem State.bitNV_byteAt (w : Width) (m : Word) (s : State) (addr : Addr) : (State.bitNV w m s).byteAt addr = s.byteAt addr := rfl
@[simp] theorem State.bitNV_read (w : Width) (m : Word) (s : State) (kind : ReadKind) (addr : Addr) : (State.bitNV w m s).read kind addr = s.read kind addr := by simp [State.read]

/-! ## shiftFlags -/

@[simp] theorem State.shiftFlags_c (w : Width) (out : Bool) (r : Word) (s : State) : (State.shiftFlags w out r s).c = s.c := rfl
@[simp] theorem State.shiftFlags_x (w : Width) (out : Bool) (r : Word) (s : State) : (State.shiftFlags w out r s).x = s.x := rfl
@[simp] theorem State.shiftFlags_y (w : Width) (out : Bool) (r : Word) (s : State) : (State.shiftFlags w out r s).y = s.y := rfl
@[simp] theorem State.shiftFlags_sp (w : Width) (out : Bool) (r : Word) (s : State) : (State.shiftFlags w out r s).sp = s.sp := rfl
@[simp] theorem State.shiftFlags_d (w : Width) (out : Bool) (r : Word) (s : State) : (State.shiftFlags w out r s).d = s.d := rfl
@[simp] theorem State.shiftFlags_pc (w : Width) (out : Bool) (r : Word) (s : State) : (State.shiftFlags w out r s).pc = s.pc := rfl
@[simp] theorem State.shiftFlags_dbr (w : Width) (out : Bool) (r : Word) (s : State) : (State.shiftFlags w out r s).dbr = s.dbr := rfl
@[simp] theorem State.shiftFlags_pbr (w : Width) (out : Bool) (r : Word) (s : State) : (State.shiftFlags w out r s).pbr = s.pbr := rfl
@[simp] theorem State.shiftFlags_e (w : Width) (out : Bool) (r : Word) (s : State) : (State.shiftFlags w out r s).e = s.e := rfl
@[simp] theorem State.shiftFlags_run (w : Width) (out : Bool) (r : Word) (s : State) : (State.shiftFlags w out r s).run = s.run := rfl
@[simp] theorem State.shiftFlags_nmiPending (w : Width) (out : Bool) (r : Word) (s : State) : (State.shiftFlags w out r s).nmiPending = s.nmiPending := rfl
@[simp] theorem State.shiftFlags_abortPending (w : Width) (out : Bool) (r : Word) (s : State) : (State.shiftFlags w out r s).abortPending = s.abortPending := rfl
@[simp] theorem State.shiftFlags_irqLine (w : Width) (out : Bool) (r : Word) (s : State) : (State.shiftFlags w out r s).irqLine = s.irqLine := rfl
@[simp] theorem State.shiftFlags_resetLine (w : Width) (out : Bool) (r : Word) (s : State) : (State.shiftFlags w out r s).resetLine = s.resetLine := rfl
@[simp] theorem State.shiftFlags_rdyForcedHigh (w : Width) (out : Bool) (r : Word) (s : State) : (State.shiftFlags w out r s).rdyForcedHigh = s.rdyForcedHigh := rfl
@[simp] theorem State.shiftFlags_mem (w : Width) (out : Bool) (r : Word) (s : State) : (State.shiftFlags w out r s).mem = s.mem := rfl
@[simp] theorem State.shiftFlags_env (w : Width) (out : Bool) (r : Word) (s : State) : (State.shiftFlags w out r s).env = s.env := rfl
@[simp] theorem State.shiftFlags_draws (w : Width) (out : Bool) (r : Word) (s : State) : (State.shiftFlags w out r s).draws = s.draws := rfl
@[simp] theorem State.shiftFlags_answers (w : Width) (out : Bool) (r : Word) (s : State) : (State.shiftFlags w out r s).answers = s.answers := rfl
@[simp] theorem State.shiftFlags_byteAt (w : Width) (out : Bool) (r : Word) (s : State) (addr : Addr) : (State.shiftFlags w out r s).byteAt addr = s.byteAt addr := rfl
@[simp] theorem State.shiftFlags_read (w : Width) (out : Bool) (r : Word) (s : State) (kind : ReadKind) (addr : Addr) : (State.shiftFlags w out r s).read kind addr = s.read kind addr := by simp [State.read]

/-! ## write -/

@[simp] theorem State.write_x (w : Width) (v : Word) (loc : Loc) (s : State) : (Loc.write w v loc s).x = s.x := by cases loc <;> cases w <;> rfl
@[simp] theorem State.write_y (w : Width) (v : Word) (loc : Loc) (s : State) : (Loc.write w v loc s).y = s.y := by cases loc <;> cases w <;> rfl
@[simp] theorem State.write_sp (w : Width) (v : Word) (loc : Loc) (s : State) : (Loc.write w v loc s).sp = s.sp := by cases loc <;> cases w <;> rfl
@[simp] theorem State.write_d (w : Width) (v : Word) (loc : Loc) (s : State) : (Loc.write w v loc s).d = s.d := by cases loc <;> cases w <;> rfl
@[simp] theorem State.write_pc (w : Width) (v : Word) (loc : Loc) (s : State) : (Loc.write w v loc s).pc = s.pc := by cases loc <;> cases w <;> rfl
@[simp] theorem State.write_dbr (w : Width) (v : Word) (loc : Loc) (s : State) : (Loc.write w v loc s).dbr = s.dbr := by cases loc <;> cases w <;> rfl
@[simp] theorem State.write_pbr (w : Width) (v : Word) (loc : Loc) (s : State) : (Loc.write w v loc s).pbr = s.pbr := by cases loc <;> cases w <;> rfl
@[simp] theorem State.write_p (w : Width) (v : Word) (loc : Loc) (s : State) : (Loc.write w v loc s).p = s.p := by cases loc <;> cases w <;> rfl
@[simp] theorem State.write_e (w : Width) (v : Word) (loc : Loc) (s : State) : (Loc.write w v loc s).e = s.e := by cases loc <;> cases w <;> rfl
@[simp] theorem State.write_run (w : Width) (v : Word) (loc : Loc) (s : State) : (Loc.write w v loc s).run = s.run := by cases loc <;> cases w <;> rfl
@[simp] theorem State.write_nmiPending (w : Width) (v : Word) (loc : Loc) (s : State) : (Loc.write w v loc s).nmiPending = s.nmiPending := by cases loc <;> cases w <;> rfl
@[simp] theorem State.write_abortPending (w : Width) (v : Word) (loc : Loc) (s : State) : (Loc.write w v loc s).abortPending = s.abortPending := by cases loc <;> cases w <;> rfl
@[simp] theorem State.write_irqLine (w : Width) (v : Word) (loc : Loc) (s : State) : (Loc.write w v loc s).irqLine = s.irqLine := by cases loc <;> cases w <;> rfl
@[simp] theorem State.write_resetLine (w : Width) (v : Word) (loc : Loc) (s : State) : (Loc.write w v loc s).resetLine = s.resetLine := by cases loc <;> cases w <;> rfl
@[simp] theorem State.write_rdyForcedHigh (w : Width) (v : Word) (loc : Loc) (s : State) : (Loc.write w v loc s).rdyForcedHigh = s.rdyForcedHigh := by cases loc <;> cases w <;> rfl
@[simp] theorem State.write_env (w : Width) (v : Word) (loc : Loc) (s : State) : (Loc.write w v loc s).env = s.env := by cases loc <;> cases w <;> rfl
@[simp] theorem State.write_draws (w : Width) (v : Word) (loc : Loc) (s : State) : (Loc.write w v loc s).draws = s.draws := by cases loc <;> cases w <;> rfl
@[simp] theorem State.write_answers (w : Width) (v : Word) (loc : Loc) (s : State) : (Loc.write w v loc s).answers = s.answers := by cases loc <;> cases w <;> rfl
@[simp] theorem State.write_flag (w : Width) (v : Word) (loc : Loc) (s : State) (g : Flag) : (Loc.write w v loc s).flag g = s.flag g := by simp [State.flag]
@[simp] theorem State.write_wA (w : Width) (v : Word) (loc : Loc) (s : State) : (Loc.write w v loc s).wA = s.wA := by simp [State.wA]
@[simp] theorem State.write_wX (w : Width) (v : Word) (loc : Loc) (s : State) : (Loc.write w v loc s).wX = s.wX := by simp [State.wX]

/-! ## writeBack -/

@[simp] theorem State.writeBack_x (w : Width) (v : Word) (loc : Loc) (s : State) : (Loc.writeBack w v loc s).x = s.x := by cases loc <;> cases w <;> rfl
@[simp] theorem State.writeBack_y (w : Width) (v : Word) (loc : Loc) (s : State) : (Loc.writeBack w v loc s).y = s.y := by cases loc <;> cases w <;> rfl
@[simp] theorem State.writeBack_sp (w : Width) (v : Word) (loc : Loc) (s : State) : (Loc.writeBack w v loc s).sp = s.sp := by cases loc <;> cases w <;> rfl
@[simp] theorem State.writeBack_d (w : Width) (v : Word) (loc : Loc) (s : State) : (Loc.writeBack w v loc s).d = s.d := by cases loc <;> cases w <;> rfl
@[simp] theorem State.writeBack_pc (w : Width) (v : Word) (loc : Loc) (s : State) : (Loc.writeBack w v loc s).pc = s.pc := by cases loc <;> cases w <;> rfl
@[simp] theorem State.writeBack_dbr (w : Width) (v : Word) (loc : Loc) (s : State) : (Loc.writeBack w v loc s).dbr = s.dbr := by cases loc <;> cases w <;> rfl
@[simp] theorem State.writeBack_pbr (w : Width) (v : Word) (loc : Loc) (s : State) : (Loc.writeBack w v loc s).pbr = s.pbr := by cases loc <;> cases w <;> rfl
@[simp] theorem State.writeBack_p (w : Width) (v : Word) (loc : Loc) (s : State) : (Loc.writeBack w v loc s).p = s.p := by cases loc <;> cases w <;> rfl
@[simp] theorem State.writeBack_e (w : Width) (v : Word) (loc : Loc) (s : State) : (Loc.writeBack w v loc s).e = s.e := by cases loc <;> cases w <;> rfl
@[simp] theorem State.writeBack_run (w : Width) (v : Word) (loc : Loc) (s : State) : (Loc.writeBack w v loc s).run = s.run := by cases loc <;> cases w <;> rfl
@[simp] theorem State.writeBack_nmiPending (w : Width) (v : Word) (loc : Loc) (s : State) : (Loc.writeBack w v loc s).nmiPending = s.nmiPending := by cases loc <;> cases w <;> rfl
@[simp] theorem State.writeBack_abortPending (w : Width) (v : Word) (loc : Loc) (s : State) : (Loc.writeBack w v loc s).abortPending = s.abortPending := by cases loc <;> cases w <;> rfl
@[simp] theorem State.writeBack_irqLine (w : Width) (v : Word) (loc : Loc) (s : State) : (Loc.writeBack w v loc s).irqLine = s.irqLine := by cases loc <;> cases w <;> rfl
@[simp] theorem State.writeBack_resetLine (w : Width) (v : Word) (loc : Loc) (s : State) : (Loc.writeBack w v loc s).resetLine = s.resetLine := by cases loc <;> cases w <;> rfl
@[simp] theorem State.writeBack_rdyForcedHigh (w : Width) (v : Word) (loc : Loc) (s : State) : (Loc.writeBack w v loc s).rdyForcedHigh = s.rdyForcedHigh := by cases loc <;> cases w <;> rfl
@[simp] theorem State.writeBack_env (w : Width) (v : Word) (loc : Loc) (s : State) : (Loc.writeBack w v loc s).env = s.env := by cases loc <;> cases w <;> rfl
@[simp] theorem State.writeBack_draws (w : Width) (v : Word) (loc : Loc) (s : State) : (Loc.writeBack w v loc s).draws = s.draws := by cases loc <;> cases w <;> rfl
@[simp] theorem State.writeBack_answers (w : Width) (v : Word) (loc : Loc) (s : State) : (Loc.writeBack w v loc s).answers = s.answers := by cases loc <;> cases w <;> rfl
@[simp] theorem State.writeBack_flag (w : Width) (v : Word) (loc : Loc) (s : State) (g : Flag) : (Loc.writeBack w v loc s).flag g = s.flag g := by simp [State.flag]
@[simp] theorem State.writeBack_wA (w : Width) (v : Word) (loc : Loc) (s : State) : (Loc.writeBack w v loc s).wA = s.wA := by simp [State.wA]
@[simp] theorem State.writeBack_wX (w : Width) (v : Word) (loc : Loc) (s : State) : (Loc.writeBack w v loc s).wX = s.wX := by simp [State.wX]

/-! ## pushFrame -/

@[simp] theorem State.pushFrame_c (kind : InterruptKind) (bank : Byte) (ret : Word) (s : State) : (s.pushFrame kind bank ret).c = s.c := by unfold State.pushFrame; split <;> simp
@[simp] theorem State.pushFrame_x (kind : InterruptKind) (bank : Byte) (ret : Word) (s : State) : (s.pushFrame kind bank ret).x = s.x := by unfold State.pushFrame; split <;> simp
@[simp] theorem State.pushFrame_y (kind : InterruptKind) (bank : Byte) (ret : Word) (s : State) : (s.pushFrame kind bank ret).y = s.y := by unfold State.pushFrame; split <;> simp
@[simp] theorem State.pushFrame_d (kind : InterruptKind) (bank : Byte) (ret : Word) (s : State) : (s.pushFrame kind bank ret).d = s.d := by unfold State.pushFrame; split <;> simp
@[simp] theorem State.pushFrame_pc (kind : InterruptKind) (bank : Byte) (ret : Word) (s : State) : (s.pushFrame kind bank ret).pc = s.pc := by unfold State.pushFrame; split <;> simp
@[simp] theorem State.pushFrame_dbr (kind : InterruptKind) (bank : Byte) (ret : Word) (s : State) : (s.pushFrame kind bank ret).dbr = s.dbr := by unfold State.pushFrame; split <;> simp
@[simp] theorem State.pushFrame_pbr (kind : InterruptKind) (bank : Byte) (ret : Word) (s : State) : (s.pushFrame kind bank ret).pbr = s.pbr := by unfold State.pushFrame; split <;> simp
@[simp] theorem State.pushFrame_p (kind : InterruptKind) (bank : Byte) (ret : Word) (s : State) : (s.pushFrame kind bank ret).p = s.p := by unfold State.pushFrame; split <;> simp
@[simp] theorem State.pushFrame_e (kind : InterruptKind) (bank : Byte) (ret : Word) (s : State) : (s.pushFrame kind bank ret).e = s.e := by unfold State.pushFrame; split <;> simp
@[simp] theorem State.pushFrame_run (kind : InterruptKind) (bank : Byte) (ret : Word) (s : State) : (s.pushFrame kind bank ret).run = s.run := by unfold State.pushFrame; split <;> simp
@[simp] theorem State.pushFrame_nmiPending (kind : InterruptKind) (bank : Byte) (ret : Word) (s : State) : (s.pushFrame kind bank ret).nmiPending = s.nmiPending := by unfold State.pushFrame; split <;> simp
@[simp] theorem State.pushFrame_abortPending (kind : InterruptKind) (bank : Byte) (ret : Word) (s : State) : (s.pushFrame kind bank ret).abortPending = s.abortPending := by unfold State.pushFrame; split <;> simp
@[simp] theorem State.pushFrame_irqLine (kind : InterruptKind) (bank : Byte) (ret : Word) (s : State) : (s.pushFrame kind bank ret).irqLine = s.irqLine := by unfold State.pushFrame; split <;> simp
@[simp] theorem State.pushFrame_resetLine (kind : InterruptKind) (bank : Byte) (ret : Word) (s : State) : (s.pushFrame kind bank ret).resetLine = s.resetLine := by unfold State.pushFrame; split <;> simp
@[simp] theorem State.pushFrame_rdyForcedHigh (kind : InterruptKind) (bank : Byte) (ret : Word) (s : State) : (s.pushFrame kind bank ret).rdyForcedHigh = s.rdyForcedHigh := by unfold State.pushFrame; split <;> simp
@[simp] theorem State.pushFrame_env (kind : InterruptKind) (bank : Byte) (ret : Word) (s : State) : (s.pushFrame kind bank ret).env = s.env := by unfold State.pushFrame; split <;> simp
@[simp] theorem State.pushFrame_draws (kind : InterruptKind) (bank : Byte) (ret : Word) (s : State) : (s.pushFrame kind bank ret).draws = s.draws := by unfold State.pushFrame; split <;> simp
@[simp] theorem State.pushFrame_answers (kind : InterruptKind) (bank : Byte) (ret : Word) (s : State) : (s.pushFrame kind bank ret).answers = s.answers := by unfold State.pushFrame; split <;> simp
@[simp] theorem State.pushFrame_flag (kind : InterruptKind) (bank : Byte) (ret : Word) (s : State) (g : Flag) : (s.pushFrame kind bank ret).flag g = s.flag g := by simp [State.flag]
@[simp] theorem State.pushFrame_wA (kind : InterruptKind) (bank : Byte) (ret : Word) (s : State) : (s.pushFrame kind bank ret).wA = s.wA := by simp [State.wA]
@[simp] theorem State.pushFrame_wX (kind : InterruptKind) (bank : Byte) (ret : Word) (s : State) : (s.pushFrame kind bank ret).wX = s.wX := by simp [State.wX]

/-! ## interrupt -/

@[simp] theorem State.interrupt_c (kind : InterruptKind) (bank : Byte) (ret : Word) (s : State) : (s.interrupt kind bank ret).c = s.c := State.pushFrame_c kind bank ret s
@[simp] theorem State.interrupt_x (kind : InterruptKind) (bank : Byte) (ret : Word) (s : State) : (s.interrupt kind bank ret).x = s.x := State.pushFrame_x kind bank ret s
@[simp] theorem State.interrupt_y (kind : InterruptKind) (bank : Byte) (ret : Word) (s : State) : (s.interrupt kind bank ret).y = s.y := State.pushFrame_y kind bank ret s
@[simp] theorem State.interrupt_d (kind : InterruptKind) (bank : Byte) (ret : Word) (s : State) : (s.interrupt kind bank ret).d = s.d := State.pushFrame_d kind bank ret s
@[simp] theorem State.interrupt_dbr (kind : InterruptKind) (bank : Byte) (ret : Word) (s : State) : (s.interrupt kind bank ret).dbr = s.dbr := State.pushFrame_dbr kind bank ret s
@[simp] theorem State.interrupt_e (kind : InterruptKind) (bank : Byte) (ret : Word) (s : State) : (s.interrupt kind bank ret).e = s.e := State.pushFrame_e kind bank ret s
@[simp] theorem State.interrupt_nmiPending (kind : InterruptKind) (bank : Byte) (ret : Word) (s : State) : (s.interrupt kind bank ret).nmiPending = s.nmiPending := State.pushFrame_nmiPending kind bank ret s
@[simp] theorem State.interrupt_abortPending (kind : InterruptKind) (bank : Byte) (ret : Word) (s : State) : (s.interrupt kind bank ret).abortPending = s.abortPending := State.pushFrame_abortPending kind bank ret s
@[simp] theorem State.interrupt_irqLine (kind : InterruptKind) (bank : Byte) (ret : Word) (s : State) : (s.interrupt kind bank ret).irqLine = s.irqLine := State.pushFrame_irqLine kind bank ret s
@[simp] theorem State.interrupt_resetLine (kind : InterruptKind) (bank : Byte) (ret : Word) (s : State) : (s.interrupt kind bank ret).resetLine = s.resetLine := State.pushFrame_resetLine kind bank ret s
@[simp] theorem State.interrupt_rdyForcedHigh (kind : InterruptKind) (bank : Byte) (ret : Word) (s : State) : (s.interrupt kind bank ret).rdyForcedHigh = s.rdyForcedHigh := State.pushFrame_rdyForcedHigh kind bank ret s
@[simp] theorem State.interrupt_env (kind : InterruptKind) (bank : Byte) (ret : Word) (s : State) : (s.interrupt kind bank ret).env = s.env := State.pushFrame_env kind bank ret s
@[simp] theorem State.interrupt_draws (kind : InterruptKind) (bank : Byte) (ret : Word) (s : State) : (s.interrupt kind bank ret).draws = s.draws := State.pushFrame_draws kind bank ret s
@[simp] theorem State.interrupt_answers (kind : InterruptKind) (bank : Byte) (ret : Word) (s : State) : (s.interrupt kind bank ret).answers = s.answers := State.pushFrame_answers kind bank ret s

/-! ## platformShows -/

@[simp] theorem State.platformShows_c (cells : List (Addr × Byte)) (s : State) : (s.platformShows cells).c = s.c := rfl
@[simp] theorem State.platformShows_x (cells : List (Addr × Byte)) (s : State) : (s.platformShows cells).x = s.x := rfl
@[simp] theorem State.platformShows_y (cells : List (Addr × Byte)) (s : State) : (s.platformShows cells).y = s.y := rfl
@[simp] theorem State.platformShows_sp (cells : List (Addr × Byte)) (s : State) : (s.platformShows cells).sp = s.sp := rfl
@[simp] theorem State.platformShows_d (cells : List (Addr × Byte)) (s : State) : (s.platformShows cells).d = s.d := rfl
@[simp] theorem State.platformShows_pc (cells : List (Addr × Byte)) (s : State) : (s.platformShows cells).pc = s.pc := rfl
@[simp] theorem State.platformShows_dbr (cells : List (Addr × Byte)) (s : State) : (s.platformShows cells).dbr = s.dbr := rfl
@[simp] theorem State.platformShows_pbr (cells : List (Addr × Byte)) (s : State) : (s.platformShows cells).pbr = s.pbr := rfl
@[simp] theorem State.platformShows_p (cells : List (Addr × Byte)) (s : State) : (s.platformShows cells).p = s.p := rfl
@[simp] theorem State.platformShows_e (cells : List (Addr × Byte)) (s : State) : (s.platformShows cells).e = s.e := rfl
@[simp] theorem State.platformShows_run (cells : List (Addr × Byte)) (s : State) : (s.platformShows cells).run = s.run := rfl
@[simp] theorem State.platformShows_nmiPending (cells : List (Addr × Byte)) (s : State) : (s.platformShows cells).nmiPending = s.nmiPending := rfl
@[simp] theorem State.platformShows_abortPending (cells : List (Addr × Byte)) (s : State) : (s.platformShows cells).abortPending = s.abortPending := rfl
@[simp] theorem State.platformShows_irqLine (cells : List (Addr × Byte)) (s : State) : (s.platformShows cells).irqLine = s.irqLine := rfl
@[simp] theorem State.platformShows_resetLine (cells : List (Addr × Byte)) (s : State) : (s.platformShows cells).resetLine = s.resetLine := rfl
@[simp] theorem State.platformShows_rdyForcedHigh (cells : List (Addr × Byte)) (s : State) : (s.platformShows cells).rdyForcedHigh = s.rdyForcedHigh := rfl
@[simp] theorem State.platformShows_env (cells : List (Addr × Byte)) (s : State) : (s.platformShows cells).env = s.env := rfl
@[simp] theorem State.platformShows_draws (cells : List (Addr × Byte)) (s : State) : (s.platformShows cells).draws = s.draws := rfl
@[simp] theorem State.platformShows_answers (cells : List (Addr × Byte)) (s : State) : (s.platformShows cells).answers = s.answers := rfl
@[simp] theorem State.platformShows_mem (cells : List (Addr × Byte)) (s : State) : (s.platformShows cells).mem = Memory.writeAll cells s.mem := rfl
@[simp] theorem State.platformShows_flag (cells : List (Addr × Byte)) (s : State) (g : Flag) : (s.platformShows cells).flag g = s.flag g := rfl
@[simp] theorem State.platformShows_wA (cells : List (Addr × Byte)) (s : State) : (s.platformShows cells).wA = s.wA := rfl
@[simp] theorem State.platformShows_wX (cells : List (Addr × Byte)) (s : State) : (s.platformShows cells).wX = s.wX := rfl
@[simp] theorem State.platformShows_nil (s : State) : s.platformShows [] = s := rfl

/-! ## sampled -/

@[simp] theorem State.sampled_c (s : State) : (s.sampled).c = s.c := rfl
@[simp] theorem State.sampled_x (s : State) : (s.sampled).x = s.x := rfl
@[simp] theorem State.sampled_y (s : State) : (s.sampled).y = s.y := rfl
@[simp] theorem State.sampled_sp (s : State) : (s.sampled).sp = s.sp := rfl
@[simp] theorem State.sampled_d (s : State) : (s.sampled).d = s.d := rfl
@[simp] theorem State.sampled_pc (s : State) : (s.sampled).pc = s.pc := rfl
@[simp] theorem State.sampled_dbr (s : State) : (s.sampled).dbr = s.dbr := rfl
@[simp] theorem State.sampled_pbr (s : State) : (s.sampled).pbr = s.pbr := rfl
@[simp] theorem State.sampled_p (s : State) : (s.sampled).p = s.p := rfl
@[simp] theorem State.sampled_e (s : State) : (s.sampled).e = s.e := rfl
@[simp] theorem State.sampled_run (s : State) : (s.sampled).run = s.run := rfl
@[simp] theorem State.sampled_nmiPending (s : State) : (s.sampled).nmiPending = s.nmiPending := rfl
@[simp] theorem State.sampled_abortPending (s : State) : (s.sampled).abortPending = s.abortPending := rfl
@[simp] theorem State.sampled_resetLine (s : State) : (s.sampled).resetLine = s.resetLine := rfl
@[simp] theorem State.sampled_mem (s : State) : (s.sampled).mem = Memory.writeAll s.input.platform s.mem := rfl
@[simp] theorem State.sampled_draws (s : State) : (s.sampled).draws = s.draws := rfl
@[simp] theorem State.sampled_answers (s : State) : (s.sampled).answers = s.input.answers := rfl
@[simp] theorem State.sampled_flag (s : State) (g : Flag) : (s.sampled).flag g = s.flag g := rfl
@[simp] theorem State.sampled_wA (s : State) : (s.sampled).wA = s.wA := rfl
@[simp] theorem State.sampled_wX (s : State) : (s.sampled).wX = s.wX := rfl
@[simp] theorem State.sampled_irqLine (s : State) : (s.sampled).irqLine = s.input.irqLow := rfl
@[simp] theorem State.sampled_rdyForcedHigh (s : State) : (s.sampled).rdyForcedHigh = s.input.rdyForcedHigh := rfl
@[simp] theorem State.sampled_env (s : State) : (s.sampled).env = s.env.tail := rfl
@[simp] theorem State.sampled_byteAt (s : State) (addr : Addr) :
    (s.sampled).byteAt addr = (s.platformShows s.input.platform).byteAt addr := rfl

/-! ## latchNmi -/

@[simp] theorem State.latchNmi_c (edge : Bool) (s : State) : (s.latchNmi edge).c = s.c := rfl
@[simp] theorem State.latchNmi_x (edge : Bool) (s : State) : (s.latchNmi edge).x = s.x := rfl
@[simp] theorem State.latchNmi_y (edge : Bool) (s : State) : (s.latchNmi edge).y = s.y := rfl
@[simp] theorem State.latchNmi_sp (edge : Bool) (s : State) : (s.latchNmi edge).sp = s.sp := rfl
@[simp] theorem State.latchNmi_d (edge : Bool) (s : State) : (s.latchNmi edge).d = s.d := rfl
@[simp] theorem State.latchNmi_pc (edge : Bool) (s : State) : (s.latchNmi edge).pc = s.pc := rfl
@[simp] theorem State.latchNmi_dbr (edge : Bool) (s : State) : (s.latchNmi edge).dbr = s.dbr := rfl
@[simp] theorem State.latchNmi_pbr (edge : Bool) (s : State) : (s.latchNmi edge).pbr = s.pbr := rfl
@[simp] theorem State.latchNmi_p (edge : Bool) (s : State) : (s.latchNmi edge).p = s.p := rfl
@[simp] theorem State.latchNmi_e (edge : Bool) (s : State) : (s.latchNmi edge).e = s.e := rfl
@[simp] theorem State.latchNmi_run (edge : Bool) (s : State) : (s.latchNmi edge).run = s.run := rfl
@[simp] theorem State.latchNmi_abortPending (edge : Bool) (s : State) : (s.latchNmi edge).abortPending = s.abortPending := rfl
@[simp] theorem State.latchNmi_irqLine (edge : Bool) (s : State) : (s.latchNmi edge).irqLine = s.irqLine := rfl
@[simp] theorem State.latchNmi_resetLine (edge : Bool) (s : State) : (s.latchNmi edge).resetLine = s.resetLine := rfl
@[simp] theorem State.latchNmi_rdyForcedHigh (edge : Bool) (s : State) : (s.latchNmi edge).rdyForcedHigh = s.rdyForcedHigh := rfl
@[simp] theorem State.latchNmi_mem (edge : Bool) (s : State) : (s.latchNmi edge).mem = s.mem := rfl
@[simp] theorem State.latchNmi_env (edge : Bool) (s : State) : (s.latchNmi edge).env = s.env := rfl
@[simp] theorem State.latchNmi_draws (edge : Bool) (s : State) : (s.latchNmi edge).draws = s.draws := rfl
@[simp] theorem State.latchNmi_answers (edge : Bool) (s : State) : (s.latchNmi edge).answers = s.answers := rfl
@[simp] theorem State.latchNmi_flag (edge : Bool) (s : State) (g : Flag) : (s.latchNmi edge).flag g = s.flag g := rfl
@[simp] theorem State.latchNmi_wA (edge : Bool) (s : State) : (s.latchNmi edge).wA = s.wA := rfl
@[simp] theorem State.latchNmi_wX (edge : Bool) (s : State) : (s.latchNmi edge).wX = s.wX := rfl
@[simp] theorem State.latchNmi_byteAt (edge : Bool) (s : State) (addr : Addr) : (s.latchNmi edge).byteAt addr = s.byteAt addr := rfl
@[simp] theorem State.latchNmi_read (edge : Bool) (s : State) (kind : ReadKind) (addr : Addr) : (s.latchNmi edge).read kind addr = s.read kind addr := by simp [State.read]

/-! ## latchAbortWaiting -/

@[simp] theorem State.latchAbortWaiting_c (s : State) : (s.latchAbortWaiting).c = s.c := rfl
@[simp] theorem State.latchAbortWaiting_x (s : State) : (s.latchAbortWaiting).x = s.x := rfl
@[simp] theorem State.latchAbortWaiting_y (s : State) : (s.latchAbortWaiting).y = s.y := rfl
@[simp] theorem State.latchAbortWaiting_sp (s : State) : (s.latchAbortWaiting).sp = s.sp := rfl
@[simp] theorem State.latchAbortWaiting_d (s : State) : (s.latchAbortWaiting).d = s.d := rfl
@[simp] theorem State.latchAbortWaiting_pc (s : State) : (s.latchAbortWaiting).pc = s.pc := rfl
@[simp] theorem State.latchAbortWaiting_dbr (s : State) : (s.latchAbortWaiting).dbr = s.dbr := rfl
@[simp] theorem State.latchAbortWaiting_pbr (s : State) : (s.latchAbortWaiting).pbr = s.pbr := rfl
@[simp] theorem State.latchAbortWaiting_p (s : State) : (s.latchAbortWaiting).p = s.p := rfl
@[simp] theorem State.latchAbortWaiting_e (s : State) : (s.latchAbortWaiting).e = s.e := rfl
@[simp] theorem State.latchAbortWaiting_run (s : State) : (s.latchAbortWaiting).run = s.run := rfl
@[simp] theorem State.latchAbortWaiting_nmiPending (s : State) : (s.latchAbortWaiting).nmiPending = s.nmiPending := rfl
@[simp] theorem State.latchAbortWaiting_irqLine (s : State) : (s.latchAbortWaiting).irqLine = s.irqLine := rfl
@[simp] theorem State.latchAbortWaiting_resetLine (s : State) : (s.latchAbortWaiting).resetLine = s.resetLine := rfl
@[simp] theorem State.latchAbortWaiting_rdyForcedHigh (s : State) : (s.latchAbortWaiting).rdyForcedHigh = s.rdyForcedHigh := rfl
@[simp] theorem State.latchAbortWaiting_mem (s : State) : (s.latchAbortWaiting).mem = s.mem := rfl
@[simp] theorem State.latchAbortWaiting_env (s : State) : (s.latchAbortWaiting).env = s.env := rfl
@[simp] theorem State.latchAbortWaiting_draws (s : State) : (s.latchAbortWaiting).draws = s.draws := rfl
@[simp] theorem State.latchAbortWaiting_answers (s : State) : (s.latchAbortWaiting).answers = s.answers := rfl
@[simp] theorem State.latchAbortWaiting_flag (s : State) (g : Flag) : (s.latchAbortWaiting).flag g = s.flag g := rfl
@[simp] theorem State.latchAbortWaiting_wA (s : State) : (s.latchAbortWaiting).wA = s.wA := rfl
@[simp] theorem State.latchAbortWaiting_wX (s : State) : (s.latchAbortWaiting).wX = s.wX := rfl
@[simp] theorem State.latchAbortWaiting_byteAt (s : State) (addr : Addr) : (s.latchAbortWaiting).byteAt addr = s.byteAt addr := rfl
@[simp] theorem State.latchAbortWaiting_read (s : State) (kind : ReadKind) (addr : Addr) : (s.latchAbortWaiting).read kind addr = s.read kind addr := by simp [State.read]

/-! ## woken -/

@[simp] theorem State.woken_c (input : PinInput) (s : State) : (s.woken input).c = s.c := by unfold State.woken; split <;> rfl
@[simp] theorem State.woken_x (input : PinInput) (s : State) : (s.woken input).x = s.x := by unfold State.woken; split <;> rfl
@[simp] theorem State.woken_y (input : PinInput) (s : State) : (s.woken input).y = s.y := by unfold State.woken; split <;> rfl
@[simp] theorem State.woken_sp (input : PinInput) (s : State) : (s.woken input).sp = s.sp := by unfold State.woken; split <;> rfl
@[simp] theorem State.woken_d (input : PinInput) (s : State) : (s.woken input).d = s.d := by unfold State.woken; split <;> rfl
@[simp] theorem State.woken_pc (input : PinInput) (s : State) : (s.woken input).pc = s.pc := by unfold State.woken; split <;> rfl
@[simp] theorem State.woken_dbr (input : PinInput) (s : State) : (s.woken input).dbr = s.dbr := by unfold State.woken; split <;> rfl
@[simp] theorem State.woken_pbr (input : PinInput) (s : State) : (s.woken input).pbr = s.pbr := by unfold State.woken; split <;> rfl
@[simp] theorem State.woken_p (input : PinInput) (s : State) : (s.woken input).p = s.p := by unfold State.woken; split <;> rfl
@[simp] theorem State.woken_e (input : PinInput) (s : State) : (s.woken input).e = s.e := by unfold State.woken; split <;> rfl
@[simp] theorem State.woken_irqLine (input : PinInput) (s : State) : (s.woken input).irqLine = s.irqLine := by unfold State.woken; split <;> rfl
@[simp] theorem State.woken_resetLine (input : PinInput) (s : State) : (s.woken input).resetLine = s.resetLine := by unfold State.woken; split <;> rfl
@[simp] theorem State.woken_rdyForcedHigh (input : PinInput) (s : State) : (s.woken input).rdyForcedHigh = s.rdyForcedHigh := by unfold State.woken; split <;> rfl
@[simp] theorem State.woken_mem (input : PinInput) (s : State) : (s.woken input).mem = s.mem := by unfold State.woken; split <;> rfl
@[simp] theorem State.woken_env (input : PinInput) (s : State) : (s.woken input).env = s.env := by unfold State.woken; split <;> rfl
@[simp] theorem State.woken_draws (input : PinInput) (s : State) : (s.woken input).draws = s.draws := by unfold State.woken; split <;> rfl
@[simp] theorem State.woken_answers (input : PinInput) (s : State) : (s.woken input).answers = s.answers := by unfold State.woken; split <;> rfl
@[simp] theorem State.woken_run (input : PinInput) (s : State) : (s.woken input).run = .running := by unfold State.woken; split <;> rfl
@[simp] theorem State.woken_nmiPending (input : PinInput) (s : State) : (s.woken input).nmiPending = (s.nmiPending || input.nmiEdge) := by unfold State.woken; split <;> rfl
@[simp] theorem State.woken_flag (input : PinInput) (s : State) (g : Flag) : (s.woken input).flag g = s.flag g := by simp [State.flag]
@[simp] theorem State.woken_wA (input : PinInput) (s : State) : (s.woken input).wA = s.wA := by simp [State.wA]
@[simp] theorem State.woken_wX (input : PinInput) (s : State) : (s.woken input).wX = s.wX := by simp [State.wX]
@[simp] theorem State.woken_byteAt (input : PinInput) (s : State) (addr : Addr) : (s.woken input).byteAt addr = s.byteAt addr := by simp [State.byteAt]
@[simp] theorem State.woken_read (input : PinInput) (s : State) (kind : ReadKind) (addr : Addr) : (s.woken input).read kind addr = s.read kind addr := by simp [State.read]

/-! ## cutByReset -/

@[simp] theorem State.cutByReset_c (input : PinInput) (s : State) : (s.cutByReset input).c = s.c := by unfold State.cutByReset; split <;> rfl
@[simp] theorem State.cutByReset_x (input : PinInput) (s : State) : (s.cutByReset input).x = s.x := by unfold State.cutByReset; split <;> rfl
@[simp] theorem State.cutByReset_y (input : PinInput) (s : State) : (s.cutByReset input).y = s.y := by unfold State.cutByReset; split <;> rfl
@[simp] theorem State.cutByReset_sp (input : PinInput) (s : State) : (s.cutByReset input).sp = s.sp := by unfold State.cutByReset; split <;> rfl
@[simp] theorem State.cutByReset_d (input : PinInput) (s : State) : (s.cutByReset input).d = s.d := by unfold State.cutByReset; split <;> rfl
@[simp] theorem State.cutByReset_dbr (input : PinInput) (s : State) : (s.cutByReset input).dbr = s.dbr := by unfold State.cutByReset; split <;> rfl
@[simp] theorem State.cutByReset_pbr (input : PinInput) (s : State) : (s.cutByReset input).pbr = s.pbr := by unfold State.cutByReset; split <;> rfl
@[simp] theorem State.cutByReset_p (input : PinInput) (s : State) : (s.cutByReset input).p = s.p := by unfold State.cutByReset; split <;> rfl
@[simp] theorem State.cutByReset_e (input : PinInput) (s : State) : (s.cutByReset input).e = s.e := by unfold State.cutByReset; split <;> rfl
@[simp] theorem State.cutByReset_run (input : PinInput) (s : State) : (s.cutByReset input).run = s.run := by unfold State.cutByReset; split <;> rfl
@[simp] theorem State.cutByReset_nmiPending (input : PinInput) (s : State) : (s.cutByReset input).nmiPending = s.nmiPending := by unfold State.cutByReset; split <;> rfl
@[simp] theorem State.cutByReset_abortPending (input : PinInput) (s : State) : (s.cutByReset input).abortPending = s.abortPending := by unfold State.cutByReset; split <;> rfl
@[simp] theorem State.cutByReset_irqLine (input : PinInput) (s : State) : (s.cutByReset input).irqLine = s.irqLine := by unfold State.cutByReset; split <;> rfl
@[simp] theorem State.cutByReset_resetLine (input : PinInput) (s : State) : (s.cutByReset input).resetLine = s.resetLine := by unfold State.cutByReset; split <;> rfl
@[simp] theorem State.cutByReset_rdyForcedHigh (input : PinInput) (s : State) : (s.cutByReset input).rdyForcedHigh = s.rdyForcedHigh := by unfold State.cutByReset; split <;> rfl
@[simp] theorem State.cutByReset_env (input : PinInput) (s : State) : (s.cutByReset input).env = s.env := by unfold State.cutByReset; split <;> rfl
@[simp] theorem State.cutByReset_draws (input : PinInput) (s : State) : (s.cutByReset input).draws = s.draws := by unfold State.cutByReset; split <;> rfl
@[simp] theorem State.cutByReset_answers (input : PinInput) (s : State) : (s.cutByReset input).answers = s.answers := by unfold State.cutByReset; split <;> rfl

/-! ## clearLatch -/

@[simp] theorem State.clearLatch_c (kind : InterruptKind) (s : State) : (s.clearLatch kind).c = s.c := by cases kind <;> rfl
@[simp] theorem State.clearLatch_x (kind : InterruptKind) (s : State) : (s.clearLatch kind).x = s.x := by cases kind <;> rfl
@[simp] theorem State.clearLatch_y (kind : InterruptKind) (s : State) : (s.clearLatch kind).y = s.y := by cases kind <;> rfl
@[simp] theorem State.clearLatch_sp (kind : InterruptKind) (s : State) : (s.clearLatch kind).sp = s.sp := by cases kind <;> rfl
@[simp] theorem State.clearLatch_d (kind : InterruptKind) (s : State) : (s.clearLatch kind).d = s.d := by cases kind <;> rfl
@[simp] theorem State.clearLatch_pc (kind : InterruptKind) (s : State) : (s.clearLatch kind).pc = s.pc := by cases kind <;> rfl
@[simp] theorem State.clearLatch_dbr (kind : InterruptKind) (s : State) : (s.clearLatch kind).dbr = s.dbr := by cases kind <;> rfl
@[simp] theorem State.clearLatch_pbr (kind : InterruptKind) (s : State) : (s.clearLatch kind).pbr = s.pbr := by cases kind <;> rfl
@[simp] theorem State.clearLatch_p (kind : InterruptKind) (s : State) : (s.clearLatch kind).p = s.p := by cases kind <;> rfl
@[simp] theorem State.clearLatch_e (kind : InterruptKind) (s : State) : (s.clearLatch kind).e = s.e := by cases kind <;> rfl
@[simp] theorem State.clearLatch_run (kind : InterruptKind) (s : State) : (s.clearLatch kind).run = s.run := by cases kind <;> rfl
@[simp] theorem State.clearLatch_irqLine (kind : InterruptKind) (s : State) : (s.clearLatch kind).irqLine = s.irqLine := by cases kind <;> rfl
@[simp] theorem State.clearLatch_resetLine (kind : InterruptKind) (s : State) : (s.clearLatch kind).resetLine = s.resetLine := by cases kind <;> rfl
@[simp] theorem State.clearLatch_rdyForcedHigh (kind : InterruptKind) (s : State) : (s.clearLatch kind).rdyForcedHigh = s.rdyForcedHigh := by cases kind <;> rfl
@[simp] theorem State.clearLatch_mem (kind : InterruptKind) (s : State) : (s.clearLatch kind).mem = s.mem := by cases kind <;> rfl
@[simp] theorem State.clearLatch_env (kind : InterruptKind) (s : State) : (s.clearLatch kind).env = s.env := by cases kind <;> rfl
@[simp] theorem State.clearLatch_draws (kind : InterruptKind) (s : State) : (s.clearLatch kind).draws = s.draws := by cases kind <;> rfl
@[simp] theorem State.clearLatch_answers (kind : InterruptKind) (s : State) : (s.clearLatch kind).answers = s.answers := by cases kind <;> rfl
@[simp] theorem State.clearLatch_flag (kind : InterruptKind) (s : State) (g : Flag) : (s.clearLatch kind).flag g = s.flag g := by simp [State.flag]
@[simp] theorem State.clearLatch_wA (kind : InterruptKind) (s : State) : (s.clearLatch kind).wA = s.wA := by simp [State.wA]
@[simp] theorem State.clearLatch_wX (kind : InterruptKind) (s : State) : (s.clearLatch kind).wX = s.wX := by simp [State.wX]
@[simp] theorem State.clearLatch_byteAt (kind : InterruptKind) (s : State) (addr : Addr) : (s.clearLatch kind).byteAt addr = s.byteAt addr := by simp [State.byteAt]
@[simp] theorem State.clearLatch_read (kind : InterruptKind) (s : State) (rk : ReadKind) (addr : Addr) : (s.clearLatch kind).read rk addr = s.read rk addr := by simp [State.read]

end Sys2Proof.Machine
end

