-- ==== Sys2Proof/Laws/Operands.lean ====
section
/-!
SUPPORT. Operands: what a write to an operand in memory does to every byte (both orders of the bytes do the same), and that
the value read from an operand is zero-extended from its width.
-/

namespace Sys2Proof.Machine

theorem addr_succ_ne (a : Addr) : a + 1 ≠ a := by
  intro h
  have hn := congrArg BitVec.toNat h
  simp only [BitVec.toNat_add] at hn
  have := a.isLt
  change (a.toNat + 1) % 2 ^ 24 = a.toNat at hn
  omega

theorem word_succ_ne (a : Word) : a + 1 ≠ a := by
  intro h
  have hn := congrArg BitVec.toNat h
  simp only [BitVec.toNat_add] at hn
  have := a.isLt
  change (a.toNat + 1) % 2 ^ 16 = a.toNat at hn
  omega

@[simp] theorem Loc.addrs_mem24_w8 (ea : Addr) : (Loc.mem24 ea).addrs .w8 = [ea] := by
  simp [Loc.addrs, Loc.byteAddr]

@[simp] theorem Loc.addrs_mem24_w16 (ea : Addr) : (Loc.mem24 ea).addrs .w16 = [ea, ea + 1] := by
  simp [Loc.addrs, Loc.byteAddr]

@[simp] theorem Loc.addrs_mem0_w8 (a : Word) : (Loc.mem0 a).addrs .w8 = [bank0 a] := by
  simp [Loc.addrs, Loc.byteAddr]

@[simp] theorem Loc.addrs_mem0_w16 (a : Word) : (Loc.mem0 a).addrs .w16 = [bank0 a, bank0 (a + 1)] := by
  simp [Loc.addrs, Loc.byteAddr]

/-- A location in memory. -/
def Loc.inMemory (loc : Loc) : Prop := (∃ ea, loc = .mem24 ea) ∨ ∃ a, loc = .mem0 a

/-- A store to memory: the bytes stored, and every other byte. -/
theorem Loc.write_bytes {loc : Loc} (h : loc.inMemory) (w : Width) (v : Word) (s : State) :
    (loc.addrs w).map (loc.write w v s).byteAt = w.bytesOf v ∧
      ∀ a, a ∉ loc.addrs w → (loc.write w v s).byteAt a = s.byteAt a := by
  obtain ⟨ea, rfl⟩ | ⟨ea, rfl⟩ := h <;> cases w
  all_goals
    simp only [Loc.write, Loc.addrs_mem24_w8, Loc.addrs_mem24_w16, Loc.addrs_mem0_w8, Loc.addrs_mem0_w16,
      List.map_cons, List.map_nil, List.mem_cons, List.not_mem_nil, or_false, not_or, State.byteAt_storeByte,
      Width.bytesOf, bank0_eq_iff]
    simp +contextual

/-- A store leaves C. -/
theorem Loc.write_c {loc : Loc} (h : loc.inMemory) (w : Width) (v : Word) (s : State) : (loc.write w v s).c = s.c := by
  obtain ⟨ea, rfl⟩ | ⟨ea, rfl⟩ := h <;> cases w <;> rfl

/-- A read-modify-write's write to memory does the same as a store (R78 (d) differs in order only). -/
theorem Loc.writeBack_bytes {loc : Loc} (h : loc.inMemory) (w : Width) (v : Word) (s : State) :
    (loc.addrs w).map (loc.writeBack w v s).byteAt = w.bytesOf v ∧
      ∀ a, a ∉ loc.addrs w → (loc.writeBack w v s).byteAt a = s.byteAt a := by
  obtain ⟨ea, rfl⟩ | ⟨ea, rfl⟩ := h <;> cases w
  all_goals
    simp only [Loc.writeBack, Loc.addrs_mem24_w8, Loc.addrs_mem24_w16, Loc.addrs_mem0_w8, Loc.addrs_mem0_w16,
      List.map_cons, List.map_nil, List.mem_cons, List.not_mem_nil, or_false, not_or, State.byteAt_storeByte,
      Width.bytesOf, bank0_eq_iff]
    simp +contextual

theorem Loc.writeBack_c {loc : Loc} (h : loc.inMemory) (w : Width) (v : Word) (s : State) :
    (loc.writeBack w v s).c = s.c := by
  obtain ⟨ea, rfl⟩ | ⟨ea, rfl⟩ := h <;> cases w <;> rfl

/-- What is read at a width is zero-extended from it. -/
theorem Loc.read_trunc (w : Width) (s : State) (loc : Loc) : w.trunc (loc.read w s) = loc.read w s := by
  cases loc <;> cases w <;> first | rfl | simp [Loc.read, State.getA]

theorem State.operandValue_trunc (s : State) (w : Width) (i : Instr) :
    w.trunc (s.operandValue w i) = s.operandValue w i := Loc.read_trunc w s _

theorem State.operandValue_lt (s : State) (w : Width) (i : Instr) : (s.operandValue w i).toNat < 2 ^ w.bits := by
  rw [← s.operandValue_trunc w i, Width.trunc_toNat]
  exact Nat.mod_lt _ (by cases w <;> decide)

/-! ## Registers written at a width -/

theorem Width.merge_wrote (w : Width) (old v : Word) : w.wrote old v (w.merge old v) := by
  cases w <;> simp [Width.wrote]

theorem Width.wrote_congr {w : Width} {old u v new : Word} (h : w.trunc u = w.trunc v) (hw : w.wrote old u new) :
    w.wrote old v new := by
  cases w
  · have hb := congrArg loByte h
    simp only [Width.loByte_trunc] at hb
    exact ⟨hw.1.trans hb, hw.2⟩
  · exact Eq.trans hw h

theorem Width.value_trunc (w : Width) (v : Word) : w.value (w.trunc v) = w.value v := by
  simp only [Width.value, Width.trunc_toNat, Nat.mod_mod]

theorem Width.value_merge (w : Width) (old v : Word) : w.value (w.merge old v) = w.value v := by
  cases w
  · simp only [Width.value, Width.bits, Width.merge_w8, append_toNat, loByte_toNat, hiByte_toNat]
    omega
  · rfl

/-- N and Z after setNZ. -/
theorem State.setNZ_nzOf (w : Width) (v : Word) (s : State) : w.nzOf v (State.setNZ w v s) := by
  refine ⟨?_, ?_⟩
  · rw [State.setNZ_n, Width.msb_iff]; rfl
  · rw [State.setNZ_z, Width.trunc_eq_zero_iff]; rfl

/-- N and Z depend on the value at the width only. -/
theorem Width.nzOf_congr {w : Width} {u v : Word} {t : State} (h : w.value u = w.value v) (hn : w.nzOf u t) :
    w.nzOf v t := by
  unfold Width.nzOf at *
  rw [← h]
  exact hn

/-- N and Z depend on P only. -/
theorem Width.nzOf_of_p {w : Width} {v : Word} {t u : State} (h : u.p = t.p) (hn : w.nzOf v t) : w.nzOf v u := by
  unfold Width.nzOf State.flag at *
  rw [h]
  exact hn

end Sys2Proof.Machine
end

