-- ==== Sys2Proof/Laws/PerInstr.lean ====
section
/-!
SUPPORT. The family EncodedLength, one lemma per constructor of Instr: the encoding starts with the opcode byte and has as
many bytes as the instruction is long, one to four (R110, R111).
-/

namespace Sys2Proof.Laws

/-- The encoding of an instruction starts with its opcode and has its length, which is 1 to 4 bytes. -/
def EncodedLength.Statement (i : Instr) : Prop :=
  (encode i).head? = some i.opcode ∧ (encode i).length = i.length ∧ 1 ≤ i.length ∧ i.length ≤ 4

/-- The part of the statement that depends on the operand bytes only. -/
theorem encodedLength_of (i : Instr) (h : i.operand.bytes.length ≤ 3) : EncodedLength.Statement i := by
  have e : (encode i).length = i.length := by simp only [encode, Instr.length, Operand.size, List.length_cons]; omega
  have l : i.length = 1 + i.operand.bytes.length := rfl
  exact ⟨rfl, e, by omega, by omega⟩

/-- Every operand has at most three bytes. -/
theorem operand_bytes_le (o : Operand) : o.bytes.length ≤ 3 := by
  cases o with
  | imm v => cases v <;> simp [Operand.bytes]
  | _ => simp [Operand.bytes]

theorem EncodedLength.brk (sig : Byte) : EncodedLength.Statement (.brk sig) := encodedLength_of _ (operand_bytes_le _)

theorem EncodedLength.oraDirXInd (off : Byte) : EncodedLength.Statement (.oraDirXInd off) := encodedLength_of _ (operand_bytes_le _)

theorem EncodedLength.cop (sig : Byte) : EncodedLength.Statement (.cop sig) := encodedLength_of _ (operand_bytes_le _)

theorem EncodedLength.oraStk (off : Byte) : EncodedLength.Statement (.oraStk off) := encodedLength_of _ (operand_bytes_le _)

theorem EncodedLength.tsbDir (off : Byte) : EncodedLength.Statement (.tsbDir off) := encodedLength_of _ (operand_bytes_le _)

theorem EncodedLength.oraDir (off : Byte) : EncodedLength.Statement (.oraDir off) := encodedLength_of _ (operand_bytes_le _)

theorem EncodedLength.aslDir (off : Byte) : EncodedLength.Statement (.aslDir off) := encodedLength_of _ (operand_bytes_le _)

theorem EncodedLength.oraDirIndLong (off : Byte) : EncodedLength.Statement (.oraDirIndLong off) := encodedLength_of _ (operand_bytes_le _)

theorem EncodedLength.php : EncodedLength.Statement .php := encodedLength_of _ (operand_bytes_le _)

theorem EncodedLength.oraImm (v : Imm) : EncodedLength.Statement (.oraImm v) := encodedLength_of _ (operand_bytes_le _)

theorem EncodedLength.aslAcc : EncodedLength.Statement .aslAcc := encodedLength_of _ (operand_bytes_le _)

theorem EncodedLength.phd : EncodedLength.Statement .phd := encodedLength_of _ (operand_bytes_le _)

theorem EncodedLength.tsbAbs (addr : Word) : EncodedLength.Statement (.tsbAbs addr) := encodedLength_of _ (operand_bytes_le _)

theorem EncodedLength.oraAbs (addr : Word) : EncodedLength.Statement (.oraAbs addr) := encodedLength_of _ (operand_bytes_le _)

theorem EncodedLength.aslAbs (addr : Word) : EncodedLength.Statement (.aslAbs addr) := encodedLength_of _ (operand_bytes_le _)

theorem EncodedLength.oraLong (addr : Addr) : EncodedLength.Statement (.oraLong addr) := encodedLength_of _ (operand_bytes_le _)

theorem EncodedLength.bpl (off : Byte) : EncodedLength.Statement (.bpl off) := encodedLength_of _ (operand_bytes_le _)

theorem EncodedLength.oraDirIndY (off : Byte) : EncodedLength.Statement (.oraDirIndY off) := encodedLength_of _ (operand_bytes_le _)

theorem EncodedLength.oraDirInd (off : Byte) : EncodedLength.Statement (.oraDirInd off) := encodedLength_of _ (operand_bytes_le _)

theorem EncodedLength.oraStkIndY (off : Byte) : EncodedLength.Statement (.oraStkIndY off) := encodedLength_of _ (operand_bytes_le _)

theorem EncodedLength.trbDir (off : Byte) : EncodedLength.Statement (.trbDir off) := encodedLength_of _ (operand_bytes_le _)

theorem EncodedLength.oraDirX (off : Byte) : EncodedLength.Statement (.oraDirX off) := encodedLength_of _ (operand_bytes_le _)

theorem EncodedLength.aslDirX (off : Byte) : EncodedLength.Statement (.aslDirX off) := encodedLength_of _ (operand_bytes_le _)

theorem EncodedLength.oraDirIndLongY (off : Byte) : EncodedLength.Statement (.oraDirIndLongY off) := encodedLength_of _ (operand_bytes_le _)

theorem EncodedLength.clc : EncodedLength.Statement .clc := encodedLength_of _ (operand_bytes_le _)

theorem EncodedLength.oraAbsY (addr : Word) : EncodedLength.Statement (.oraAbsY addr) := encodedLength_of _ (operand_bytes_le _)

theorem EncodedLength.incAcc : EncodedLength.Statement .incAcc := encodedLength_of _ (operand_bytes_le _)

theorem EncodedLength.tcs : EncodedLength.Statement .tcs := encodedLength_of _ (operand_bytes_le _)

theorem EncodedLength.trbAbs (addr : Word) : EncodedLength.Statement (.trbAbs addr) := encodedLength_of _ (operand_bytes_le _)

theorem EncodedLength.oraAbsX (addr : Word) : EncodedLength.Statement (.oraAbsX addr) := encodedLength_of _ (operand_bytes_le _)

theorem EncodedLength.aslAbsX (addr : Word) : EncodedLength.Statement (.aslAbsX addr) := encodedLength_of _ (operand_bytes_le _)

theorem EncodedLength.oraLongX (addr : Addr) : EncodedLength.Statement (.oraLongX addr) := encodedLength_of _ (operand_bytes_le _)

theorem EncodedLength.jsrAbs (addr : Word) : EncodedLength.Statement (.jsrAbs addr) := encodedLength_of _ (operand_bytes_le _)

theorem EncodedLength.andDirXInd (off : Byte) : EncodedLength.Statement (.andDirXInd off) := encodedLength_of _ (operand_bytes_le _)

theorem EncodedLength.jsl (addr : Addr) : EncodedLength.Statement (.jsl addr) := encodedLength_of _ (operand_bytes_le _)

theorem EncodedLength.andStk (off : Byte) : EncodedLength.Statement (.andStk off) := encodedLength_of _ (operand_bytes_le _)

theorem EncodedLength.bitDir (off : Byte) : EncodedLength.Statement (.bitDir off) := encodedLength_of _ (operand_bytes_le _)

theorem EncodedLength.andDir (off : Byte) : EncodedLength.Statement (.andDir off) := encodedLength_of _ (operand_bytes_le _)

theorem EncodedLength.rolDir (off : Byte) : EncodedLength.Statement (.rolDir off) := encodedLength_of _ (operand_bytes_le _)

theorem EncodedLength.andDirIndLong (off : Byte) : EncodedLength.Statement (.andDirIndLong off) := encodedLength_of _ (operand_bytes_le _)

theorem EncodedLength.plp : EncodedLength.Statement .plp := encodedLength_of _ (operand_bytes_le _)

theorem EncodedLength.andImm (v : Imm) : EncodedLength.Statement (.andImm v) := encodedLength_of _ (operand_bytes_le _)

theorem EncodedLength.rolAcc : EncodedLength.Statement .rolAcc := encodedLength_of _ (operand_bytes_le _)

theorem EncodedLength.pld : EncodedLength.Statement .pld := encodedLength_of _ (operand_bytes_le _)

theorem EncodedLength.bitAbs (addr : Word) : EncodedLength.Statement (.bitAbs addr) := encodedLength_of _ (operand_bytes_le _)

theorem EncodedLength.andAbs (addr : Word) : EncodedLength.Statement (.andAbs addr) := encodedLength_of _ (operand_bytes_le _)

theorem EncodedLength.rolAbs (addr : Word) : EncodedLength.Statement (.rolAbs addr) := encodedLength_of _ (operand_bytes_le _)

theorem EncodedLength.andLong (addr : Addr) : EncodedLength.Statement (.andLong addr) := encodedLength_of _ (operand_bytes_le _)

theorem EncodedLength.bmi (off : Byte) : EncodedLength.Statement (.bmi off) := encodedLength_of _ (operand_bytes_le _)

theorem EncodedLength.andDirIndY (off : Byte) : EncodedLength.Statement (.andDirIndY off) := encodedLength_of _ (operand_bytes_le _)

theorem EncodedLength.andDirInd (off : Byte) : EncodedLength.Statement (.andDirInd off) := encodedLength_of _ (operand_bytes_le _)

theorem EncodedLength.andStkIndY (off : Byte) : EncodedLength.Statement (.andStkIndY off) := encodedLength_of _ (operand_bytes_le _)

theorem EncodedLength.bitDirX (off : Byte) : EncodedLength.Statement (.bitDirX off) := encodedLength_of _ (operand_bytes_le _)

theorem EncodedLength.andDirX (off : Byte) : EncodedLength.Statement (.andDirX off) := encodedLength_of _ (operand_bytes_le _)

theorem EncodedLength.rolDirX (off : Byte) : EncodedLength.Statement (.rolDirX off) := encodedLength_of _ (operand_bytes_le _)

theorem EncodedLength.andDirIndLongY (off : Byte) : EncodedLength.Statement (.andDirIndLongY off) := encodedLength_of _ (operand_bytes_le _)

theorem EncodedLength.sec : EncodedLength.Statement .sec := encodedLength_of _ (operand_bytes_le _)

theorem EncodedLength.andAbsY (addr : Word) : EncodedLength.Statement (.andAbsY addr) := encodedLength_of _ (operand_bytes_le _)

theorem EncodedLength.decAcc : EncodedLength.Statement .decAcc := encodedLength_of _ (operand_bytes_le _)

theorem EncodedLength.tsc : EncodedLength.Statement .tsc := encodedLength_of _ (operand_bytes_le _)

theorem EncodedLength.bitAbsX (addr : Word) : EncodedLength.Statement (.bitAbsX addr) := encodedLength_of _ (operand_bytes_le _)

theorem EncodedLength.andAbsX (addr : Word) : EncodedLength.Statement (.andAbsX addr) := encodedLength_of _ (operand_bytes_le _)

theorem EncodedLength.rolAbsX (addr : Word) : EncodedLength.Statement (.rolAbsX addr) := encodedLength_of _ (operand_bytes_le _)

theorem EncodedLength.andLongX (addr : Addr) : EncodedLength.Statement (.andLongX addr) := encodedLength_of _ (operand_bytes_le _)

theorem EncodedLength.rti : EncodedLength.Statement .rti := encodedLength_of _ (operand_bytes_le _)

theorem EncodedLength.eorDirXInd (off : Byte) : EncodedLength.Statement (.eorDirXInd off) := encodedLength_of _ (operand_bytes_le _)

theorem EncodedLength.wdm (operand : Byte) : EncodedLength.Statement (.wdm operand) := encodedLength_of _ (operand_bytes_le _)

theorem EncodedLength.eorStk (off : Byte) : EncodedLength.Statement (.eorStk off) := encodedLength_of _ (operand_bytes_le _)

theorem EncodedLength.mvp (dst : Byte) (src : Byte) : EncodedLength.Statement (.mvp dst src) := encodedLength_of _ (operand_bytes_le _)

theorem EncodedLength.eorDir (off : Byte) : EncodedLength.Statement (.eorDir off) := encodedLength_of _ (operand_bytes_le _)

theorem EncodedLength.lsrDir (off : Byte) : EncodedLength.Statement (.lsrDir off) := encodedLength_of _ (operand_bytes_le _)

theorem EncodedLength.eorDirIndLong (off : Byte) : EncodedLength.Statement (.eorDirIndLong off) := encodedLength_of _ (operand_bytes_le _)

theorem EncodedLength.pha : EncodedLength.Statement .pha := encodedLength_of _ (operand_bytes_le _)

theorem EncodedLength.eorImm (v : Imm) : EncodedLength.Statement (.eorImm v) := encodedLength_of _ (operand_bytes_le _)

theorem EncodedLength.lsrAcc : EncodedLength.Statement .lsrAcc := encodedLength_of _ (operand_bytes_le _)

theorem EncodedLength.phk : EncodedLength.Statement .phk := encodedLength_of _ (operand_bytes_le _)

theorem EncodedLength.jmpAbs (addr : Word) : EncodedLength.Statement (.jmpAbs addr) := encodedLength_of _ (operand_bytes_le _)

theorem EncodedLength.eorAbs (addr : Word) : EncodedLength.Statement (.eorAbs addr) := encodedLength_of _ (operand_bytes_le _)

theorem EncodedLength.lsrAbs (addr : Word) : EncodedLength.Statement (.lsrAbs addr) := encodedLength_of _ (operand_bytes_le _)

theorem EncodedLength.eorLong (addr : Addr) : EncodedLength.Statement (.eorLong addr) := encodedLength_of _ (operand_bytes_le _)

theorem EncodedLength.bvc (off : Byte) : EncodedLength.Statement (.bvc off) := encodedLength_of _ (operand_bytes_le _)

theorem EncodedLength.eorDirIndY (off : Byte) : EncodedLength.Statement (.eorDirIndY off) := encodedLength_of _ (operand_bytes_le _)

theorem EncodedLength.eorDirInd (off : Byte) : EncodedLength.Statement (.eorDirInd off) := encodedLength_of _ (operand_bytes_le _)

theorem EncodedLength.eorStkIndY (off : Byte) : EncodedLength.Statement (.eorStkIndY off) := encodedLength_of _ (operand_bytes_le _)

theorem EncodedLength.mvn (dst : Byte) (src : Byte) : EncodedLength.Statement (.mvn dst src) := encodedLength_of _ (operand_bytes_le _)

theorem EncodedLength.eorDirX (off : Byte) : EncodedLength.Statement (.eorDirX off) := encodedLength_of _ (operand_bytes_le _)

theorem EncodedLength.lsrDirX (off : Byte) : EncodedLength.Statement (.lsrDirX off) := encodedLength_of _ (operand_bytes_le _)

theorem EncodedLength.eorDirIndLongY (off : Byte) : EncodedLength.Statement (.eorDirIndLongY off) := encodedLength_of _ (operand_bytes_le _)

theorem EncodedLength.cli : EncodedLength.Statement .cli := encodedLength_of _ (operand_bytes_le _)

theorem EncodedLength.eorAbsY (addr : Word) : EncodedLength.Statement (.eorAbsY addr) := encodedLength_of _ (operand_bytes_le _)

theorem EncodedLength.phy : EncodedLength.Statement .phy := encodedLength_of _ (operand_bytes_le _)

theorem EncodedLength.tcd : EncodedLength.Statement .tcd := encodedLength_of _ (operand_bytes_le _)

theorem EncodedLength.jmpLong (addr : Addr) : EncodedLength.Statement (.jmpLong addr) := encodedLength_of _ (operand_bytes_le _)

theorem EncodedLength.eorAbsX (addr : Word) : EncodedLength.Statement (.eorAbsX addr) := encodedLength_of _ (operand_bytes_le _)

theorem EncodedLength.lsrAbsX (addr : Word) : EncodedLength.Statement (.lsrAbsX addr) := encodedLength_of _ (operand_bytes_le _)

theorem EncodedLength.eorLongX (addr : Addr) : EncodedLength.Statement (.eorLongX addr) := encodedLength_of _ (operand_bytes_le _)

theorem EncodedLength.rts : EncodedLength.Statement .rts := encodedLength_of _ (operand_bytes_le _)

theorem EncodedLength.adcDirXInd (off : Byte) : EncodedLength.Statement (.adcDirXInd off) := encodedLength_of _ (operand_bytes_le _)

theorem EncodedLength.per (off : Word) : EncodedLength.Statement (.per off) := encodedLength_of _ (operand_bytes_le _)

theorem EncodedLength.adcStk (off : Byte) : EncodedLength.Statement (.adcStk off) := encodedLength_of _ (operand_bytes_le _)

theorem EncodedLength.stzDir (off : Byte) : EncodedLength.Statement (.stzDir off) := encodedLength_of _ (operand_bytes_le _)

theorem EncodedLength.adcDir (off : Byte) : EncodedLength.Statement (.adcDir off) := encodedLength_of _ (operand_bytes_le _)

theorem EncodedLength.rorDir (off : Byte) : EncodedLength.Statement (.rorDir off) := encodedLength_of _ (operand_bytes_le _)

theorem EncodedLength.adcDirIndLong (off : Byte) : EncodedLength.Statement (.adcDirIndLong off) := encodedLength_of _ (operand_bytes_le _)

theorem EncodedLength.pla : EncodedLength.Statement .pla := encodedLength_of _ (operand_bytes_le _)

theorem EncodedLength.adcImm (v : Imm) : EncodedLength.Statement (.adcImm v) := encodedLength_of _ (operand_bytes_le _)

theorem EncodedLength.rorAcc : EncodedLength.Statement .rorAcc := encodedLength_of _ (operand_bytes_le _)

theorem EncodedLength.rtl : EncodedLength.Statement .rtl := encodedLength_of _ (operand_bytes_le _)

theorem EncodedLength.jmpAbsInd (addr : Word) : EncodedLength.Statement (.jmpAbsInd addr) := encodedLength_of _ (operand_bytes_le _)

theorem EncodedLength.adcAbs (addr : Word) : EncodedLength.Statement (.adcAbs addr) := encodedLength_of _ (operand_bytes_le _)

theorem EncodedLength.rorAbs (addr : Word) : EncodedLength.Statement (.rorAbs addr) := encodedLength_of _ (operand_bytes_le _)

theorem EncodedLength.adcLong (addr : Addr) : EncodedLength.Statement (.adcLong addr) := encodedLength_of _ (operand_bytes_le _)

theorem EncodedLength.bvs (off : Byte) : EncodedLength.Statement (.bvs off) := encodedLength_of _ (operand_bytes_le _)

theorem EncodedLength.adcDirIndY (off : Byte) : EncodedLength.Statement (.adcDirIndY off) := encodedLength_of _ (operand_bytes_le _)

theorem EncodedLength.adcDirInd (off : Byte) : EncodedLength.Statement (.adcDirInd off) := encodedLength_of _ (operand_bytes_le _)

theorem EncodedLength.adcStkIndY (off : Byte) : EncodedLength.Statement (.adcStkIndY off) := encodedLength_of _ (operand_bytes_le _)

theorem EncodedLength.stzDirX (off : Byte) : EncodedLength.Statement (.stzDirX off) := encodedLength_of _ (operand_bytes_le _)

theorem EncodedLength.adcDirX (off : Byte) : EncodedLength.Statement (.adcDirX off) := encodedLength_of _ (operand_bytes_le _)

theorem EncodedLength.rorDirX (off : Byte) : EncodedLength.Statement (.rorDirX off) := encodedLength_of _ (operand_bytes_le _)

theorem EncodedLength.adcDirIndLongY (off : Byte) : EncodedLength.Statement (.adcDirIndLongY off) := encodedLength_of _ (operand_bytes_le _)

theorem EncodedLength.sei : EncodedLength.Statement .sei := encodedLength_of _ (operand_bytes_le _)

theorem EncodedLength.adcAbsY (addr : Word) : EncodedLength.Statement (.adcAbsY addr) := encodedLength_of _ (operand_bytes_le _)

theorem EncodedLength.ply : EncodedLength.Statement .ply := encodedLength_of _ (operand_bytes_le _)

theorem EncodedLength.tdc : EncodedLength.Statement .tdc := encodedLength_of _ (operand_bytes_le _)

theorem EncodedLength.jmpAbsXInd (addr : Word) : EncodedLength.Statement (.jmpAbsXInd addr) := encodedLength_of _ (operand_bytes_le _)

theorem EncodedLength.adcAbsX (addr : Word) : EncodedLength.Statement (.adcAbsX addr) := encodedLength_of _ (operand_bytes_le _)

theorem EncodedLength.rorAbsX (addr : Word) : EncodedLength.Statement (.rorAbsX addr) := encodedLength_of _ (operand_bytes_le _)

theorem EncodedLength.adcLongX (addr : Addr) : EncodedLength.Statement (.adcLongX addr) := encodedLength_of _ (operand_bytes_le _)

theorem EncodedLength.bra (off : Byte) : EncodedLength.Statement (.bra off) := encodedLength_of _ (operand_bytes_le _)

theorem EncodedLength.staDirXInd (off : Byte) : EncodedLength.Statement (.staDirXInd off) := encodedLength_of _ (operand_bytes_le _)

theorem EncodedLength.brl (off : Word) : EncodedLength.Statement (.brl off) := encodedLength_of _ (operand_bytes_le _)

theorem EncodedLength.staStk (off : Byte) : EncodedLength.Statement (.staStk off) := encodedLength_of _ (operand_bytes_le _)

theorem EncodedLength.styDir (off : Byte) : EncodedLength.Statement (.styDir off) := encodedLength_of _ (operand_bytes_le _)

theorem EncodedLength.staDir (off : Byte) : EncodedLength.Statement (.staDir off) := encodedLength_of _ (operand_bytes_le _)

theorem EncodedLength.stxDir (off : Byte) : EncodedLength.Statement (.stxDir off) := encodedLength_of _ (operand_bytes_le _)

theorem EncodedLength.staDirIndLong (off : Byte) : EncodedLength.Statement (.staDirIndLong off) := encodedLength_of _ (operand_bytes_le _)

theorem EncodedLength.dey : EncodedLength.Statement .dey := encodedLength_of _ (operand_bytes_le _)

theorem EncodedLength.bitImm (v : Imm) : EncodedLength.Statement (.bitImm v) := encodedLength_of _ (operand_bytes_le _)

theorem EncodedLength.txa : EncodedLength.Statement .txa := encodedLength_of _ (operand_bytes_le _)

theorem EncodedLength.phb : EncodedLength.Statement .phb := encodedLength_of _ (operand_bytes_le _)

theorem EncodedLength.styAbs (addr : Word) : EncodedLength.Statement (.styAbs addr) := encodedLength_of _ (operand_bytes_le _)

theorem EncodedLength.staAbs (addr : Word) : EncodedLength.Statement (.staAbs addr) := encodedLength_of _ (operand_bytes_le _)

theorem EncodedLength.stxAbs (addr : Word) : EncodedLength.Statement (.stxAbs addr) := encodedLength_of _ (operand_bytes_le _)

theorem EncodedLength.staLong (addr : Addr) : EncodedLength.Statement (.staLong addr) := encodedLength_of _ (operand_bytes_le _)

theorem EncodedLength.bcc (off : Byte) : EncodedLength.Statement (.bcc off) := encodedLength_of _ (operand_bytes_le _)

theorem EncodedLength.staDirIndY (off : Byte) : EncodedLength.Statement (.staDirIndY off) := encodedLength_of _ (operand_bytes_le _)

theorem EncodedLength.staDirInd (off : Byte) : EncodedLength.Statement (.staDirInd off) := encodedLength_of _ (operand_bytes_le _)

theorem EncodedLength.staStkIndY (off : Byte) : EncodedLength.Statement (.staStkIndY off) := encodedLength_of _ (operand_bytes_le _)

theorem EncodedLength.styDirX (off : Byte) : EncodedLength.Statement (.styDirX off) := encodedLength_of _ (operand_bytes_le _)

theorem EncodedLength.staDirX (off : Byte) : EncodedLength.Statement (.staDirX off) := encodedLength_of _ (operand_bytes_le _)

theorem EncodedLength.stxDirY (off : Byte) : EncodedLength.Statement (.stxDirY off) := encodedLength_of _ (operand_bytes_le _)

theorem EncodedLength.staDirIndLongY (off : Byte) : EncodedLength.Statement (.staDirIndLongY off) := encodedLength_of _ (operand_bytes_le _)

theorem EncodedLength.tya : EncodedLength.Statement .tya := encodedLength_of _ (operand_bytes_le _)

theorem EncodedLength.staAbsY (addr : Word) : EncodedLength.Statement (.staAbsY addr) := encodedLength_of _ (operand_bytes_le _)

theorem EncodedLength.txs : EncodedLength.Statement .txs := encodedLength_of _ (operand_bytes_le _)

theorem EncodedLength.txy : EncodedLength.Statement .txy := encodedLength_of _ (operand_bytes_le _)

theorem EncodedLength.stzAbs (addr : Word) : EncodedLength.Statement (.stzAbs addr) := encodedLength_of _ (operand_bytes_le _)

theorem EncodedLength.staAbsX (addr : Word) : EncodedLength.Statement (.staAbsX addr) := encodedLength_of _ (operand_bytes_le _)

theorem EncodedLength.stzAbsX (addr : Word) : EncodedLength.Statement (.stzAbsX addr) := encodedLength_of _ (operand_bytes_le _)

theorem EncodedLength.staLongX (addr : Addr) : EncodedLength.Statement (.staLongX addr) := encodedLength_of _ (operand_bytes_le _)

theorem EncodedLength.ldyImm (v : Imm) : EncodedLength.Statement (.ldyImm v) := encodedLength_of _ (operand_bytes_le _)

theorem EncodedLength.ldaDirXInd (off : Byte) : EncodedLength.Statement (.ldaDirXInd off) := encodedLength_of _ (operand_bytes_le _)

theorem EncodedLength.ldxImm (v : Imm) : EncodedLength.Statement (.ldxImm v) := encodedLength_of _ (operand_bytes_le _)

theorem EncodedLength.ldaStk (off : Byte) : EncodedLength.Statement (.ldaStk off) := encodedLength_of _ (operand_bytes_le _)

theorem EncodedLength.ldyDir (off : Byte) : EncodedLength.Statement (.ldyDir off) := encodedLength_of _ (operand_bytes_le _)

theorem EncodedLength.ldaDir (off : Byte) : EncodedLength.Statement (.ldaDir off) := encodedLength_of _ (operand_bytes_le _)

theorem EncodedLength.ldxDir (off : Byte) : EncodedLength.Statement (.ldxDir off) := encodedLength_of _ (operand_bytes_le _)

theorem EncodedLength.ldaDirIndLong (off : Byte) : EncodedLength.Statement (.ldaDirIndLong off) := encodedLength_of _ (operand_bytes_le _)

theorem EncodedLength.tay : EncodedLength.Statement .tay := encodedLength_of _ (operand_bytes_le _)

theorem EncodedLength.ldaImm (v : Imm) : EncodedLength.Statement (.ldaImm v) := encodedLength_of _ (operand_bytes_le _)

theorem EncodedLength.tax : EncodedLength.Statement .tax := encodedLength_of _ (operand_bytes_le _)

theorem EncodedLength.plb : EncodedLength.Statement .plb := encodedLength_of _ (operand_bytes_le _)

theorem EncodedLength.ldyAbs (addr : Word) : EncodedLength.Statement (.ldyAbs addr) := encodedLength_of _ (operand_bytes_le _)

theorem EncodedLength.ldaAbs (addr : Word) : EncodedLength.Statement (.ldaAbs addr) := encodedLength_of _ (operand_bytes_le _)

theorem EncodedLength.ldxAbs (addr : Word) : EncodedLength.Statement (.ldxAbs addr) := encodedLength_of _ (operand_bytes_le _)

theorem EncodedLength.ldaLong (addr : Addr) : EncodedLength.Statement (.ldaLong addr) := encodedLength_of _ (operand_bytes_le _)

theorem EncodedLength.bcs (off : Byte) : EncodedLength.Statement (.bcs off) := encodedLength_of _ (operand_bytes_le _)

theorem EncodedLength.ldaDirIndY (off : Byte) : EncodedLength.Statement (.ldaDirIndY off) := encodedLength_of _ (operand_bytes_le _)

theorem EncodedLength.ldaDirInd (off : Byte) : EncodedLength.Statement (.ldaDirInd off) := encodedLength_of _ (operand_bytes_le _)

theorem EncodedLength.ldaStkIndY (off : Byte) : EncodedLength.Statement (.ldaStkIndY off) := encodedLength_of _ (operand_bytes_le _)

theorem EncodedLength.ldyDirX (off : Byte) : EncodedLength.Statement (.ldyDirX off) := encodedLength_of _ (operand_bytes_le _)

theorem EncodedLength.ldaDirX (off : Byte) : EncodedLength.Statement (.ldaDirX off) := encodedLength_of _ (operand_bytes_le _)

theorem EncodedLength.ldxDirY (off : Byte) : EncodedLength.Statement (.ldxDirY off) := encodedLength_of _ (operand_bytes_le _)

theorem EncodedLength.ldaDirIndLongY (off : Byte) : EncodedLength.Statement (.ldaDirIndLongY off) := encodedLength_of _ (operand_bytes_le _)

theorem EncodedLength.clv : EncodedLength.Statement .clv := encodedLength_of _ (operand_bytes_le _)

theorem EncodedLength.ldaAbsY (addr : Word) : EncodedLength.Statement (.ldaAbsY addr) := encodedLength_of _ (operand_bytes_le _)

theorem EncodedLength.tsx : EncodedLength.Statement .tsx := encodedLength_of _ (operand_bytes_le _)

theorem EncodedLength.tyx : EncodedLength.Statement .tyx := encodedLength_of _ (operand_bytes_le _)

theorem EncodedLength.ldyAbsX (addr : Word) : EncodedLength.Statement (.ldyAbsX addr) := encodedLength_of _ (operand_bytes_le _)

theorem EncodedLength.ldaAbsX (addr : Word) : EncodedLength.Statement (.ldaAbsX addr) := encodedLength_of _ (operand_bytes_le _)

theorem EncodedLength.ldxAbsY (addr : Word) : EncodedLength.Statement (.ldxAbsY addr) := encodedLength_of _ (operand_bytes_le _)

theorem EncodedLength.ldaLongX (addr : Addr) : EncodedLength.Statement (.ldaLongX addr) := encodedLength_of _ (operand_bytes_le _)

theorem EncodedLength.cpyImm (v : Imm) : EncodedLength.Statement (.cpyImm v) := encodedLength_of _ (operand_bytes_le _)

theorem EncodedLength.cmpDirXInd (off : Byte) : EncodedLength.Statement (.cmpDirXInd off) := encodedLength_of _ (operand_bytes_le _)

theorem EncodedLength.rep (mask : Byte) : EncodedLength.Statement (.rep mask) := encodedLength_of _ (operand_bytes_le _)

theorem EncodedLength.cmpStk (off : Byte) : EncodedLength.Statement (.cmpStk off) := encodedLength_of _ (operand_bytes_le _)

theorem EncodedLength.cpyDir (off : Byte) : EncodedLength.Statement (.cpyDir off) := encodedLength_of _ (operand_bytes_le _)

theorem EncodedLength.cmpDir (off : Byte) : EncodedLength.Statement (.cmpDir off) := encodedLength_of _ (operand_bytes_le _)

theorem EncodedLength.decDir (off : Byte) : EncodedLength.Statement (.decDir off) := encodedLength_of _ (operand_bytes_le _)

theorem EncodedLength.cmpDirIndLong (off : Byte) : EncodedLength.Statement (.cmpDirIndLong off) := encodedLength_of _ (operand_bytes_le _)

theorem EncodedLength.iny : EncodedLength.Statement .iny := encodedLength_of _ (operand_bytes_le _)

theorem EncodedLength.cmpImm (v : Imm) : EncodedLength.Statement (.cmpImm v) := encodedLength_of _ (operand_bytes_le _)

theorem EncodedLength.dex : EncodedLength.Statement .dex := encodedLength_of _ (operand_bytes_le _)

theorem EncodedLength.wai : EncodedLength.Statement .wai := encodedLength_of _ (operand_bytes_le _)

theorem EncodedLength.cpyAbs (addr : Word) : EncodedLength.Statement (.cpyAbs addr) := encodedLength_of _ (operand_bytes_le _)

theorem EncodedLength.cmpAbs (addr : Word) : EncodedLength.Statement (.cmpAbs addr) := encodedLength_of _ (operand_bytes_le _)

theorem EncodedLength.decAbs (addr : Word) : EncodedLength.Statement (.decAbs addr) := encodedLength_of _ (operand_bytes_le _)

theorem EncodedLength.cmpLong (addr : Addr) : EncodedLength.Statement (.cmpLong addr) := encodedLength_of _ (operand_bytes_le _)

theorem EncodedLength.bne (off : Byte) : EncodedLength.Statement (.bne off) := encodedLength_of _ (operand_bytes_le _)

theorem EncodedLength.cmpDirIndY (off : Byte) : EncodedLength.Statement (.cmpDirIndY off) := encodedLength_of _ (operand_bytes_le _)

theorem EncodedLength.cmpDirInd (off : Byte) : EncodedLength.Statement (.cmpDirInd off) := encodedLength_of _ (operand_bytes_le _)

theorem EncodedLength.cmpStkIndY (off : Byte) : EncodedLength.Statement (.cmpStkIndY off) := encodedLength_of _ (operand_bytes_le _)

theorem EncodedLength.pei (off : Byte) : EncodedLength.Statement (.pei off) := encodedLength_of _ (operand_bytes_le _)

theorem EncodedLength.cmpDirX (off : Byte) : EncodedLength.Statement (.cmpDirX off) := encodedLength_of _ (operand_bytes_le _)

theorem EncodedLength.decDirX (off : Byte) : EncodedLength.Statement (.decDirX off) := encodedLength_of _ (operand_bytes_le _)

theorem EncodedLength.cmpDirIndLongY (off : Byte) : EncodedLength.Statement (.cmpDirIndLongY off) := encodedLength_of _ (operand_bytes_le _)

theorem EncodedLength.cld : EncodedLength.Statement .cld := encodedLength_of _ (operand_bytes_le _)

theorem EncodedLength.cmpAbsY (addr : Word) : EncodedLength.Statement (.cmpAbsY addr) := encodedLength_of _ (operand_bytes_le _)

theorem EncodedLength.phx : EncodedLength.Statement .phx := encodedLength_of _ (operand_bytes_le _)

theorem EncodedLength.stp : EncodedLength.Statement .stp := encodedLength_of _ (operand_bytes_le _)

theorem EncodedLength.jml (addr : Word) : EncodedLength.Statement (.jml addr) := encodedLength_of _ (operand_bytes_le _)

theorem EncodedLength.cmpAbsX (addr : Word) : EncodedLength.Statement (.cmpAbsX addr) := encodedLength_of _ (operand_bytes_le _)

theorem EncodedLength.decAbsX (addr : Word) : EncodedLength.Statement (.decAbsX addr) := encodedLength_of _ (operand_bytes_le _)

theorem EncodedLength.cmpLongX (addr : Addr) : EncodedLength.Statement (.cmpLongX addr) := encodedLength_of _ (operand_bytes_le _)

theorem EncodedLength.cpxImm (v : Imm) : EncodedLength.Statement (.cpxImm v) := encodedLength_of _ (operand_bytes_le _)

theorem EncodedLength.sbcDirXInd (off : Byte) : EncodedLength.Statement (.sbcDirXInd off) := encodedLength_of _ (operand_bytes_le _)

theorem EncodedLength.sep (mask : Byte) : EncodedLength.Statement (.sep mask) := encodedLength_of _ (operand_bytes_le _)

theorem EncodedLength.sbcStk (off : Byte) : EncodedLength.Statement (.sbcStk off) := encodedLength_of _ (operand_bytes_le _)

theorem EncodedLength.cpxDir (off : Byte) : EncodedLength.Statement (.cpxDir off) := encodedLength_of _ (operand_bytes_le _)

theorem EncodedLength.sbcDir (off : Byte) : EncodedLength.Statement (.sbcDir off) := encodedLength_of _ (operand_bytes_le _)

theorem EncodedLength.incDir (off : Byte) : EncodedLength.Statement (.incDir off) := encodedLength_of _ (operand_bytes_le _)

theorem EncodedLength.sbcDirIndLong (off : Byte) : EncodedLength.Statement (.sbcDirIndLong off) := encodedLength_of _ (operand_bytes_le _)

theorem EncodedLength.inx : EncodedLength.Statement .inx := encodedLength_of _ (operand_bytes_le _)

theorem EncodedLength.sbcImm (v : Imm) : EncodedLength.Statement (.sbcImm v) := encodedLength_of _ (operand_bytes_le _)

theorem EncodedLength.nop : EncodedLength.Statement .nop := encodedLength_of _ (operand_bytes_le _)

theorem EncodedLength.xba : EncodedLength.Statement .xba := encodedLength_of _ (operand_bytes_le _)

theorem EncodedLength.cpxAbs (addr : Word) : EncodedLength.Statement (.cpxAbs addr) := encodedLength_of _ (operand_bytes_le _)

theorem EncodedLength.sbcAbs (addr : Word) : EncodedLength.Statement (.sbcAbs addr) := encodedLength_of _ (operand_bytes_le _)

theorem EncodedLength.incAbs (addr : Word) : EncodedLength.Statement (.incAbs addr) := encodedLength_of _ (operand_bytes_le _)

theorem EncodedLength.sbcLong (addr : Addr) : EncodedLength.Statement (.sbcLong addr) := encodedLength_of _ (operand_bytes_le _)

theorem EncodedLength.beq (off : Byte) : EncodedLength.Statement (.beq off) := encodedLength_of _ (operand_bytes_le _)

theorem EncodedLength.sbcDirIndY (off : Byte) : EncodedLength.Statement (.sbcDirIndY off) := encodedLength_of _ (operand_bytes_le _)

theorem EncodedLength.sbcDirInd (off : Byte) : EncodedLength.Statement (.sbcDirInd off) := encodedLength_of _ (operand_bytes_le _)

theorem EncodedLength.sbcStkIndY (off : Byte) : EncodedLength.Statement (.sbcStkIndY off) := encodedLength_of _ (operand_bytes_le _)

theorem EncodedLength.pea (v : Word) : EncodedLength.Statement (.pea v) := encodedLength_of _ (operand_bytes_le _)

theorem EncodedLength.sbcDirX (off : Byte) : EncodedLength.Statement (.sbcDirX off) := encodedLength_of _ (operand_bytes_le _)

theorem EncodedLength.incDirX (off : Byte) : EncodedLength.Statement (.incDirX off) := encodedLength_of _ (operand_bytes_le _)

theorem EncodedLength.sbcDirIndLongY (off : Byte) : EncodedLength.Statement (.sbcDirIndLongY off) := encodedLength_of _ (operand_bytes_le _)

theorem EncodedLength.sed : EncodedLength.Statement .sed := encodedLength_of _ (operand_bytes_le _)

theorem EncodedLength.sbcAbsY (addr : Word) : EncodedLength.Statement (.sbcAbsY addr) := encodedLength_of _ (operand_bytes_le _)

theorem EncodedLength.plx : EncodedLength.Statement .plx := encodedLength_of _ (operand_bytes_le _)

theorem EncodedLength.xce : EncodedLength.Statement .xce := encodedLength_of _ (operand_bytes_le _)

theorem EncodedLength.jsrAbsXInd (addr : Word) : EncodedLength.Statement (.jsrAbsXInd addr) := encodedLength_of _ (operand_bytes_le _)

theorem EncodedLength.sbcAbsX (addr : Word) : EncodedLength.Statement (.sbcAbsX addr) := encodedLength_of _ (operand_bytes_le _)

theorem EncodedLength.incAbsX (addr : Word) : EncodedLength.Statement (.incAbsX addr) := encodedLength_of _ (operand_bytes_le _)

theorem EncodedLength.sbcLongX (addr : Addr) : EncodedLength.Statement (.sbcLongX addr) := encodedLength_of _ (operand_bytes_le _)

end Sys2Proof.Laws
end

