-- ==== Sys2Proof/Laws/Stack.lean ====
section
/-!
SUPPORT. The stack: where S and the bytes are after pushes and pulls, in terms of State.slotDown and State.slotUp; and what an
interrupt sequence does, once (State.interrupt_entered).
-/

namespace Sys2Proof.Machine

/-! ## Slots -/

@[simp] theorem State.slotDown_zero (s : State) : s.slotDown 0 = s.sp := by
  unfold State.slotDown
  split <;> simp

theorem byte_sub_add (b : Byte) (j k : Nat) :
    b - BitVec.ofNat 8 j - BitVec.ofNat 8 k = b - BitVec.ofNat 8 (j + k) := by
  rw [BitVec.ofNat_add]
  exact BitVec.sub_sub b _ _

theorem word_sub_add (b : Word) (j k : Nat) :
    b - BitVec.ofNat 16 j - BitVec.ofNat 16 k = b - BitVec.ofNat 16 (j + k) := by
  rw [BitVec.ofNat_add]
  exact BitVec.sub_sub b _ _

/-- `k` slots below a state whose S is `j` slots below `s`. -/
theorem State.slotDown_of {s t : State} {j : Nat} (he : t.e = s.e) (hs : t.sp = s.slotDown j) (k : Nat) :
    t.slotDown k = s.slotDown (j + k) := by
  unfold State.slotDown at *
  rw [he, hs]
  cases s.e
  · simp [word_sub_add]
  · simp [byte_sub_add]

/-- `k` slots above a state whose S is `j` slots above `s`. -/
theorem State.slotUp_of {s t : State} {j : Nat} (he : t.e = s.e) (hs : t.sp = s.slotUp j) (k : Nat) :
    t.slotUp k = s.slotUp (j + k) := by
  unfold State.slotUp at *
  rw [he, hs]
  cases s.e
  · simp [BitVec.ofNat_add, BitVec.add_assoc]
  · simp [BitVec.ofNat_add, BitVec.add_assoc]

/-- Going up from a state whose S is `j` slots below `s`. -/
theorem State.slotUp_slotDown {s t : State} {j k : Nat} (he : t.e = s.e) (hs : t.sp = s.slotDown j) (hk : k ≤ j) :
    t.slotUp k = s.slotDown (j - k) := by
  obtain ⟨i, rfl⟩ := Nat.exists_eq_add_of_le hk
  unfold State.slotDown at *
  unfold State.slotUp
  rw [he, hs]
  cases s.e
  · simp only [Bool.false_eq_true, if_false, Nat.add_sub_cancel_left]
    rw [Nat.add_comm k i, ← word_sub_add]
    exact BitVec.sub_add_cancel _ _
  · simp only [if_true, Nat.add_sub_cancel_left, hiByte_append, loByte_append]
    rw [Nat.add_comm k i, ← byte_sub_add, BitVec.sub_add_cancel]

/-- Slots at distances that differ by less than a page are different. -/
theorem State.slotDown_ne (s : State) {j k : Nat} (h : j < k) (hk : k < 256) : s.slotDown j ≠ s.slotDown k := by
  intro heq
  unfold State.slotDown at heq
  cases he : s.e
  · simp only [he, Bool.false_eq_true, if_false] at heq
    have hn := congrArg BitVec.toNat heq
    simp only [BitVec.toNat_sub, BitVec.toNat_ofNat] at hn
    have := s.sp.isLt
    omega
  · simp only [he, if_true] at heq
    have hb := congrArg loByte heq
    simp only [loByte_append] at hb
    have hn := congrArg BitVec.toNat hb
    simp only [BitVec.toNat_sub, BitVec.toNat_ofNat] at hn
    have := (loByte s.sp).isLt
    omega

/-! ## Ordinary pushes -/

theorem State.spDown_eq (s : State) : s.spDown = s.slotDown 1 := rfl

theorem State.spUp_eq (s : State) : s.spUp = s.slotUp 1 := rfl

@[simp] theorem State.push8_sp (v : Byte) (s : State) : (s.push8 v).sp = s.slotDown 1 := rfl

theorem State.push8_slotDown (v : Byte) (s : State) (k : Nat) : (s.push8 v).slotDown k = s.slotDown (1 + k) :=
  State.slotDown_of (s.push8_e v) (s.push8_sp v) k

theorem State.push8_byteAt (v : Byte) (s : State) (a : Addr) :
    (s.push8 v).byteAt a = if a = bank0 s.sp then v else s.byteAt a :=
  State.byteAt_storeByte s (bank0 s.sp) a v

@[simp] theorem State.push16_sp (v : Word) (s : State) : (s.push16 v).sp = s.slotDown 2 := by
  show ((s.push8 (hiByte v)).push8 (loByte v)).sp = _
  rw [State.push8_sp, State.push8_slotDown]

theorem State.push16_slotDown (v : Word) (s : State) (k : Nat) : (s.push16 v).slotDown k = s.slotDown (2 + k) :=
  State.slotDown_of (s.push16_e v) (s.push16_sp v) k

theorem State.push16_byteAt (v : Word) (s : State) (a : Addr) :
    (s.push16 v).byteAt a =
      if a = bank0 (s.slotDown 1) then loByte v else if a = bank0 s.sp then hiByte v else s.byteAt a := by
  show ((s.push8 (hiByte v)).push8 (loByte v)).byteAt a = _
  rw [State.push8_byteAt, State.push8_byteAt, State.push8_sp]

/-! ## Wide pushes -/

@[simp] theorem State.push8w_sp (v : Byte) (s : State) : (s.push8w v).sp = s.sp - 1 := rfl

theorem State.push8w_byteAt (v : Byte) (s : State) (a : Addr) :
    (s.push8w v).byteAt a = if a = bank0 s.sp then v else s.byteAt a :=
  State.byteAt_storeByte s (bank0 s.sp) a v

@[simp] theorem State.push16w_sp (v : Word) (s : State) : (s.push16w v).sp = s.sp - 2 := by
  show s.sp - 1 - 1 = s.sp - 2
  exact word_sub_add s.sp 1 1

theorem State.push16w_byteAt (v : Word) (s : State) (a : Addr) :
    (s.push16w v).byteAt a =
      if a = bank0 (s.sp - 1) then loByte v else if a = bank0 s.sp then hiByte v else s.byteAt a := by
  show ((s.push8w (hiByte v)).push8w (loByte v)).byteAt a = _
  rw [State.push8w_byteAt, State.push8w_byteAt, State.push8w_sp]

/-! ## Pulls -/

@[simp] theorem State.pull8_fst (s : State) : s.pull8.1 = s.read .data (bank0 (s.slotUp 1)) := rfl

@[simp] theorem State.pull8_sp (s : State) : s.pull8.2.sp = s.slotUp 1 := rfl

theorem State.pull8_slotUp (s : State) (k : Nat) : s.pull8.2.slotUp k = s.slotUp (1 + k) :=
  State.slotUp_of s.pull8_e s.pull8_sp k

@[simp] theorem State.pull16_fst (s : State) :
    s.pull16.1 = wordOfBytes (s.read .data (bank0 (s.slotUp 1))) (s.read .data (bank0 (s.slotUp 2))) := by
  show wordOfBytes s.pull8.1 s.pull8.2.pull8.1 = _
  rw [State.pull8_fst, State.pull8_fst, State.pull8_slotUp, State.pull8_read]

@[simp] theorem State.pull16_sp (s : State) : s.pull16.2.sp = s.slotUp 2 := by
  show s.pull8.2.pull8.2.sp = _
  rw [State.pull8_sp, State.pull8_slotUp]

theorem State.pull16_slotUp (s : State) (k : Nat) : s.pull16.2.slotUp k = s.slotUp (2 + k) :=
  State.slotUp_of s.pull16_e s.pull16_sp k

@[simp] theorem State.restoreSH_sp (s : State) : s.restoreSH.sp = s.wideEnd s.sp := by
  unfold State.restoreSH State.wideEnd
  split <;> rfl

/-! ## The interrupt frame -/

theorem State.pushFrame_eq (kind : InterruptKind) (bank : Byte) (ret : Word) (s : State) :
    s.pushFrame kind bank ret = ((if s.e then s else s.push8 bank).push16 ret).push8 (kind.pImage s.e s.p) := rfl

/-- A flag after an interrupt sequence. -/
theorem State.interrupt_flag (kind : InterruptKind) (bank : Byte) (ret : Word) (s : State) (f : Flag) :
    (s.interrupt kind bank ret).flag f = if f = .d then false else if f = .i then true else s.flag f := by
  show flagOf f (withFlag .d false (withFlag .i true (s.pushFrame kind bank ret).p)) = _
  rw [flagOf_withFlag, flagOf_withFlag, State.pushFrame_p]
  rfl

/-- The bytes and S after the frame is pushed, by mode. -/
theorem State.pushFrame_native (kind : InterruptKind) (bank : Byte) (ret : Word) (s : State) (he : s.e = false) :
    (s.pushFrame kind bank ret).sp = s.slotDown 4 ∧ ∀ a, (s.pushFrame kind bank ret).byteAt a =
      if a = bank0 (s.slotDown 3) then kind.pImage false s.p
      else if a = bank0 (s.slotDown 2) then loByte ret
      else if a = bank0 (s.slotDown 1) then hiByte ret
      else if a = bank0 s.sp then bank else s.byteAt a := by
  have hf : s.pushFrame kind bank ret = ((s.push8 bank).push16 ret).push8 (kind.pImage false s.p) := by
    rw [State.pushFrame_eq, he]; rfl
  constructor
  · rw [hf, State.push8_sp, State.push16_slotDown, State.push8_slotDown]
  · intro a
    rw [hf, State.push8_byteAt, State.push16_byteAt, State.push8_byteAt, State.push16_sp,
      State.push8_slotDown, State.push8_slotDown, State.push8_sp]

theorem State.pushFrame_emulation (kind : InterruptKind) (bank : Byte) (ret : Word) (s : State) (he : s.e = true) :
    (s.pushFrame kind bank ret).sp = s.slotDown 3 ∧ ∀ a, (s.pushFrame kind bank ret).byteAt a =
      if a = bank0 (s.slotDown 2) then kind.pImage true s.p
      else if a = bank0 (s.slotDown 1) then loByte ret
      else if a = bank0 s.sp then hiByte ret else s.byteAt a := by
  have hf : s.pushFrame kind bank ret = (s.push16 ret).push8 (kind.pImage true s.p) := by
    rw [State.pushFrame_eq, he]; rfl
  constructor
  · rw [hf, State.push8_sp, State.push16_slotDown]
  · intro a
    rw [hf, State.push8_byteAt, State.push16_byteAt, State.push16_sp]

/-- PC after an interrupt sequence is the vector's contents, read after the pushes (R457). -/
theorem State.interrupt_pc (kind : InterruptKind) (bank : Byte) (ret : Word) (s : State) :
    (s.interrupt kind bank ret).pc =
      wordOfBytes ((s.interrupt kind bank ret).read .vector (bank0 (kind.vector s.e)))
        ((s.interrupt kind bank ret).read .vector (bank0 (kind.vector s.e + 1))) := rfl

/-- What an interrupt sequence does (R450), for every kind, return address and state. -/
theorem State.interrupt_entered (kind : InterruptKind) (bank : Byte) (ret : Word) (s : State) :
    Entered kind bank ret s (s.interrupt kind bank ret) := by
  have h01 := s.slotDown_ne (j := 0) (k := 1) (by omega) (by omega)
  have h02 := s.slotDown_ne (j := 0) (k := 2) (by omega) (by omega)
  have h03 := s.slotDown_ne (j := 0) (k := 3) (by omega) (by omega)
  have h12 := s.slotDown_ne (j := 1) (k := 2) (by omega) (by omega)
  have h13 := s.slotDown_ne (j := 1) (k := 3) (by omega) (by omega)
  have h23 := s.slotDown_ne (j := 2) (k := 3) (by omega) (by omega)
  rw [State.slotDown_zero] at h01 h02 h03
  have bytes : ∀ a, (s.interrupt kind bank ret).byteAt a = (s.pushFrame kind bank ret).byteAt a := fun a => rfl
  have sp : (s.interrupt kind bank ret).sp = (s.pushFrame kind bank ret).sp := rfl
  have reg : ∀ r, r ∉ [Reg.sp, .pc, .pbr] →
      State.reg { s.interrupt kind bank ret with run := s.run } r = s.reg r := by
    intro r hr
    cases r <;> first | (simp at hr; done) | simp [State.reg]
  have flag : ∀ f, f ∉ [Flag.i, .d] → (s.interrupt kind bank ret).flag f = s.flag f := by
    intro f hf
    rw [State.interrupt_flag]
    cases f <;> first | rfl | simp at hf
  have pc := State.interrupt_pc kind bank ret s
  cases he : s.e
  · obtain ⟨hsp, hb⟩ := State.pushFrame_native kind bank ret s he
    have hp : s.pushed s.frameSize =
        [bank0 s.sp, bank0 (s.slotDown 1), bank0 (s.slotDown 2), bank0 (s.slotDown 3)] := by
      simp [State.pushed, State.frameSize, he, List.range, List.range.loop]
    refine ⟨?_, ?_, by simp [State.interrupt_flag], by simp [State.interrupt_flag], rfl, ?_, rfl, ?_⟩
    · rw [hp]
      simp [he, bytes, hb, h01, h02, h03, h12, h13, h23]
    · rw [sp, hsp, State.frameSize, he]; rfl
    · exact pc
    · refine ⟨reg, flag, ?_, ?_, rfl, ?_, ?_, ?_, ?_, ?_, ?_, ?_, ?_⟩
      · intro a ha
        rw [hp] at ha
        simp only [List.mem_cons, List.not_mem_nil, or_false, not_or] at ha
        show (s.interrupt kind bank ret).byteAt a = _
        rw [bytes, hb, if_neg ha.2.2.2, if_neg ha.2.2.1, if_neg ha.2.1, if_neg ha.1]
      all_goals simp
  · obtain ⟨hsp, hb⟩ := State.pushFrame_emulation kind bank ret s he
    have hp : s.pushed s.frameSize = [bank0 s.sp, bank0 (s.slotDown 1), bank0 (s.slotDown 2)] := by
      simp [State.pushed, State.frameSize, he, List.range, List.range.loop]
    refine ⟨?_, ?_, by simp [State.interrupt_flag], by simp [State.interrupt_flag], rfl, ?_, rfl, ?_⟩
    · rw [hp]
      simp [he, bytes, hb, h01, h02, h12]
    · rw [sp, hsp, State.frameSize, he]; rfl
    · exact pc
    · refine ⟨reg, flag, ?_, ?_, rfl, ?_, ?_, ?_, ?_, ?_, ?_, ?_, ?_⟩
      · intro a ha
        rw [hp] at ha
        simp only [List.mem_cons, List.not_mem_nil, or_false, not_or] at ha
        show (s.interrupt kind bank ret).byteAt a = _
        rw [bytes, hb, if_neg ha.2.2, if_neg ha.2.1, if_neg ha.1]
      all_goals simp

end Sys2Proof.Machine
end

