-- ==== Sys2Proof/Laws/Step.lean ====
section
/-!
SUPPORT. What one step can do, said once: the boundary by RESB and run state (R441, R500 to R503), the sequence that is due
(R442), and what the fetched bytes decode to (R114).
-/

namespace Sys2Proof.Machine

/-! ## The boundary -/

theorem boundary_low {input : PinInput} (h : input.resb = .low) (s : State) :
    boundary input s = .settle s.resetConditioning := by
  unfold boundary
  rw [h]

theorem boundary_lowMid {input : PinInput} (h : input.resb = .lowMidInstruction) (s : State) :
    boundary input s = .settle (s.cutByReset input).resetConditioning := by
  unfold boundary
  rw [h]

theorem boundary_release {input : PinInput} (h : input.resb = .high) {s : State} (hl : s.resetLine = true) :
    boundary input s = releaseBoundary input.abort s := by
  unfold boundary
  rw [h]
  simp only [hl, if_true]

theorem boundary_running {input : PinInput} (h : input.resb = .high) {s : State} (hl : s.resetLine = false)
    (hr : s.run = .running) : boundary input s = recognise input.abort (s.latchNmi input.nmiEdge) := by
  unfold boundary
  simp only [h, hl, hr, Bool.false_eq_true, if_false]

theorem boundary_waiting {input : PinInput} (h : input.resb = .high) {s : State} (hl : s.resetLine = false)
    (hr : s.run = .waiting) : boundary input s = waitBoundary input s := by
  unfold boundary
  simp only [h, hl, hr, Bool.false_eq_true, if_false]

theorem boundary_stopped {input : PinInput} (h : input.resb = .high) {s : State} (hl : s.resetLine = false)
    (hr : s.run = .stopped) : boundary input s = .settle s := by
  unfold boundary
  simp only [h, hl, hr, Bool.false_eq_true, if_false]

/-- A wait that ends in this step. -/
theorem waitBoundary_wakes {input : PinInput} {s : State} (h : (s.latchNmi input.nmiEdge).wakes = true) :
    waitBoundary input s = recognise input.abort.afterWait (s.woken input) := by
  unfold waitBoundary
  simp only [h, if_true]

/-- A wait that goes on. -/
theorem waitBoundary_waits {input : PinInput} {s : State} (h : (s.latchNmi input.nmiEdge).wakes = false) :
    waitBoundary input s =
      if input.abort = .outsideWindow then .refuse .abortOutsideWindow
      else .settle (if input.abort = .none then s.latchNmi input.nmiEdge else (s.latchNmi input.nmiEdge).latchAbortWaiting) := by
  unfold waitBoundary
  simp only [h, Bool.false_eq_true, if_false]
  cases input.abort <;> rfl

/-! ## A reset in mid-instruction -/

/-- Where nothing begins, nothing is cut. -/
theorem State.cutByReset_none {input : PinInput} {s : State} (h : s.begun input = none) : s.cutByReset input = s := by
  unfold State.cutByReset
  rw [h]

/-- Of what begins in `t`, the writes are done or not and PC is the old or the new one. -/
theorem State.cutByReset_some {input : PinInput} {s t : State} (h : s.begun input = some t) :
    (s.cutByReset input).mem = replayCut (Config.cutWriteDone s.draws) 0 t.dueCycles s.mem ∧
    ((s.cutByReset input).pc = s.pc ∨ (s.cutByReset input).pc = t.duePc) := by
  unfold State.cutByReset
  rw [h]
  refine ⟨rfl, ?_⟩
  simp only
  split
  · exact .inr rfl
  · exact .inl rfl

/-! ## The step from the boundary -/

theorem step_of_settle {s t : State} (h : boundary s.input s.sampled = .settle t) : step s = .next t := by
  unfold step
  rw [h]

theorem step_of_refuse {s : State} {r : Refusal} (h : boundary s.input s.sampled = .refuse r) : step s = .refused r := by
  unfold step
  rw [h]

theorem step_of_execute {s t : State} (h : boundary s.input s.sampled = .execute t) : step s = exec t.fetch t := by
  unfold step
  rw [h]

theorem step_of_executeAborted {s t : State} (h : boundary s.input s.sampled = .executeAborted t) :
    step s = abortedResult t.fetch t (exec t.fetch t) := by
  unfold step
  rw [h]

/-! ## What is due (R442) -/

theorem nextSequence_abort {s : State} {a : Addr} (h : s.abortPending = some a) :
    s.nextSequence = some (.abort, addrBank a, addrOffset a) := by
  unfold State.nextSequence
  rw [h]

theorem nextSequence_nmi {s : State} (h : s.abortPending = none) (hn : s.nmiPending = true) :
    s.nextSequence = some (.nmi, s.pbr, s.pc) := by
  unfold State.nextSequence
  rw [h, hn]
  rfl

theorem nextSequence_irq {s : State} (h : s.abortPending = none) (hn : s.nmiPending = false) (hi : s.irqLine = true)
    (hf : s.flag .i = false) : s.nextSequence = some (.irq, s.pbr, s.pc) := by
  unfold State.nextSequence
  rw [h, hn, hi, hf]
  rfl

theorem nextSequence_none {s : State} (h : s.abortPending = none) (hn : s.nmiPending = false)
    (hi : s.irqLine = false ∨ s.flag .i = true) : s.nextSequence = none := by
  unfold State.nextSequence
  rw [h, hn]
  rcases hi with hi | hi <;> simp [hi]

/-- A sequence that is due is taken when ABORTB is quiet. -/
theorem recognise_sequence {s : State} {kind : InterruptKind} {bank : Byte} {ret : Word}
    (h : s.nextSequence = some (kind, bank, ret)) :
    recognise .none s = .settle ((s.clearLatch kind).interrupt kind bank ret) := by
  unfold recognise
  rw [h]
  rfl

/-- ABORTB is refused where a sequence is due. -/
theorem recognise_refuse {s : State} {abort : AbortInput} (h : s.nextSequence ≠ none) (ha : abort ≠ .none) :
    recognise abort s = .refuse .abortDuringSequence := by
  unfold recognise
  split
  · rw [if_neg ha]
  · contradiction

/-- With none due and ABORTB quiet the instruction executes. -/
theorem recognise_execute {s : State} (h : s.nextSequence = none) : recognise .none s = .execute s := by
  unfold recognise
  rw [h]

@[simp] theorem State.latchNmi_false (s : State) : s.latchNmi false = s := by
  unfold State.latchNmi
  simp

/-! ## Fetch -/

theorem Form.size_le (m x : Bool) (f : Form) : f.size m x ≤ 3 := by
  cases f <;> simp only [Form.size] <;> first | omega | (split <;> omega)

/-- The four bytes at PBR:PC decode to the instruction that is fetched. -/
theorem State.decode_fetch (s : State) :
    decode (s.flag .m) (s.flag .x) [s.codeByte 0, s.codeByte 1, s.codeByte 2, s.codeByte 3] =
      .ok s.fetch ([s.codeByte 1, s.codeByte 2, s.codeByte 3].drop ((formOf (s.codeByte 0)).size (s.flag .m) (s.flag .x))) := by
  have h := Form.size_le (s.flag .m) (s.flag .x) (formOf (s.codeByte 0))
  unfold decode State.fetch
  simp only [List.length_cons, List.length_nil, Nat.zero_add, Nat.reduceAdd]
  rw [if_neg (by omega)]
  rfl

end Sys2Proof.Machine
end

