-- ==== Sys2Proof/Tests/Slice0.lean ====
section
/-!
SUPPORT. Tests. Their expected values come from the spec: the encodings of 30_encoding.md (R111, R117), the vectors of
95_test_vectors.md (named test_v<number>_...), and hand calculation from the rules. Last, the witnesses: for every
statement with hypotheses, a concrete state and operands that meet them together.
-/

namespace Sys2Proof.Tests

open Sys2Proof
open Sys2Proof.Machine

/-! ## The checks of WellFormed: an ill-formed term for each -/

/-- A one-byte immediate with P.M = 0, a two-byte one with P.M = 1. -/
def illFormedM (f : Imm → Instr) : Bool :=
  !(f (.byte 0x12)).wellFormed false true && !(f (.word 0x1234)).wellFormed true false

/-- The same for P.X. -/
def illFormedX (f : Imm → Instr) : Bool :=
  !(f (.byte 0x12)).wellFormed true false && !(f (.word 0x1234)).wellFormed false true

theorem test_refuses_ora : illFormedM .oraImm = true := by decide
theorem test_refuses_and : illFormedM .andImm = true := by decide
theorem test_refuses_eor : illFormedM .eorImm = true := by decide
theorem test_refuses_adc : illFormedM .adcImm = true := by decide
theorem test_refuses_bit : illFormedM .bitImm = true := by decide
theorem test_refuses_lda : illFormedM .ldaImm = true := by decide
theorem test_refuses_cmp : illFormedM .cmpImm = true := by decide
theorem test_refuses_sbc : illFormedM .sbcImm = true := by decide
theorem test_refuses_ldy : illFormedX .ldyImm = true := by decide
theorem test_refuses_ldx : illFormedX .ldxImm = true := by decide
theorem test_refuses_cpy : illFormedX .cpyImm = true := by decide
theorem test_refuses_cpx : illFormedX .cpxImm = true := by decide

/-! ## Decoding: a word written out for every opcode (R111, R117) -/

/-- Every word of a row decodes to its instruction with nothing left, and the instruction encodes to the word. -/
def row (m x : Bool) (l : List (List Byte × Instr)) : Bool :=
  l.all fun q => decode m x q.1 == .ok q.2 [] && encode q.2 == q.1

theorem test_decode_row_0 : row true true [
  ([0x00, 0xC5], .brk 0xC5), ([0x01, 0xC5], .oraDirXInd 0xC5),
  ([0x02, 0xC5], .cop 0xC5), ([0x03, 0xC5], .oraStk 0xC5),
  ([0x04, 0xC5], .tsbDir 0xC5), ([0x05, 0xC5], .oraDir 0xC5),
  ([0x06, 0xC5], .aslDir 0xC5), ([0x07, 0xC5], .oraDirIndLong 0xC5),
  ([0x08], .php), ([0x09, 0x34], .oraImm (.byte 0x34)),
  ([0x0A], .aslAcc), ([0x0B], .phd),
  ([0x0C, 0x34, 0x12], .tsbAbs 0x1234), ([0x0D, 0x34, 0x12], .oraAbs 0x1234),
  ([0x0E, 0x34, 0x12], .aslAbs 0x1234), ([0x0F, 0x56, 0x34, 0x12], .oraLong 0x123456)] = true := by decide

theorem test_decode_row_1 : row true true [
  ([0x10, 0xC5], .bpl 0xC5), ([0x11, 0xC5], .oraDirIndY 0xC5),
  ([0x12, 0xC5], .oraDirInd 0xC5), ([0x13, 0xC5], .oraStkIndY 0xC5),
  ([0x14, 0xC5], .trbDir 0xC5), ([0x15, 0xC5], .oraDirX 0xC5),
  ([0x16, 0xC5], .aslDirX 0xC5), ([0x17, 0xC5], .oraDirIndLongY 0xC5),
  ([0x18], .clc), ([0x19, 0x34, 0x12], .oraAbsY 0x1234),
  ([0x1A], .incAcc), ([0x1B], .tcs),
  ([0x1C, 0x34, 0x12], .trbAbs 0x1234), ([0x1D, 0x34, 0x12], .oraAbsX 0x1234),
  ([0x1E, 0x34, 0x12], .aslAbsX 0x1234), ([0x1F, 0x56, 0x34, 0x12], .oraLongX 0x123456)] = true := by decide

theorem test_decode_row_2 : row true true [
  ([0x20, 0x34, 0x12], .jsrAbs 0x1234), ([0x21, 0xC5], .andDirXInd 0xC5),
  ([0x22, 0x56, 0x34, 0x12], .jsl 0x123456), ([0x23, 0xC5], .andStk 0xC5),
  ([0x24, 0xC5], .bitDir 0xC5), ([0x25, 0xC5], .andDir 0xC5),
  ([0x26, 0xC5], .rolDir 0xC5), ([0x27, 0xC5], .andDirIndLong 0xC5),
  ([0x28], .plp), ([0x29, 0x34], .andImm (.byte 0x34)),
  ([0x2A], .rolAcc), ([0x2B], .pld),
  ([0x2C, 0x34, 0x12], .bitAbs 0x1234), ([0x2D, 0x34, 0x12], .andAbs 0x1234),
  ([0x2E, 0x34, 0x12], .rolAbs 0x1234), ([0x2F, 0x56, 0x34, 0x12], .andLong 0x123456)] = true := by decide

theorem test_decode_row_3 : row true true [
  ([0x30, 0xC5], .bmi 0xC5), ([0x31, 0xC5], .andDirIndY 0xC5),
  ([0x32, 0xC5], .andDirInd 0xC5), ([0x33, 0xC5], .andStkIndY 0xC5),
  ([0x34, 0xC5], .bitDirX 0xC5), ([0x35, 0xC5], .andDirX 0xC5),
  ([0x36, 0xC5], .rolDirX 0xC5), ([0x37, 0xC5], .andDirIndLongY 0xC5),
  ([0x38], .sec), ([0x39, 0x34, 0x12], .andAbsY 0x1234),
  ([0x3A], .decAcc), ([0x3B], .tsc),
  ([0x3C, 0x34, 0x12], .bitAbsX 0x1234), ([0x3D, 0x34, 0x12], .andAbsX 0x1234),
  ([0x3E, 0x34, 0x12], .rolAbsX 0x1234), ([0x3F, 0x56, 0x34, 0x12], .andLongX 0x123456)] = true := by decide

theorem test_decode_row_4 : row true true [
  ([0x40], .rti), ([0x41, 0xC5], .eorDirXInd 0xC5),
  ([0x42, 0xC5], .wdm 0xC5), ([0x43, 0xC5], .eorStk 0xC5),
  ([0x44, 0x7F, 0x7E], .mvp 0x7F 0x7E), ([0x45, 0xC5], .eorDir 0xC5),
  ([0x46, 0xC5], .lsrDir 0xC5), ([0x47, 0xC5], .eorDirIndLong 0xC5),
  ([0x48], .pha), ([0x49, 0x34], .eorImm (.byte 0x34)),
  ([0x4A], .lsrAcc), ([0x4B], .phk),
  ([0x4C, 0x34, 0x12], .jmpAbs 0x1234), ([0x4D, 0x34, 0x12], .eorAbs 0x1234),
  ([0x4E, 0x34, 0x12], .lsrAbs 0x1234), ([0x4F, 0x56, 0x34, 0x12], .eorLong 0x123456)] = true := by decide

theorem test_decode_row_5 : row true true [
  ([0x50, 0xC5], .bvc 0xC5), ([0x51, 0xC5], .eorDirIndY 0xC5),
  ([0x52, 0xC5], .eorDirInd 0xC5), ([0x53, 0xC5], .eorStkIndY 0xC5),
  ([0x54, 0x7F, 0x7E], .mvn 0x7F 0x7E), ([0x55, 0xC5], .eorDirX 0xC5),
  ([0x56, 0xC5], .lsrDirX 0xC5), ([0x57, 0xC5], .eorDirIndLongY 0xC5),
  ([0x58], .cli), ([0x59, 0x34, 0x12], .eorAbsY 0x1234),
  ([0x5A], .phy), ([0x5B], .tcd),
  ([0x5C, 0x56, 0x34, 0x12], .jmpLong 0x123456), ([0x5D, 0x34, 0x12], .eorAbsX 0x1234),
  ([0x5E, 0x34, 0x12], .lsrAbsX 0x1234), ([0x5F, 0x56, 0x34, 0x12], .eorLongX 0x123456)] = true := by decide

theorem test_decode_row_6 : row true true [
  ([0x60], .rts), ([0x61, 0xC5], .adcDirXInd 0xC5),
  ([0x62, 0x34, 0x12], .per 0x1234), ([0x63, 0xC5], .adcStk 0xC5),
  ([0x64, 0xC5], .stzDir 0xC5), ([0x65, 0xC5], .adcDir 0xC5),
  ([0x66, 0xC5], .rorDir 0xC5), ([0x67, 0xC5], .adcDirIndLong 0xC5),
  ([0x68], .pla), ([0x69, 0x34], .adcImm (.byte 0x34)),
  ([0x6A], .rorAcc), ([0x6B], .rtl),
  ([0x6C, 0x34, 0x12], .jmpAbsInd 0x1234), ([0x6D, 0x34, 0x12], .adcAbs 0x1234),
  ([0x6E, 0x34, 0x12], .rorAbs 0x1234), ([0x6F, 0x56, 0x34, 0x12], .adcLong 0x123456)] = true := by decide

theorem test_decode_row_7 : row true true [
  ([0x70, 0xC5], .bvs 0xC5), ([0x71, 0xC5], .adcDirIndY 0xC5),
  ([0x72, 0xC5], .adcDirInd 0xC5), ([0x73, 0xC5], .adcStkIndY 0xC5),
  ([0x74, 0xC5], .stzDirX 0xC5), ([0x75, 0xC5], .adcDirX 0xC5),
  ([0x76, 0xC5], .rorDirX 0xC5), ([0x77, 0xC5], .adcDirIndLongY 0xC5),
  ([0x78], .sei), ([0x79, 0x34, 0x12], .adcAbsY 0x1234),
  ([0x7A], .ply), ([0x7B], .tdc),
  ([0x7C, 0x34, 0x12], .jmpAbsXInd 0x1234), ([0x7D, 0x34, 0x12], .adcAbsX 0x1234),
  ([0x7E, 0x34, 0x12], .rorAbsX 0x1234), ([0x7F, 0x56, 0x34, 0x12], .adcLongX 0x123456)] = true := by decide

theorem test_decode_row_8 : row true true [
  ([0x80, 0xC5], .bra 0xC5), ([0x81, 0xC5], .staDirXInd 0xC5),
  ([0x82, 0x34, 0x12], .brl 0x1234), ([0x83, 0xC5], .staStk 0xC5),
  ([0x84, 0xC5], .styDir 0xC5), ([0x85, 0xC5], .staDir 0xC5),
  ([0x86, 0xC5], .stxDir 0xC5), ([0x87, 0xC5], .staDirIndLong 0xC5),
  ([0x88], .dey), ([0x89, 0x34], .bitImm (.byte 0x34)),
  ([0x8A], .txa), ([0x8B], .phb),
  ([0x8C, 0x34, 0x12], .styAbs 0x1234), ([0x8D, 0x34, 0x12], .staAbs 0x1234),
  ([0x8E, 0x34, 0x12], .stxAbs 0x1234), ([0x8F, 0x56, 0x34, 0x12], .staLong 0x123456)] = true := by decide

theorem test_decode_row_9 : row true true [
  ([0x90, 0xC5], .bcc 0xC5), ([0x91, 0xC5], .staDirIndY 0xC5),
  ([0x92, 0xC5], .staDirInd 0xC5), ([0x93, 0xC5], .staStkIndY 0xC5),
  ([0x94, 0xC5], .styDirX 0xC5), ([0x95, 0xC5], .staDirX 0xC5),
  ([0x96, 0xC5], .stxDirY 0xC5), ([0x97, 0xC5], .staDirIndLongY 0xC5),
  ([0x98], .tya), ([0x99, 0x34, 0x12], .staAbsY 0x1234),
  ([0x9A], .txs), ([0x9B], .txy),
  ([0x9C, 0x34, 0x12], .stzAbs 0x1234), ([0x9D, 0x34, 0x12], .staAbsX 0x1234),
  ([0x9E, 0x34, 0x12], .stzAbsX 0x1234), ([0x9F, 0x56, 0x34, 0x12], .staLongX 0x123456)] = true := by decide

theorem test_decode_row_A : row true true [
  ([0xA0, 0x34], .ldyImm (.byte 0x34)), ([0xA1, 0xC5], .ldaDirXInd 0xC5),
  ([0xA2, 0x34], .ldxImm (.byte 0x34)), ([0xA3, 0xC5], .ldaStk 0xC5),
  ([0xA4, 0xC5], .ldyDir 0xC5), ([0xA5, 0xC5], .ldaDir 0xC5),
  ([0xA6, 0xC5], .ldxDir 0xC5), ([0xA7, 0xC5], .ldaDirIndLong 0xC5),
  ([0xA8], .tay), ([0xA9, 0x34], .ldaImm (.byte 0x34)),
  ([0xAA], .tax), ([0xAB], .plb),
  ([0xAC, 0x34, 0x12], .ldyAbs 0x1234), ([0xAD, 0x34, 0x12], .ldaAbs 0x1234),
  ([0xAE, 0x34, 0x12], .ldxAbs 0x1234), ([0xAF, 0x56, 0x34, 0x12], .ldaLong 0x123456)] = true := by decide

theorem test_decode_row_B : row true true [
  ([0xB0, 0xC5], .bcs 0xC5), ([0xB1, 0xC5], .ldaDirIndY 0xC5),
  ([0xB2, 0xC5], .ldaDirInd 0xC5), ([0xB3, 0xC5], .ldaStkIndY 0xC5),
  ([0xB4, 0xC5], .ldyDirX 0xC5), ([0xB5, 0xC5], .ldaDirX 0xC5),
  ([0xB6, 0xC5], .ldxDirY 0xC5), ([0xB7, 0xC5], .ldaDirIndLongY 0xC5),
  ([0xB8], .clv), ([0xB9, 0x34, 0x12], .ldaAbsY 0x1234),
  ([0xBA], .tsx), ([0xBB], .tyx),
  ([0xBC, 0x34, 0x12], .ldyAbsX 0x1234), ([0xBD, 0x34, 0x12], .ldaAbsX 0x1234),
  ([0xBE, 0x34, 0x12], .ldxAbsY 0x1234), ([0xBF, 0x56, 0x34, 0x12], .ldaLongX 0x123456)] = true := by decide

theorem test_decode_row_C : row true true [
  ([0xC0, 0x34], .cpyImm (.byte 0x34)), ([0xC1, 0xC5], .cmpDirXInd 0xC5),
  ([0xC2, 0xC5], .rep 0xC5), ([0xC3, 0xC5], .cmpStk 0xC5),
  ([0xC4, 0xC5], .cpyDir 0xC5), ([0xC5, 0xC5], .cmpDir 0xC5),
  ([0xC6, 0xC5], .decDir 0xC5), ([0xC7, 0xC5], .cmpDirIndLong 0xC5),
  ([0xC8], .iny), ([0xC9, 0x34], .cmpImm (.byte 0x34)),
  ([0xCA], .dex), ([0xCB], .wai),
  ([0xCC, 0x34, 0x12], .cpyAbs 0x1234), ([0xCD, 0x34, 0x12], .cmpAbs 0x1234),
  ([0xCE, 0x34, 0x12], .decAbs 0x1234), ([0xCF, 0x56, 0x34, 0x12], .cmpLong 0x123456)] = true := by decide

theorem test_decode_row_D : row true true [
  ([0xD0, 0xC5], .bne 0xC5), ([0xD1, 0xC5], .cmpDirIndY 0xC5),
  ([0xD2, 0xC5], .cmpDirInd 0xC5), ([0xD3, 0xC5], .cmpStkIndY 0xC5),
  ([0xD4, 0xC5], .pei 0xC5), ([0xD5, 0xC5], .cmpDirX 0xC5),
  ([0xD6, 0xC5], .decDirX 0xC5), ([0xD7, 0xC5], .cmpDirIndLongY 0xC5),
  ([0xD8], .cld), ([0xD9, 0x34, 0x12], .cmpAbsY 0x1234),
  ([0xDA], .phx), ([0xDB], .stp),
  ([0xDC, 0x34, 0x12], .jml 0x1234), ([0xDD, 0x34, 0x12], .cmpAbsX 0x1234),
  ([0xDE, 0x34, 0x12], .decAbsX 0x1234), ([0xDF, 0x56, 0x34, 0x12], .cmpLongX 0x123456)] = true := by decide

theorem test_decode_row_E : row true true [
  ([0xE0, 0x34], .cpxImm (.byte 0x34)), ([0xE1, 0xC5], .sbcDirXInd 0xC5),
  ([0xE2, 0xC5], .sep 0xC5), ([0xE3, 0xC5], .sbcStk 0xC5),
  ([0xE4, 0xC5], .cpxDir 0xC5), ([0xE5, 0xC5], .sbcDir 0xC5),
  ([0xE6, 0xC5], .incDir 0xC5), ([0xE7, 0xC5], .sbcDirIndLong 0xC5),
  ([0xE8], .inx), ([0xE9, 0x34], .sbcImm (.byte 0x34)),
  ([0xEA], .nop), ([0xEB], .xba),
  ([0xEC, 0x34, 0x12], .cpxAbs 0x1234), ([0xED, 0x34, 0x12], .sbcAbs 0x1234),
  ([0xEE, 0x34, 0x12], .incAbs 0x1234), ([0xEF, 0x56, 0x34, 0x12], .sbcLong 0x123456)] = true := by decide

theorem test_decode_row_F : row true true [
  ([0xF0, 0xC5], .beq 0xC5), ([0xF1, 0xC5], .sbcDirIndY 0xC5),
  ([0xF2, 0xC5], .sbcDirInd 0xC5), ([0xF3, 0xC5], .sbcStkIndY 0xC5),
  ([0xF4, 0x34, 0x12], .pea 0x1234), ([0xF5, 0xC5], .sbcDirX 0xC5),
  ([0xF6, 0xC5], .incDirX 0xC5), ([0xF7, 0xC5], .sbcDirIndLongY 0xC5),
  ([0xF8], .sed), ([0xF9, 0x34, 0x12], .sbcAbsY 0x1234),
  ([0xFA], .plx), ([0xFB], .xce),
  ([0xFC, 0x34, 0x12], .jsrAbsXInd 0x1234), ([0xFD, 0x34, 0x12], .sbcAbsX 0x1234),
  ([0xFE, 0x34, 0x12], .incAbsX 0x1234), ([0xFF, 0x56, 0x34, 0x12], .sbcLongX 0x123456)] = true := by decide

theorem test_decode_wide_m : row false true [
  ([0x09, 0x34, 0x12], .oraImm (.word 0x1234)), ([0x29, 0x34, 0x12], .andImm (.word 0x1234)),
  ([0x49, 0x34, 0x12], .eorImm (.word 0x1234)), ([0x69, 0x34, 0x12], .adcImm (.word 0x1234)),
  ([0x89, 0x34, 0x12], .bitImm (.word 0x1234)), ([0xA9, 0x34, 0x12], .ldaImm (.word 0x1234)),
  ([0xC9, 0x34, 0x12], .cmpImm (.word 0x1234)), ([0xE9, 0x34, 0x12], .sbcImm (.word 0x1234))] = true := by decide

theorem test_decode_wide_x : row true false [
  ([0xA0, 0x34, 0x12], .ldyImm (.word 0x1234)), ([0xA2, 0x34, 0x12], .ldxImm (.word 0x1234)),
  ([0xC0, 0x34, 0x12], .cpyImm (.word 0x1234)), ([0xE0, 0x34, 0x12], .cpxImm (.word 0x1234))] = true := by decide

/-- What the decoder rejects, by name: no byte, too few bytes. -/
theorem test_decode_rejects : decode true true [] = .rejected .noOpcode ∧
    decode true true [0x8F, 0x56] = .rejected (.truncated 0x8F 2) := by decide

/-- The table's number of STA $123456: the first byte is bits 7..0. -/
theorem test_decode_table_word : decodeTableWord 32 0x1234568F = some (.staLong 0x123456) := by decide

/-! ## Single steps: 95_test_vectors.md -/

/-- The baseline N16. -/
def native16 : State := { State.reset with sp := 0x01FF, pc := 0x8000, e := false, p := 0x00 }

/-- The baseline N8. -/
def native8 : State := { native16 with p := 0x30 }

/-- The baseline EM. -/
def emulation : State := { native16 with e := true, p := 0x30 }

/-- Bytes in memory from an address on. -/
def place : Addr → List Byte → State → State
  | _, [], s => s
  | a, b :: rest, s => place (a + 1) rest (s.storeByte a b)

/-- Bytes at PBR:PC. -/
def code (bytes : List Byte) (s : State) : State := place (bankAddr s.pbr s.pc) bytes s

/-- A step answers a next state, and the check holds of it. -/
def after (s : State) (check : State → Bool) : Bool :=
  match step s with
  | .next t => check t
  | .fault _ | .refused _ => false

theorem test_v2_lda : after (code [0xA9, 0x34, 0x12] { native8 with c := 0x5600 })
    (fun t => t.c == 0x5634 && t.pc == 0x8002) = true := by decide
theorem test_v36_lda : after (code [0xA9, 0x00] { native8 with c := 0x12FF })
    (fun t => t.c == 0x1200 && t.p == 0x32) = true := by decide
theorem test_v9_lda : after (code [0xAD, 0xFF, 0xFF] (place 0x12FFFF [0xCD, 0xAB] { native16 with dbr := 0x12 }))
    (fun t => t.c == 0xABCD && t.p == 0x80) = true := by decide
theorem test_v11_lda : after
    (code [0xBD, 0xF8, 0xFF] (place 0x000008 [0xCD, 0xAB] { native16 with x := 0x0010, dbr := 0xFF }))
    (fun t => t.c == 0xABCD && t.p == 0x80) = true := by decide
theorem test_v12_lda : after (code [0xB9, 0x00, 0x10] (place 0x0110FF [0x77] { native8 with y := 0x00FF, dbr := 0x01 }))
    (fun t => t.c == 0x0077 && t.pc == 0x8003) = true := by decide
theorem test_v13_lda : after (code [0xAF, 0x56, 0x34, 0x12] (place 0x123456 [0xCD, 0xAB] native16))
    (fun t => t.c == 0xABCD && t.p == 0x80) = true := by decide
theorem test_v14_lda : after (code [0xBF, 0x02, 0x00, 0x7E] (place 0x7F0001 [0xCD, 0xAB] { native16 with x := 0xFFFF }))
    (fun t => t.c == 0xABCD && t.p == 0x80) = true := by decide
theorem test_v17_lda : after
    (code [0xA5, 0xFF] (place 0x00FFFF [0xCD] (place 0x000000 [0xAB] { native16 with d := 0xFF00, dbr := 0x12 })))
    (fun t => t.c == 0xABCD && t.p == 0x80) = true := by decide
theorem test_v18_lda : after
    (code [0xB5, 0xF0] (place 0x000110 [0x66] (place 0x000010 [0x77] { emulation with x := 0x0020 })))
    (fun t => t.c == 0x0077 && t.pc == 0x8002) = true := by decide
theorem test_v21_lda : after
    (code [0xB5, 0x20] (place 0x000290 [0x66] (place 0x000190 [0x77] { emulation with x := 0x00F0, d := 0x0180 })))
    (fun t => t.c == 0x0066 && t.pc == 0x8002) = true := by decide
theorem test_v22_ldx : after
    (code [0xB6, 0x10] (place 0x000315 [0xCD, 0xAB] { native16 with y := 0x0005, d := 0x0300 }))
    (fun t => t.x == 0xABCD && t.p == 0x80) = true := by decide
theorem test_v24_lda : after
    (code [0xB2, 0xFF] (place 0x00A000 [0x66] (place 0x009000 [0x77] (place 0x000100 [0xA0] (place 0x000000 [0x90] emulation)))))
    (fun t => t.c == 0x0077 && t.pc == 0x8002) = true := by decide
theorem test_v26_lda : after
    (code [0xA1, 0xFE] (place 0x00A000 [0x66] (place 0x009000 [0x77] (place 0x000100 [0xA0] (place 0x000000 [0x90]
      { emulation with x := 0x0001 })))))
    (fun t => t.c == 0x0077 && t.pc == 0x8002) = true := by decide
theorem test_v27_lda : after
    (code [0xA1, 0xFE] (place 0x00A000 [0x66] (place 0x009000 [0x77] (place 0x000100 [0xA0] (place 0x000000 [0x90] { native8 with x := 0x0001 })))))
    (fun t => t.c == 0x0066 && t.pc == 0x8002) = true := by decide
theorem test_v28_lda : after
    (code [0xB1, 0x10] (place 0x130001 [0xCD, 0xAB] (place 0x000010 [0xFF, 0xFF]
      { native16 with y := 0x0002, dbr := 0x12 })))
    (fun t => t.c == 0xABCD && t.p == 0x80) = true := by decide
theorem test_v30_lda : after (code [0xA7, 0xFE] (place 0x7E9000 [0x77] (place 0x0000FF [0x90, 0x7E] emulation)))
    (fun t => t.c == 0x0077 && t.pc == 0x8002) = true := by decide
theorem test_v31_lda : after
    (code [0xB7, 0x10] (place 0x7F0010 [0xCD, 0xAB] (place 0x000010 [0xF0, 0xFF, 0x7E] { native16 with y := 0x0020 })))
    (fun t => t.c == 0xABCD && t.p == 0x80) = true := by decide
theorem test_v33_lda : after
    (code [0xA3, 0x20] (place 0x000210 [0x77] (place 0x000110 [0x66] { emulation with sp := 0x01F0 })))
    (fun t => t.c == 0x0077 && t.pc == 0x8002) = true := by decide
theorem test_v35_lda : after
    (code [0xB3, 0x01] (place 0x023010 [0xCD, 0xAB] (place 0x0001F2 [0x30]
      { native16 with y := 0x0010, sp := 0x01F0, dbr := 0x02 })))
    (fun t => t.c == 0xABCD && t.p == 0x80) = true := by decide
theorem test_v3_ldx : after (code [0xA2, 0xFF, 0x00] { native16 with p := 0x10 })
    (fun t => t.x == 0x00FF && t.p == 0x90) = true := by decide
theorem test_v41_ldy : after (code [0xAC, 0x00, 0x20] (place 0x052000 [0xFF, 0xFF] { native16 with dbr := 0x05 }))
    (fun t => t.y == 0xFFFF && t.p == 0x80) = true := by decide
theorem test_v42_sta : after (code [0x8D, 0xFF, 0xFF] { native16 with c := 0xABCD, dbr := 0x12 })
    (fun t => t.pc == 0x8003 && t.byteAt 0x12FFFF == 0xCD && t.byteAt 0x130000 == 0xAB) = true := by decide
theorem test_v44_sta : after (code [0x95, 0x10] { emulation with c := 0x0042, x := 0x00FF })
    (fun t => t.pc == 0x8002 && t.byteAt 0x00000F == 0x42) = true := by decide
theorem test_v45_stx : after (code [0x8E, 0x00, 0x20] { native16 with x := 0x00EE, p := 0x10 })
    (fun t => t.pc == 0x8003 && t.byteAt 0x002000 == 0xEE) = true := by decide
theorem test_v46_sty : after (code [0x84, 0x20] { native16 with y := 0x1234 })
    (fun t => t.pc == 0x8002 && t.byteAt 0x000020 == 0x34 && t.byteAt 0x000021 == 0x12) = true := by decide
theorem test_v47_stz : after (code [0x9C, 0x00, 0x20] (place 0x002000 [0x11, 0x22] { native16 with c := 0xFFFF }))
    (fun t => t.pc == 0x8003 && t.byteAt 0x002000 == 0x00 && t.byteAt 0x002001 == 0x00) = true := by decide
theorem test_v53_adc : after (code [0x69, 0x80] { native8 with c := 0x0080 })
    (fun t => t.c == 0x0000 && t.p == 0x73) = true := by decide
theorem test_v55_adc : after (code [0x69, 0x01, 0x00] { native16 with c := 0x7FFF })
    (fun t => t.c == 0x8000 && t.p == 0xC0) = true := by decide
theorem test_v59_sbc : after (code [0xE9, 0xB0] { native16 with c := 0x0050, p := 0x31 })
    (fun t => t.c == 0x00A0 && t.p == 0xF0) = true := by decide
theorem test_v63_sbc : after (code [0xE9, 0x01, 0x00] { native16 with c := 0x8000, p := 0x01 })
    (fun t => t.c == 0x7FFF && t.p == 0x41) = true := by decide
theorem test_v70_sbc : after
    (code [0xE9, 0x01] { native16 with p := 0x39 })
    (fun t => t.c == 0x0099) = true := by decide
theorem test_v71_sbc : after (code [0xE9, 0x01, 0x00] { native16 with c := 0x1000, p := 0x09 })
    (fun t => t.c == 0x0999 && t.pc == 0x8003) = true := by decide
theorem test_v72_and : after (code [0x29, 0x0F] { native8 with c := 0x12F0 })
    (fun t => t.c == 0x1200 && t.p == 0x32) = true := by decide
theorem test_v74_ora : after (code [0x05, 0x10] (place 0x000010 [0x80] { native8 with c := 0x0001 }))
    (fun t => t.c == 0x0081 && t.p == 0xB0) = true := by decide
theorem test_v75_eor : after (code [0x49, 0xFF, 0xFF] { native16 with c := 0xFFFF })
    (fun t => t.c == 0x0000 && t.p == 0x02) = true := by decide
theorem test_v77_cmp : after (code [0xC9, 0x60] { native16 with c := 0x0050, p := 0x31 })
    (fun t => t.pc == 0x8002 && t.p == 0xB0) = true := by decide
theorem test_v80_cmp : after (code [0xC9, 0x00, 0x80] { native16 with c := 0x7FFF })
    (fun t => t.pc == 0x8003 && t.p == 0x80) = true := by decide
theorem test_v81_cpx : after (code [0xE0, 0x20] { native8 with x := 0x0010 })
    (fun t => t.pc == 0x8002 && t.p == 0xB0) = true := by decide
theorem test_v82_cpy : after (code [0xC0, 0x00, 0x10] { native16 with y := 0x1000 })
    (fun t => t.pc == 0x8003 && t.p == 0x03) = true := by decide
theorem test_v83_bit : after (code [0x24, 0x10] (place 0x000010 [0xC0] { native8 with c := 0x0001 }))
    (fun t => t.pc == 0x8002 && t.p == 0xF2) = true := by decide
theorem test_v84_bit : after (code [0x89, 0xC0] { native8 with c := 0x0001 })
    (fun t => t.pc == 0x8002 && t.p == 0x32) = true := by decide
theorem test_v87_inc : after (code [0x1A] { native8 with c := 0x12FF })
    (fun t => t.c == 0x1200 && t.p == 0x32) = true := by decide
theorem test_v89_inc : after
    (code [0xEE, 0x00, 0x20] (place 0x002000 [0xFF, 0xFF] native16))
    (fun t => t.pc == 0x8003 && t.p == 0x02 && t.byteAt 0x002001 == 0x00 &&
      t.byteAt 0x002000 == 0x00) = true := by decide
theorem test_v90_dec : after (code [0x3A] native16) (fun t => t.c == 0xFFFF && t.p == 0x80) = true := by decide
theorem test_v91_dec : after (code [0xC6, 0x10] native8)
    (fun t => t.pc == 0x8002 && t.p == 0xB0 && t.byteAt 0x000010 == 0xFF) = true := by decide
theorem test_v93_inx : after (code [0xE8] { native16 with x := 0x00FF })
    (fun t => t.x == 0x0100 && t.pc == 0x8001) = true := by decide
theorem test_v94_iny : after (code [0xC8] { native16 with y := 0xFFFF })
    (fun t => t.y == 0x0000 && t.p == 0x02) = true := by decide
theorem test_v95_dex : after (code [0xCA] native16) (fun t => t.x == 0xFFFF && t.p == 0x80) = true := by decide
theorem test_v96_dey : after (code [0x88] { emulation with y := 0x0001 })
    (fun t => t.y == 0x0000 && t.p == 0x32) = true := by decide
theorem test_v97_asl : after (code [0x0A] { native8 with c := 0x1281 })
    (fun t => t.c == 0x1202 && t.p == 0x31) = true := by decide
theorem test_v99_asl : after
    (code [0x0E, 0x00, 0x20] (place 0x002001 [0x40] native16))
    (fun t => t.pc == 0x8003 && t.p == 0x80 && t.byteAt 0x002001 == 0x80 &&
      t.byteAt 0x002000 == 0x00) = true := by decide
theorem test_v100_lsr : after (code [0x4A] { native16 with c := 0x0001, p := 0xB0 })
    (fun t => t.c == 0x0000 && t.p == 0x33) = true := by decide
theorem test_v101_lsr : after (code [0x56, 0x10] (place 0x000012 [0x82] { native8 with x := 0x0002 }))
    (fun t => t.pc == 0x8002 && t.byteAt 0x000012 == 0x41) = true := by decide
theorem test_v102_rol : after (code [0x2A] { native16 with c := 0x0080, p := 0x31 })
    (fun t => t.c == 0x0001 && t.pc == 0x8001) = true := by decide
theorem test_v105_ror : after (code [0x6A] { native16 with c := 0x0001, p := 0x01 })
    (fun t => t.c == 0x8000 && t.p == 0x81) = true := by decide
theorem test_v106_ror : after (code [0x6A] { native16 with c := 0x1200, p := 0x31 })
    (fun t => t.c == 0x1280 && t.p == 0xB0) = true := by decide
theorem test_v107_ror : after (code [0x66, 0x10] (place 0x000010 [0x01] native8))
    (fun t => t.pc == 0x8002 && t.p == 0x33 && t.byteAt 0x000010 == 0x00) = true := by decide
theorem test_v108_tsb : after (code [0x04, 0x10] (place 0x000010 [0xF0] { native8 with c := 0x000F }))
    (fun t => t.pc == 0x8002 && t.p == 0x32 && t.byteAt 0x000010 == 0xFF) = true := by decide
theorem test_v110_trb : after (code [0x14, 0x10] (place 0x000010 [0xFF] { native8 with c := 0x000F }))
    (fun t => t.pc == 0x8002 && t.byteAt 0x000010 == 0xF0) = true := by decide
theorem test_v112_beq : after (code [0xF0, 0x05] { native16 with p := 0x32 })
    (fun t => t.pc == 0x8007 && t.p == 0x32) = true := by decide
theorem test_v114_bne : after (code [0xD0, 0xFE] native8) (fun t => t.p == 0x30) = true := by decide
theorem test_v115_bcc : after (code [0x90, 0x10] { native16 with p := 0x31 })
    (fun t => t.pc == 0x8002 && t.p == 0x31) = true := by decide
theorem test_v116_bcs : after (code [0xB0, 0x10] { native16 with p := 0x31 })
    (fun t => t.pc == 0x8012 && t.p == 0x31) = true := by decide
theorem test_v117_bmi : after (code [0x30, 0x80] { native16 with p := 0xB0 })
    (fun t => t.pc == 0x7F82 && t.p == 0xB0) = true := by decide
theorem test_v118_bpl : after (code [0x10, 0x7F] native8) (fun t => t.pc == 0x8081 && t.p == 0x30) = true := by decide
theorem test_v119_bvc : after (code [0x50, 0x02] { native16 with p := 0x70 })
    (fun t => t.pc == 0x8002 && t.p == 0x70) = true := by decide
theorem test_v120_bvs : after (code [0x70, 0x02] { native16 with p := 0x70 })
    (fun t => t.pc == 0x8004 && t.p == 0x70) = true := by decide
theorem test_v121_bra : after (code [0x80, 0x00] { native8 with pc := 0xFFFE, pbr := 0x05 })
    (fun t => t.pc == 0x0000 && t.p == 0x30) = true := by decide
theorem test_v122_bra : after (code [0x80, 0xFD] { native8 with pc := 0x0000, pbr := 0x05 })
    (fun t => t.pc == 0xFFFF && t.p == 0x30) = true := by decide
theorem test_v123_brl : after
    (code [0x82, 0x00, 0x80] native8)
    (fun t => t.pc == 0x0003 && t.p == 0x30) = true := by decide
theorem test_v125_jmp : after (code [0x4C, 0x34, 0x12] { native8 with pbr := 0x05 })
    (fun t => t.pc == 0x1234 && t.p == 0x30) = true := by decide
theorem test_v126_jmp : after (code [0x5C, 0x56, 0x34, 0x12] emulation)
    (fun t => t.pc == 0x3456 && t.pbr == 0x12) = true := by decide
theorem test_v128_jmp : after (code [0x6C, 0xFF, 0xFF] (place 0x00FFFF [0x34, 0x99] (place 0x000000 [0x12] native8)))
    (fun t => t.pc == 0x1234 && t.p == 0x30) = true := by decide
theorem test_v130_jmp : after
    (code [0x7C, 0xFF, 0xFF] (place 0x050002 [0x34, 0x12] { native16 with x := 0x0003, pbr := 0x05 }))
    (fun t => t.pc == 0x1234 && t.p == 0x00) = true := by decide
theorem test_v131_jml : after (code [0xDC, 0x00, 0x02] (place 0x000200 [0x56, 0x34, 0x12] native8))
    (fun t => t.pc == 0x3456 && t.pbr == 0x12) = true := by decide
theorem test_v133_jsr : after
    (code [0x20, 0x34, 0x12] { emulation with sp := 0x0100 })
    (fun t => t.sp == 0x01FE && t.pc == 0x1234 && t.byteAt 0x000100 == 0x80 &&
      t.byteAt 0x0001FF == 0x02) = true := by decide
theorem test_v135_rts : after (code [0x60] (place 0x0001FE [0xFF, 0xFF] { native8 with sp := 0x01FD, pc := 0x1234 }))
    (fun t => t.sp == 0x01FF && t.pc == 0x0000) = true := by decide
theorem test_v136_jsr : after
    (code [0xFC, 0x00, 0x90] (place 0x059002 [0x34, 0x12] { native16 with x := 0x0002, pbr := 0x05 }))
    (fun t => t.sp == 0x01FD && t.pc == 0x1234 && t.byteAt 0x0001FF == 0x80 &&
      t.byteAt 0x0001FE == 0x02) = true := by decide
theorem test_v137_jsr : after
    (code [0xFC, 0x00, 0x90] (place 0x009002 [0x34, 0x12] { emulation with x := 0x0002, sp := 0x0100 }))
    (fun t => t.sp == 0x01FE && t.pc == 0x1234 && t.byteAt 0x000100 == 0x80 &&
      t.byteAt 0x0000FF == 0x02) = true := by decide
theorem test_v138_jsl : after
    (code [0x22, 0x56, 0x34, 0x12] { native8 with pbr := 0x05 })
    (fun t => t.sp == 0x01FC && t.pc == 0x3456 && t.pbr == 0x12 &&
      t.byteAt 0x0001FF == 0x05 && t.byteAt 0x0001FE == 0x80) = true := by decide
theorem test_v139_jsl : after
    (code [0x22, 0x56, 0x34, 0x12] { emulation with sp := 0x0101 })
    (fun t => t.sp == 0x01FE && t.pc == 0x3456 && t.pbr == 0x12 &&
      t.byteAt 0x000101 == 0x00 && t.byteAt 0x000100 == 0x80) = true := by decide
theorem test_v140_rtl : after
    (code [0x6B] (place 0x0001FD [0x03, 0x80, 0x05] { native8 with sp := 0x01FC, pc := 0x3456, pbr := 0x12 }))
    (fun t => t.sp == 0x01FF && t.pc == 0x8004 && t.pbr == 0x05) = true := by decide
theorem test_v142_rtl : after
    (code [0x6B] (place 0x0001FF [0x03, 0x80, 0x05] (place 0x000100 [0x77, 0x77]
      { emulation with sp := 0x01FE, pc := 0x3456, pbr := 0x12 })))
    (fun t => t.sp == 0x0101 && t.pc == 0x8004 && t.pbr == 0x05) = true := by decide
theorem test_v145_pha : after (code [0x48] { emulation with c := 0x0042, sp := 0x0100 })
    (fun t => t.sp == 0x01FF && t.pc == 0x8001 && t.byteAt 0x000100 == 0x42) = true := by decide
theorem test_v149_pla : after (code [0x68] (place 0x000200 [0x11] (place 0x000100 [0x80] emulation)))
    (fun t => t.c == 0x0080 && t.sp == 0x0100 && t.p == 0xB0) = true := by decide
theorem test_v150_phx : after (code [0xDA] { native16 with x := 0x00EE, p := 0x10 })
    (fun t => t.sp == 0x01FE && t.pc == 0x8001 && t.byteAt 0x0001FF == 0xEE) = true := by decide
theorem test_v151_phy : after
    (code [0x5A] { native16 with y := 0xABCD })
    (fun t => t.sp == 0x01FD && t.pc == 0x8001 && t.byteAt 0x0001FF == 0xAB &&
      t.byteAt 0x0001FE == 0xCD) = true := by decide
theorem test_v152_plx : after (code [0xFA] { native16 with sp := 0x01FD })
    (fun t => t.sp == 0x01FF && t.p == 0x02) = true := by decide
theorem test_v153_ply : after (code [0x7A] (place 0x0001FF [0x80] { native8 with sp := 0x01FE }))
    (fun t => t.y == 0x0080 && t.sp == 0x01FF && t.p == 0xB0) = true := by decide
theorem test_v154_phb : after (code [0x8B] { native16 with dbr := 0x7E })
    (fun t => t.sp == 0x01FE && t.pc == 0x8001 && t.byteAt 0x0001FF == 0x7E) = true := by decide
theorem test_v155_plb : after (code [0xAB] (place 0x0001FF [0x80] { native16 with sp := 0x01FE }))
    (fun t => t.sp == 0x01FF && t.dbr == 0x80 && t.p == 0x80) = true := by decide
theorem test_v156_phk : after (code [0x4B] { native16 with pbr := 0x05 })
    (fun t => t.sp == 0x01FE && t.pc == 0x8001 && t.byteAt 0x0001FF == 0x05) = true := by decide
theorem test_v158_phd : after
    (code [0x0B] { emulation with sp := 0x0100, d := 0x1234 })
    (fun t => t.sp == 0x01FE && t.pc == 0x8001 && t.byteAt 0x000100 == 0x12 &&
      t.byteAt 0x0000FF == 0x34) = true := by decide
theorem test_v160_pld : after (code [0x2B] (place 0x000200 [0x34, 0x12] (place 0x000100 [0x77, 0x77] emulation)))
    (fun t => t.sp == 0x0101 && t.d == 0x1234) = true := by decide
theorem test_v161_php : after (code [0x08] { native16 with p := 0xC3 })
    (fun t => t.sp == 0x01FE && t.pc == 0x8001 && t.byteAt 0x0001FF == 0xC3) = true := by decide
theorem test_v163_plp : after
    (code [0x28] (place 0x0001FF [0x10] { native16 with x := 0x1234, y := 0x5678, sp := 0x01FE }))
    (fun t => t.x == 0x0034 && t.y == 0x0078 && t.sp == 0x01FF && t.p == 0x10) = true := by decide
theorem test_v165_plp : after (code [0x28] { emulation with sp := 0x01FE })
    (fun t => t.sp == 0x01FF && t.pc == 0x8001) = true := by decide
theorem test_v167_pea : after
    (code [0xF4, 0x34, 0x12] native8)
    (fun t => t.sp == 0x01FD && t.pc == 0x8003 && t.byteAt 0x0001FF == 0x12 &&
      t.byteAt 0x0001FE == 0x34) = true := by decide
theorem test_v169_pei : after
    (code [0xD4, 0xFF] (place 0x0000FF [0x34, 0x12] (place 0x000000 [0x99] emulation)))
    (fun t => t.sp == 0x01FD && t.pc == 0x8002 && t.byteAt 0x0001FF == 0x12 &&
      t.byteAt 0x0001FE == 0x34) = true := by decide
theorem test_v170_per : after
    (code [0x62, 0xFD, 0xFF] native8)
    (fun t => t.sp == 0x01FD && t.pc == 0x8003 && t.byteAt 0x0001FF == 0x80 &&
      t.byteAt 0x0001FE == 0x00) = true := by decide
theorem test_v172_tax : after (code [0xAA] { native16 with c := 0x1280, x := 0x0055, p := 0x10 })
    (fun t => t.x == 0x0080 && t.p == 0x90) = true := by decide
theorem test_v174_tay : after (code [0xA8] { native16 with y := 0x1111 })
    (fun t => t.y == 0x0000 && t.p == 0x02) = true := by decide
theorem test_v175_txa : after (code [0x8A] { native16 with c := 0x1200, x := 0xABCD, p := 0x20 })
    (fun t => t.c == 0x12CD && t.p == 0xA0) = true := by decide
theorem test_v178_txy : after (code [0x9B] { native16 with x := 0x1234 })
    (fun t => t.y == 0x1234 && t.pc == 0x8001) = true := by decide
theorem test_v179_tyx : after (code [0xBB] { native8 with x := 0x0011 })
    (fun t => t.x == 0x0000 && t.p == 0x32) = true := by decide
theorem test_v180_tsx : after (code [0xBA] { native8 with sp := 0x12FF })
    (fun t => t.x == 0x00FF && t.p == 0xB0) = true := by decide
theorem test_v183_txs : after (code [0x9A] { native8 with x := 0x00F0, sp := 0x1FFF })
    (fun t => t.sp == 0x00F0 && t.pc == 0x8001) = true := by decide
theorem test_v184_txs : after (code [0x9A] { emulation with x := 0x00F0 })
    (fun t => t.sp == 0x01F0 && t.pc == 0x8001) = true := by decide
theorem test_v185_tcs : after (code [0x1B] { emulation with c := 0x1234 })
    (fun t => t.sp == 0x0134 && t.pc == 0x8001) = true := by decide
theorem test_v187_tsc : after (code [0x3B] { emulation with c := 0xFFFF })
    (fun t => t.c == 0x01FF && t.pc == 0x8001) = true := by decide
theorem test_v188_tcd : after (code [0x5B] { native8 with c := 0x8000 })
    (fun t => t.d == 0x8000 && t.p == 0xB0) = true := by decide
theorem test_v189_tdc : after (code [0x7B] { native8 with c := 0x1234 })
    (fun t => t.c == 0x0000 && t.p == 0x32) = true := by decide
theorem test_v190_xba : after (code [0xEB] { native16 with c := 0x1280 })
    (fun t => t.c == 0x8012 && t.pc == 0x8001) = true := by decide
theorem test_v193_xce : after (code [0xFB] emulation)
    (fun t => t.pc == 0x8001 && t.p == 0x31 && t.e == false) = true := by decide
theorem test_v194_xce : after
    (code [0xFB] { native16 with c := 0x1234, x := 0x1234, y := 0x5678, sp := 0x1FF0, p := 0x01 })
    (fun t => t.x == 0x0034 && t.y == 0x0078 && t.sp == 0x01F0 && t.p == 0x30 && t.e == true) = true := by decide
theorem test_v198_rep : after (code [0xC2, 0x30] emulation) (fun t => t.pc == 0x8002 && t.p == 0x30) = true := by decide
theorem test_v200_sep : after (code [0xE2, 0x10] { native16 with x := 0x1234, y := 0x5678 })
    (fun t => t.x == 0x0034 && t.y == 0x0078 && t.p == 0x10) = true := by decide
theorem test_v203_clc : after (code [0x18] { native16 with p := 0xFF })
    (fun t => t.pc == 0x8001 && t.p == 0xFE) = true := by decide
theorem test_v204_cld : after (code [0xD8] { native16 with p := 0xFF })
    (fun t => t.pc == 0x8001 && t.p == 0xF7) = true := by decide
theorem test_v205_cli : after (code [0x58] { native16 with p := 0xFF })
    (fun t => t.pc == 0x8001 && t.p == 0xFB) = true := by decide
theorem test_v206_clv : after (code [0xB8] { native16 with p := 0xFF })
    (fun t => t.pc == 0x8001 && t.p == 0xBF) = true := by decide
theorem test_v207_sec : after (code [0x38] native16) (fun t => t.pc == 0x8001 && t.p == 0x01) = true := by decide
theorem test_v208_sed : after (code [0xF8] native16) (fun t => t.pc == 0x8001 && t.p == 0x08) = true := by decide
theorem test_v209_sei : after (code [0x78] native16) (fun t => t.pc == 0x8001 && t.p == 0x04) = true := by decide
theorem test_v210_mvn : after
    (code [0x54, 0x7F, 0x7E] (place 0x7E1000 [0xAA, 0xBB, 0xCC]
      { native16 with c := 0x0002, x := 0x1000, y := 0x2000, dbr := 0x05 }))
    (fun t => t.c == 0x0001 && t.x == 0x1001 && t.y == 0x2001 &&
      t.dbr == 0x7F && t.byteAt 0x7F2000 == 0xAA) = true := by decide
theorem test_v213_mvp : after
    (code [0x44, 0x00, 0x00] (place 0x001000 [0xAA, 0xBB]
      { native16 with c := 0x0001, x := 0x1001, y := 0x1002, dbr := 0x05 }))
    (fun t => t.c == 0x0000 && t.x == 0x1000 && t.y == 0x1001 &&
      t.dbr == 0x00 && t.byteAt 0x001002 == 0xBB) = true := by decide
theorem test_v215_mvn : after (code [0x54, 0x01, 0x00] (place 0x0000FF [0x77] { native8 with x := 0x00FF }))
    (fun t => t.x == 0x0000 && t.y == 0x0001 && t.dbr == 0x01 && t.byteAt 0x010000 == 0x77) = true := by decide
theorem test_v217_brk : after
    (code [0x00, 0xEA] (place 0x00FFE7 [0x91] { native16 with pbr := 0x05, p := 0xC9 }))
    (fun t => t.sp == 0x01FB && t.pc == 0x9100 && t.pbr == 0x00 &&
      t.p == 0xC5 && t.byteAt 0x0001FF == 0x05) = true := by decide
theorem test_v218_brk : after
    (code [0x00, 0xEA] (place 0x00FFFF [0xA5] { emulation with pbr := 0x05, p := 0xF9 }))
    (fun t => t.sp == 0x01FC && t.pc == 0xA500 && t.pbr == 0x00 &&
      t.p == 0xF5 && t.byteAt 0x0001FF == 0x80) = true := by decide
theorem test_v220_cop : after
    (code [0x02, 0x05] (place 0x00FFF5 [0xA0] { emulation with sp := 0x0101 }))
    (fun t => t.sp == 0x01FE && t.pc == 0xA000 && t.p == 0x34 &&
      t.byteAt 0x000101 == 0x80 && t.byteAt 0x000100 == 0x02) = true := by decide
theorem test_v222_rti : after
    (code [0x40] (place 0x0001FC [0x30, 0x02, 0x80, 0x05]
      { native16 with x := 0x1234, y := 0x5678, sp := 0x01FB, pc := 0x9000, p := 0x04 }))
    (fun t => t.x == 0x0034 && t.y == 0x0078 && t.sp == 0x01FF &&
      t.pc == 0x8002 && t.pbr == 0x05) = true := by decide
theorem test_v223_rti : after
    (code [0x40] (place 0x0001FD [0xC9, 0x02, 0x80] { emulation with sp := 0x01FC, pc := 0xA500, p := 0x34 }))
    (fun t => t.sp == 0x01FF && t.pc == 0x8002 && t.p == 0xF9) = true := by decide
theorem test_v224_wai : after (code [0xCB] native16)
    (fun t => t.pc == 0x8001 && t.p == 0x00 && t.run == .waiting) = true := by decide
theorem test_v225_stp : after (code [0xDB] native16)
    (fun t => t.pc == 0x8001 && t.p == 0x00 && t.run == .stopped) = true := by decide
theorem test_v226_irq_native : after
    (code [0xEA] (place 0x00FFEF [0x94] { native16 with pc := 0x8005, pbr := 0x05, p := 0xC9, irqLine := true }))
    (fun t => t.sp == 0x01FB && t.pbr == 0x00 && t.p == 0xC5 &&
      t.byteAt 0x0001FF == 0x05 && t.byteAt 0x0001FE == 0x80) = true := by decide
theorem test_v229_nmi_first : after
    (code [0xEA] (place 0x00FFFB [0xA3]
      { emulation with pc := 0x8005, p := 0x34, irqLine := true, nmiPending := true }))
    (fun t => t.sp == 0x01FC && t.pc == 0xA300 && t.byteAt 0x0001FF == 0x80 &&
      t.byteAt 0x0001FE == 0x05 && t.byteAt 0x0001FD == 0x24) = true := by decide
theorem test_v233_wai_masked : after
    (code [0xEA] { native16 with pc := 0x8001, p := 0x04, run := .waiting, irqLine := true })
    (fun t => t.pc == 0x8002 && t.p == 0x04 && t.run == .running) = true := by decide
theorem test_v235_stopped : after
    (code [0xEA] { native16 with pc := 0x8001, run := .stopped, irqLine := true, nmiPending := true })
    (fun t => t.run == .stopped && t.nmiPending && t.pc == 0x8001) = true := by decide
theorem test_v6_wdm : after (code [0x42, 0xFF] native16) (fun t => t.pc == 0x8002 && t.p == 0x00) = true := by decide
theorem test_v7_nop : after (code [0xEA] emulation) (fun t => t.pc == 0x8001 && t.p == 0x30) = true := by decide

/-! ## Abort, reset, bus, cycles, assembler -/

/-- The inputs with everything high. -/
def quiet : PinInput :=
  { resb := .high, nmiEdge := false, irqLow := false, abort := .none, rdyForcedHigh := false, platform := [],
    answers := [] }

/-- D1: a device register reads as the byte the platform shows. -/
theorem test_platform_read : after (code [0xA5, 0x10] { emulation with env := [{ quiet with platform := [(0x000010, 0x5A)] }] })
    (fun t => t.c == 0x005A) = true := by decide

/-- R457, D1: the platform substitutes the IRQ vector of Emulation mode in the step that fetches it. -/
theorem test_platform_vector : after
    { emulation with env := [{ quiet with irqLow := true, platform := [(0x00FFFE, 0x34), (0x00FFFF, 0x12)] }] }
    (fun t => t.pc == 0x1234) = true := by decide

/-- R90, D1: LDA of its own opcode's address reads the platform's answer to that read, whatever the fetch read there. -/
theorem test_answer_read : after
    (code [0xAD, 0x00, 0x80] { emulation with env := [{ quiet with answers := [⟨.data, 0x008000, 0x5A⟩] }] })
    (fun t => t.c == 0x005A && t.byteAt 0x008000 == 0xAD) = true := by decide

/-- R77, D1: an IRQ frame pushed over the vector, which is ROM: the vector is what the platform answers. -/
theorem test_answer_vector : after
    { native16 with
      sp := 0xFFF1
      env := [{ quiet with irqLow := true, answers := [⟨.vector, 0x00FFEE, 0x34⟩, ⟨.vector, 0x00FFEF, 0x12⟩] }] }
    (fun t => t.sp == 0xFFED && t.pc == 0x1234) = true := by decide

/-- Step 1 of V237: X, P and PC as before, the latch set with the address of the opcode. -/
theorem test_v237_aborted : after (code [0xE8] { emulation with x := 0x00FF, env := [{ quiet with abort := .inWindow }] })
    (fun t => t.x == 0x00FF && t.p == 0x30 && t.pc == 0x8000 && t.abortPending == some 0x008000) = true := by decide

/-- Step 2 of V237: the interrupt sequence of ABORT in Emulation mode. -/
theorem test_v237_sequence : after (place 0x00FFF9 [0xA2] { emulation with x := 0x00FF, abortPending := some 0x008000 })
    (fun t => t.pc == 0xA200 && t.p == 0x34 && t.byteAt 0x0001FD == 0x20 && t.byteAt 0x0001FF == 0x80 &&
      t.abortPending == none) = true := by decide

/-- R427: ABORTB in the wait, and in WAI's own step: the latch takes the address of the WAI, the processor waits on, and RDY
is high again. -/
theorem test_abort_waiting : ∀ s ∈ [{ emulation with pc := 0x8001, run := .waiting, env := [{ quiet with abort := .atStart }] },
      code [0xCB] { emulation with env := [{ quiet with abort := .inWindow }] }],
    after s (fun t => t.run == .waiting && t.abortPending == some 0x008000 && !pinRdyPulledLow t) = true := by decide

/-- R470, R426: IRQB with I = 1 ends the wait, and the instruction after WAI is aborted in the same step. -/
theorem test_abort_after_wait : after (code [0xE8]
      { emulation with p := 0x34, run := .waiting, env := [{ quiet with irqLow := true, abort := .inWindow }] })
    (fun t => t.run == .running && t.x == 0x0000 && t.pc == 0x8000 && t.abortPending == some 0x008000) = true := by decide

/-- U7: ABORTB in the reset sequence is refused; U6: so is a pulse held too long in a wait. -/
theorem test_abort_refused :
    step { emulation with resetLine := true, env := [{ quiet with abort := .inWindow }] } = .refused .abortDuringSequence ∧
    step { emulation with run := .waiting, env := [{ quiet with abort := .outsideWindow }] } =
      .refused .abortOutsideWindow := ⟨rfl, rfl⟩

/-- R501: IRQB with I = 0 ends the wait, and RESB falls in the sequence that then begins, at the push of PCH. -/
theorem test_cut_after_wait : (State.begun { quiet with irqLow := true }
      { emulation with run := .waiting, irqLine := true }).map (fun t => (t.dueCycles.map (·.addr)).take 1) =
    some [0x0001FF] := by decide

/-- R52: RDY is pulled low in the wait, and high again while RESB is low. -/
theorem test_rdy : pinRdyPulledLow { emulation with run := .waiting } = true ∧
    after { emulation with run := .waiting, env := [{ quiet with resb := .low }] } (fun t => !pinRdyPulledLow t) = true := by
  decide

/-- V239: the values forced while RESB is low, from a stopped processor. -/
theorem test_v239_low : after
    { native16 with x := 0x1234, d := 0x4321, dbr := 0x7E, pbr := 0x05, run := .stopped, env := [{ quiet with resb := .low }] }
    (fun t => t.e && t.resetLine && t.d == 0x0000 && t.dbr == 0x00 && t.pbr == 0x00) = true := by decide

/-- V239: RESB returns high. -/
theorem test_v239_high : after
    (place 0x00FFFD [0xA4] { emulation with resetLine := true, run := .stopped, nmiPending := true, env := [quiet] })
    (fun t => t.pc == 0xA400 && t.run == .running && t.nmiPending == false && t.resetLine == false &&
      t.flag .i) = true := by decide

/-- JSR (a,x) whose first push lands on its own third byte: the high byte of the pointer is the byte pushed (R298). -/
theorem test_late_operand : after (code [0xFC, 0x00, 0x90] (place 0x008000 [0x34, 0x12]
      { native16 with sp := 0x8002 }))
    (fun t => t.byteAt 0x008002 == 0x80 && t.pc == wordOfBytes (t.byteAt 0x008000) (t.byteAt 0x008001)) = true := by decide

/-- V89: a read-modify-write reads low, high and writes high, low, with MLB low throughout (R78, R88). -/
theorem test_v89_bus : (busAccesses (.incAbs 0x2000) (place 0x002000 [0xFF, 0xFF] native16)).drop 3 =
    [⟨.data, 0x002000, 0xFF, false, true⟩, ⟨.data, 0x002001, 0xFF, false, true⟩, ⟨.data, 0x002001, 0x00, true, true⟩,
     ⟨.data, 0x002000, 0x00, true, true⟩] := by decide

/-- V241 to V260, cycle counts. -/
theorem test_cycles : instrCycles (.ldaImm (.word 0x1234)) native16 = 3 ∧
    instrCycles (.ldaDir 0x10) { native16 with d := 0x0034 } = 5 ∧
    instrCycles (.ldaAbsX 0x10F0) { native8 with x := 0x0010 } = 5 ∧ instrCycles (.ldaAbsX 0x1000) native8 = 4 ∧
    instrCycles (.staAbsX 0x1000) native8 = 5 ∧ instrCycles (.beq 0x80) { emulation with p := 0x32 } = 4 ∧
    instrCycles (.incAbs 0x2000) native16 = 8 ∧ instrCycles (.brk 0x00) native16 = 8 ∧
    instrCycles .rti emulation = 6 ∧ instrCycles (.rep 0x30) native8 = 3 := by decide

/-- S1: the byte selection of immediates. -/
theorem test_s1_select : selectImm true .high 0x01020304 = .byte 0x03 ∧ selectImm false .high 0x01020304 = .word 0x0203 ∧
    selectImm false .bank 0x01020304 = .word 0x0102 := by decide

/-! ## Witnesses -/

/-- An instruction answers a next state that the check holds of. -/
def answers (i : Instr) (s : State) (check : State → Bool) : Bool :=
  match exec i s with
  | .next t => check t
  | .fault _ | .refused _ => false

theorem answers_next {i : Instr} {s : State} {check : State → Bool} (h : answers i s check = true) :
    ∃ t, exec i s = .next t ∧ check t = true := by
  unfold answers at h
  split at h
  · exact ⟨_, by assumption, h⟩
  · cases h
  · cases h

/-- DecodeOfEncode, ImmediateLengths: well-formed immediates of both lengths. -/
theorem witness_well_formed : (Instr.ldaImm (.byte 0x34)).wellFormed true true = true ∧
    (Instr.ldaImm (.word 0x1234)).wellFormed false true = true ∧
    (Instr.ldxImm (.byte 0x34)).wellFormed true true = true ∧ (Instr.ldxImm (.word 0x1234)).wellFormed true false = true ∧
    (Instr.ldaImm (.byte 0x34)).opcode = 0xA9 ∧ (Instr.ldxImm (.byte 0x34)).opcode = 0xA2 ∧
    (Instr.sep 0x30).opcode = 0xE2 ∧ (Instr.jmpAbs 0x0000).opcode = (Instr.jmpAbs 0x1234).opcode := by decide

/-- EncodeOfDecode. -/
theorem witness_decode : decode false false [0xA9, 0x34, 0x12, 0xEA] = .ok (.ldaImm (.word 0x1234)) [0xEA] := by decide

/-- A state that meets the invariant, in Emulation mode. -/
theorem witness_inv : emulation.Inv := ⟨by decide, by decide, by decide, by decide⟩

/-- ImmediateLengths, last clause: a state of Emulation mode whose next instruction is an immediate. -/
theorem witness_immediate : (code [0xA9, 0x34] emulation).Inv ∧ (code [0xA9, 0x34] emulation).e = true ∧
    (code [0xA9, 0x34] emulation).fetch.operand = .imm (.byte 0x34) :=
  ⟨⟨by decide, by decide, by decide, by decide⟩, by decide, by decide⟩

/-- StepKeepsInvariant: a state that meets it, and its step answers. -/
theorem witness_step : (code [0xE8] emulation).Inv ∧ safeStep (code [0xE8] emulation) :=
  ⟨⟨by decide, by decide, by decide, by decide⟩, ⟨_, rfl⟩⟩

/-- StepRunsDecoded: an undisturbed state whose opcode the platform shows, and what its bytes decode to. -/
theorem witness_undisturbed :
    ({ emulation with env := [{ quiet with platform := [(0x008000, 0xEA), (0x008000, 0xE8)] }] } : State).undisturbed ∧
    decode true true [0xE8, 0x00, 0x00, 0x00] = .ok .inx [0x00, 0x00, 0x00] ∧
    (emulation.platformShows [(0x008000, 0xEA), (0x008000, 0xE8)]).codeByte 0 = 0xE8 ∧
    (0x008001 : Addr) ∉ [((0x008000 : Addr), (0xEA : Byte)), (0x008000, 0xE8)].map Prod.fst :=
  ⟨⟨by decide, by decide, by decide, by decide, by decide, by decide, by decide, by decide⟩, by decide, by decide, by decide⟩

/-- Two answers to the fetch of the bank byte of a JSL at 008000, of which the first counts. -/
def bankAnswers : List Answer := [⟨.fetch, 0x008003, 0x12⟩, ⟨.fetch, 0x008003, 0x34⟩]

/-- StepRunsDecoded: an access that the platform answers, with nothing for it before, and one that it does not answer. -/
theorem witness_answers : bankAnswers = [] ++ ⟨.fetch, 0x008003, 0x12⟩ :: [⟨.fetch, 0x008003, 0x34⟩] ∧
    ∀ x ∈ bankAnswers, ¬ (x.kind = .data ∧ x.addr = 0x008003) := by decide

/-- RESB or ABORTB in the next step. -/
def withInput (i : PinInput) (s : State) : State := { s with env := [i] }

/-- StepStops, first clause: one state for each of its three cases. -/
theorem witness_stops_never : emulation.input.abort = .none ∧
    (withInput { quiet with resb := .low, abort := .outsideWindow } emulation).input.resb ≠ .high ∧
    ({ emulation with run := .stopped } : State).resetLine = false ∧
    ({ emulation with run := .stopped } : State).run = .stopped := by decide

/-- The hypotheses of HardwareInterrupts, and with ABORTB pulsed those of StepStops: a running processor, RESB high. -/
def runs (s : State) : Bool := s.run == .running && !s.resetLine && s.input.resb == .high

/-- No sequence is due in the next step. -/
def noneDue (s : State) : Bool :=
  s.abortPending == none && !s.nmiPending && !s.input.nmiEdge && (!s.input.irqLow || s.flag .i)

/-- ABORTB pulsed at the next step. -/
def pulsed (a : AbortInput) (s : State) : State := withInput { quiet with abort := a } s

/-- StepStops: ABORTB in the step that releases RESB, and in a waiting processor that nothing wakes: in time, and too long. -/
theorem witness_stops_release_wait : (pulsed .inWindow { emulation with resetLine := true }).input.resb = .high ∧
    (pulsed .inWindow { emulation with resetLine := true }).input.abort ≠ .none ∧
    ∀ a ∈ [AbortInput.atStart, .inWindow, .outsideWindow], ∀ s, s = pulsed a { emulation with run := .waiting } →
      s.run = .waiting ∧ s.resetLine = false ∧ s.input.resb = .high ∧ s.input.abort = a ∧ s.nmiPending = false ∧
      s.input.nmiEdge = false ∧ s.input.irqLow = false ∧ s.input.rdyForcedHigh = false :=
  ⟨by decide, by decide, fun a ha s hs => by
    subst hs; exact ⟨rfl, rfl, rfl, rfl, rfl, rfl, rfl, rfl⟩⟩

/-- A waiting processor that IRQB wakes with I = 1, at INX, with ABORTB. -/
def wokenByIrq (a : AbortInput) : State :=
  withInput { quiet with irqLow := true, abort := a } (code [0xE8] { emulation with p := 0x34, run := .waiting })

/-- StepStops, AbortedInstruction: ABORTB in a step that ends a wait with nothing due, in each of its three places. -/
theorem witness_stops_awake : ∀ a ∈ [AbortInput.atStart, .inWindow, .outsideWindow],
    ((wokenByIrq a).run == .waiting && !(wokenByIrq a).resetLine && (wokenByIrq a).input.resb == .high &&
      (wokenByIrq a).input.irqLow && (wokenByIrq a).input.abort == a && noneDue (wokenByIrq a) &&
      (wokenByIrq a).sampled.fetch.mnemonic ∉ [.BRK, .COP]) = true := by decide

/-- StepStops: ABORTB in a step that ends a wait with an NMI due. -/
theorem witness_stops_awake_due : ∀ s, s = withInput { quiet with nmiEdge := true, abort := .inWindow }
      { emulation with run := .waiting } →
    s.run = .waiting ∧ s.resetLine = false ∧ s.input.resb = .high ∧ s.input.nmiEdge = true ∧ s.input.abort = .inWindow :=
  fun s hs => by subst hs; exact ⟨rfl, rfl, rfl, rfl, rfl⟩

/-- StepStops: ABORTB at a running processor with a sequence due, each of the four causes. -/
theorem witness_stops_due : (runs (pulsed .inWindow { emulation with abortPending := some 0x008000 }) &&
    runs (pulsed .inWindow { emulation with nmiPending := true }) &&
    runs (withInput { quiet with nmiEdge := true, abort := .outsideWindow } emulation) &&
    runs (withInput { quiet with irqLow := true, abort := .inWindow } emulation) && !emulation.flag .i) = true := by decide

/-- StepStops, AbortedInstruction: no sequence due, ABORTB outside its window; inside it with BRK, and with INX. -/
theorem witness_stops_abort :
    (runs (pulsed .outsideWindow emulation) && noneDue (pulsed .outsideWindow emulation)) = true ∧
    (pulsed .outsideWindow emulation).input.abort = .outsideWindow ∧
    (runs (pulsed .inWindow (code [0x00] emulation)) && noneDue (pulsed .inWindow (code [0x00] emulation))) = true ∧
    (pulsed .inWindow (code [0x00] emulation)).sampled.fetch.mnemonic ∈ [.BRK, .COP] ∧
    (runs (pulsed .inWindow (code [0xE8] emulation)) && noneDue (pulsed .inWindow (code [0xE8] emulation))) = true ∧
    (pulsed .inWindow (code [0xE8] emulation)).input.abort = .inWindow ∧
    (pulsed .atStart (code [0xE8] emulation)).input.abort ∈ [AbortInput.atStart, .inWindow] ∧
    (pulsed .inWindow (code [0xE8] emulation)).sampled.fetch.mnemonic ∉ [.BRK, .COP] := by decide

/-- RegisterWriters: each register is changed by an instruction of its list. -/
theorem witness_register_writers : answers .inx native16 (fun t => t.x != native16.x) = true ∧
    answers .iny native16 (fun t => t.y != native16.y) = true ∧
    answers (.ldaImm (.word 0x1234)) native16 (fun t => t.c != native16.c) = true ∧
    answers .pha native16 (fun t => t.sp != native16.sp) = true ∧
    answers .tcd { native16 with c := 0x1234 } (fun t => t.d != 0x0000) = true ∧
    answers (.mvn 0x7F 0x7E) native16 (fun t => t.dbr != native16.dbr) = true ∧
    answers (.jmpLong 0x123456) native16 (fun t => t.pbr != native16.pbr) = true ∧
    answers .xce { native16 with p := 0x01 } (fun t => t.e != false) = true ∧
    answers .wai native16 (fun t => t.run != .running) = true := by decide

/-- FlagWriters: SEP and REP change every flag. -/
theorem witness_flag_writers : ∀ f ∈ [Flag.n, .v, .m, .x, .d, .i, .z, .c],
    answers (.sep 0xFF) native16 (fun t => t.flag f != native16.flag f) = true := by decide

/-- BusTraceGivesMemory: an instruction that stores answers. -/
theorem witness_bus_trace : ∃ t, exec (.staAbs 0xFFFF) { native16 with c := 0xABCD, dbr := 0x12 } = .next t ∧
    (t.byteAt 0x130000 == 0xAB) = true := answers_next (by decide)

/-- EffectiveAddressesBankZero: both cases of the page wrap. -/
theorem witness_page_wrap : (emulation.e = true ∧ emulation.d.toNat % 2 ^ 8 = 0) ∧
    ¬ (({ emulation with d := 0x0180 } : State).e = true ∧ ({ emulation with d := 0x0180 } : State).d.toNat % 2 ^ 8 = 0) ∧
    ¬ (native16.e = true ∧ native16.d.toNat % 2 ^ 8 = 0) := by decide

/-- LoadAccumulator, LoadIndex, Stores, Logic, IncrementDecrement, TestAndModify: an instruction of each mnemonic. -/
theorem witness_mnemonics : (Instr.ldaDirX 0x10).mnemonic = .LDA ∧ (Instr.ldxDirY 0x10).mnemonic = .LDX ∧
    (Instr.ldyAbs 0x1234).mnemonic = .LDY ∧ (Instr.staStk 0x01).mnemonic = .STA ∧ (Instr.stxDir 0x10).mnemonic = .STX ∧
    (Instr.styDir 0x10).mnemonic = .STY ∧ (Instr.stzAbsX 0x1234).mnemonic = .STZ ∧
    (Instr.andDirInd 0x10).mnemonic = .AND ∧ (Instr.oraLong 0x123456).mnemonic = .ORA ∧
    (Instr.eorImm (.byte 0x01)).mnemonic = .EOR ∧ Instr.incAcc.mnemonic = .INC ∧ (Instr.decDir 0x10).mnemonic = .DEC ∧
    (Instr.tsbDir 0x10).mnemonic = .TSB ∧ (Instr.trbAbs 0x1234).mnemonic = .TRB := by decide

/-- AdcBinary, SbcBinary. -/
theorem witness_binary : (Instr.adcImm (.byte 0x80)).mnemonic = .ADC ∧ (Instr.sbcImm (.byte 0x80)).mnemonic = .SBC ∧
    native8.flag .d = false := by decide

/-- A state with D = 1 and 8-bit A = 99. -/
def decimal8 : State := { native8 with p := 0x38, c := 0x0099 }

/-- DecimalValid: 99 and 01, for ADC and SBC. -/
theorem witness_decimal_valid : decimal8.flag .d = true ∧
    bcdOperands decimal8.wA (decimal8.getA decimal8.wA) (decimal8.operandValue decimal8.wA (.adcImm (.byte 0x01))) = true ∧
    bcdOperands decimal8.wA (decimal8.getA decimal8.wA) (decimal8.operandValue decimal8.wA (.sbcImm (.byte 0x01))) = true := by
  decide

/-- DecimalInvalid: 99 and 0A. -/
theorem witness_decimal_invalid : (Instr.adcImm (.byte 0x0A)).mnemonic ∈ [.ADC, .SBC] ∧
    bcdOperands decimal8.wA (decimal8.getA decimal8.wA) (decimal8.operandValue decimal8.wA (.adcImm (.byte 0x0A))) = false := by
  decide

/-- Compare: one case of each mnemonic. -/
theorem witness_compare :
    ((Instr.cmpDir 0x10).mnemonic = .CMP ∧ Width.w16 = native16.wA ∧ (0x0000 : Word) = native16.c) ∧
    ((Instr.cpxDir 0x10).mnemonic = .CPX ∧ Width.w16 = native16.wX ∧ (0x0000 : Word) = native16.x) ∧
    ((Instr.cpyDir 0x10).mnemonic = .CPY ∧ Width.w8 = native8.wX ∧ (0x0000 : Word) = native8.y) := by decide

/-- BitTest: the immediate form and a memory form. -/
theorem witness_bit : (∃ v, Instr.bitImm (.byte 0xC0) = .bitImm v) ∧ (∀ v, Instr.bitDir 0x10 ≠ .bitImm v) ∧
    (Instr.bitDir 0x10).mnemonic = .BIT := ⟨⟨_, rfl⟩, fun _ h => Instr.noConfusion h, rfl⟩

/-- EffectiveAddressesBankZero: operands without an address. -/
theorem witness_operands : Instr.ldaImm (.byte 0x34) ∈ [Instr.oraImm (.byte 0x34), .ldaImm (.byte 0x34)] ∧
    (Instr.ldaImm (.byte 0x34)).operand = .imm (.byte 0x34) ∧ (Instr.cpxImm (.word 0x1234)).operand = .imm (.word 0x1234) ∧
    Instr.aslAcc.operand = .acc := by decide

/-- A state with 8-bit A = 81 and carry set. -/
def carry81 : State := { native8 with p := 0x31, c := 0x1281 }

/-- Shifts: the four cases on A = 81 with carry set. -/
theorem witness_shifts : 0x81 = carry81.wA.value (carry81.operandValue carry81.wA .aslAcc) ∧
    (Instr.aslAcc.mnemonic = .ASL ∧ 0x02 = (2 * 0x81) % 2 ^ carry81.wA.bits ∧ 1 = 0x81 / 2 ^ (carry81.wA.bits - 1)) ∧
    (Instr.lsrAcc.mnemonic = .LSR ∧ 0x40 = 0x81 / 2 ∧ 1 = 0x81 % 2) ∧
    (Instr.rolAcc.mnemonic = .ROL ∧ 0x03 = (2 * 0x81 + (carry81.flag .c).toNat) % 2 ^ carry81.wA.bits ∧
      1 = 0x81 / 2 ^ (carry81.wA.bits - 1)) ∧
    (Instr.rorAcc.mnemonic = .ROR ∧ 0xC0 = 0x81 / 2 + (carry81.flag .c).toNat * 2 ^ (carry81.wA.bits - 1) ∧
      1 = 0x81 % 2) := by decide

/-- Branches: a branch taken and one not taken. -/
theorem witness_branches : (Instr.bcs 0x10 = .bcs 0x10 ∧ (0xB0 : Byte) = 0xB0 ∧ true = carry81.flag .c) ∧
    (Instr.bcc 0x10 = .bcc 0x10 ∧ (0x90 : Byte) = 0x90 ∧ false = !carry81.flag .c) := by decide

/-- JsrIndexedIndirect, and the first clause of JslLong: the stack misses the instruction. -/
theorem witness_calls : (code [0xFC, 0x34, 0x12] native16).read .fetch 0x008002 = hiByte 0x1234 ∧
    (code [0x22, 0x56, 0x34, 0x12] native16).read .fetch 0x008003 = addrBank 0x123456 ∧
    bankAddr native16.pbr (native16.pc + 3) ≠ bank0 native16.sp := by decide

/-- JslLong: the push of PBR lands on the bank byte, which the platform answers itself or not. -/
theorem witness_call_on_stack : ∀ l ∈ [[], bankAnswers],
    (code [0x22, 0x56, 0x34, 0x12] { native16 with sp := 0x8003, answers := l }).read .fetch 0x008003 = addrBank 0x123456 ∧
    bankAddr native16.pbr (native16.pc + 3) = bank0 ({ native16 with sp := 0x8003 } : State).sp ∧
    (answerTo .fetch 0x008003 l = none ↔ l = []) := by decide

/-- SubroutineRoundTrip: a state in Native mode, where the platform answers a fetch itself. -/
theorem witness_native : native16.e = false ∧ ∀ x ∈ ({ native16 with answers := bankAnswers } : State).answers,
    x.kind ≠ .data := by decide

/-- PushRegisters, PushBytes, PushWide: one case of each. -/
theorem witness_pushes :
    (Instr.pha = .pha ∧ (0x48 : Byte) = 0x48 ∧ Width.w16 = native16.wA ∧ (0x0000 : Word) = native16.c) ∧
    (Instr.phx = .phx ∧ (0xDA : Byte) = 0xDA ∧ Width.w8 = native8.wX ∧ (0x0000 : Word) = native8.x) ∧
    (Instr.phk = .phk ∧ (0x4B : Byte) = 0x4B ∧ (0x00 : Byte) = native8.pbr) ∧
    (Instr.per 0x0010 = .per 0x0010 ∧ (0x8013 : Word) = native8.pc + 3 + 0x0010) := by decide

/-- PullRegisters: both widths. -/
theorem witness_pulls : Width.w8 = native8.wA ∧ Width.w8 = native8.wX ∧ Width.w16 = native16.wA ∧ Width.w16 = native16.wX := by
  decide

/-- PullStatus, ReturnFromInterrupt: in Native mode, P pulled with X set and with X clear. -/
theorem witness_pull_status :
    answers .plp (place 0x000200 [0x10] native16) (fun t => !native16.e && t.flag .x) = true ∧
    answers .plp (place 0x000200 [0x00] native16) (fun t => !t.flag .x) = true ∧
    answers .rti (place 0x000200 [0x10] native16) (fun t => !native16.e && t.flag .x) = true ∧
    answers .rti (place 0x000200 [0x00] native16) (fun t => !t.flag .x) = true := by decide

/-- ExchangeModes: both values of C. -/
theorem witness_exchange : carry81.flag .c = true ∧ native8.flag .c = false := by decide

/-- FlagInstructions: one of the seven. -/
theorem witness_flag_instruction : Instr.sed = .sed ∧ (0xF8 : Byte) = 0xF8 ∧ Flag.d = .d ∧ true = true := by decide

/-- RepSep: SEP with X set after it, and with X clear after it. -/
theorem witness_sep : answers (.sep 0x10) native16 (fun t => t.flag .x) = true ∧
    answers (.sep 0x20) native16 (fun t => !t.flag .x) = true := by decide

/-- BlockMoveByte: C at 0 and not at 0. -/
theorem witness_move_byte : (Instr.mvn 0x7F 0x7E = .mvn 0x7F 0x7E ∧ (1 : Word) = 1) ∧ native16.c = 0x0000 ∧
    ({ native16 with c := 0x0001 } : State).c ≠ 0x0000 := by decide

/-- BlockMoveWhole: two bytes whose destination and source are apart. -/
theorem witness_move_whole : (∀ x ∈ native16.answers, x.kind ≠ .data) ∧ ∀ j ≤ 1, ∀ k ≤ 1, bankAddr 0x7F (native16.wX.stepped native16.y 1 j) ≠
    bankAddr 0x7E (native16.wX.stepped native16.x 1 k) := by decide

/-- InterruptRoundTrip: the state after an IRQ sequence from a state that meets the invariant. -/
theorem witness_round_trip : emulation.Inv ∧ (∀ x ∈ emulation.answers, x.kind ≠ .data) ∧
    Entered .irq 0x00 0x8000 emulation (emulation.interrupt .irq 0x00 0x8000) :=
  ⟨witness_inv, by decide, State.interrupt_entered _ _ _ _⟩

/-- HardwareInterrupts: a state for each clause; for NMI one with the latch set and one with the edge of this step. -/
theorem witness_hardware :
    (runs { emulation with abortPending := some 0x008000 } && runs { emulation with nmiPending := true } &&
      runs (withInput { quiet with nmiEdge := true } emulation) && runs { emulation with irqLine := true }) = true ∧
    ({ emulation with abortPending := some 0x008000 } : State).input.abort = .none ∧
    ({ emulation with nmiPending := true } : State).abortPending = none ∧
    (withInput { quiet with nmiEdge := true } emulation).input.nmiEdge = true ∧
    ({ emulation with irqLine := true } : State).input.irqLow = true ∧
    ({ emulation with irqLine := true } : State).input.nmiEdge = false ∧
    ({ emulation with irqLine := true } : State).nmiPending = false ∧
    ({ emulation with irqLine := true } : State).flag .i = false := by decide

/-- A waiting state. -/
def waiting : State := { emulation with run := .waiting }

/-- The state that the statement Waiting calls base. -/
def woken (s : State) : State :=
  { s.sampled with
    run := .running
    nmiPending := s.nmiPending || s.input.nmiEdge
    abortPending := if s.input.abort = .none then s.abortPending
      else some (s.abortPending.getD (bankAddr s.pbr (s.pc - 1))) }

/-- The hypotheses of Waiting. -/
def waits (s : State) : Bool := s.run == .waiting && !s.resetLine && s.input.resb == .high

/-- Waiting: nothing wakes it, with and without ABORTB. -/
theorem witness_waiting : ∀ s ∈ [waiting, pulsed .atStart waiting, pulsed .inWindow waiting],
    waits s = true ∧ s.input.abort ≠ .outsideWindow ∧
    (woken s).nmiPending = false ∧ (woken s).irqLine = false ∧ (woken s).rdyForcedHigh = false := by decide

/-- Waiting: NMI edge with ABORTB latched; NMI edge alone; IRQB low with I = 0; IRQB low with I = 1. -/
theorem witness_waking :
    (waits (withInput { quiet with nmiEdge := true, abort := .atStart } waiting) &&
      waits (withInput { quiet with nmiEdge := true } waiting) && waits (withInput { quiet with irqLow := true } waiting) &&
      waits (withInput { quiet with irqLow := true } { waiting with p := 0x34 })) = true ∧
    (woken (withInput { quiet with nmiEdge := true, abort := .atStart } waiting)).abortPending = some 0x007FFF ∧
    (woken (withInput { quiet with nmiEdge := true } waiting)).abortPending = none ∧
    (woken (withInput { quiet with nmiEdge := true } waiting)).nmiPending = true ∧
    (woken (withInput { quiet with irqLow := true } waiting)).nmiPending = false ∧
    (woken (withInput { quiet with irqLow := true } waiting)).irqLine = true ∧ waiting.flag .i = false ∧
    ({ waiting with p := 0x34 } : State).flag .i = true := by decide

/-- Stopped: NMIB, IRQB and ABORTB scheduled, RESB high. -/
theorem witness_stopped : ({ emulation with run := .stopped } : State).run = .stopped ∧ emulation.resetLine = false ∧
    ∀ q ∈ [{ quiet with nmiEdge := true, irqLow := true, abort := AbortInput.outsideWindow }, quiet],
      q.resb = .high ∧ q.platform = [] := by
  decide

/-- ResetSequence: RESB low at a boundary, in mid-instruction and held; and released. -/
theorem witness_reset : (withInput { quiet with resb := .low } emulation).input.resb ≠ .high ∧
    (withInput { quiet with resb := .lowMidInstruction } emulation).input.resb ≠ .high ∧
    ({ emulation with resetLine := true } : State).input.resb ≠ .high ∧
    (withInput { quiet with resb := .lowMidInstruction } { emulation with run := .stopped }).run = .stopped ∧
    (withInput { quiet with resb := .lowMidInstruction } waiting).run = .waiting ∧
    (withInput { quiet with resb := .lowMidInstruction } waiting).input.irqLow = false ∧
    (withInput { quiet with resb := .lowMidInstruction } waiting).input.rdyForcedHigh = false ∧
    (withInput quiet { emulation with resetLine := true }).resetLine = true ∧
    (withInput quiet { emulation with resetLine := true }).input.abort = .none ∧
    (withInput quiet { emulation with resetLine := true }).input.resb = .high := by decide

end Sys2Proof.Tests
end

