-- ==== Sys2Proof/Proofs/Encoding.lean ====
section
/-!
PROOFS. The statements of 30_encoding.md about opcodes and lengths (R112, R124). A case analysis over the instructions says that
each stands in the cell of its opcode (`Instr.gives_cell`) and what that cell's format is (`Instr.describes_cell`), and one
evaluation of the opcode map that every opcode is some instruction's (`exists_opcode`); the rest follows from the three.
-/

namespace Sys2Proof

/-! ## The cells of the opcode map -/

/-- The two flags that govern the length of an immediate (R112): P.M and P.X. -/
inductive WidthFlag where
  | m
  | x

/-- The value of the governing flag, given P.M and P.X. -/
def WidthFlag.pick (m x : Bool) : WidthFlag → Bool
  | .m => m
  | .x => x

/-- The opcodes that the flag governs. -/
def WidthFlag.opcodes : WidthFlag → List Byte
  | .m => [0x09, 0x29, 0x49, 0x69, 0x89, 0xA9, 0xC9, 0xE9]
  | .x => [0xA0, 0xA2, 0xC0, 0xE0]

/-- The instructions that the flag governs. -/
def WidthFlag.forms : WidthFlag → List (Imm → Instr)
  | .m => [.oraImm, .andImm, .eorImm, .adcImm, .bitImm, .ldaImm, .cmpImm, .sbcImm]
  | .x => [.ldyImm, .ldxImm, .cpyImm, .cpxImm]

/-- The cell of an immediate that the flag governs. -/
def WidthFlag.cell : WidthFlag → (Imm → Instr) → Form
  | .m => .immM
  | .x => .immX

/-- Whether an operand is an immediate of two bytes. -/
def Operand.isWideImm : Operand → Bool
  | .imm (.word _) => true
  | _ => false

/-- An instruction of opcode `op` whose operand bytes are `bytes`, whatever P.M and P.X. It can be an immediate: those of REP
and SEP have one byte (R112). -/
structure IsFixed (op : Byte) (bytes : List Byte) (i : Instr) : Prop where
  opcode : i.opcode = op
  bytes : i.operand.bytes = bytes
  not_wide : i.operand.isWideImm = false
  wellFormed : ∀ m x, i.wellFormed m x = true

/-- An instruction of opcode `op` with the immediate `v`, whose length `flag` governs. -/
structure IsSized (op : Byte) (flag : WidthFlag) (v : Imm) (i : Instr) : Prop where
  opcode : i.opcode = op
  governed : op ∈ flag.opcodes
  operand : i.operand = .imm v
  wellFormed : ∀ m x, i.wellFormed m x = v.fits (flag.pick m x)

/-- All instructions of a cell have the cell's opcode `op` and the operand bytes of its format (R111, R112). -/
inductive Form.Describes (op : Byte) : Form → Prop
  | zero {i : Instr} : IsFixed op [] i → Describes op (.zero i)
  | one {f : Byte → Instr} : (∀ b, IsFixed op [b] (f b)) → Describes op (.one f)
  | two {f : Word → Instr} : (∀ w, IsFixed op [loByte w, hiByte w] (f w)) → Describes op (.two f)
  | three {f : Addr → Instr} :
    (∀ a, IsFixed op [loByte (addrOffset a), hiByte (addrOffset a), addrBank a] (f a)) → Describes op (.three f)
  | immM {f : Imm → Instr} : (∀ v, IsSized op .m v (f v)) → Describes op (.immM f)
  | immX {f : Imm → Instr} : (∀ v, IsSized op .x v (f v)) → Describes op (.immX f)
  | banks {f : Byte → Byte → Instr} : (∀ dst src, IsFixed op [dst, src] (f dst src)) → Describes op (.banks f)

/-- The cell gives the instruction for some operand. -/
inductive Form.Gives : Form → Instr → Prop
  | zero (i : Instr) : Gives (.zero i) i
  | one (f : Byte → Instr) (b : Byte) : Gives (.one f) (f b)
  | two (f : Word → Instr) (w : Word) : Gives (.two f) (f w)
  | three (f : Addr → Instr) (a : Addr) : Gives (.three f) (f a)
  | immM (f : Imm → Instr) (v : Imm) : Gives (.immM f) (f v)
  | immX (f : Imm → Instr) (v : Imm) : Gives (.immX f) (f v)
  | banks (f : Byte → Byte → Instr) (dst src : Byte) : Gives (.banks f) (f dst src)

/-- The sixteen rows of the opcode matrix (R117). -/
def opcodeRows : List (List Form) := [
  opcodeRow0, opcodeRow1, opcodeRow2, opcodeRow3, opcodeRow4, opcodeRow5, opcodeRow6, opcodeRow7,
  opcodeRow8, opcodeRow9, opcodeRowA, opcodeRowB, opcodeRowC, opcodeRowD, opcodeRowE, opcodeRowF]

/-- Entry `k` of rows of sixteen, found row by row: a much shorter way to evaluate than the index in the whole map. -/
def cellIn : List (List Form) → Nat → Option Form
  | [], _ => none
  | _ :: rows, k + 16 => cellIn rows k
  | row :: _, k => row[k]?

theorem cellIn_eq_flatten {rows : List (List Form)} (hn : ∀ row ∈ rows, row.length = 16) (k : Nat) :
    cellIn rows k = rows.flatten[k]? := by
  induction rows generalizing k with
  | nil => simp [cellIn]
  | cons row rows ih =>
    obtain ⟨hrow, hrows⟩ := List.forall_mem_cons.mp hn
    by_cases hk : k < 16
    · rw [List.flatten_cons, List.getElem?_append_left (by omega), cellIn]
      omega
    · obtain ⟨j, rfl⟩ := Nat.exists_eq_add_of_le' (Nat.le_of_not_lt hk)
      rw [List.flatten_cons, List.getElem?_append_right (by omega), hrow, Nat.add_sub_cancel, cellIn, ih hrows]

theorem opcodeRows_length : ∀ row ∈ opcodeRows, row.length = 16 := by
  simp only [opcodeRows, List.forall_mem_cons]
  exact ⟨rfl, rfl, rfl, rfl, rfl, rfl, rfl, rfl, rfl, rfl, rfl, rfl, rfl, rfl, rfl, rfl, nofun⟩

theorem opcodeRows_flatten : opcodeRows.flatten = opcodeMap := by
  simp [opcodeRows, opcodeMap]

theorem formOf_eq_of_cellIn {op : Byte} {f : Form} (h : cellIn opcodeRows op.toNat = some f) : formOf op = f := by
  rw [cellIn_eq_flatten opcodeRows_length, opcodeRows_flatten] at h
  exact (List.getElem?_eq_some_iff.mp h).2

/-- The cell of an instruction's opcode gives the instruction. -/
theorem Instr.gives_cell (i : Instr) : (formOf i.opcode).Gives i := by
  cases i <;> (rw [formOf_eq_of_cellIn rfl]; constructor)

/-- The cell of an instruction's opcode has that opcode's format. -/
theorem Instr.describes_cell (i : Instr) : (formOf i.opcode).Describes i.opcode := by
  cases i <;> (rw [formOf_eq_of_cellIn rfl]; constructor)
  all_goals intros
  all_goals first
    | exact ⟨rfl, rfl, rfl, fun _ _ => rfl⟩
    | exact ⟨rfl, List.mem_of_elem_eq_true rfl, rfl, fun _ _ => rfl⟩

/-- R115: every opcode is that of some instruction. -/
theorem exists_opcode (op : Byte) : ∃ i : Instr, i.opcode = op := by
  have hrows : ∀ op : Byte,
      (cellIn opcodeRows op.toNat).map (fun f => (f.build true true 0 0 0).opcode) = some op := by decide
  obtain ⟨f, -, hop⟩ := Option.map_eq_some_iff.mp (hrows op)
  exact ⟨_, hop⟩

/-- The cell of every opcode has that opcode's format. -/
theorem formOf_describes (op : Byte) : (formOf op).Describes op := by
  obtain ⟨i, rfl⟩ := exists_opcode op
  exact i.describes_cell

/-! ## Decoding -/

/-- What a cell gives with any bytes has the cell's opcode. -/
theorem Form.Describes.opcode_build {op : Byte} {f : Form} (h : f.Describes op) (m x : Bool) (b1 b2 b3 : Byte) :
    (f.build m x b1 b2 b3).opcode = op := by
  cases h with
  | zero hi => exact hi.opcode
  | one hf => exact (hf _).opcode
  | two hf => exact (hf _).opcode
  | three hf => exact (hf _).opcode
  | immM hf => exact (hf _).opcode
  | immX hf => exact (hf _).opcode
  | banks hf => exact (hf _ _).opcode

/-- An immediate taken from the bytes at the length of its flag has that length. -/
theorem Imm.fits_fetched (narrow : Bool) (b : Byte) (w : Word) :
    (if narrow then Imm.byte b else .word w).fits narrow = true := by
  cases narrow <;> rfl

/-- What a cell gives with any bytes is well-formed for the flags that it was built with. -/
theorem Form.Describes.wellFormed_build {op : Byte} {f : Form} (h : f.Describes op) (m x : Bool) (b1 b2 b3 : Byte) :
    (f.build m x b1 b2 b3).wellFormed m x = true := by
  cases h with
  | zero hi => exact hi.wellFormed m x
  | one hf => exact (hf _).wellFormed m x
  | two hf => exact (hf _).wellFormed m x
  | three hf => exact (hf _).wellFormed m x
  | immM hf => exact ((hf _).wellFormed m x).trans (Imm.fits_fetched m b1 _)
  | immX hf => exact ((hf _).wellFormed m x).trans (Imm.fits_fetched x b1 _)
  | banks hf => exact (hf _ _).wellFormed m x

/-- With three bytes after the opcode no operand byte is missing. -/
theorem decode_four_bytes (m x : Bool) (op b1 b2 b3 : Byte) (rest : List Byte) :
    decode m x (op :: b1 :: b2 :: b3 :: rest) =
      .ok ((formOf op).build m x b1 b2 b3) ((b1 :: b2 :: b3 :: rest).drop ((formOf op).size m x)) := by
  have hsize := Machine.Form.size_le m x (formOf op)
  have henough : ¬ (b1 :: b2 :: b3 :: rest).length < (formOf op).size m x := by
    simp only [List.length_cons]
    omega
  simp only [decode, if_neg henough]
  rfl

/-! ## Lengths -/

/-- An instruction has the operand bytes of its cell's format, or an immediate that P.M or P.X governs. -/
theorem Instr.isFixed_or_isSized (i : Instr) :
    (∃ bytes, bytes.length = (formOf i.opcode).size true true ∧ IsFixed i.opcode bytes i) ∨
    ∃ flag v, IsSized i.opcode flag v i := by
  have hd := i.describes_cell
  have hg := i.gives_cell
  generalize i.opcode = op, formOf i.opcode = f at hd hg ⊢
  cases hd with
  | zero hi => cases hg; exact .inl ⟨_, rfl, hi⟩
  | one hf => cases hg; exact .inl ⟨_, rfl, hf _⟩
  | two hf => cases hg; exact .inl ⟨_, rfl, hf _⟩
  | three hf => cases hg; exact .inl ⟨_, rfl, hf _⟩
  | immM hf => cases hg; exact .inr ⟨_, _, hf _⟩
  | immX hf => cases hg; exact .inr ⟨_, _, hf _⟩
  | banks hf => cases hg; exact .inl ⟨_, rfl, hf _ _⟩

theorem IsFixed.length_eq {op : Byte} {bytes : List Byte} {i : Instr} (h : IsFixed op bytes i) :
    i.length = 1 + bytes.length := by
  rw [Instr.length, Operand.size, h.bytes]

/-- The length of an immediate operand that fits its flag. -/
theorem Instr.length_of_fits {i : Instr} {v : Imm} {narrow : Bool} (ho : i.operand = .imm v) (hv : v.fits narrow = true) :
    i.length = if narrow then 2 else 3 := by
  rw [Instr.length, ho]
  cases v with
  | byte b =>
    obtain rfl : narrow = true := hv
    rfl
  | word w =>
    obtain rfl : narrow = false := by simpa [Imm.fits] using hv
    rfl

theorem IsSized.length_eq {op : Byte} {flag : WidthFlag} {v : Imm} {i : Instr} (h : IsSized op flag v i)
    {m x : Bool} (hw : i.wellFormed m x = true) : i.length = if flag.pick m x then 2 else 3 :=
  Instr.length_of_fits h.operand (h.wellFormed m x ▸ hw)

/-- Two instructions of one opcode have one length, unless P.M or P.X governs it. -/
theorem Instr.length_eq_of_opcode_eq {i j : Instr} (h : i.opcode = j.opcode)
    (hfree : ∀ flag : WidthFlag, i.opcode ∉ flag.opcodes) : i.length = j.length := by
  have hlength (k : Instr) (hk : i.opcode = k.opcode) : k.length = 1 + (formOf i.opcode).size true true := by
    rw [hk] at hfree ⊢
    obtain ⟨bytes, hsize, hfixed⟩ | ⟨flag, v, hsized⟩ := k.isFixed_or_isSized
    · rw [hfixed.length_eq, hsize]
    · exact absurd hsized.governed (hfree flag)
  rw [hlength i rfl, hlength j h]

/-- With both width flags at 1 a well-formed immediate has one byte. -/
theorem Instr.length_of_imm {i : Instr} {v : Imm} (ho : i.operand = .imm v) (hw : i.wellFormed true true = true) :
    i.length = 2 := by
  obtain ⟨bytes, -, hfixed⟩ | ⟨flag, u, hsized⟩ := i.isFixed_or_isSized
  · have hnarrow := hfixed.not_wide
    rw [ho] at hnarrow
    cases v with
    | byte b => exact Instr.length_of_fits ho rfl
    | word w => exact absurd hnarrow nofun
  · cases flag <;> exact hsized.length_eq hw

/-! ## The opcodes of the immediates -/

/-- The cell of a governed opcode holds one of the immediates that its flag governs. -/
theorem WidthFlag.formOf_eq_cell (flag : WidthFlag) {op : Byte} (h : op ∈ flag.opcodes) :
    ∃ f ∈ flag.forms, formOf op = flag.cell f := by
  cases flag with
  | m =>
    simp only [opcodes, List.mem_cons, List.not_mem_nil, or_false] at h
    obtain rfl | rfl | rfl | rfl | rfl | rfl | rfl | rfl := h <;>
      exact ⟨_, by simp [forms], formOf_eq_of_cellIn rfl⟩
  | x =>
    simp only [opcodes, List.mem_cons, List.not_mem_nil, or_false] at h
    obtain rfl | rfl | rfl | rfl := h <;> exact ⟨_, by simp [forms], formOf_eq_of_cellIn rfl⟩

/-- An instruction of a governed opcode is one of the flag's immediates and has the length that the flag asks for. -/
theorem WidthFlag.isSized_of_opcode (flag : WidthFlag) {i : Instr} (h : i.opcode ∈ flag.opcodes) :
    ∃ f ∈ flag.forms, ∃ v, i = f v ∧ IsSized i.opcode flag v i := by
  obtain ⟨f, hf, hcell⟩ := flag.formOf_eq_cell h
  have hd := i.describes_cell
  have hg := i.gives_cell
  rw [hcell] at hd hg
  cases flag with
  | m =>
    cases hg with
    | immM _ v => cases hd with
      | immM hsized => exact ⟨f, hf, v, rfl, hsized v⟩
  | x =>
    cases hg with
    | immX _ v => cases hd with
      | immX hsized => exact ⟨f, hf, v, rfl, hsized v⟩

/-- The immediates of a flag have the flag's opcodes, and no other instruction has. -/
theorem WidthFlag.opcode_mem_iff (flag : WidthFlag) (i : Instr) :
    i.opcode ∈ flag.opcodes ↔ ∃ v, i ∈ flag.forms.map (· v) := by
  constructor
  · intro h
    obtain ⟨f, hf, v, hi, -⟩ := flag.isSized_of_opcode h
    exact ⟨v, List.mem_map.mpr ⟨f, hf, hi.symm⟩⟩
  · rintro ⟨v, hi⟩
    obtain ⟨f, hf, rfl⟩ := List.mem_map.mp hi
    cases flag with
    | m =>
      simp only [forms, List.mem_cons, List.not_mem_nil, or_false] at hf
      obtain rfl | rfl | rfl | rfl | rfl | rfl | rfl | rfl := hf <;> exact List.mem_of_elem_eq_true rfl
    | x =>
      simp only [forms, List.mem_cons, List.not_mem_nil, or_false] at hf
      obtain rfl | rfl | rfl | rfl := hf <;> exact List.mem_of_elem_eq_true rfl

/-- The length of a well-formed instruction of a governed opcode. -/
theorem WidthFlag.length_eq (flag : WidthFlag) {m x : Bool} {i : Instr} (hw : i.wellFormed m x = true)
    (h : i.opcode ∈ flag.opcodes) : i.length = if flag.pick m x then 2 else 3 := by
  obtain ⟨f, -, v, -, hsized⟩ := flag.isSized_of_opcode h
  exact hsized.length_eq hw

/-- C2 is REP and E2 is SEP. -/
theorem Instr.eq_rep_or_sep {i : Instr} (h : i.opcode ∈ [0xC2, 0xE2]) : ∃ b, i = .rep b ∨ i = .sep b := by
  have hg := i.gives_cell
  simp only [List.mem_cons, List.not_mem_nil, or_false] at h
  obtain h | h := h <;> rw [h, formOf_eq_of_cellIn rfl] at hg
  · cases hg with
    | one _ b => exact ⟨b, .inl rfl⟩
  · cases hg with
    | one _ b => exact ⟨b, .inr rfl⟩

end Sys2Proof

namespace Sys2Proof.Machine

/-- The instruction fetched fits the flags at the fetch (R112). -/
theorem State.fetch_wellFormed (s : State) : s.fetch.wellFormed (s.flag .m) (s.flag .x) = true :=
  (formOf_describes _).wellFormed_build _ _ _ _ _

/-- REP and SEP have no cycle beside those of the opcode matrix (R117). -/
theorem instrCycles_rep (b : Byte) (s : State) : instrCycles (.rep b) s = 3 := by
  change baseCycles 0xC2 + 0 + 0 + 0 + 0 = 3
  decide

theorem instrCycles_sep (b : Byte) (s : State) : instrCycles (.sep b) s = 3 := by
  change baseCycles 0xE2 + 0 + 0 + 0 + 0 = 3
  decide

/-- Every arm of the dispatch answers a next state. -/
theorem exec_next (i : Instr) (s : State) : ∃ t, exec i s = .next t := by
  cases i <;> exact ⟨_, rfl⟩

/-- Settles O3: the cell of each opcode has that opcode's format, and no arm of exec stops. -/
theorem everyOpcodeExecutes : Obligations.EveryOpcodeExecutes :=
  ⟨fun m x op b1 b2 b3 rest =>
    ⟨_, _, decode_four_bytes m x op b1 b2 b3 rest, (formOf_describes op).opcode_build m x b1 b2 b3⟩, exec_next⟩

/-- Settles O4, clause by clause from the formats of the cells. -/
theorem immediateLengths : Obligations.ImmediateLengths := by
  refine ⟨WidthFlag.m.opcode_mem_iff, WidthFlag.x.opcode_mem_iff,
    fun m x i hw => ⟨WidthFlag.m.length_eq hw, WidthFlag.x.length_eq hw⟩, ?repSep, ?fixed, State.fetch_wellFormed,
    ?emulation⟩
  case repSep =>
    intro i h
    obtain ⟨b, rfl | rfl⟩ := Instr.eq_rep_or_sep h
    · exact ⟨rfl, instrCycles_rep b⟩
    · exact ⟨rfl, instrCycles_sep b⟩
  case fixed =>
    intro i j h hop
    refine Instr.length_eq_of_opcode_eq h fun flag hf => hop ?_
    cases flag with
    | m => exact List.mem_append_left WidthFlag.x.opcodes hf
    | x => exact List.mem_append_right WidthFlag.m.opcodes hf
  case emulation =>
    intro s hinv he v ho
    obtain ⟨hm, hx, -⟩ := hinv.emulation he
    have hw := s.fetch_wellFormed
    rw [hm, hx] at hw
    exact Instr.length_of_imm ho hw

end Sys2Proof.Machine
end

