-- ==== Sys2Proof/Proofs/Branch.lean ====
section
/-!
PROOFS. The branches of 44_branch_jump.md (R280 to R290). Each is one write of PC: to the address past the instruction plus a
displacement. What remains is that adding a word to PC adds its signed value modulo 2^16, and that the write changes no other
part of the state.
-/

namespace Sys2Proof.Machine

/-! ## A write of PC -/

theorem frame_writePC (s : State) (a : Word) : Frame [.pc] [] [] s { s with pc := a } where
  reg r hr := by
    cases r with
    | pc => simp at hr
    | _ => rfl
  flag _ _ := rfl
  byte _ _ := rfl
  e := rfl
  run := rfl
  nmiPending := rfl
  abortPending := rfl
  irqLine := rfl
  resetLine := rfl
  rdyForcedHigh := rfl
  env := rfl
  draws := rfl
  answers := rfl

/-! ## Signed displacements -/

/-- Adding a word within the bank adds its signed value. -/
theorem toNat_add_eq_toInt (a b : Word) : ((a + b).toNat : Int) = (a.toNat + b.toInt) % 2 ^ 16 := by
  rw [BitVec.toNat_add, BitVec.toInt_eq_toNat_cond]
  split <;> omega

theorem sext8_toInt (v : Byte) : (sext8 v).toInt = v.toInt :=
  BitVec.toInt_signExtend_of_le (by decide)

/-- The displacement of a branch: the offset if it is taken. -/
def branchDisplacement (taken : Bool) (off : Byte) : Word := if taken then sext8 off else 0

theorem branchDisplacement_toInt (taken : Bool) (off : Byte) :
    (branchDisplacement taken off).toInt = if taken then off.toInt else 0 := by
  cases taken
  · rfl
  · exact sext8_toInt off

/-- An address past the instruction, plus a displacement, as numbers. -/
theorem pcPast_add_toNat (pc n disp : Word) :
    ((pc + n + disp).toNat : Int) = (pc.toNat + n.toNat + disp.toInt) % 2 ^ 16 := by
  rw [toNat_add_eq_toInt, BitVec.toNat_add]
  omega

/-! ## The meanings as writes of PC -/

theorem State.branch_eq (taken : Bool) (off : Byte) (s : State) :
    s.branch taken off = { s with pc := s.pc + 2 + branchDisplacement taken off } := by
  cases taken
  · have h : s.pc + 2 + branchDisplacement false off = s.pc + 2 := BitVec.add_zero _
    rw [h]
    rfl
  · rfl

theorem State.branchLong_eq (off : Word) (s : State) : s.branchLong off = { s with pc := s.pc + 3 + off } := rfl

theorem State.branch_pc_toNat (taken : Bool) (off : Byte) (s : State) :
    ((s.branch taken off).pc.toNat : Int) = (s.pc.toNat + 2 + (if taken then off.toInt else 0)) % 2 ^ 16 := by
  rw [State.branch_eq, ← branchDisplacement_toInt]
  exact pcPast_add_toNat s.pc 2 (branchDisplacement taken off)

theorem State.branchLong_pc_toNat (off : Word) (s : State) :
    ((s.branchLong off).pc.toNat : Int) = (s.pc.toNat + 3 + off.toInt) % 2 ^ 16 :=
  pcPast_add_toNat s.pc 3 off

theorem State.branch_frame (taken : Bool) (off : Byte) (s : State) : Frame [.pc] [] [] s (s.branch taken off) := by
  rw [State.branch_eq]
  exact frame_writePC s _

theorem State.branchLong_frame (off : Word) (s : State) : Frame [.pc] [] [] s (s.branchLong off) :=
  frame_writePC s _

/-- Settles O29: the arm of each branch is `State.branch` on the condition its rule names, that of BRL `State.branchLong`. -/
theorem branches : Obligations.Branches := by
  refine ⟨?short, ?long⟩
  case short =>
    intro s off i op taken hi
    have meaning : encode i = [op, off] ∧ exec i s = .next (s.branch taken off) := by
      obtain ⟨rfl, rfl, rfl⟩ | ⟨rfl, rfl, rfl⟩ | ⟨rfl, rfl, rfl⟩ | ⟨rfl, rfl, rfl⟩ | ⟨rfl, rfl, rfl⟩ | ⟨rfl, rfl, rfl⟩ |
        ⟨rfl, rfl, rfl⟩ | ⟨rfl, rfl, rfl⟩ | ⟨rfl, rfl, rfl⟩ := hi
      all_goals exact ⟨rfl, rfl⟩
    obtain ⟨hencode, hexec⟩ := meaning
    exact ⟨hencode, _, hexec, s.branch_pc_toNat taken off, s.branch_frame taken off⟩
  case long =>
    exact fun s off => ⟨rfl, _, rfl, s.branchLong_pc_toNat off, s.branchLong_frame off⟩

end Sys2Proof.Machine
end

