-- ==== Sys2Proof/Proofs/Push.lean ====
section
/-!
PROOFS. The ordinary pushes of 45_stack.md (R321, R322, R324 to R327). All six instructions are `State.pushReg` at some width: a
push of one byte is that of a register at 8 bits. What a push at a width leaves is said once: the bytes at its slots, S below
them, and the frame.
-/

namespace Sys2Proof.Machine

/-! ## A push at a width -/

theorem State.pushed_one (s : State) : s.pushed 1 = [bank0 s.sp] := by
  simp [State.pushed]

theorem State.pushed_two (s : State) : s.pushed 2 = [bank0 s.sp, bank0 (s.slotDown 1)] := by
  simp [State.pushed, List.range_succ]

theorem State.sp_ne_slotDown_one (s : State) : s.sp ≠ s.slotDown 1 := by
  have h := s.slotDown_ne (j := 0) (k := 1) (by omega) (by omega)
  rwa [State.slotDown_zero] at h

theorem State.pushAt_sp (w : Width) (v : Word) (s : State) : (s.pushAt w v).sp = s.slotDown w.bytes := by
  cases w
  case w8 => exact s.push8_sp (loByte v)
  case w16 => exact s.push16_sp v

/-- A push fills its slots in the order of R321: the high byte first. -/
theorem State.pushAt_pushed (w : Width) (v : Word) (s : State) :
    (s.pushed w.bytes).map (s.pushAt w v).byteAt = w.pushBytes v := by
  cases w
  case w8 => simp [State.pushed_one, State.pushAt, Width.bytes, Width.pushBytes, State.push8_byteAt]
  case w16 =>
    simp [State.pushed_two, State.pushAt, Width.bytes, Width.pushBytes, State.push16_byteAt, s.sp_ne_slotDown_one]

theorem State.pushAt_byteAt_other {w : Width} {s : State} {a : Addr} (h : a ∉ s.pushed w.bytes) (v : Word) :
    (s.pushAt w v).byteAt a = s.byteAt a := by
  cases w
  case w8 =>
    simp only [Width.bytes, State.pushed_one, List.mem_singleton] at h
    simp only [State.pushAt, State.push8_byteAt, if_neg h]
  case w16 =>
    simp only [Width.bytes, State.pushed_two, List.mem_cons, List.not_mem_nil, or_false, not_or] at h
    obtain ⟨hhigh, hlow⟩ := h
    simp only [State.pushAt, State.push16_byteAt, if_neg hhigh, if_neg hlow]

/-! ## The push instructions -/

/-- The instruction byte moves PC only, so that the slots are those of the state before it. -/
theorem State.pushReg_pushed (w : Width) (v : Word) (s : State) :
    (s.pushed w.bytes).map (s.pushReg w v).byteAt = w.pushBytes v :=
  (s.past .stack0).pushAt_pushed w v

theorem State.pushReg_sp (w : Width) (v : Word) (s : State) : (s.pushReg w v).sp = s.slotDown w.bytes :=
  (s.past .stack0).pushAt_sp w v

theorem State.pushReg_pc (w : Width) (v : Word) (s : State) : (s.pushReg w v).pc = s.pc + 1 := by
  cases w <;> rfl

theorem State.pushReg_frame (w : Width) (v : Word) (s : State) :
    Frame [.sp, .pc] [] (s.pushed w.bytes) s (s.pushReg w v) where
  reg r hr := by
    cases r with
    | sp | pc => simp at hr
    | _ => simp [State.reg, State.pushReg]
  flag f _ := by simp [State.pushReg]
  byte _ ha := State.pushAt_byteAt_other (s := s.past .stack0) ha v
  e := by simp [State.pushReg]
  run := by simp [State.pushReg]
  nmiPending := by simp [State.pushReg]
  abortPending := by simp [State.pushReg]
  irqLine := by simp [State.pushReg]
  resetLine := by simp [State.pushReg]
  rdyForcedHigh := by simp [State.pushReg]
  env := by simp [State.pushReg]
  draws := by simp [State.pushReg]
  answers := by simp [State.pushReg]

theorem State.pushByte_eq (v : Byte) (s : State) : s.pushByte v = s.pushReg .w8 (zext8 v) := by
  simp [State.pushByte, State.pushReg, State.pushAt]

/-- Settles O36: each of the three arms is `State.pushReg` at its width, and the width is the only cycle that varies. -/
theorem pushRegisters : Obligations.PushRegisters := by
  intro i s op w v hi
  have meaning : encode i = [op] ∧ exec i s = .next (s.pushReg w v) ∧ instrCycles i s = 3 + w.extra := by
    obtain ⟨rfl, rfl, rfl, rfl⟩ | ⟨rfl, rfl, rfl, rfl⟩ | ⟨rfl, rfl, rfl, rfl⟩ := hi
    all_goals exact ⟨rfl, rfl, rfl⟩
  obtain ⟨hencode, hexec, hcycles⟩ := meaning
  have hbytes := s.pushReg_pushed w v
  refine ⟨hencode, _, hexec, ?narrow, ?wide, s.pushReg_sp w v, s.pushReg_pc w v, s.pushReg_frame w v, ?cycles⟩
  case narrow => rintro rfl; exact hbytes
  case wide => rintro rfl; exact hbytes
  case cycles => rw [hcycles]; cases w <;> rfl

/-- Settles O37: each of the three arms is `State.pushByte`, the push of a register at 8 bits. -/
theorem pushBytes : Obligations.PushBytes := by
  intro i s op v hi
  have meaning : encode i = [op] ∧ exec i s = .next (s.pushByte v) ∧ instrCycles i s = 3 := by
    obtain ⟨rfl, rfl, rfl⟩ | ⟨rfl, rfl, rfl⟩ | ⟨rfl, rfl, rfl⟩ := hi
    all_goals exact ⟨rfl, rfl, rfl⟩
  obtain ⟨hencode, hexec, hcycles⟩ := meaning
  rw [State.pushByte_eq] at hexec
  have hbyte : (s.pushReg .w8 (zext8 v)).byteAt (bank0 s.sp) = v := by
    have h := s.pushReg_pushed .w8 (zext8 v)
    simpa [Width.bytes, Width.pushBytes, State.pushed_one] using h
  have hframe := s.pushReg_frame .w8 (zext8 v)
  rw [Width.bytes, State.pushed_one] at hframe
  exact ⟨hencode, _, hexec, hbyte, s.pushReg_sp .w8 _, s.pushReg_pc .w8 _, hframe, hcycles⟩

end Sys2Proof.Machine
end

