-- ==== Sys2Proof/Proofs/Transfer.lean ====
section
/-!
PROOFS. Transfers between index registers and the accumulator, and the single-flag instructions, of 46_transfer_status.md (R360,
R370 to R372, R375 to R381). Each meaning is a chain of writes: of PC, of one register or none, of flags. What one write leaves
unchanged is said once, and the frames of a chain compose.
-/

namespace Sys2Proof.Machine

/-! ## Frames of single writes, and their composition -/

/-- What neither of two steps changes, both together do not change. The later step's parts stand first. -/
theorem Frame.trans {rs rs' : List Reg} {fs fs' : List Flag} {as as' : List Addr} {s t u : State}
    (h : Frame rs fs as s t) (h' : Frame rs' fs' as' t u) : Frame (rs' ++ rs) (fs' ++ fs) (as' ++ as) s u where
  reg r hr := (h'.reg r (hr ∘ List.mem_append_left rs)).trans (h.reg r (hr ∘ List.mem_append_right rs'))
  flag f hf := (h'.flag f (hf ∘ List.mem_append_left fs)).trans (h.flag f (hf ∘ List.mem_append_right fs'))
  byte a ha := (h'.byte a (ha ∘ List.mem_append_left as)).trans (h.byte a (ha ∘ List.mem_append_right as'))
  e := h'.e.trans h.e
  run := h'.run.trans h.run
  nmiPending := h'.nmiPending.trans h.nmiPending
  abortPending := h'.abortPending.trans h.abortPending
  irqLine := h'.irqLine.trans h.irqLine
  resetLine := h'.resetLine.trans h.resetLine
  rdyForcedHigh := h'.rdyForcedHigh.trans h.rdyForcedHigh
  env := h'.env.trans h.env
  draws := h'.draws.trans h.draws
  answers := h'.answers.trans h.answers

/-- A write of C, X, Y and P: the registers and flags that it changes are its frame. -/
theorem frame_writeCXYP {rs : List Reg} {fs : List Flag} (s : State) (c x y : Word) (p : Byte)
    (hreg : ∀ r, r ∉ rs → State.reg { s with c := c, x := x, y := y, p := p } r = s.reg r)
    (hflag : ∀ f, f ∉ fs → flagOf f p = s.flag f) : Frame rs fs [] s { s with c := c, x := x, y := y, p := p } where
  reg := hreg
  flag := hflag
  byte _ _ := rfl
  e := rfl
  run := rfl
  nmiPending := rfl
  abortPending := rfl
  irqLine := rfl
  resetLine := rfl
  rdyForcedHigh := rfl
  env := rfl
  draws := rfl
  answers := rfl

theorem State.past_frame (o : Operand) (s : State) : Frame [.pc] [] [] s (s.past o) := frame_writePC s _

theorem State.setA_frame (w : Width) (v : Word) (s : State) : Frame [.c] [] [] s (s.setA w v) := by
  refine frame_writeCXYP s (w.merge s.c v) s.x s.y s.p (fun r hr => ?_) fun _ _ => rfl
  cases r with
  | c => simp at hr
  | _ => rfl

theorem State.setX_frame (w : Width) (v : Word) (s : State) : Frame [.x] [] [] s (s.setX w v) := by
  refine frame_writeCXYP s s.c (w.merge s.x v) s.y s.p (fun r hr => ?_) fun _ _ => rfl
  cases r with
  | x => simp at hr
  | _ => rfl

theorem State.setY_frame (w : Width) (v : Word) (s : State) : Frame [.y] [] [] s (s.setY w v) := by
  refine frame_writeCXYP s s.c s.x (w.merge s.y v) s.p (fun r hr => ?_) fun _ _ => rfl
  cases r with
  | y => simp at hr
  | _ => rfl

theorem State.setFlag_frame (f : Flag) (b : Bool) (s : State) : Frame [] [f] [] s (s.setFlag f b) :=
  frame_writeCXYP s s.c s.x s.y (withFlag f b s.p) (fun r _ => by cases r <;> rfl)
    fun _ hg => flagOf_withFlag_other (List.ne_of_not_mem_cons hg) b s.p

theorem State.setNZ_frame (w : Width) (v : Word) (s : State) : Frame [] [.n, .z] [] s (s.setNZ w v) := by
  refine frame_writeCXYP s s.c s.x s.y (s.setNZ w v).p (fun r _ => by cases r <;> rfl) fun f hf => ?_
  obtain ⟨hn, hz⟩ : f ≠ .n ∧ f ≠ .z := by simpa using hf
  exact State.setNZ_other hz hn w v s

/-! ## Transfers (R360) -/

/-- What a transfer of `v` into the register `r` leaves: the value and N and Z at the width of the destination, PC one further,
and nothing else changed. -/
def State.Transferred (w : Width) (r : Reg) (v : Word) (s t : State) : Prop :=
  w.wrote (s.reg r) v (t.reg r) ∧ w.nzOf v t ∧ t.pc = s.pc + 1 ∧ Frame [r, .pc] [.n, .z] [] s t

/-- The step that the transfers share: the low bits of the source are merged into the destination, and N and Z are those of the
same bits. -/
theorem State.transferred_of_merge {w : Width} {r : Reg} {v : Word} {s u : State}
    (hframe : Frame [r] [] [] (s.past .implied) u) (hreg : u.reg r = w.merge (s.reg r) (w.trunc v))
    (hpc : u.pc = s.pc + 1) : s.Transferred w r v (u.setNZ w (w.trunc v)) := by
  have hflags := u.setNZ_frame w (w.trunc v)
  have hvalue : w.wrote (s.reg r) v (w.merge (s.reg r) (w.trunc v)) :=
    Width.wrote_congr (w.trunc_trunc v) (w.merge_wrote _ _)
  have hkept : (u.setNZ w (w.trunc v)).reg r = w.merge (s.reg r) (w.trunc v) :=
    (hflags.reg r List.not_mem_nil).trans hreg
  refine ⟨?value, ?nz, hpc, ((s.past_frame .implied).trans hframe).trans hflags⟩
  case value => rwa [hkept]
  case nz => exact Width.nzOf_congr (w.value_trunc v) (u.setNZ_nzOf w _)

theorem State.transferX_transferred (v : Word) (s : State) : s.Transferred s.wX .x v (s.transferX v) :=
  State.transferred_of_merge ((s.past .implied).setX_frame s.wX _) rfl rfl

theorem State.transferY_transferred (v : Word) (s : State) : s.Transferred s.wX .y v (s.transferY v) :=
  State.transferred_of_merge ((s.past .implied).setY_frame s.wX _) rfl rfl

theorem State.transferA_transferred (v : Word) (s : State) : s.Transferred s.wA .c v (s.transferA v) :=
  State.transferred_of_merge ((s.past .implied).setA_frame s.wA _) rfl rfl

/-- Settles O42: each of the three arms is the transfer of the whole source register into its destination. -/
theorem transfersOfIndex : Obligations.TransfersOfIndex := by
  intro s
  refine ⟨?txy, ?tya, ?tyx⟩
  case txy => exact ⟨_, rfl, rfl, s.transferY_transferred s.x⟩
  case tya => exact ⟨_, rfl, rfl, s.transferA_transferred s.y⟩
  case tyx => exact ⟨_, rfl, rfl, s.transferX_transferred s.y⟩

/-! ## Single-flag instructions (R375 to R381) -/

theorem State.writeFlag_flag (f : Flag) (b : Bool) (s : State) : (s.writeFlag f b).flag f = b :=
  (s.past .implied).flag_setFlag_same f b

theorem State.writeFlag_pc (f : Flag) (b : Bool) (s : State) : (s.writeFlag f b).pc = s.pc + 1 := rfl

theorem State.writeFlag_frame (f : Flag) (b : Bool) (s : State) : Frame [.pc] [f] [] s (s.writeFlag f b) :=
  (s.past_frame .implied).trans ((s.past .implied).setFlag_frame f b)

/-- Settles O47: each of the seven arms is `State.writeFlag` on its flag and value. -/
theorem flagInstructions : Obligations.FlagInstructions := by
  intro s i op f b hi
  have meaning : encode i = [op] ∧ exec i s = .next (s.writeFlag f b) := by
    obtain ⟨rfl, rfl, rfl, rfl⟩ | ⟨rfl, rfl, rfl, rfl⟩ | ⟨rfl, rfl, rfl, rfl⟩ | ⟨rfl, rfl, rfl, rfl⟩ |
      ⟨rfl, rfl, rfl, rfl⟩ | ⟨rfl, rfl, rfl, rfl⟩ | ⟨rfl, rfl, rfl, rfl⟩ := hi
    all_goals exact ⟨rfl, rfl⟩
  obtain ⟨hencode, hexec⟩ := meaning
  exact ⟨hencode, _, hexec, s.writeFlag_flag f b, s.writeFlag_pc f b, s.writeFlag_frame f b⟩

end Sys2Proof.Machine
end

