-- ==== Sys2Proof/Proofs/Decoding.lean ====
section
/-!
PROOFS. The round trip of 30_encoding.md, sections 1 and 2, in both directions (R110 to R114). Both come from the format of the
cell of the opcode (`formOf_describes`): with the operand bytes of one of its instructions the cell builds that instruction, and
what it builds from any bytes has those bytes as its operand.
-/

namespace Sys2Proof

/-! ## Immediates -/

/-- An immediate as a cell takes it from the bytes after the opcode. -/
def Imm.taken (narrow : Bool) (bytes : List Byte) : Imm :=
  if narrow then .byte (bytes.getD 0 0) else .word (wordOfBytes (bytes.getD 0 0) (bytes.getD 1 0))

/-- From the bytes of an immediate that fits its flag, that immediate is taken. -/
theorem Imm.taken_bytes {narrow : Bool} {v : Imm} (hv : v.fits narrow = true) (rest : List Byte) :
    (Operand.imm v).bytes.length = (if narrow then 1 else 2) ∧ Imm.taken narrow ((Operand.imm v).bytes ++ rest) = v := by
  cases v with
  | byte b =>
    obtain rfl : narrow = true := hv
    simp [Operand.bytes, Imm.taken]
  | word w =>
    obtain rfl : narrow = false := by simpa [Imm.fits] using hv
    simp [Operand.bytes, Imm.taken]

/-- The immediate taken from enough bytes has the first of them as its own. -/
theorem Imm.bytes_taken {narrow : Bool} {bytes : List Byte} (hn : (if narrow then 1 else 2) ≤ bytes.length) :
    (Operand.imm (Imm.taken narrow bytes)).bytes = bytes.take (if narrow then 1 else 2) := by
  cases narrow
  · match bytes, hn with
    | b1 :: b2 :: _, _ => simp [Operand.bytes, Imm.taken]
    | [_], hn => simp at hn
  · match bytes, hn with
    | b1 :: _, _ => simp [Operand.bytes, Imm.taken]

/-! ## Cells -/

/-- The cell of an instruction takes as many bytes as the operand has, and builds the instruction from them. -/
theorem Form.Describes.build_operand_bytes {op : Byte} {f : Form} {i : Instr} {m x : Bool} (hd : f.Describes op)
    (hg : f.Gives i) (hw : i.wellFormed m x = true) (rest : List Byte) :
    i.operand.bytes.length = f.size m x ∧
      f.build m x ((i.operand.bytes ++ rest).getD 0 0) ((i.operand.bytes ++ rest).getD 1 0)
        ((i.operand.bytes ++ rest).getD 2 0) = i := by
  cases hd with
  | zero hi => cases hg; simp [hi.bytes, Form.size, Form.build]
  | one hf => cases hg; simp [(hf _).bytes, Form.size, Form.build]
  | two hf => cases hg; simp [(hf _).bytes, Form.size, Form.build]
  | three hf => cases hg; simp [(hf _).bytes, Form.size, Form.build]
  | banks hf => cases hg; simp [(hf _ _).bytes, Form.size, Form.build]
  | @immM f hf =>
    cases hg with
    | immM _ v =>
      obtain ⟨hlength, htaken⟩ := Imm.taken_bytes ((hf v).wellFormed m x ▸ hw) rest
      rw [(hf v).operand]
      exact ⟨hlength, congrArg f htaken⟩
  | @immX f hf =>
    cases hg with
    | immX _ v =>
      obtain ⟨hlength, htaken⟩ := Imm.taken_bytes ((hf v).wellFormed m x ▸ hw) rest
      rw [(hf v).operand]
      exact ⟨hlength, congrArg f htaken⟩

/-- What a cell builds from enough bytes has those that the cell takes as its operand. -/
theorem Form.Describes.operand_bytes_build {op : Byte} {f : Form} {m x : Bool} (hd : f.Describes op)
    {bytes : List Byte} (hn : f.size m x ≤ bytes.length) :
    (f.build m x (bytes.getD 0 0) (bytes.getD 1 0) (bytes.getD 2 0)).operand.bytes = bytes.take (f.size m x) := by
  cases hd with
  | zero hi => simp [hi.bytes, Form.size, Form.build]
  | one hf =>
    match bytes, hn with
    | b1 :: _, _ => simp [(hf _).bytes, Form.size, Form.build]
  | two hf =>
    match bytes, hn with
    | b1 :: b2 :: _, _ => simp [(hf _).bytes, Form.size, Form.build]
    | [_], hn => simp [Form.size] at hn
  | three hf =>
    match bytes, hn with
    | b1 :: b2 :: b3 :: _, _ => simp [(hf _).bytes, Form.size, Form.build]
    | [_], hn => simp [Form.size] at hn
    | [_, _], hn => simp [Form.size] at hn
  | banks hf =>
    match bytes, hn with
    | b1 :: b2 :: _, _ => simp [(hf _ _).bytes, Form.size, Form.build]
    | [_], hn => simp [Form.size] at hn
  | immM hf => exact (congrArg Operand.bytes (hf _).operand).trans (Imm.bytes_taken hn)
  | immX hf => exact (congrArg Operand.bytes (hf _).operand).trans (Imm.bytes_taken hn)

/-! ## Decoder and encoder -/

theorem decode_cons_of_le {m x : Bool} {op : Byte} {bytes : List Byte} (hn : (formOf op).size m x ≤ bytes.length) :
    decode m x (op :: bytes) = .ok ((formOf op).build m x (bytes.getD 0 0) (bytes.getD 1 0) (bytes.getD 2 0))
      (bytes.drop ((formOf op).size m x)) :=
  if_neg (Nat.not_lt.mpr hn)

theorem decode_cons_of_lt {m x : Bool} {op : Byte} {bytes : List Byte} (hn : bytes.length < (formOf op).size m x) :
    decode m x (op :: bytes) = .rejected (.truncated op ((formOf op).size m x - bytes.length)) :=
  if_pos hn

/-- Settles O1: the cell of the opcode takes the operand's bytes, no more and no fewer, and builds the instruction from them. -/
theorem decodeOfEncode : Obligations.DecodeOfEncode := by
  intro m x i rest hw
  obtain ⟨hlength, hbuild⟩ := i.describes_cell.build_operand_bytes i.gives_cell hw rest
  have henough : (formOf i.opcode).size m x ≤ (i.operand.bytes ++ rest).length := by
    rw [List.length_append]
    omega
  calc decode m x (i.opcode :: (i.operand.bytes ++ rest))
    _ = .ok _ ((i.operand.bytes ++ rest).drop ((formOf i.opcode).size m x)) := decode_cons_of_le henough
    _ = .ok i rest := by rw [hbuild, ← hlength, List.drop_left]

/-- Settles O2: what the cell of the first byte builds has that byte as its opcode and the bytes taken as its operand. -/
theorem encodeOfDecode : Obligations.EncodeOfDecode := by
  intro m x bytes i rest h
  cases bytes with
  | nil => simp [decode] at h
  | cons op bytes =>
    have hd := formOf_describes op
    rcases Nat.lt_or_ge bytes.length ((formOf op).size m x) with hn | hn
    · rw [decode_cons_of_lt hn] at h
      cases h
    · rw [decode_cons_of_le hn] at h
      injection h with hi hrest
      subst hi hrest
      refine ⟨?_, hd.wellFormed_build m x _ _ _⟩
      rw [encode, hd.opcode_build, hd.operand_bytes_build hn, List.cons_append, List.take_append_drop]

/-- Settles O5: each word is the encoding of its instruction. -/
theorem decodeWords : Obligations.DecodeWords := by
  have decoded (m x : Bool) (i : Instr) (hw : i.wellFormed m x = true) : decode m x (encode i) = .ok i [] := by
    simpa using decodeOfEncode m x i [] hw
  exact ⟨decoded true true (.ldaImm (.byte 0x34)) rfl, decoded false true (.ldaImm (.word 0x1234)) rfl,
    decoded true true (.staLong 0x123456) rfl, decoded true true (.adcDirIndY 0x10) rfl,
    decoded true true (.aslAbsX 0x1234) rfl, decoded true true (.beq 0xFE) rfl,
    decoded true true (.jsrAbsXInd 0x1234) rfl, decoded true true (.per 0x1234) rfl, decoded true true .xce rfl,
    decoded true true (.mvn 0x02 0x01) rfl, decoded true true (.cop 0x7F) rfl⟩

end Sys2Proof
end

