-- ==== Sys2Proof/Proofs/Operands.lean ====
section
/-!
PROOFS. The effective addresses of 40_addressing_modes.md (R140 to R171) as numbers. An address is a bank and an offset put
together, a pointer two or three bytes put together, and an index is added on 24 bits or, in bank 0, on 16 or on 8.
-/

namespace Sys2Proof.Machine

/-! ## Sums of addresses -/

theorem addr_add_zext24_toNat (a : Addr) (v : Word) : (a + zext24 v).toNat = (a.toNat + v.toNat) % 2 ^ 24 := by
  rw [BitVec.toNat_add, zext24_toNat]

theorem bankAddr_add_zext24_toNat (b : Byte) (a v : Word) :
    (bankAddr b a + zext24 v).toNat = (b.toNat * 2 ^ 16 + a.toNat + v.toNat) % 2 ^ 24 := by
  rw [addr_add_zext24_toNat, bankAddr_toNat, Nat.mul_comm]

/-- A pointer of two bytes in a bank. -/
theorem bankAddr_wordOfBytes_toNat (b l h : Byte) :
    (bankAddr b (wordOfBytes l h)).toNat = b.toNat * 2 ^ 16 + l.toNat + 2 ^ 8 * h.toNat := by
  rw [bankAddr_toNat, wordOfBytes_toNat]
  omega

/-- A pointer of two bytes in a bank, indexed. -/
theorem bankAddr_wordOfBytes_add_toNat (b l h : Byte) (v : Word) :
    (bankAddr b (wordOfBytes l h) + zext24 v).toNat =
      (b.toNat * 2 ^ 16 + l.toNat + 2 ^ 8 * h.toNat + v.toNat) % 2 ^ 24 := by
  rw [addr_add_zext24_toNat, bankAddr_wordOfBytes_toNat]

theorem addrOfBytes_add_toNat (l h k : Byte) (v : Word) :
    (addrOfBytes l h k + zext24 v).toNat =
      (l.toNat + 2 ^ 8 * h.toNat + 2 ^ 16 * k.toNat + v.toNat) % 2 ^ 24 := by
  rw [addr_add_zext24_toNat, addrOfBytes_toNat]

/-- The two bytes of a word operand anywhere in memory. -/
theorem Loc.read_mem24_w16_toNat (ea : Addr) (s : State) :
    ((Loc.mem24 ea).read .w16 s).toNat = (s.read .data ea).toNat + 2 ^ 8 * (s.read .data (ea + 1)).toNat :=
  wordOfBytes_toNat _ _

/-- The two bytes of a word operand in bank 0. -/
theorem Loc.read_mem0_w16_toNat (a : Word) (s : State) :
    ((Loc.mem0 a).read .w16 s).toNat =
      (s.read .data (bank0 a)).toNat + 2 ^ 8 * (s.read .data (bank0 (a + 1))).toNat :=
  wordOfBytes_toNat _ _

/-- Settles O13: each mode's address is a sum of the kinds above. -/
theorem effectiveAddressesLong : Obligations.EffectiveAddressesLong := by
  intro s
  refine ⟨?abs, ?absX, ?absY, fun _ => rfl, ?longX, ?dirInd, ?dirXInd, ?dirIndY, ?dirIndLong, ?dirIndLongY, ?stkIndY, ?bytes⟩
  case abs => exact fun addr => ⟨_, rfl, by rw [bankAddr_toNat, Nat.mul_comm]⟩
  case absX => exact fun addr => ⟨_, rfl, bankAddr_add_zext24_toNat _ _ _⟩
  case absY => exact fun addr => ⟨_, rfl, bankAddr_add_zext24_toNat _ _ _⟩
  case longX => exact fun addr => ⟨_, rfl, addr_add_zext24_toNat _ _⟩
  case dirInd => exact fun off => ⟨_, rfl, bankAddr_wordOfBytes_toNat _ _ _⟩
  case dirXInd => exact fun off => ⟨_, rfl, bankAddr_wordOfBytes_toNat _ _ _⟩
  case dirIndY => exact fun off => ⟨_, rfl, bankAddr_wordOfBytes_add_toNat _ _ _ _⟩
  case dirIndLong => exact fun off => ⟨_, rfl, addrOfBytes_toNat _ _ _⟩
  case dirIndLongY => exact fun off => ⟨_, rfl, addrOfBytes_add_toNat _ _ _ _⟩
  case stkIndY => exact fun off => ⟨_, rfl, bankAddr_wordOfBytes_add_toNat _ _ _ _⟩
  case bytes =>
    exact fun ea => ⟨Loc.addrs_mem24_w8 ea, Loc.addrs_mem24_w16 ea, zext8_toNat _, Loc.read_mem24_w16_toNat ea s⟩

/-! ## The direct page (R160, R161) -/

theorem State.pageWraps_iff (s : State) : s.pageWraps = true ↔ s.e = true ∧ s.d.toNat % 2 ^ 8 = 0 := by
  rw [State.pageWraps, Bool.and_eq_true, beq_iff_eq, ← loByte_toNat]
  exact and_congr_right fun _ => (BitVec.toNat_inj (y := 0x00#8)).symm

theorem byte_one_toNat : (1 : Byte).toNat = 1 := rfl

/-- The direct address and the next one where they stay in the page. -/
theorem dpAddr_toNat_of_wraps {s : State} (h : s.pageWraps = true) (off : Byte) (idx : Word) :
    (dpAddr s off idx).toNat = s.d.toNat + (off.toNat + idx.toNat) % 2 ^ 8 ∧
    (dpNext s off idx 1).toNat = s.d.toNat + (off.toNat + idx.toNat + 1) % 2 ^ 8 := by
  obtain ⟨-, hd⟩ := s.pageWraps_iff.mp h
  simp only [dpAddr, dpNext, h, if_true, append_toNat, hiByte_toNat, BitVec.toNat_add, loByte_toNat, byte_one_toNat]
  omega

/-- The direct address and the next one where they wrap at 64 KByte. -/
theorem dpAddr_toNat_of_not_wraps {s : State} (h : s.pageWraps = false) (off : Byte) (idx : Word) :
    (dpAddr s off idx).toNat = (s.d.toNat + off.toNat + idx.toNat) % 2 ^ 16 ∧
    (dpNext s off idx 1).toNat = (s.d.toNat + off.toNat + idx.toNat + 1) % 2 ^ 16 := by
  simp only [dpAddr, dpNext, h, Bool.false_eq_true, if_false, BitVec.toNat_add, zext8_toNat, byte_one_toNat]
  omega

/-! ## Operands without an address (R150, R162) -/

/-- An immediate of one byte is that byte at either width. -/
theorem State.operandValue_byte {i : Instr} {b : Byte} (h : i.operand = .imm (.byte b)) (s : State) (w : Width) :
    (s.operandValue w i).toNat = b.toNat := by
  rw [State.operandValue, h]
  change (w.trunc (zext8 b)).toNat = b.toNat
  cases w <;> simp [zext8_toNat]

theorem State.operandValue_word {i : Instr} {v : Word} (h : i.operand = .imm (.word v)) (s : State) :
    s.operandValue .w16 i = v := by
  rw [State.operandValue, h]
  rfl

theorem State.operandValue_acc {i : Instr} (h : i.operand = .acc) (s : State) (w : Width) :
    s.operandValue w i = w.trunc s.c := by
  rw [State.operandValue, h]
  rfl

theorem operand_of_mem_immediates {i : Instr} {v : Imm} (h : i ∈ [.oraImm v, .andImm v, .eorImm v, .adcImm v, .bitImm v,
    .ldaImm v, .cmpImm v, .sbcImm v, .ldyImm v, .ldxImm v, .cpyImm v, .cpxImm v]) : i.operand = .imm v := by
  simp only [List.mem_cons, List.not_mem_nil, or_false] at h
  obtain rfl | rfl | rfl | rfl | rfl | rfl | rfl | rfl | rfl | rfl | rfl | rfl := h <;> rfl

theorem operand_of_mem_accumulator {i : Instr} (h : i ∈ [.aslAcc, .incAcc, .rolAcc, .decAcc, .lsrAcc, .rorAcc]) :
    i.operand = .acc := by
  simp only [List.mem_cons, List.not_mem_nil, or_false] at h
  obtain rfl | rfl | rfl | rfl | rfl | rfl := h <;> rfl

/-- Settles O14: the two cases of the direct page are whether `State.pageWraps` holds. -/
theorem effectiveAddressesBankZero : Obligations.EffectiveAddressesBankZero := by
  intro s
  refine ⟨fun _ => rfl, fun _ => rfl, fun _ => rfl, ?stk, ?direct, ?bytes, ?immediate, ?accumulator, ?byte, ?word, ?acc⟩
  case stk => exact fun off => ⟨_, rfl, by rw [BitVec.toNat_add, zext8_toNat]⟩
  case direct =>
    intro off idx
    rw [← s.pageWraps_iff, Bool.not_eq_true]
    exact ⟨fun h => dpAddr_toNat_of_wraps h off idx, fun h => dpAddr_toNat_of_not_wraps h off idx⟩
  case bytes =>
    exact fun a => ⟨bank0_toNat a, Loc.addrs_mem0_w8 a, Loc.addrs_mem0_w16 a, zext8_toNat _, Loc.read_mem0_w16_toNat a s⟩
  case immediate => exact fun i v h => operand_of_mem_immediates h
  case accumulator => exact fun i h => operand_of_mem_accumulator h
  case byte => exact fun i w b h => s.operandValue_byte h w
  case word => exact fun i v h => s.operandValue_word h
  case acc =>
    intro i h
    refine ⟨?_, s.operandValue_acc h .w16⟩
    rw [s.operandValue_acc h, Width.trunc_toNat]
    rfl

end Sys2Proof.Machine
end

