-- ==== Sys2Proof/Proofs/LoadStore.lean ====
section
/-!
PROOFS. The loads and stores of 41_load_store.md (R190 to R197). Every load is a write of one register at a width with N and Z of
the value, every store a write of an operand in memory; each of the two is said once, and the meanings are one of them from the
state past the instruction.
-/

namespace Sys2Proof.Machine

/-! ## A register loaded -/

/-- `t` is `s` after `v` was written to the register `r` at a width, with N and Z of `v`. -/
structure Loaded (w : Width) (r : Reg) (v : Word) (s t : State) : Prop where
  value : w.wrote (s.reg r) v (t.reg r)
  nz : w.nzOf v t
  frame : Frame [r] [.n, .z] [] s t

/-- The step that all of them share: the value is merged into the register, then N and Z are set. -/
theorem Loaded.of_merge {w : Width} {r : Reg} {v : Word} {s u : State} (hframe : Frame [r] [] [] s u)
    (hreg : u.reg r = w.merge (s.reg r) v) : Loaded w r v s (u.setNZ w v) where
  value := by
    rw [(u.setNZ_frame w v).reg r List.not_mem_nil, hreg]
    exact w.merge_wrote _ _
  nz := u.setNZ_nzOf w v
  frame := hframe.trans (u.setNZ_frame w v)

theorem State.setA_loaded (w : Width) (v : Word) (s : State) : Loaded w .c v s ((s.setA w v).setNZ w v) :=
  .of_merge (s.setA_frame w v) rfl

theorem State.setX_loaded (w : Width) (v : Word) (s : State) : Loaded w .x v s ((s.setX w v).setNZ w v) :=
  .of_merge (s.setX_frame w v) rfl

theorem State.setY_loaded (w : Width) (v : Word) (s : State) : Loaded w .y v s ((s.setY w v).setNZ w v) :=
  .of_merge (s.setY_frame w v) rfl

/-- A register loaded after the instruction bytes are past: its value is judged by the state before them. -/
theorem Loaded.frame_past {w : Width} {r : Reg} {v : Word} {o : Operand} {s t : State} (h : Loaded w r v (s.past o) t) :
    Frame [r, .pc] [.n, .z] [] s t :=
  (s.past_frame o).trans h.frame

theorem Loaded.pc_eq {w : Width} {r : Reg} {v : Word} {s t : State} (h : Loaded w r v s t) (hr : r ≠ .pc) :
    t.pc = s.pc :=
  h.frame.reg .pc fun hmem => hr (List.mem_singleton.mp hmem).symm

/-- Settles O15: the meaning is a load of the accumulator. -/
theorem loadAccumulator : Obligations.LoadAccumulator := by
  intro i s hi
  have h := (s.past i.operand).setA_loaded s.wA (s.operandValue s.wA i)
  exact ⟨_, exec_LDA hi s, h.value, h.nz, h.pc_eq nofun, h.frame_past⟩

/-- Settles O16: the two meanings are loads of X and of Y. -/
theorem loadIndex : Obligations.LoadIndex := by
  intro i s
  refine ⟨fun hi => ?ldx, fun hi => ?ldy⟩
  case ldx =>
    have h := (s.past i.operand).setX_loaded s.wX (s.operandValue s.wX i)
    exact ⟨_, exec_LDX hi s, h.value, h.nz, h.pc_eq nofun, h.frame_past⟩
  case ldy =>
    have h := (s.past i.operand).setY_loaded s.wX (s.operandValue s.wX i)
    exact ⟨_, exec_LDY hi s, h.value, h.nz, h.pc_eq nofun, h.frame_past⟩

/-! ## An operand stored -/

/-- Changes of memory alone: no register, no flag and nothing else is touched. -/
theorem frame_of_mem {as : List Addr} {s t : State} (m : Memory) (ht : t = { s with mem := m })
    (hbyte : ∀ a, a ∉ as → t.byteAt a = s.byteAt a) : Frame [] [] as s t := by
  subst ht
  exact ⟨fun r _ => by cases r <;> rfl, fun _ _ => rfl, hbyte, rfl, rfl, rfl, rfl, rfl, rfl, rfl, rfl, rfl, rfl⟩

theorem Loc.write_frame {loc : Loc} (h : loc.inMemory) (w : Width) (v : Word) (s : State) :
    Frame [] [] (loc.addrs w) s (loc.write w v s) := by
  refine frame_of_mem (loc.write w v s).mem ?_ (Loc.write_bytes h w v s).2
  obtain ⟨ea, rfl⟩ | ⟨a, rfl⟩ := h <;> cases w <;> rfl

theorem Loc.writeBack_frame {loc : Loc} (h : loc.inMemory) (w : Width) (v : Word) (s : State) :
    Frame [] [] (loc.addrs w) s (loc.writeBack w v s) := by
  refine frame_of_mem (loc.writeBack w v s).mem ?_ (Loc.writeBack_bytes h w v s).2
  obtain ⟨ea, rfl⟩ | ⟨a, rfl⟩ := h <;> cases w <;> rfl

/-- What a store of `v` at the operand of an instruction leaves. -/
def State.Stored (s : State) (w : Width) (i : Instr) (v : Word) (t : State) : Prop :=
  (s.operandAddrs w i).map t.byteAt = w.bytesOf v ∧ t.pc = s.pcPast i ∧ Frame [.pc] [] (s.operandAddrs w i) s t

theorem State.write_stored {s : State} {i : Instr} (h : (s.locate i.operand).inMemory) (w : Width) (v : Word) :
    s.Stored w i v ((s.locate i.operand).write w v (s.past i.operand)) := by
  have hframe := Loc.write_frame h w v (s.past i.operand)
  refine ⟨(Loc.write_bytes h w v _).1, hframe.reg .pc List.not_mem_nil, ?_⟩
  simpa [State.operandAddrs] using (s.past_frame i.operand).trans hframe

/-- Settles O17: each meaning is a store at the operand, which for these mnemonics is in memory. -/
theorem stores : Obligations.Stores := by
  intro i s
  have stored (w : Width) (v : Word) (h : i.mnemonic ∈ [.STA, .STX, .STY, .STZ, .TSB, .TRB]) :
      s.Stored w i v ((s.locate i.operand).write w v (s.past i.operand)) :=
    State.write_stored (operand_of_store h s) w v
  refine ⟨fun hi => ?sta, fun hi => ?stx, fun hi => ?sty, fun hi => ?stz⟩
  case sta => exact ⟨_, exec_STA hi s, stored s.wA s.c (by simp [hi])⟩
  case stx => exact ⟨_, exec_STX hi s, stored s.wX s.x (by simp [hi])⟩
  case sty => exact ⟨_, exec_STY hi s, stored s.wX s.y (by simp [hi])⟩
  case stz => exact ⟨_, exec_STZ hi s, stored s.wA 0x0000 (by simp [hi])⟩

end Sys2Proof.Machine
end

