-- ==== Sys2Proof/Proofs/Arithmetic.lean ====
section
/-!
PROOFS. Addition and subtraction, binary and decimal, of 42_arithmetic_logic.md, section 2 (R211 to R214). Every one of them writes
a result to the accumulator, a carry, an overflow and N and Z of the result (`Summed`); what remains is which number the result is,
at either width: of two's complement operands, or of packed decimal digits.
-/

namespace Sys2Proof.Machine

/-! ## Values at a width -/

theorem Width.value_lt (w : Width) (v : Word) : w.value v < 2 ^ w.bits := Nat.mod_lt _ (Nat.two_pow_pos _)

theorem Width.toNat_of_trunc {w : Width} {v : Word} (h : w.trunc v = v) : v.toNat = w.value v := by
  rw [← h, Width.value_trunc, Width.trunc_toNat, Width.value]

theorem Width.value_congr {w : Width} {u v : Word} (h : w.trunc u = w.trunc v) : w.value u = w.value v := by
  rw [← w.value_trunc u, h, w.value_trunc]

/-- A register written at a width has the value written. -/
theorem Width.value_of_wrote {w : Width} {old v new : Word} (h : w.wrote old v new) : w.value new = w.value v := by
  cases w with
  | w8 => exact Width.value_congr (congrArg zext8 h.1)
  | w16 => exact congrArg Width.w16.value h

/-- A register written at a width keeps its high byte at 8 bits. -/
theorem Width.wrote_self {w : Width} {old v new : Word} (h : w.wrote old v new) : w.wrote old new new := by
  cases w with
  | w8 => exact ⟨rfl, h.2⟩
  | w16 => rfl

theorem State.getA_toNat (w : Width) (s : State) : (s.getA w).toNat = w.value s.c := w.trunc_toNat s.c

theorem State.operandValue_toNat (s : State) (w : Width) (i : Instr) :
    (s.operandValue w i).toNat = w.value (s.operandValue w i) :=
  Width.toNat_of_trunc (s.operandValue_trunc w i)

/-! ## What every addition and subtraction writes -/

/-- `t` is `s` after a result `r` with a carry was written to the accumulator at a width, whatever V became. -/
structure Summed (w : Width) (r : Word) (carry : Bool) (s t : State) : Prop where
  wrote : w.wrote s.c r t.c
  nz : w.nzOf r t
  carry : t.flag .c = carry
  frame : Frame [.c] [.n, .v, .z, .c] [] s t

theorem State.writes_summed (w : Width) (r : Word) (carry v : Bool) (s : State) :
    Summed w r carry s ((((s.setA w r).setFlag .c carry).setFlag .v v).setNZ w r) where
  wrote := w.merge_wrote s.c r
  nz := State.setNZ_nzOf w r _
  carry := by
    rw [State.setNZ_other (g := .c) nofun nofun, State.flag_setFlag_other (f := .v) (g := .c) nofun, State.flag_setFlag_same]
  frame := by
    have h := (((s.setA_frame w r).trans (State.setFlag_frame .c carry _)).trans
      (State.setFlag_frame .v v _)).trans (State.setNZ_frame w r _)
    exact { h with flag := fun f hf => h.flag f (by simp_all) }

namespace Summed

variable {w : Width} {r : Word} {carry : Bool} {s t : State}

theorem value (h : Summed w r carry s t) : w.value t.c = w.value r := Width.value_of_wrote h.wrote

theorem kept (h : Summed w r carry s t) : w.wrote s.c t.c t.c := Width.wrote_self h.wrote

theorem nz_self (h : Summed w r carry s t) : w.nzOf t.c t := Width.nzOf_congr h.value.symm h.nz

theorem pc (h : Summed w r carry s t) : t.pc = s.pc := h.frame.reg .pc (by simp)

end Summed

/-! ## Binary addition (R211) -/

theorem addValue_value (w : Width) (a m : Word) (carry : Bool) :
    w.value (addValue w a m carry) = addTotal a m carry % 2 ^ w.bits := by
  cases w <;> simp only [addValue, Width.value, Width.bits, BitVec.toNat_ofNat] <;> omega

theorem Width.msb_xor_and_xor (w : Width) (a m r : Word) :
    w.msb ((a ^^^ r) &&& (m ^^^ r)) = ((w.msb a ^^ w.msb r) && (w.msb m ^^ w.msb r)) := by
  cases w <;> simp [Width.msb]

theorem Width.msb_eq_decide (w : Width) (v : Word) : w.msb v = decide (2 ^ (w.bits - 1) ≤ w.value v) := by
  rw [Bool.eq_iff_iff, Width.msb_iff, decide_eq_true_iff, Width.value]

/-- The overflow of an addition is that the signed sum is not representable. -/
theorem addOverflow_iff {w : Width} {a m : Word} (ha : w.trunc a = a) (hm : w.trunc m = m) (carry : Bool) :
    addOverflow w a m carry = true ↔ ¬ w.representable (w.signed a + w.signed m + carry.toNat) := by
  rw [addOverflow, Width.msb_xor_and_xor, Width.msb_eq_decide, Width.msb_eq_decide, Width.msb_eq_decide,
    addValue_value, addTotal, Width.toNat_of_trunc ha, Width.toNat_of_trunc hm]
  have hav := w.value_lt a
  have hmv := w.value_lt m
  have hc := carry.toNat_le
  simp only [Bool.and_eq_true, Width.representable, Width.signed, bne_iff_ne, ne_eq, decide_eq_decide]
  cases w <;> simp only [Width.bits] at * <;> omega

/-- Binary ADC of `m` to the accumulator, and binary SBC with the complement. -/
structure BinarySum (w : Width) (m : Word) (s t : State) : Prop where
  value : w.value t.c = (w.value s.c + w.value m + (s.flag .c).toNat) % 2 ^ w.bits
  kept : w.wrote s.c t.c t.c
  nz : w.nzOf t.c t
  carry : t.flag .c = true ↔ 2 ^ w.bits ≤ w.value s.c + w.value m + (s.flag .c).toNat
  overflow : t.flag .v = true ↔ ¬ w.representable (w.signed s.c + w.signed m + (s.flag .c).toNat)
  pc : t.pc = s.pc
  frame : Frame [.c] [.n, .v, .z, .c] [] s t

theorem Width.signed_trunc (w : Width) (v : Word) : w.signed (w.trunc v) = w.signed v := by
  rw [Width.signed, Width.signed, Width.value_trunc]

theorem State.addBinary_sum (s : State) {w : Width} {m : Word} (hm : w.trunc m = m) :
    BinarySum w m s (s.addBinary w (s.getA w) m) := by
  have h : Summed w (addValue w (s.getA w) m (s.flag .c)) (addCarry w (s.getA w) m (s.flag .c)) s
      (s.addBinary w (s.getA w) m) := s.writes_summed w _ _ _
  have htotal : addTotal (s.getA w) m (s.flag .c) = w.value s.c + w.value m + (s.flag .c).toNat := by
    rw [addTotal, State.getA_toNat, Width.toNat_of_trunc hm]
  refine ⟨?sum, h.kept, h.nz_self, ?carryOut, ?overflow, h.pc, h.frame⟩
  case sum => rw [h.value, addValue_value, htotal]
  case carryOut => rw [h.carry, addCarry, decide_eq_true_iff, htotal]
  case overflow =>
    have hv : (s.addBinary w (s.getA w) m).flag .v = addOverflow w (s.getA w) m (s.flag .c) := by
      rw [State.addBinary, State.setNZ_other (g := .v) nofun nofun, State.flag_setFlag_same]
    rw [hv, ← w.signed_trunc s.c]
    exact addOverflow_iff (w.trunc_trunc s.c) hm _

theorem State.addWithCarry_of_binary (s : State) (hd : s.flag .d = false) (w : Width) (a m : Word) :
    s.addWithCarry w a m = s.addBinary w a m := by
  simp [State.addWithCarry, hd]

/-- Settles O18: with D = 0 the meaning is a binary addition from the state past the instruction. -/
theorem adcBinary : Obligations.AdcBinary := by
  intro i s hi hd
  have hexec := (exec_ADC hi s).trans (congrArg Host.Outcome.next ((s.past i.operand).addWithCarry_of_binary hd _ _ _))
  have h := (s.past i.operand).addBinary_sum (s.operandValue_trunc s.wA i)
  exact ⟨_, hexec, h.value, h.kept, h.nz, h.carry, h.overflow, h.pc, (s.past_frame _).trans h.frame⟩

/-! ## Binary subtraction (R213): addition of the complement -/

theorem onesComplement_trunc (w : Width) (m : Word) : w.trunc (onesComplement w m) = onesComplement w m :=
  w.trunc_trunc _

theorem onesComplement_value (w : Width) (m : Word) : w.value (onesComplement w m) = 2 ^ w.bits - 1 - w.value m := by
  rw [onesComplement, Width.value_trunc, Width.value, BitVec.toNat_not, Width.value]
  cases w <;> simp only [Width.bits] <;> omega

theorem onesComplement_signed (w : Width) (m : Word) : w.signed (onesComplement w m) = -1 - w.signed m := by
  have hm := w.value_lt m
  rw [Width.signed, Width.signed, onesComplement_value]
  cases w <;> simp only [Width.bits] at * <;> omega

theorem State.subWithBorrow_of_binary (s : State) (hd : s.flag .d = false) (w : Width) (a m : Word) :
    s.subWithBorrow w a m = s.addBinary w a (onesComplement w m) := by
  simp [State.subWithBorrow, hd]

/-- Settles O19: with D = 0 the meaning is the binary addition of the complement, whose value is one less than the negated
operand's. -/
theorem sbcBinary : Obligations.SbcBinary := by
  intro i s hi hd
  have hexec := (exec_SBC hi s).trans (congrArg Host.Outcome.next ((s.past i.operand).subWithBorrow_of_binary hd _ _ _))
  have h := (s.past i.operand).addBinary_sum (onesComplement_trunc s.wA (s.operandValue s.wA i))
  have hvalue := h.value
  have hcarry := h.carry
  have hoverflow := h.overflow
  rw [onesComplement_value] at hvalue hcarry
  rw [onesComplement_signed] at hoverflow
  have hm := s.wA.value_lt (s.operandValue s.wA i)
  have hc := (s.flag .c).toNat_le
  refine ⟨_, hexec, ?difference, h.kept, h.nz, hcarry.trans ?carryOut, hoverflow.trans ?overflow, h.pc,
    (s.past_frame _).trans h.frame⟩
  case difference =>
    refine (congrArg Nat.cast hvalue).trans ?_
    rw [s.past_c, s.past_flag]
    cases hw : s.wA <;> rw [hw] at hm <;> simp only [Width.bits] at * <;> omega
  case carryOut =>
    rw [s.past_c, s.past_flag]
    omega
  case overflow =>
    rw [s.past_c, s.past_flag]
    have hsum (a b c : Int) : a + (-1 - b) + c = a - b - (1 - c) := by omega
    rw [hsum]

/-! ## Packed decimal digits (R212, R214) -/

theorem bcdEncode_lt (k n : Nat) : bcdEncode k n < 16 ^ k := by
  induction k generalizing n with
  | zero => simp [bcdEncode]
  | succ k ih =>
    have := ih (n / 10)
    rw [bcdEncode, Nat.pow_succ]
    omega

theorem bcdValid_bcdEncode (k n : Nat) : bcdValid k (bcdEncode k n) = true := by
  induction k generalizing n with
  | zero => rfl
  | succ k ih =>
    have hdigit : (n % 10 + 16 * bcdEncode k (n / 10)) % 16 = n % 10 := by omega
    have hrest : (n % 10 + 16 * bcdEncode k (n / 10)) / 16 = bcdEncode k (n / 10) := by omega
    rw [bcdEncode, bcdValid, hdigit, hrest, ih, Bool.and_true, decide_eq_true_iff]
    omega

theorem bcdDecode_bcdEncode (k n : Nat) : bcdDecode k (bcdEncode k n) = n % 10 ^ k := by
  induction k generalizing n with
  | zero => simp [bcdDecode, Nat.mod_one]
  | succ k ih =>
    have hdigit : (n % 10 + 16 * bcdEncode k (n / 10)) % 16 = n % 10 := by omega
    have hrest : (n % 10 + 16 * bcdEncode k (n / 10)) / 16 = bcdEncode k (n / 10) := by omega
    rw [bcdEncode, bcdDecode, hdigit, hrest, ih, Nat.pow_succ, Nat.mul_comm (10 ^ k), Nat.mod_mul]

/-- The packed digits of a number, as the model carries them. -/
def packed (w : Width) (n : Nat) : Word := BitVec.ofNat 16 (bcdEncode w.digits n)

theorem packed_value (w : Width) (n : Nat) : w.value (packed w n) = bcdEncode w.digits n := by
  have h := bcdEncode_lt w.digits n
  cases w <;> simp only [packed, Width.value, Width.bits, Width.digits, BitVec.toNat_ofNat] at * <;> omega

/-! ## Decimal addition and subtraction -/

/-- `t` is `s` after a decimal operation whose result is the number `n`, whatever V became. -/
structure DecimalSum (w : Width) (n : Nat) (carry : Bool) (s t : State) : Prop where
  valid : bcdValid w.digits (w.value t.c) = true
  decoded : decOf w (t.getA w) = n
  kept : w.wrote s.c t.c t.c
  nz : w.nzOf t.c t
  carry : t.flag .c = carry
  pc : t.pc = s.pc
  frame : Frame [.c] [.n, .v, .z, .c] [] s { t with draws := s.draws }

theorem State.decimalResult_sum (w : Width) {n : Nat} (hn : n < 10 ^ w.digits) (carry : Bool) (s : State) :
    DecimalSum w n carry s (s.decimalResult w (packed w n) carry) := by
  have h := s.writes_summed w (packed w n) carry (Config.decimalV s.draws)
  have hvalue := h.value.trans (packed_value w n)
  refine ⟨?valid, ?decoded, h.kept, h.nz_self, h.carry, h.pc, h.frame⟩
  case valid => exact (congrArg (bcdValid w.digits) hvalue).trans (bcdValid_bcdEncode _ _)
  case decoded =>
    rw [decOf, State.getA_toNat]
    exact (congrArg (bcdDecode w.digits) hvalue).trans
      ((bcdDecode_bcdEncode _ _).trans (Nat.mod_eq_of_lt hn))

theorem decSubTotal_mod_lt (w : Width) (a m : Word) (carry : Bool) :
    (decSubTotal w a m carry % ((10 ^ w.digits : Nat) : Int)).toNat < 10 ^ w.digits := by
  have hpos : (0 : Int) < ((10 ^ w.digits : Nat) : Int) := Int.natCast_pos.mpr (Nat.pow_pos (by omega))
  have := Int.emod_lt_of_pos (decSubTotal w a m carry) hpos
  have := Int.emod_nonneg (decSubTotal w a m carry) (Int.ne_of_gt hpos)
  omega

/-- Settles O20: with D = 1 and decimal operands the result is the packed digits of the sum or difference modulo 10 to the number
of digits. -/
theorem decimalValid : Obligations.DecimalValid := by
  intro i s hd hvalid
  have hc := (s.flag .c).toNat_le
  refine ⟨fun hi => ?adc, fun hi => ?sbc⟩
  case adc =>
    have hexec : exec i s = .next ((s.past i.operand).decimalResult s.wA
        (packed s.wA (decAddTotal s.wA (s.getA s.wA) (s.operandValue s.wA i) (s.flag .c) % 10 ^ s.wA.digits))
        (decAddCarry s.wA (s.getA s.wA) (s.operandValue s.wA i) (s.flag .c))) :=
      (exec_ADC hi s).trans (congrArg Host.Outcome.next ((if_pos hd).trans (if_pos hvalid)))
    have h := (s.past i.operand).decimalResult_sum s.wA
      (Nat.mod_lt (decAddTotal s.wA (s.getA s.wA) (s.operandValue s.wA i) (s.flag .c)) (Nat.pow_pos (by omega)))
      (decAddCarry s.wA (s.getA s.wA) (s.operandValue s.wA i) (s.flag .c))
    exact ⟨_, hexec, h.valid, h.decoded, h.kept, h.nz, by rw [h.carry, decAddCarry, decide_eq_true_iff, decAddTotal],
      h.pc, (s.past_frame _).trans h.frame⟩
  case sbc =>
    have hexec : exec i s = .next ((s.past i.operand).decimalResult s.wA
        (packed s.wA (decSubTotal s.wA (s.getA s.wA) (s.operandValue s.wA i) (s.flag .c) %
          ((10 ^ s.wA.digits : Nat) : Int)).toNat)
        (decSubCarry s.wA (s.getA s.wA) (s.operandValue s.wA i) (s.flag .c))) :=
      (exec_SBC hi s).trans (congrArg Host.Outcome.next ((if_pos hd).trans (if_pos hvalid)))
    have h := (s.past i.operand).decimalResult_sum s.wA
      (decSubTotal_mod_lt s.wA (s.getA s.wA) (s.operandValue s.wA i) (s.flag .c))
      (decSubCarry s.wA (s.getA s.wA) (s.operandValue s.wA i) (s.flag .c))
    refine ⟨_, hexec, h.valid, (congrArg Nat.cast h.decoded).trans ?difference, h.kept, h.nz, ?borrow, h.pc,
      (s.past_frame _).trans h.frame⟩
    case difference =>
      exact Int.toNat_of_nonneg (Int.emod_nonneg _ (Int.ne_of_gt (Int.natCast_pos.mpr (Nat.pow_pos (by omega)))))
    case borrow =>
      rw [h.carry, decSubCarry, decide_eq_true_iff, decSubTotal]
      omega

theorem State.decimalInvalid_frame (w : Width) (s : State) :
    Frame [.c] [.n, .v, .z, .c] [] s { s.decimalInvalid w with draws := s.draws } := by
  have h := ((((s.setA_frame w (Config.decimalInvalidResult s.draws)).trans
    (State.setFlag_frame .n (Config.decimalInvalidN s.draws) _)).trans
    (State.setFlag_frame .v (Config.decimalInvalidV s.draws) _)).trans
    (State.setFlag_frame .z (Config.decimalInvalidZ s.draws) _)).trans
    (State.setFlag_frame .c (Config.decimalInvalidC s.draws) _)
  exact { h with flag := fun f hf => h.flag f (by simp_all) }

/-- Settles O21: with a digit above 9 the accumulator at its width and the four flags are drawn, nothing else. -/
theorem decimalInvalid : Obligations.DecimalInvalid := by
  intro i s hi hd hinvalid
  have hexec : exec i s = .next ((s.past i.operand).decimalInvalid s.wA) := by
    have hnot := Bool.eq_false_iff.mp hinvalid
    simp only [List.mem_cons, List.not_mem_nil, or_false] at hi
    obtain hi | hi := hi
    · exact (exec_ADC hi s).trans (congrArg Host.Outcome.next ((if_pos hd).trans (if_neg hnot)))
    · exact (exec_SBC hi s).trans (congrArg Host.Outcome.next ((if_pos hd).trans (if_neg hnot)))
  exact ⟨_, hexec, Width.wrote_self (s.wA.merge_wrote s.c _), rfl,
    (s.past_frame i.operand).trans ((s.past i.operand).decimalInvalid_frame s.wA)⟩

end Sys2Proof.Machine
end

