-- ==== Sys2Proof/Proofs/Logic.lean ====
section
/-!
PROOFS. Logic, comparison, bit test and the steps of the index registers, of 42_arithmetic_logic.md (R215 to R221, R226 to R229).
The results that go to a register are loads of it (`Loaded`); the tests write flags only. Operands are carried zero-extended from
their width, so that a bitwise operation on them is the narrowed operation on the whole registers.
-/

namespace Sys2Proof.Machine

/-! ## Narrowing and bitwise operations -/

/-- The bits of a narrowed value. -/
theorem Width.getLsbD_trunc (w : Width) (v : Word) (k : Nat) :
    (w.trunc v).getLsbD k = (decide (k < w.bits) && v.getLsbD k) := by
  cases w
  · simp only [Width.trunc, zext8, loByte, BitVec.getLsbD_setWidth, BitVec.getLsbD_extractLsb', Width.bits]
    by_cases hk : k < 8
    · have : k < 16 := by omega
      simp [hk, this]
    · simp [hk]
  · rcases Nat.lt_or_ge k 16 with hk | hk <;> simp [Width.bits, hk]

theorem Width.trunc_and (w : Width) (a b : Word) : w.trunc (a &&& b) = w.trunc a &&& w.trunc b := by
  apply BitVec.eq_of_getLsbD_eq
  intro k _
  simp only [Width.getLsbD_trunc, BitVec.getLsbD_and]
  cases decide (k < w.bits) <;> simp

theorem Width.trunc_or (w : Width) (a b : Word) : w.trunc (a ||| b) = w.trunc a ||| w.trunc b := by
  apply BitVec.eq_of_getLsbD_eq
  intro k _
  simp only [Width.getLsbD_trunc, BitVec.getLsbD_or]
  cases decide (k < w.bits) <;> simp

theorem Width.trunc_xor (w : Width) (a b : Word) : w.trunc (a ^^^ b) = w.trunc a ^^^ w.trunc b := by
  apply BitVec.eq_of_getLsbD_eq
  intro k _
  simp only [Width.getLsbD_trunc, BitVec.getLsbD_xor]
  cases decide (k < w.bits) <;> simp

/-- A load depends on its value at the width only. -/
theorem Loaded.congr {w : Width} {r : Reg} {u v : Word} {s t : State} (he : w.trunc u = w.trunc v)
    (h : Loaded w r u s t) : Loaded w r v s t where
  value := Width.wrote_congr he h.value
  nz := Width.nzOf_congr (Width.value_congr he) h.nz
  frame := h.frame

/-- N and Z of a load, by the value that the register has after it. -/
theorem Loaded.nz_self {w : Width} {r : Reg} {v : Word} {s t : State} (h : Loaded w r v s t) : w.nzOf (t.reg r) t :=
  Width.nzOf_congr (Width.value_of_wrote h.value).symm h.nz

/-! ## AND, ORA and EOR (R215 to R217) -/

/-- The three meanings load the accumulator with the operation on the whole register C. -/
theorem State.logic_loaded {f : Word → Word → Word} (hf : ∀ (w : Width) a b, w.trunc (f a b) = f (w.trunc a) (w.trunc b))
    (i : Instr) (s : State) :
    Loaded s.wA .c (f s.c (s.operandValue s.wA i)) (s.past i.operand) (s.logic f i.operand) := by
  refine ((s.past i.operand).setA_loaded s.wA (f (s.getA s.wA) (s.operandValue s.wA i))).congr ?_
  rw [hf, hf, State.getA, Width.trunc_trunc]

/-- Settles O22: each meaning is `State.logic` of an operation that narrowing goes through. -/
theorem logic : Obligations.Logic := by
  intro i s
  refine ⟨fun hi => ?and, fun hi => ?ora, fun hi => ?eor⟩
  case and =>
    have h := s.logic_loaded Width.trunc_and i
    exact ⟨_, exec_AND hi s, h.value, h.nz_self, h.pc_eq nofun, h.frame_past⟩
  case ora =>
    have h := s.logic_loaded Width.trunc_or i
    exact ⟨_, exec_ORA hi s, h.value, h.nz_self, h.pc_eq nofun, h.frame_past⟩
  case eor =>
    have h := s.logic_loaded Width.trunc_xor i
    exact ⟨_, exec_EOR hi s, h.value, h.nz_self, h.pc_eq nofun, h.frame_past⟩

/-! ## Comparison (R218 to R220) -/

/-- What a comparison of a register of value `r` with an operand of value `m` leaves. -/
structure Compared (w : Width) (r m : Nat) (s t : State) : Prop where
  carry : t.flag .c = true ↔ m ≤ r
  zero : t.flag .z = true ↔ r = m
  negative : t.flag .n = true ↔ 2 ^ (w.bits - 1) ≤ (r + 2 ^ w.bits - m) % 2 ^ w.bits
  frame : Frame [] [.n, .z, .c] [] s t

/-- The value of a difference at a width. -/
theorem Width.value_sub {w : Width} {r m : Word} (hr : w.trunc r = r) (hm : w.trunc m = m) :
    w.value (r - m) = (w.value r + 2 ^ w.bits - w.value m) % 2 ^ w.bits := by
  rw [← Width.toNat_of_trunc hr, ← Width.toNat_of_trunc hm, Width.value, BitVec.toNat_sub]
  have hrv := Width.toNat_of_trunc hr ▸ w.value_lt r
  have hmv := Width.toNat_of_trunc hm ▸ w.value_lt m
  cases w <;> simp only [Width.bits] at * <;> omega

theorem State.compare_compared {w : Width} {r m : Word} (hr : w.trunc r = r) (hm : w.trunc m = m) (s : State) :
    Compared w (w.value r) (w.value m) s (s.compare w r m) := by
  obtain ⟨hn, hz⟩ := Width.nzOf_congr (w.value_trunc (r - m))
    (State.setNZ_nzOf w (w.trunc (r - m)) (s.setFlag .c (m.toNat ≤ r.toNat)))
  rw [Width.value_sub hr hm] at hn hz
  refine ⟨?carryOut, hz.trans ?zero, hn, ?frame⟩
  case carryOut =>
    rw [State.compare, State.setNZ_other (g := .c) nofun nofun, State.flag_setFlag_same, decide_eq_true_iff,
      Width.toNat_of_trunc hr, Width.toNat_of_trunc hm]
  case zero =>
    have hrv := w.value_lt r
    have hmv := w.value_lt m
    cases w <;> simp only [Width.bits] at * <;> omega
  case frame => exact (s.setFlag_frame .c _).trans (State.setNZ_frame w _ _)

/-- The comparison of a whole register with an operand, from the state past the instruction. -/
theorem State.compare_spec (w : Width) (r : Word) (i : Instr) (s : State) :
    Compared w (w.value r) (w.value (s.operandValue w i)) (s.past i.operand)
      ((s.past i.operand).compare w (w.trunc r) (s.operandValue w i)) :=
  w.value_trunc r ▸ (s.past i.operand).compare_compared (w.trunc_trunc r) (s.operandValue_trunc w i)

/-- Settles O23: each of the three meanings compares its register at its width. -/
theorem compare : Obligations.Compare := by
  intro i s w r hi
  have hexec : exec i s = .next ((s.past i.operand).compare w (w.trunc r) (s.operandValue w i)) := by
    obtain ⟨hi, rfl, rfl⟩ | ⟨hi, rfl, rfl⟩ | ⟨hi, rfl, rfl⟩ := hi
    · exact exec_CMP hi s
    · exact exec_CPX hi s
    · exact exec_CPY hi s
  have h := s.compare_spec w r i
  exact ⟨_, hexec, h.carry, h.zero, h.negative, h.frame.reg .pc List.not_mem_nil, (s.past_frame _).trans h.frame⟩

/-! ## Bit test (R221) -/

/-- Z after a bit test, on the whole register. -/
theorem State.bitZ_iff {w : Width} {m : Word} (hm : w.trunc m = m) (c : Word) (s : State) :
    (s.bitZ (w.trunc c) m).flag .z = true ↔ w.value (c &&& m) = 0 := by
  have hand : w.trunc c &&& m = w.trunc (c &&& m) := by rw [Width.trunc_and, hm]
  rw [State.bitZ, State.flag_setFlag_same, hand]
  exact w.trunc_eq_zero_iff _

theorem State.bitZ_frame (a m : Word) (s : State) : Frame [] [.z] [] s (s.bitZ a m) := s.setFlag_frame .z _

theorem State.bitNV_frame (w : Width) (m : Word) (s : State) : Frame [] [.v, .n] [] s (s.bitNV w m) :=
  (s.setFlag_frame .n _).trans (State.setFlag_frame .v _ _)

/-- N and V are the two top bits of the operand. -/
theorem State.bitNV_flags (w : Width) (m : Word) (s : State) :
    (s.bitNV w m).flag .n = m.getLsbD (w.bits - 1) ∧ (s.bitNV w m).flag .v = m.getLsbD (w.bits - 2) := by
  constructor
  · rw [State.bitNV, State.flag_setFlag_other (f := .v) (g := .n) nofun, State.flag_setFlag_same]
    cases w <;> rfl
  · rw [State.bitNV, State.flag_setFlag_same]
    cases w <;> rfl

/-- Settles O24: the immediate form writes Z only, the others then N and V. -/
theorem bitTest : Obligations.BitTest := by
  intro i s hi
  have hz := (s.past i.operand).bitZ_iff (s.operandValue_trunc s.wA i) s.c
  have hframe := (s.past_frame i.operand).trans
    ((s.past i.operand).bitZ_frame (s.wA.trunc s.c) (s.operandValue s.wA i))
  obtain ⟨v, rfl, hexec⟩ | ⟨hform, hexec⟩ := exec_BIT hi s
  · exact ⟨_, hexec, hz, rfl, fun _ => hframe, fun hform => absurd rfl (hform v)⟩
  · have hnv := State.bitNV_frame s.wA (s.operandValue s.wA i)
      ((s.past i.operand).bitZ (s.wA.trunc s.c) (s.operandValue s.wA i))
    obtain ⟨hn, hv⟩ := State.bitNV_flags s.wA (s.operandValue s.wA i)
      ((s.past i.operand).bitZ (s.wA.trunc s.c) (s.operandValue s.wA i))
    refine ⟨_, hexec, ?zero, rfl, fun ⟨v, hv⟩ => absurd hv (hform v), fun _ => ⟨hn, hv, ?frame⟩⟩
    case zero => exact (hnv.flag .z (by simp) ▸ hz :)
    case frame =>
      have h := hframe.trans hnv
      exact { h with flag := fun f hf => h.flag f (by simp_all) }

/-! ## Steps of the index registers (R226 to R229) -/

theorem incValue_trunc (w : Width) (v : Word) : w.trunc (incValue w v) = w.trunc (v + 1) := w.trunc_trunc _

theorem decValue_trunc (w : Width) (v : Word) : w.trunc (decValue w v) = w.trunc (v - 1) := w.trunc_trunc _

/-- Settles O26: each meaning loads its register with the value stepped and narrowed. -/
theorem indexSteps : Obligations.IndexSteps := by
  intro s
  refine ⟨?inx, ?dex, ?iny, ?dey⟩
  case inx =>
    have h := ((s.past .implied).setX_loaded s.wX (incValue s.wX s.x)).congr (incValue_trunc s.wX s.x)
    exact ⟨_, rfl, h.value, h.nz, rfl, h.frame_past⟩
  case dex =>
    have h := ((s.past .implied).setX_loaded s.wX (decValue s.wX s.x)).congr (decValue_trunc s.wX s.x)
    exact ⟨_, rfl, h.value, h.nz, rfl, h.frame_past⟩
  case iny =>
    have h := ((s.past .implied).setY_loaded s.wX (incValue s.wX s.y)).congr (incValue_trunc s.wX s.y)
    exact ⟨_, rfl, h.value, h.nz, rfl, h.frame_past⟩
  case dey =>
    have h := ((s.past .implied).setY_loaded s.wX (decValue s.wX s.y)).congr (decValue_trunc s.wX s.y)
    exact ⟨_, rfl, h.value, h.nz, rfl, h.frame_past⟩

end Sys2Proof.Machine
end

