-- ==== Sys2Proof/Proofs/Modify.lean ====
section
/-!
PROOFS. The instructions that write back to their operand, of 42_arithmetic_logic.md, section 5, and of 43_shift_rmw.md (R222 to
R225, R250 to R263). Each writes flags, then a value to the location it read; that write is said once for the accumulator and for
memory, and what remains is which number each value is.
-/

namespace Sys2Proof.Machine

/-! ## The write back (R250) -/

theorem Width.bytesOf_congr {w : Width} {u v : Word} (h : w.trunc u = w.trunc v) : w.bytesOf u = w.bytesOf v := by
  cases w
  · have hb := congrArg loByte h
    rw [Width.loByte_trunc, Width.loByte_trunc] at hb
    rw [Width.bytesOf, Width.bytesOf, hb]
  · exact congrArg Width.w16.bytesOf h

/-- What is written back depends on the value at the width only. -/
theorem State.wroteBack_congr {s t : State} {w : Width} {i : Instr} {u v : Word} {fs : List Flag}
    (he : w.trunc u = w.trunc v) (h : s.wroteBack w i u fs t) : s.wroteBack w i v fs t := by
  unfold State.wroteBack at *
  split
  · next hacc =>
    rw [if_pos hacc] at h
    exact ⟨Width.wrote_congr he h.1, h.2⟩
  · next hmem =>
    rw [if_neg hmem] at h
    exact ⟨h.1.trans (Width.bytesOf_congr he), h.2⟩

/-- A write back from a state in which PC and flags have been written. -/
theorem State.writeBack_wroteBack {s u : State} {i : Instr} {fs : List Flag}
    (hi : i.mnemonic ∈ [.INC, .DEC, .ASL, .LSR, .ROL, .ROR]) (hu : Frame [.pc] fs [] s u) (w : Width) (v : Word) :
    s.wroteBack w i v fs ((s.locate i.operand).writeBack w v u) := by
  have hc : u.c = s.c := hu.reg .c (by simp)
  obtain ⟨hacc, hloc⟩ | ⟨hmem, hloc⟩ := operand_of_rmw hi s
  · rw [State.wroteBack, if_pos hacc, hloc]
    exact ⟨hc ▸ w.merge_wrote u.c v, hu.trans (u.setA_frame w v)⟩
  · rw [State.wroteBack, if_neg hmem]
    refine ⟨(Loc.writeBack_bytes hloc w v u).1, ?_⟩
    simpa [State.operandAddrs] using hu.trans (Loc.writeBack_frame hloc w v u)

theorem State.writeBack_nzOf {w : Width} {r : Word} {u : State} (h : w.nzOf r u) (loc : Loc) (v : Word) :
    w.nzOf r (loc.writeBack w v u) :=
  Width.nzOf_of_p (State.writeBack_p w v loc u) h

/-! ## INC and DEC (R222 to R225) -/

/-- Settles O25: N and Z of the stepped value are set, then it is written back. -/
theorem incrementDecrement : Obligations.IncrementDecrement := by
  intro i s
  have stepped {r v : Word} (hr : s.wA.trunc r = s.wA.trunc v)
      (hi : i.mnemonic ∈ [.INC, .DEC, .ASL, .LSR, .ROL, .ROR]) :
      s.wroteBack s.wA i v [.n, .z] ((s.locate i.operand).writeBack s.wA r ((s.past i.operand).setNZ s.wA r)) ∧
      s.wA.nzOf v ((s.locate i.operand).writeBack s.wA r ((s.past i.operand).setNZ s.wA r)) ∧
      ((s.locate i.operand).writeBack s.wA r ((s.past i.operand).setNZ s.wA r)).pc = s.pcPast i := by
    have hu := (s.past_frame i.operand).trans ((s.past i.operand).setNZ_frame s.wA r)
    exact ⟨State.wroteBack_congr hr (State.writeBack_wroteBack hi hu s.wA r),
      State.writeBack_nzOf (Width.nzOf_congr (Width.value_congr hr) (State.setNZ_nzOf s.wA r _)) _ r,
      State.writeBack_pc ..⟩
  refine ⟨fun hi => ?inc, fun hi => ?dec⟩
  case inc => exact ⟨_, exec_INC hi s, stepped (incValue_trunc s.wA _) (by simp [hi])⟩
  case dec => exact ⟨_, exec_DEC hi s, stepped (decValue_trunc s.wA _) (by simp [hi])⟩

/-! ## Shifts and rotates (R251 to R258) -/

theorem aslValue_toNat (w : Width) (v : Word) : (aslValue w v).toNat = (2 * v.toNat) % 2 ^ w.bits := by
  rw [aslValue, Width.trunc_toNat, BitVec.toNat_shiftLeft, Nat.shiftLeft_eq]
  cases w <;> simp only [Width.bits] <;> omega

theorem lsrValue_toNat (v : Word) : (lsrValue v).toNat = v.toNat / 2 := by
  rw [lsrValue, BitVec.toNat_ushiftRight, Nat.shiftRight_eq_div_pow, Nat.pow_one]

/-- The carry goes into bit 0, which the shift has cleared. -/
theorem rolValue_toNat (w : Width) (v : Word) (carry : Bool) :
    (rolValue w v carry).toNat = (2 * v.toNat + carry.toNat) % 2 ^ w.bits := by
  have heven : ∃ k, (aslValue w v).toNat = 2 ^ 1 * k ∧ 2 ^ 1 * k = (2 * v.toNat) % 2 ^ w.bits := by
    refine ⟨(aslValue w v).toNat / 2, ?_⟩
    rw [aslValue_toNat]
    cases w <;> simp only [Width.bits] <;> omega
  obtain ⟨k, hk, hmod⟩ := heven
  cases carry
  · simpa [rolValue, hk] using hmod
  · have hor : (rolValue w v true).toNat = 2 ^ 1 * k ||| 1 := by rw [← hk]; exact BitVec.toNat_or _ _
    rw [hor, ← Nat.two_pow_add_eq_or_of_lt (by omega), hmod, Bool.toNat_true]
    cases w <;> simp only [Width.bits] <;> omega

/-- The carry goes into the top bit, which the shift has cleared. -/
theorem rorValue_toNat {w : Width} {v : Word} (hv : w.trunc v = v) (carry : Bool) :
    (rorValue w v carry).toNat = v.toNat / 2 + carry.toNat * 2 ^ (w.bits - 1) := by
  have hlt : v.toNat / 2 < 2 ^ (w.bits - 1) := by
    have := Width.toNat_of_trunc hv ▸ w.value_lt v
    cases w <;> simp only [Width.bits] at * <;> omega
  cases carry
  · simp [rorValue, lsrValue_toNat]
  · have hmask : w.msbMask.toNat = 2 ^ (w.bits - 1) * 1 := by cases w <;> rfl
    have hor : (rorValue w v true).toNat = (lsrValue v).toNat ||| w.msbMask.toNat := BitVec.toNat_or _ _
    rw [hor, hmask, lsrValue_toNat, Nat.or_comm, ← Nat.two_pow_add_eq_or_of_lt hlt, Bool.toNat_true]
    omega

theorem Width.msb_toNat (w : Width) (v : Word) : (w.msb v).toNat = w.value v / 2 ^ (w.bits - 1) := by
  have hv := w.value_lt v
  rw [Width.msb_eq_decide]
  by_cases hmsb : 2 ^ (w.bits - 1) ≤ w.value v <;> simp only [hmsb, decide_true, decide_false, Bool.toNat]
  all_goals cases w <;> simp only [Width.bits, cond_true, cond_false] at * <;> omega

theorem getLsbD_zero_toNat (v : Word) : (v.getLsbD 0).toNat = v.toNat % 2 := by
  rw [BitVec.getLsbD, Nat.testBit_zero]
  obtain hv | hv := Nat.mod_two_eq_zero_or_one v.toNat <;> simp [hv]

/-- What a shift or rotate leaves whose result is `r` and whose bit shifted out is `out`. -/
theorem State.shift_spec {i : Instr} (hi : i.mnemonic ∈ [.INC, .DEC, .ASL, .LSR, .ROL, .ROR]) (s : State) (out : Bool)
    (r : Word) (t : State)
    (ht : t = (s.locate i.operand).writeBack s.wA r ((s.past i.operand).shiftFlags s.wA out r)) :
    s.wroteBack s.wA i r [.n, .z, .c] t ∧ s.wA.nzOf r t ∧ t.flag .c = out ∧ t.pc = s.pcPast i := by
  subst ht
  have hflags := ((s.past i.operand).setFlag_frame .c out).trans (State.setNZ_frame s.wA r _)
  refine ⟨State.writeBack_wroteBack hi ((s.past_frame i.operand).trans hflags) s.wA r,
    State.writeBack_nzOf (State.setNZ_nzOf s.wA r _) _ r, ?_, State.writeBack_pc ..⟩
  rw [State.writeBack_flag, State.shiftFlags, State.setNZ_other (g := .c) nofun nofun, State.flag_setFlag_same]

/-- Settles O27: each meaning is a shift whose result and bit shifted out are the numbers given. -/
theorem shifts : Obligations.Shifts := by
  intro i s v r out hv hi
  have htrunc := s.operandValue_trunc s.wA i
  rw [← s.operandValue_toNat] at hv
  have meaning : ∃ (word : Word) (bit : Bool), word.toNat = r ∧ bit.toNat = out ∧
      i.mnemonic ∈ [.INC, .DEC, .ASL, .LSR, .ROL, .ROR] ∧
      exec i s = .next ((s.locate i.operand).writeBack s.wA word ((s.past i.operand).shiftFlags s.wA bit word)) := by
    obtain ⟨hi, rfl, rfl⟩ | ⟨hi, rfl, rfl⟩ | ⟨hi, rfl, rfl⟩ | ⟨hi, rfl, rfl⟩ := hi <;> subst hv
    · exact ⟨_, _, aslValue_toNat _ _, s.operandValue_toNat s.wA i ▸ s.wA.msb_toNat _, by simp [hi], exec_ASL hi s⟩
    · exact ⟨_, _, lsrValue_toNat _, getLsbD_zero_toNat _, by simp [hi], exec_LSR hi s⟩
    · exact ⟨_, _, rolValue_toNat _ _ _, s.operandValue_toNat s.wA i ▸ s.wA.msb_toNat _, by simp [hi], exec_ROL hi s⟩
    · exact ⟨_, _, rorValue_toNat htrunc _, getLsbD_zero_toNat _, by simp [hi], exec_ROR hi s⟩
  obtain ⟨word, bit, rfl, rfl, hmem, hexec⟩ := meaning
  obtain ⟨hback, hnz, hc, hpc⟩ := s.shift_spec hmem bit word _ rfl
  rw [BitVec.ofNat_toNat, BitVec.setWidth_eq]
  exact ⟨_, hexec, hback, hnz, congrArg Bool.toNat hc, hpc⟩

/-! ## TSB and TRB (R262, R263) -/

/-- What a test and modify with the value `v` leaves. -/
theorem State.testAndModify_spec {i : Instr} (hi : i.mnemonic ∈ [.STA, .STX, .STY, .STZ, .TSB, .TRB]) (s : State)
    {u v : Word} (he : s.wA.trunc u = s.wA.trunc v) (t : State)
    (ht : t = (s.locate i.operand).writeBack s.wA u ((s.past i.operand).bitZ (s.getA s.wA) (s.operandValue s.wA i))) :
    (s.operandAddrs s.wA i).map t.byteAt = s.wA.bytesOf v ∧
    (t.flag .z = true ↔ s.wA.value (s.c &&& s.operandValue s.wA i) = 0) ∧ t.pc = s.pcPast i ∧
    Frame [.pc] [.z] (s.operandAddrs s.wA i) s t := by
  subst ht
  have hloc : (s.locate i.operand).inMemory := operand_of_store hi s
  refine ⟨?bytes, ?zero, State.writeBack_pc .., ?frame⟩
  case bytes => exact (Loc.writeBack_bytes hloc s.wA u _).1.trans (Width.bytesOf_congr he)
  case zero =>
    rw [State.writeBack_flag]
    exact State.bitZ_iff (s.operandValue_trunc s.wA i) s.c _
  case frame =>
    have h := ((s.past_frame i.operand).trans (State.bitZ_frame _ _ _)).trans
      (Loc.writeBack_frame hloc s.wA u ((s.past i.operand).bitZ (s.getA s.wA) (s.operandValue s.wA i)))
    simpa [State.operandAddrs] using h

/-- Settles O28: the bits of the accumulator are those of C at the width. -/
theorem testAndModify : Obligations.TestAndModify := by
  intro i s
  refine ⟨fun hi => ?tsb, fun hi => ?trb⟩
  case tsb =>
    have he : s.wA.trunc (s.operandValue s.wA i ||| s.getA s.wA) = s.wA.trunc (s.operandValue s.wA i ||| s.c) := by
      rw [Width.trunc_or, Width.trunc_or, State.getA, Width.trunc_trunc]
    exact ⟨_, exec_TSB hi s, s.testAndModify_spec (by simp [hi]) he _ rfl⟩
  case trb =>
    have he : s.wA.trunc (s.operandValue s.wA i &&& ~~~(s.getA s.wA)) =
        s.wA.trunc (s.operandValue s.wA i &&& ~~~s.c) := by
      apply BitVec.eq_of_getLsbD_eq
      intro k _
      simp only [State.getA, Width.getLsbD_trunc, BitVec.getLsbD_and, BitVec.getLsbD_not]
      cases decide (k < s.wA.bits) <;> simp
    exact ⟨_, exec_TRB hi s, s.testAndModify_spec (by simp [hi]) he _ rfl⟩

end Sys2Proof.Machine
end

