-- ==== Sys2Proof/Proofs/WideStack.lean ====
section
/-!
PROOFS. The wide pushes of 45_stack.md (R323, R334 to R336): two bytes by 16-bit arithmetic on S, then SH forced to 01 again in
Emulation mode. What a wide push of one byte and of a word leaves, and what the end of a wide-stack instruction does to S, is said
here for the calls too.
-/

namespace Sys2Proof.Machine

/-! ## Frames of the registers that are no operand -/

/-- A frame holds with longer lists. -/
theorem Frame.mono {rs rs' : List Reg} {fs fs' : List Flag} {as as' : List Addr} {s t : State} (h : Frame rs fs as s t)
    (hr : rs ⊆ rs') (hf : fs ⊆ fs') (ha : as ⊆ as') : Frame rs' fs' as' s t :=
  { h with
    reg := fun r hmem => h.reg r (hmem ∘ @hr r)
    flag := fun f hmem => h.flag f (hmem ∘ @hf f)
    byte := fun a hmem => h.byte a (hmem ∘ @ha a) }

/-- A write of S, D, PC and the bank registers: the registers that it changes are its frame. -/
theorem frame_writeControl {rs : List Reg} (s : State) (sp d pc : Word) (dbr pbr : Byte)
    (hreg : ∀ r, r ∉ rs → State.reg { s with sp := sp, d := d, pc := pc, dbr := dbr, pbr := pbr } r = s.reg r) :
    Frame rs [] [] s { s with sp := sp, d := d, pc := pc, dbr := dbr, pbr := pbr } where
  reg := hreg
  flag _ _ := rfl
  byte _ _ := rfl
  e := rfl
  run := rfl
  nmiPending := rfl
  abortPending := rfl
  irqLine := rfl
  resetLine := rfl
  rdyForcedHigh := rfl
  env := rfl
  draws := rfl
  answers := rfl

theorem frame_writeSP (s : State) (a : Word) : Frame [.sp] [] [] s { s with sp := a } := by
  refine frame_writeControl s a s.d s.pc s.dbr s.pbr fun r hr => ?_
  cases r with
  | sp => simp at hr
  | _ => rfl

theorem frame_writePCPBR (s : State) (a : Word) (k : Byte) : Frame [.pc, .pbr] [] [] s { s with pc := a, pbr := k } := by
  refine frame_writeControl s s.sp s.d a s.dbr k fun r hr => ?_
  cases r with
  | pc | pbr => simp at hr
  | _ => rfl

/-! ## Wide pushes (R167) -/

theorem State.widePushed_two (s : State) : s.widePushed 2 = [bank0 s.sp, bank0 (s.sp - 1)] := by
  simp [State.widePushed, List.range_succ]

theorem State.widePushed_three (s : State) :
    s.widePushed 3 = [bank0 s.sp, bank0 (s.sp - 1), bank0 (s.sp - 2)] := by
  simp [State.widePushed, List.range_succ]

theorem State.push8w_frame (v : Byte) (s : State) : Frame [.sp] [] [bank0 s.sp] s (s.push8w v) := by
  have hstore : Frame [] [] [bank0 s.sp] s (s.storeByte (bank0 s.sp) v) :=
    frame_of_mem _ rfl fun a ha => s.byteAt_storeByte_other v (List.ne_of_not_mem_cons ha)
  exact hstore.trans (frame_writeSP _ (s.sp - 1))

theorem State.push16w_frame (v : Word) (s : State) : Frame [.sp] [] (s.widePushed 2) s (s.push16w v) := by
  have h := (s.push8w_frame (hiByte v)).trans ((s.push8w (hiByte v)).push8w_frame (loByte v))
  refine h.mono (by simp) (by simp) ?_
  rw [State.widePushed_two]
  simp [State.push8w_sp]

theorem word_sub_ne (a : Word) {n : Nat} (h : 0 < n ∧ n < 2 ^ 16) : a ≠ a - BitVec.ofNat 16 n := by
  intro heq
  have hn := congrArg BitVec.toNat heq
  rw [BitVec.toNat_sub, BitVec.toNat_ofNat] at hn
  have := a.isLt
  omega

/-- A wide push fills its slots in the order of R323: the high byte first. -/
theorem State.push16w_widePushed (v : Word) (s : State) :
    (s.widePushed 2).map (s.push16w v).byteAt = [hiByte v, loByte v] := by
  have hne : s.sp ≠ s.sp - 1 := word_sub_ne s.sp (n := 1) (by omega)
  simp only [State.widePushed_two, List.map_cons, List.map_nil, State.push16w_byteAt, bank0_eq_iff, if_neg hne, if_true]

/-! ## The end of a wide-stack instruction (D10) -/

theorem State.restoreSH_eq (s : State) : s.restoreSH = { s with sp := s.wideEnd s.sp } := by
  unfold State.restoreSH State.wideEnd
  split <;> rfl

theorem State.restoreSH_frame (s : State) : Frame [.sp] [] [] s s.restoreSH := by
  rw [State.restoreSH_eq]
  exact frame_writeSP s _

/-- Where S ends depends on the mode only. -/
theorem State.wideEnd_of_e {s t : State} (h : t.e = s.e) (a : Word) : t.wideEnd a = s.wideEnd a := by
  unfold State.wideEnd
  rw [h]

/-! ## The wide push instructions -/

/-- What an instruction with operand `o` leaves that pushes `v` by wide pushes. -/
theorem State.pushWide_spec (o : Operand) (v : Word) (s : State) :
    (s.widePushed 2).map (s.pushWide o v).byteAt = [hiByte v, loByte v] ∧
    (s.pushWide o v).sp = s.wideEnd (s.sp - 2) ∧ (s.pushWide o v).pc = (s.past o).pc ∧
    Frame [.sp, .pc] [] (s.widePushed 2) s (s.pushWide o v) := by
  have hpush := (s.past o).push16w_frame v
  have hend := ((s.past o).push16w v).restoreSH_frame
  refine ⟨?bytes, ?sp, ?pc, ?frame⟩
  case bytes =>
    have hbyte : (s.pushWide o v).byteAt = ((s.past o).push16w v).byteAt := funext fun a => hend.byte a List.not_mem_nil
    rw [hbyte]
    exact (s.past o).push16w_widePushed v
  case sp =>
    rw [State.pushWide, State.restoreSH_sp, State.push16w_sp]
    rfl
  case pc => exact (hend.reg .pc (by simp)).trans (hpush.reg .pc (by simp))
  case frame => exact (((s.past_frame o).trans hpush).trans hend).mono (by simp) (by simp) (by simp [State.widePushed])

/-- Settles O38: each of the four arms is `State.pushWide` of the value that its rule names. -/
theorem pushWide : Obligations.PushWide := by
  intro i s v hi
  have meaning : exec i s = .next (s.pushWide i.operand v) := by
    obtain ⟨rfl, rfl⟩ | rfl | ⟨off, rfl, rfl⟩ | ⟨off, rfl, rfl⟩ := hi
    all_goals rfl
  exact ⟨_, meaning, s.pushWide_spec i.operand v⟩

end Sys2Proof.Machine
end

