-- ==== Sys2Proof/Proofs/Pull.lean ====
section
/-!
PROOFS. The pulls of 45_stack.md (R328 to R333). A pull gives what is read above S and moves S, nothing else; the value then goes
to a register at a width with N and Z (`Loaded`), to a register of its own, or to P.
-/

namespace Sys2Proof.Machine

/-! ## What a pull leaves (R166, R168) -/

theorem State.pull8_snd (s : State) : s.pull8.2 = { s with sp := s.slotUp 1 } := rfl

theorem State.pull16_snd (s : State) : s.pull16.2 = { s with sp := s.slotUp 2 } :=
  congrArg (fun a : Word => { s with sp := a }) s.pull16_sp

theorem State.pullAt_snd (w : Width) (s : State) : (s.pullAt w).2 = { s with sp := s.slotUp w.bytes } := by
  cases w
  case w8 => exact s.pull8_snd
  case w16 => exact s.pull16_snd

theorem State.pull8_frame (s : State) : Frame [.sp] [] [] s s.pull8.2 := frame_writeSP s _

theorem State.pull16_frame (s : State) : Frame [.sp] [] [] s s.pull16.2 := by
  rw [State.pull16_snd]
  exact frame_writeSP s _

theorem State.pullAt_frame (w : Width) (s : State) : Frame [.sp] [] [] s (s.pullAt w).2 := by
  rw [State.pullAt_snd]
  exact frame_writeSP s _

/-- The value of a pull at a width: one byte zero-extended, or two, the low byte first. -/
theorem State.pullAt_fst (w : Width) (s : State) : (s.pullAt w).1 = match w with
    | .w8 => zext8 (s.read .data (bank0 (s.slotUp 1)))
    | .w16 => wordOfBytes (s.read .data (bank0 (s.slotUp 1))) (s.read .data (bank0 (s.slotUp 2))) := by
  cases w
  case w8 => rfl
  case w16 => exact s.pull16_fst

/-! ## PLA, PLX and PLY (R328, R332, R333) -/

/-- What a pull into the register `r` at a width leaves. -/
def State.PulledTo (s : State) (w : Width) (r : Reg) (v : Word) (t : State) : Prop :=
  w.wrote (s.reg r) v (t.reg r) ∧ w.nzOf v t ∧ t.sp = s.slotUp w.bytes ∧ t.pc = s.pc + 1 ∧
    Frame [r, .sp, .pc] [.n, .z] [] s t

/-- The step that the three share: the value pulled is loaded into the register. -/
theorem State.pulledTo_of_loaded {s t : State} {w : Width} {r : Reg} (hr : r ∈ [Reg.c, .x, .y])
    (h : Loaded w r ((s.past .stack0).pullAt w).1 ((s.past .stack0).pullAt w).2 t) :
    s.PulledTo w r ((s.past .stack0).pullAt w).1 t := by
  have hpull := (s.past .stack0).pullAt_frame w
  have hbefore := (s.past_frame .stack0).trans hpull
  have hother : ∀ q, q ∉ [Reg.c, .x, .y] → q ∉ [r] := fun q hq hmem => hq (List.mem_singleton.mp hmem ▸ hr)
  have hold : ((s.past .stack0).pullAt w).2.reg r = s.reg r := by
    refine hbefore.reg r ?_
    simp only [List.mem_cons, List.not_mem_nil, or_false] at hr
    obtain rfl | rfl | rfl := hr <;> simp
  refine ⟨hold ▸ h.value, h.nz, ?sp, ?pc, hbefore.trans h.frame⟩
  case sp =>
    refine (h.frame.reg .sp (hother .sp (by simp))).trans ?_
    rw [State.pullAt_snd]
    rfl
  case pc =>
    refine (h.frame.reg .pc (hother .pc (by simp))).trans ?_
    rw [State.pullAt_snd]
    rfl

/-- Settles O39: each meaning loads its register with the value pulled. -/
theorem pullRegisters : Obligations.PullRegisters := by
  intro s w v hv
  have hvalue : v = ((s.past .stack0).pullAt w).1 := by
    rw [State.pullAt_fst, hv]
    cases w <;> rfl
  subst hvalue
  refine ⟨?pla, ?index⟩
  case pla =>
    rintro rfl
    exact ⟨_, rfl, State.pulledTo_of_loaded (r := .c) (by simp) (State.setA_loaded s.wA _ _)⟩
  case index =>
    rintro rfl
    exact ⟨⟨_, rfl, State.pulledTo_of_loaded (r := .x) (by simp) (State.setX_loaded s.wX _ _)⟩,
      ⟨_, rfl, State.pulledTo_of_loaded (r := .y) (by simp) (State.setY_loaded s.wX _ _)⟩⟩

/-! ## PLB and PLD (R329, R330) -/

theorem frame_writeDBR (s : State) (k : Byte) : Frame [.dbr] [] [] s { s with dbr := k } := by
  refine frame_writeControl s s.sp s.d s.pc k s.pbr fun r hr => ?_
  cases r with
  | dbr => simp at hr
  | _ => rfl

theorem frame_writeD (s : State) (a : Word) : Frame [.d] [] [] s { s with d := a } := by
  refine frame_writeControl s s.sp a s.pc s.dbr s.pbr fun r hr => ?_
  cases r with
  | d => simp at hr
  | _ => rfl

theorem State.pullB_frame (s : State) : Frame [.dbr, .sp, .pc] [.n, .z] [] s s.pullB :=
  (((s.past_frame .stack0).trans (s.past .stack0).pull8_frame).trans (frame_writeDBR _ _)).trans (State.setNZ_frame .w8 _ _)

theorem State.pullD_frame (s : State) : Frame [.d, .sp, .pc] [.n, .z] [] s s.pullD :=
  (((((s.past_frame .stack0).trans (frame_writeSP (s.past .stack0) (s.sp + 2))).trans (frame_writeD _ _)).trans
    (State.setNZ_frame .w16 _ _)).trans (State.restoreSH_frame _)).mono (by simp) (by simp) (by simp)

/-- Settles O40: PLB writes DBR, PLD D and at its end SH. -/
theorem pullBankAndDirect : Obligations.PullBankAndDirect := by
  intro s
  refine ⟨⟨_, rfl, rfl, ?nz8, rfl, rfl, s.pullB_frame⟩, ⟨_, rfl, ?value, ?nz16, ?sp, ?pc, s.pullD_frame⟩⟩
  case nz8 => exact State.setNZ_nzOf .w8 _ _
  case value =>
    rw [State.pullD, State.restoreSH_d]
    rfl
  case nz16 =>
    refine Width.nzOf_of_p (State.restoreSH_p _) ?_
    rw [State.pullD, State.restoreSH_d]
    exact State.setNZ_nzOf .w16 _ _
  case sp => exact State.restoreSH_sp _
  case pc => exact State.restoreSH_pc _

/-! ## PLP (R331) -/

/-- All eight flags. -/
abbrev allFlags : List Flag := [.n, .v, .m, .x, .d, .i, .z, .c]

theorem mem_allFlags (f : Flag) : f ∈ allFlags := by
  cases f <;> simp

theorem State.loadP_p (v : Byte) (s : State) : (s.loadP v).p = if s.e then v ||| 0x30 else v := by
  cases he : s.e <;> simp [State.loadP, he]

/-- In Native mode the index registers are narrowed if the new X flag is 1. -/
theorem State.loadP_narrows (v : Byte) (s : State) (h : s.e = false ∧ (s.loadP v).flag .x = true) :
    (s.loadP v).x = zext8 (loByte s.x) ∧ (s.loadP v).y = zext8 (loByte s.y) := by
  obtain ⟨he, hx⟩ := h
  have hload : s.loadP v = State.narrowIndex { s with p := v } := by simp [State.loadP, he]
  rw [hload, State.narrowIndex_flag] at hx
  rw [hload, State.narrowIndex, if_pos hx]
  exact ⟨rfl, rfl⟩

/-- Else they stay. -/
theorem State.loadP_keeps (v : Byte) (s : State) (h : s.e = true ∨ (s.loadP v).flag .x = false) :
    (s.loadP v).x = s.x ∧ (s.loadP v).y = s.y := by
  cases he : s.e with
  | true => simp [State.loadP, he]
  | false =>
    have hload : s.loadP v = State.narrowIndex { s with p := v } := by simp [State.loadP, he]
    have hx : (s.loadP v).flag .x = false := h.resolve_left (by simp [he])
    rw [hload, State.narrowIndex_flag] at hx
    rw [hload, State.narrowIndex, if_neg (by simp [hx])]
    exact ⟨rfl, rfl⟩

theorem State.loadP_frame (v : Byte) (s : State) : Frame [.x, .y] allFlags [] s (s.loadP v) where
  reg r hr := by
    cases r with
    | x | y => simp at hr
    | _ => simp [State.reg]
  flag f hf := absurd (mem_allFlags f) hf
  byte a _ := by simp
  e := by simp
  run := by simp
  nmiPending := by simp
  abortPending := by simp
  irqLine := by simp
  resetLine := by simp
  rdyForcedHigh := by simp
  env := by simp
  draws := by simp
  answers := by simp

/-- Settles O41: the byte pulled goes into P by `State.loadP`. -/
theorem pullStatus : Obligations.PullStatus := by
  intro s
  have hpull := (s.past_frame .stack0).trans (s.past .stack0).pull8_frame
  have hexec : exec .plp s = .next ((s.past .stack0).pull8.2.loadP (s.past .stack0).pull8.1) := rfl
  exact ⟨_, hexec, State.loadP_p _ _, State.loadP_narrows _ (s.past .stack0).pull8.2,
    State.loadP_keeps _ (s.past .stack0).pull8.2, State.loadP_sp _ _, State.loadP_pc _ _,
    hpull.trans (State.loadP_frame _ _)⟩

end Sys2Proof.Machine
end

