-- ==== Sys2Proof/Proofs/Jump.lean ====
section
/-!
PROOFS. The jumps, calls and returns of 44_branch_jump.md (R291 to R301). A jump is one write of PC, or of PC and PBR; a call is that
after pushes, a return that after pulls. JSR (a,x) and JSL read bytes after they have pushed, so their targets are those read in the
state after.
-/

namespace Sys2Proof.Machine

/-! ## Jumps -/

/-- The bytes of an instruction with an operand of two bytes, as the bus shows them. -/
theorem fetchCycles_two {i : Instr} {w : Word} (h : i.operand.bytes = [loByte w, hiByte w]) (s : State) :
    fetchCycles i s = [⟨.opcode, bankAddr s.pbr s.pc, i.opcode, false, false⟩,
      ⟨.program, bankAddr s.pbr (s.pc + 1), loByte w, false, false⟩,
      ⟨.program, bankAddr s.pbr (s.pc + 2), hiByte w, false, false⟩] := by
  rw [fetchCycles, h]
  rfl

/-- Settles O30: each meaning is one write of PC, or of PC and PBR. -/
theorem jumps : Obligations.Jumps := by
  refine ⟨fun s addr => ⟨⟨_, rfl, rfl, frame_writePC s _⟩, ?cyclesAbs, ?busAbs⟩,
    fun s addr => ⟨_, rfl, rfl, rfl, frame_writePCPBR s _ _⟩,
    fun s addr => ⟨⟨_, rfl, rfl, frame_writePC s _⟩, ?cyclesAbsXInd, ?busAbsXInd⟩,
    fun s addr => ⟨⟨_, rfl, rfl, frame_writePC s _⟩, ?cyclesAbsInd, ?busAbsInd⟩,
    fun s addr => ⟨_, rfl, ?pcLong, ?bankLong, frame_writePCPBR s _ _⟩⟩
  case cyclesAbs => change baseCycles 0x4C + 0 + 0 + 0 + 0 = 3; decide
  case cyclesAbsXInd => change baseCycles 0x7C + 0 + 0 + 0 + 0 = 6; decide
  case cyclesAbsInd => change baseCycles 0x6C + 0 + 0 + 0 + 0 = 5; decide
  case busAbs => exact congrArg (· ++ []) (fetchCycles_two (i := .jmpAbs addr) rfl s)
  case busAbsXInd =>
    exact congrArg (· ++ dataCycles (.jmpAbsXInd addr) s) (fetchCycles_two (i := .jmpAbsXInd addr) rfl s)
  case busAbsInd => exact congrArg (· ++ dataCycles (.jmpAbsInd addr) s) (fetchCycles_two (i := .jmpAbsInd addr) rfl s)
  case pcLong => exact addrOffset_addrOfBytes _ _ _
  case bankLong => exact addrBank_addrOfBytes _ _ _

/-! ## JSR a (R297) -/

theorem State.pushAt_frame (w : Width) (v : Word) (s : State) : Frame [.sp] [] (s.pushed w.bytes) s (s.pushAt w v) where
  reg r hr := by
    cases r with
    | sp => simp at hr
    | _ => simp [State.reg]
  flag f _ := by simp
  byte _ ha := State.pushAt_byteAt_other ha v
  e := by simp
  run := by simp
  nmiPending := by simp
  abortPending := by simp
  irqLine := by simp
  resetLine := by simp
  rdyForcedHigh := by simp
  env := by simp
  draws := by simp
  answers := by simp

theorem State.advance_frame (n : Nat) (s : State) : Frame [.pc] [] [] s (s.advance n) := frame_writePC s _

theorem State.callAbs_frame (addr : Word) (s : State) : Frame [.sp, .pc] [] (s.pushed 2) s (s.callAbs addr) := by
  have hslots : (s.advance 2).pushed Width.w16.bytes = s.pushed 2 := rfl
  exact (((s.advance_frame 2).trans ((s.advance 2).pushAt_frame .w16 (s.pc + 2))).trans (frame_writePC _ addr)).mono
    (by simp) (by simp) (by simp [hslots])

theorem State.callAbs_pushed (addr : Word) (s : State) :
    (s.pushed 2).map (s.callAbs addr).byteAt = [hiByte (s.pc + 2), loByte (s.pc + 2)] :=
  (s.advance 2).pushAt_pushed .w16 (s.pc + 2)

theorem State.callAbs_sp (addr : Word) (s : State) : (s.callAbs addr).sp = s.slotDown 2 :=
  (s.advance 2).pushAt_sp .w16 (s.pc + 2)

/-- Settles O31: the pushes are those of a register at 16 bits. -/
theorem jsrAbsolute : Obligations.JsrAbsolute :=
  fun s addr => ⟨_, rfl, rfl, s.callAbs_pushed addr, s.callAbs_sp addr, s.callAbs_frame addr⟩

/-! ## JSR (a,x) (R298) -/

/-- An operand byte that was read at its address before the pushes is the one read there after them. -/
theorem lateOperandByte_of_read {before : State} {a : Addr} {b : Byte} (h : before.read .fetch a = b) (after : State) :
    lateOperandByte before after a b = after.read .fetch a := by
  subst h
  unfold lateOperandByte
  split
  · next heq => exact heq.symm
  · rfl

/-- A read depends on memory and on the platform's answers only. -/
theorem State.read_congr {s t : State} (hm : t.mem = s.mem) (ha : t.answers = s.answers) (kind : ReadKind) (a : Addr) :
    t.read kind a = s.read kind a := by
  rw [State.read, State.read, ha, State.byteAt, State.byteAt, hm]

/-- The state after the pushes of JSR (a,x), PC at its last byte. -/
def State.callAbsXIndPushed (s : State) : State := (s.advance 2).push16w (s.pc + 2)

/-- The high operand byte of JSR (a,x), read after the pushes. -/
def State.callAbsXIndHigh (addr : Word) (s : State) : Byte :=
  lateOperandByte (s.advance 2) s.callAbsXIndPushed (bankAddr s.pbr (s.pc + 2)) (hiByte addr)

theorem State.callAbsXInd_eq (addr : Word) (s : State) :
    s.callAbsXInd addr = State.restoreSH { s.callAbsXIndPushed with
      pc := absXIndTarget (wordOfBytes (loByte addr) (s.callAbsXIndHigh addr)) s.callAbsXIndPushed } := rfl

theorem State.callAbsXInd_pc (addr : Word) (s : State) : (s.callAbsXInd addr).pc =
    absXIndTarget (wordOfBytes (loByte addr) (s.callAbsXIndHigh addr)) s.callAbsXIndPushed := by
  rw [State.callAbsXInd_eq, State.restoreSH_pc]

theorem State.callAbsXInd_read (addr : Word) (s : State) (kind : ReadKind) (a : Addr) :
    (s.callAbsXInd addr).read kind a = s.callAbsXIndPushed.read kind a := by
  rw [State.callAbsXInd_eq, State.restoreSH_read]
  rfl

theorem State.callAbsXInd_frame (addr : Word) (s : State) :
    Frame [.sp, .pc] [] (s.widePushed 2) s (s.callAbsXInd addr) := by
  have hpush := (s.advance_frame 2).trans ((s.advance 2).push16w_frame (s.pc + 2))
  exact ((hpush.trans (frame_writePC _ _)).trans (State.restoreSH_frame _)).mono (by simp) (by simp)
    (by simp [State.widePushed])

theorem State.callAbsXInd_sp (addr : Word) (s : State) : (s.callAbsXInd addr).sp = s.wideEnd (s.sp - 2) := by
  rw [State.callAbsXInd_eq, State.restoreSH_sp]
  rw [State.wideEnd_of_e (s := s) (by simp [State.callAbsXIndPushed])]
  have hsp : s.callAbsXIndPushed.sp = s.sp - 2 := (s.advance 2).push16w_sp (s.pc + 2)
  exact congrArg s.wideEnd hsp

theorem State.callAbsXInd_pushed (addr : Word) (s : State) :
    (s.widePushed 2).map (s.callAbsXInd addr).byteAt = [hiByte (s.pc + 2), loByte (s.pc + 2)] := by
  have hbyte : (s.callAbsXInd addr).byteAt = s.callAbsXIndPushed.byteAt := by
    funext a
    rw [State.callAbsXInd_eq, State.restoreSH_byteAt]
    rfl
  rw [hbyte]
  exact (s.advance 2).push16w_widePushed (s.pc + 2)

/-- Settles O32: the operand byte and the pointer are those read after the pushes. -/
theorem jsrIndexedIndirect : Obligations.JsrIndexedIndirect := by
  intro s addr hread
  refine ⟨_, rfl, ?pc, s.callAbsXInd_pushed addr, s.callAbsXInd_sp addr, s.callAbsXInd_frame addr⟩
  case pc =>
    rintro p rfl
    have hhigh : s.callAbsXIndHigh addr = s.callAbsXIndPushed.read .fetch (bankAddr s.pbr (s.pc + 2)) :=
      lateOperandByte_of_read (by rw [State.advance_read, hread]) _
    have hx : s.callAbsXIndPushed.x = s.x := rfl
    have hpbr : s.callAbsXIndPushed.pbr = s.pbr := rfl
    rw [State.callAbsXInd_pc, absXIndTarget, State.wordPB, hhigh, hx, hpbr, State.callAbsXInd_read,
      State.callAbsXInd_read, State.callAbsXInd_read]

/-! ## JSL (R299) -/

/-- The state after JSL has pushed PBR, PC at its last byte. -/
def State.callLongPushed (s : State) : State := (s.advance 3).push8w s.pbr

/-- The bank byte of JSL, read after the push of PBR. -/
def State.callLongBank (addr : Addr) (s : State) : Byte :=
  lateOperandByte (s.advance 3) s.callLongPushed (bankAddr s.pbr (s.pc + 3)) (addrBank addr)

theorem State.callLong_eq (addr : Addr) (s : State) :
    s.callLong addr = State.restoreSH { s.callLongPushed.push16w (s.pc + 3) with
      pc := addrOffset addr, pbr := s.callLongBank addr } := rfl

theorem State.callLong_frame (addr : Addr) (s : State) :
    Frame [.sp, .pc, .pbr] [] (s.widePushed 3) s (s.callLong addr) := by
  have hpush := ((s.advance_frame 3).trans ((s.advance 3).push8w_frame s.pbr)).trans
    (s.callLongPushed.push16w_frame (s.pc + 3))
  refine ((hpush.trans (frame_writePCPBR _ _ _)).trans (State.restoreSH_frame _)).mono (by simp) (by simp) ?_
  rw [State.widePushed_two, State.widePushed_three]
  have hlast : s.sp - 1#16 - 1#16 = s.sp - 2#16 := word_sub_add s.sp 1 1
  simp [State.callLongPushed, hlast]

theorem State.callLong_sp (addr : Addr) (s : State) : (s.callLong addr).sp = s.wideEnd (s.sp - 3) := by
  rw [State.callLong_eq, State.restoreSH_sp, State.wideEnd_of_e (s := s) (by simp [State.callLongPushed])]
  have hsp : (s.callLongPushed.push16w (s.pc + 3)).sp = s.sp - 3 :=
    (s.callLongPushed.push16w_sp (s.pc + 3)).trans (word_sub_add s.sp 1 2)
  exact congrArg s.wideEnd hsp

theorem State.callLong_pushed (addr : Addr) (s : State) :
    (s.widePushed 3).map (s.callLong addr).byteAt = [s.pbr, hiByte (s.pc + 3), loByte (s.pc + 3)] := by
  have hbyte : (s.callLong addr).byteAt = (s.callLongPushed.push16w (s.pc + 3)).byteAt := by
    funext a
    rw [State.callLong_eq, State.restoreSH_byteAt]
    rfl
  have hsp : s.callLongPushed.sp = s.sp - 1 := rfl
  have hlast : s.sp - 1 - 1 = s.sp - 2 := word_sub_add s.sp 1 1
  have h01 : s.sp ≠ s.sp - 1 := word_sub_ne s.sp (n := 1) (by omega)
  have h02 : s.sp ≠ s.sp - 2 := word_sub_ne s.sp (n := 2) (by omega)
  have h12 : s.sp - 1 ≠ s.sp - 2 := hlast ▸ word_sub_ne (s.sp - 1) (n := 1) (by omega)
  simp only [hbyte, State.widePushed_three, List.map_cons, List.map_nil, State.push16w_byteAt, hsp, hlast, bank0_eq_iff,
    if_neg h01, if_neg h02, if_neg h12, if_true]
  simp only [State.callLongPushed, State.push8w_byteAt, State.advance_sp, if_true]

/-- Settles O33: the bank byte is the one read after the push of PBR, which is at the slot of that push unless the platform
answers. -/
theorem jslLong : Obligations.JslLong := by
  intro s addr hread
  have hbank : (s.callLong addr).pbr = s.callLongPushed.read .fetch (bankAddr s.pbr (s.pc + 3)) := by
    rw [State.callLong_eq, State.restoreSH_pbr]
    exact lateOperandByte_of_read (by rw [State.advance_read, hread]) _
  have hanswers : s.callLongPushed.answers = s.answers := rfl
  have hbyte (a : Addr) : s.callLongPushed.byteAt a = if a = bank0 s.sp then s.pbr else s.byteAt a :=
    (s.advance 3).push8w_byteAt s.pbr a
  refine ⟨_, rfl, State.restoreSH_pc _, fun h => hbank.trans ?kept, fun hslot hnone => hbank.trans ?pushed,
    s.callLong_pushed addr, s.callLong_sp addr, s.callLong_frame addr⟩
  case kept =>
    rw [← hread, State.read, State.read, hanswers]
    obtain hslot | hsome := h
    · rw [hbyte, if_neg hslot]
    · obtain ⟨v, hv⟩ := Option.ne_none_iff_exists'.mp hsome
      rw [hv]
      rfl
  case pushed => rw [State.read_of_none (hanswers ▸ hnone), hbyte, if_pos hslot]

/-! ## Returns (R300, R301) -/

theorem State.returnShort_pc (s : State) : s.returnShort.pc =
    wordOfBytes (s.read .data (bank0 (s.slotUp 1))) (s.read .data (bank0 (s.slotUp 2))) + 1 :=
  congrArg (· + 1) s.pull16_fst

theorem State.returnShort_frame (s : State) : Frame [.sp, .pc] [] [] s s.returnShort :=
  (s.pull16_frame.trans (frame_writePC _ _)).mono (by simp) (by simp) (by simp)

theorem State.returnLong_pc (s : State) : s.returnLong.pc =
    wordOfBytes (s.read .data (bank0 (s.sp + 1))) (s.read .data (bank0 (s.sp + 2))) + 1 :=
  (State.restoreSH_pc _).trans (congrArg (· + 1) (addrOffset_addrOfBytes _ _ _))

theorem State.returnLong_pbr (s : State) : s.returnLong.pbr = s.read .data (bank0 (s.sp + 3)) :=
  (State.restoreSH_pbr _).trans (addrBank_addrOfBytes _ _ _)

theorem State.returnLong_sp (s : State) : s.returnLong.sp = s.wideEnd (s.sp + 3) := State.restoreSH_sp _

theorem State.returnLong_frame (s : State) : Frame [.sp, .pc, .pbr] [] [] s s.returnLong :=
  (((frame_writeSP s (s.sp + 3)).trans (frame_writePCPBR _ _ _)).trans (State.restoreSH_frame _)).mono
    (by simp) (by simp) (by simp)

/-- Settles O34: RTS pulls a word, RTL an address of 24 bits. -/
theorem returns : Obligations.Returns :=
  fun s => ⟨⟨_, rfl, s.returnShort_pc, s.pull16_sp, s.returnShort_frame⟩,
    ⟨_, rfl, s.returnLong_pc, s.returnLong_pbr, s.returnLong_sp, s.returnLong_frame⟩⟩

/-! ## Call and return -/

/-- Where the platform answers no data read, a data read gives what memory holds. -/
theorem State.read_data_of_plain {s t : State} (hplain : ∀ x ∈ s.answers, x.kind ≠ .data) (ha : t.answers = s.answers)
    (a : Addr) : t.read .data a = t.byteAt a :=
  State.read_of_none (answerTo_none fun x hx hmatch => hplain x (ha ▸ hx) hmatch.1)

/-- A register of a frame that is as before need not stand in it. -/
theorem Frame.drop_reg {r : Reg} {rs rs' : List Reg} {fs : List Flag} {as : List Addr} {s t : State}
    (h : Frame rs' fs as s t) (hr : t.reg r = s.reg r) (hrs : rs' ⊆ r :: rs) : Frame rs fs as s t :=
  { h with
    reg := fun q hq => by
      by_cases hqr : q = r
      · rw [hqr, hr]
      · exact h.reg q fun hmem => (List.mem_cons.mp (hrs hmem)).elim hqr hq }

/-- RTS after JSR a. -/
theorem State.returnShort_callAbs {s : State} (hplain : ∀ x ∈ s.answers, x.kind ≠ .data) (addr : Word) :
    (s.callAbs addr).returnShort.pc = s.pc + 3 ∧ Frame [.pc] [] (s.pushed 2) s (s.callAbs addr).returnShort := by
  have hcall := s.callAbs_frame addr
  have hslot {k : Nat} (hk : k ≤ 2) : (s.callAbs addr).slotUp k = s.slotDown (2 - k) :=
    State.slotUp_slotDown hcall.e (s.callAbs_sp addr) hk
  have hbytes := s.callAbs_pushed addr
  simp only [State.pushed_two, List.map_cons, List.map_nil, List.cons.injEq, and_true] at hbytes
  obtain ⟨hhigh, hlow⟩ := hbytes
  constructor
  · rw [State.returnShort_pc, hslot (k := 1) (by omega), hslot (k := 2) (by omega), Nat.sub_self, State.slotDown_zero,
      State.read_data_of_plain hplain hcall.answers, State.read_data_of_plain hplain hcall.answers, hhigh, hlow,
      wordOfBytes_lo_hi, BitVec.add_assoc]
    rfl
  · have hsp : (s.callAbs addr).returnShort.sp = s.sp := by
      refine (s.callAbs addr).pull16_sp.trans ?_
      rw [hslot (by omega), Nat.sub_self, State.slotDown_zero]
    exact (hcall.trans (s.callAbs addr).returnShort_frame).drop_reg (r := .sp) hsp (by simp)

/-- RTL after JSL in Native mode. -/
theorem State.returnLong_callLong {s : State} (hplain : ∀ x ∈ s.answers, x.kind ≠ .data) (he : s.e = false) (addr : Addr) :
    (s.callLong addr).returnLong.pc = s.pc + 4 ∧ Frame [.pc] [] (s.widePushed 3) s (s.callLong addr).returnLong := by
  have hcall := s.callLong_frame addr
  have hread := State.read_data_of_plain hplain hcall.answers
  have hsp : (s.callLong addr).sp = s.sp - BitVec.ofNat 16 3 := by
    rw [State.callLong_sp, State.wideEnd, he]
    rfl
  have hslot (k j : Nat) (hkj : j + k = 3) : (s.callLong addr).sp + BitVec.ofNat 16 k = s.sp - BitVec.ofNat 16 j := by
    have hthree : (s.callLong addr).sp = s.sp - BitVec.ofNat 16 j - BitVec.ofNat 16 k := by rw [hsp, word_sub_add, hkj]
    rw [hthree, BitVec.sub_add_cancel]
  have hlow : (s.callLong addr).sp + 1 = s.sp - 2 := hslot 1 2 rfl
  have hhigh : (s.callLong addr).sp + 2 = s.sp - 1 := hslot 2 1 rfl
  have hbank : (s.callLong addr).sp + 3 = s.sp := (hslot 3 0 rfl).trans (BitVec.sub_zero _)
  have hbytes := s.callLong_pushed addr
  simp only [State.widePushed_three, List.map_cons, List.map_nil, List.cons.injEq, and_true] at hbytes
  obtain ⟨hb0, hb1, hb2⟩ := hbytes
  constructor
  · rw [State.returnLong_pc, hread, hread, hlow, hhigh, hb1, hb2, wordOfBytes_lo_hi, BitVec.add_assoc]
    rfl
  · have hframe := hcall.trans (s.callLong addr).returnLong_frame
    have hsp' : (s.callLong addr).returnLong.sp = s.sp := by
      rw [State.returnLong_sp, hbank, State.wideEnd, hcall.e, he]
      rfl
    have hpbr : (s.callLong addr).returnLong.pbr = s.pbr := by rw [State.returnLong_pbr, hread, hbank, hb0]
    have hrest := hframe.drop_reg (r := .sp) (rs := [.pc, .pbr]) hsp' (by simp)
    exact hrest.drop_reg (r := .pbr) (congrArg zext8 hpbr) (by simp)

/-- Settles O35: the pulls read what the pushes stored, and S comes back to where it was. -/
theorem subroutineRoundTrip : Obligations.SubroutineRoundTrip :=
  ⟨fun _ addr hplain => ⟨_, _, rfl, rfl, State.returnShort_callAbs hplain addr⟩,
    fun _ addr hplain he => ⟨_, _, rfl, rfl, State.returnLong_callLong hplain he addr⟩⟩

end Sys2Proof.Machine
end

