-- ==== Sys2Proof/Proofs/Status.lean ====
section
/-!
PROOFS. The other transfers, the exchanges, REP, SEP and the instructions that do nothing, of 46_transfer_status.md (R361 to R369,
R373, R374, R382 to R385), with WAI and STP (R426, R428).
-/

namespace Sys2Proof.Machine

/-! ## Transfers (R361 to R369) -/

/-- Settles O43: each of the four arms is the transfer of the whole source register into its destination. -/
theorem transfersByWidth : Obligations.TransfersByWidth := by
  intro s
  refine ⟨?tax, ?tay, ?tsx, ?txa⟩
  case tax => exact ⟨_, rfl, s.transferX_transferred s.c⟩
  case tay => exact ⟨_, rfl, s.transferY_transferred s.c⟩
  case tsx => exact ⟨_, rfl, s.transferX_transferred s.sp⟩
  case txa => exact ⟨_, rfl, s.transferA_transferred s.x⟩

/-- A transfer into C is a load of the accumulator at 16 bits. -/
theorem State.transferC_loaded (v : Word) (s : State) : Loaded .w16 .c v (s.past .implied) (s.transferC v) :=
  (s.past .implied).setA_loaded .w16 v

theorem State.transferD_loaded (s : State) : Loaded .w16 .d s.c (s.past .implied) s.transferD :=
  .of_merge (frame_writeD _ _) rfl

theorem State.transferS_frame (v : Word) (s : State) : Frame [.sp, .pc] [] [] s (s.transferS v) :=
  (s.past_frame .implied).trans (frame_writeSP _ _)

/-- A transfer into S writes SL only in Emulation mode. -/
theorem State.transferS_wrote (v : Word) (s : State) :
    (if s.e then Width.w8 else Width.w16).wrote s.sp v (s.transferS v).sp := by
  cases he : s.e <;> simp [State.transferS, Width.wrote, he]

/-- Settles O44: TCD, TDC and TSC are loads at 16 bits, TCS and TXS writes of S. -/
theorem transfersOfSixteen : Obligations.TransfersOfSixteen := by
  intro s
  refine ⟨?tcd, ?tdc, ?tsc, ?tcs, ?txs⟩
  case tcd => exact ⟨_, rfl, rfl, s.transferD_loaded.nz, rfl, s.transferD_loaded.frame_past⟩
  case tdc => exact ⟨_, rfl, rfl, (s.transferC_loaded s.d).nz, rfl, (s.transferC_loaded s.d).frame_past⟩
  case tsc => exact ⟨_, rfl, rfl, (s.transferC_loaded s.sp).nz, rfl, (s.transferC_loaded s.sp).frame_past⟩
  case tcs => exact ⟨_, rfl, s.transferS_wrote s.c, rfl, s.transferS_frame s.c⟩
  case txs => exact ⟨_, rfl, s.transferS_wrote s.x, rfl, s.transferS_frame s.x⟩

/-! ## Exchanges (R373, R374) -/

theorem State.exchangeBA_frame (s : State) : Frame [.c, .pc] [.n, .z] [] s s.exchangeBA :=
  ((s.past_frame .implied).trans (State.setA_frame .w16 _ _)).trans (State.setNZ_frame .w8 _ _)

/-- Settles O45: the new C is the bytes of the old one in the other order. -/
theorem exchangeBytes : Obligations.ExchangeBytes :=
  fun s => ⟨_, rfl, loByte_append _ _, hiByte_append _ _, State.setNZ_nzOf .w8 _ _, rfl, s.exchangeBA_frame⟩

theorem State.clearIndexHigh_frame (s : State) : Frame [.x, .y] [] [] s s.clearIndexHigh := by
  refine frame_writeCXYP s s.c _ _ s.p (fun r hr => ?_) fun _ _ => rfl
  cases r with
  | x | y => simp at hr
  | _ => rfl

theorem State.enterEmulation_frame (s : State) : Frame [.x, .y, .sp] [.m, .x] [] s s.enterEmulation :=
  ((((s.setFlag_frame .m true).trans (State.setFlag_frame .x true _)).trans (State.clearIndexHigh_frame _)).trans
    (frame_writeSP _ _)).mono (by simp) (by simp) (by simp)

/-- The flags that Emulation mode forces. -/
theorem State.enterEmulation_flags (s : State) :
    s.enterEmulation.flag .m = true ∧ s.enterEmulation.flag .x = true := by
  have hx : s.enterEmulation.flag .x = true := State.flag_setFlag_same .x true _
  have hm : s.enterEmulation.flag .m = ((s.setFlag .m true).setFlag .x true).flag .m := rfl
  exact ⟨hm.trans (by simp [State.flag_setFlag]), hx⟩

/-- C takes the old E. -/
def State.carryFromE (s : State) : State := (s.past .implied).setFlag .c s.e

theorem State.exchangeCE_eq (s : State) : s.exchangeCE =
    if s.flag .c then State.enterEmulation { s.carryFromE with e := s.flag .c } else { s.carryFromE with e := s.flag .c } := rfl

theorem State.carryFromE_frame (s : State) : Frame [.pc] [.c] [] s s.carryFromE :=
  (s.past_frame .implied).trans ((s.past .implied).setFlag_frame .c s.e)

theorem State.carryFromE_carry (s : State) : s.carryFromE.flag .c = s.e := (s.past .implied).flag_setFlag_same .c s.e

/-- Settles O46: the two cases are the two values of C, which E takes. -/
theorem exchangeModes : Obligations.ExchangeModes := by
  intro s
  refine ⟨_, rfl, ?_⟩
  rw [State.exchangeCE_eq]
  cases hc : s.flag .c with
  | false =>
    exact ⟨rfl, s.carryFromE_carry, rfl, nofun, fun _ => s.carryFromE_frame⟩
  | true =>
    have hforced := State.enterEmulation_frame s.carryFromE
    have hframe := s.carryFromE_frame.trans hforced
    obtain ⟨hm, hx⟩ := State.enterEmulation_flags s.carryFromE
    exact ⟨rfl, (hforced.flag .c (by simp)).trans s.carryFromE_carry, rfl,
      fun _ => ⟨hm, hx, rfl, rfl, hiByte_append _ _, loByte_append _ _, hframe⟩, nofun⟩

/-! ## REP and SEP (R382, R383) -/

/-- The part of a mask that may clear flags: in Emulation mode not M and X. -/
theorem flagOf_repMask (e : Bool) (mask : Byte) (f : Flag) :
    flagOf f (if e then mask &&& 0xCF else mask) = (flagOf f mask && !(e && (f == .m || f == .x))) := by
  cases e
  · simp
  · rw [if_pos rfl, flagOf_and]
    cases f <;> rfl

theorem State.repBits_flag (mask : Byte) (s : State) (f : Flag) :
    (s.repBits mask).flag f = (s.flag f && !(mask.getLsbD f.bit && !(s.e && (f == .m || f == .x)))) := by
  have h : (s.repBits mask).flag f = flagOf f (s.p &&& ~~~(if s.e then mask &&& 0xCF else mask)) := rfl
  rw [h, flagOf_and, flagOf_not, flagOf_repMask]
  rfl

theorem frame_writeP (s : State) (p : Byte) : Frame [] allFlags [] s { s with p := p } :=
  frame_writeCXYP s s.c s.x s.y p (fun r _ => by cases r <;> rfl) fun f hf => absurd (mem_allFlags f) hf

theorem State.repBits_frame (mask : Byte) (s : State) : Frame [.pc] allFlags [] s (s.repBits mask) :=
  (s.past_frame (.imm (.byte mask))).trans (frame_writeP _ _)

/-- The flags set, before the index registers are narrowed. -/
def State.setBits (mask : Byte) (s : State) : State := { s.past (.imm (.byte mask)) with p := s.p ||| mask }

theorem State.narrowIndex_frame (s : State) : Frame [.x, .y] [] [] s s.narrowIndex := by
  unfold State.narrowIndex
  split
  · exact s.clearIndexHigh_frame
  · exact (frame_writePC s s.pc).drop_reg (r := .pc) rfl (by simp)

theorem State.narrowIndex_narrows {s : State} (h : s.flag .x = true) :
    s.narrowIndex.x = zext8 (loByte s.x) ∧ s.narrowIndex.y = zext8 (loByte s.y) := by
  rw [State.narrowIndex, if_pos h]
  exact ⟨rfl, rfl⟩

theorem State.narrowIndex_keeps {s : State} (h : s.flag .x = false) : s.narrowIndex.x = s.x ∧ s.narrowIndex.y = s.y := by
  rw [State.narrowIndex, if_neg (by simp [h])]
  exact ⟨rfl, rfl⟩

theorem State.sepBits_eq (mask : Byte) (s : State) : s.sepBits mask = (s.setBits mask).narrowIndex := rfl

theorem State.sepBits_flag (mask : Byte) (s : State) (f : Flag) :
    (s.sepBits mask).flag f = (s.flag f || mask.getLsbD f.bit) := by
  rw [State.sepBits_eq, State.narrowIndex_flag]
  exact flagOf_or f s.p mask

theorem State.sepBits_frame (mask : Byte) (s : State) : Frame [.x, .y, .pc] allFlags [] s (s.sepBits mask) :=
  ((s.past_frame (.imm (.byte mask))).trans (frame_writeP _ (s.p ||| mask))).trans (s.setBits mask).narrowIndex_frame

/-- Settles O48: the flags bit by bit, and the narrowing after SEP. -/
theorem repSep : Obligations.RepSep := by
  intro s mask
  refine ⟨⟨_, rfl, s.repBits_flag mask, rfl, s.repBits_frame mask⟩,
    ⟨_, rfl, s.sepBits_flag mask, fun hx => ?narrowed, fun hx => ?kept, State.narrowIndex_pc _, s.sepBits_frame mask⟩⟩
  case narrowed => exact State.narrowIndex_narrows ((s.setBits mask).narrowIndex_flag .x ▸ hx)
  case kept => exact State.narrowIndex_keeps ((s.setBits mask).narrowIndex_flag .x ▸ hx)

/-! ## Nothing but PC, or PC and the run state -/

/-- Settles O49: both meanings are the state past the instruction. -/
theorem noOperations : Obligations.NoOperations :=
  fun s => ⟨⟨_, rfl, rfl, rfl, rfl, rfl, s.past_frame .implied⟩, fun b => ⟨_, rfl, rfl, s.past_frame (.wdm b)⟩⟩

/-- Settles O55: beside PC only the run state is written. -/
theorem waitAndStop : Obligations.WaitAndStop :=
  fun s => ⟨⟨_, rfl, rfl, rfl, s.past_frame .implied⟩, ⟨_, rfl, rfl, rfl, s.past_frame .implied⟩⟩

end Sys2Proof.Machine
end

