-- ==== Sys2Proof/Proofs/BlockMove.lean ====
section
/-!
PROOFS. The block moves of 47_block_move.md (R410 to R415): what one byte leaves, and by induction over the bytes what a whole move
leaves (`Moved`). A destination address that comes again, when 8-bit index registers wrap, comes with the same source address.
-/

namespace Sys2Proof.Machine

/-! ## One byte (R411) -/

/-- The byte stored and the index registers stepped, before C and PC. -/
def State.moveByte (delta : Word) (dst src : Byte) (s : State) : State :=
  ((State.storeByte (bankAddr dst s.y) (s.read .data (bankAddr src s.x)) { s with dbr := dst }).setX s.wX
    (s.x + delta)).setY s.wX (s.y + delta)

theorem State.moveByte_frame (delta : Word) (dst src : Byte) (s : State) :
    Frame [.x, .y, .dbr] [] [bankAddr dst s.y] s (s.moveByte delta dst src) := by
  have hstore : Frame [] [] [bankAddr dst s.y] { s with dbr := dst }
      (State.storeByte (bankAddr dst s.y) (s.read .data (bankAddr src s.x)) { s with dbr := dst }) :=
    frame_of_mem _ rfl fun a ha => State.byteAt_storeByte_other _ _ (List.ne_of_not_mem_cons ha)
  exact ((((frame_writeDBR s dst).trans hstore).trans (State.setX_frame s.wX (s.x + delta) _)).trans
    (State.setY_frame s.wX (s.y + delta) _)).mono (by simp) (by simp) (by simp)

theorem frame_writeC (s : State) (v : Word) : Frame [.c] [] [] s { s with c := v } := s.setA_frame .w16 v

theorem State.blockMoveStep_eq (delta : Word) (dst src : Byte) (s : State) : s.blockMoveStep delta dst src =
    if s.c = 0x0000 then { (s.moveByte delta dst src).past (.blockMove dst src) with c := blockMoveFinalC }
    else { s.moveByte delta dst src with c := s.c - 1 } := rfl

theorem State.blockMoveStep_frame (delta : Word) (dst src : Byte) (s : State) :
    Frame [.c, .x, .y, .dbr, .pc] [] [bankAddr dst s.y] s (s.blockMoveStep delta dst src) := by
  have hmove := s.moveByte_frame delta dst src
  rw [State.blockMoveStep_eq]
  split
  · exact ((hmove.trans (State.past_frame (.blockMove dst src) _)).trans (frame_writeC _ _)).mono
      (by simp) (by simp) (by simp)
  · exact (hmove.trans (frame_writeC _ _)).mono (by simp) (by simp) (by simp)

/-- The parts of the state that C's case does not touch. -/
theorem State.blockMoveStep_moved (delta : Word) (dst src : Byte) (s : State) :
    (s.blockMoveStep delta dst src).x = s.wX.merge s.x (s.x + delta) ∧
    (s.blockMoveStep delta dst src).y = s.wX.merge s.y (s.y + delta) ∧
    (s.blockMoveStep delta dst src).dbr = dst ∧
    (s.blockMoveStep delta dst src).byteAt (bankAddr dst s.y) = s.read .data (bankAddr src s.x) := by
  have hbyte : (s.moveByte delta dst src).byteAt (bankAddr dst s.y) = s.read .data (bankAddr src s.x) :=
    State.byteAt_storeByte_same _ _ _
  rw [State.blockMoveStep_eq]
  split <;> exact ⟨rfl, rfl, rfl, hbyte⟩

/-- While C is not 0 it counts down and PC stays. -/
theorem State.blockMoveStep_continues {s : State} (hc : s.c ≠ 0x0000) (delta : Word) (dst src : Byte) :
    (s.blockMoveStep delta dst src).c = s.c - 1 ∧ (s.blockMoveStep delta dst src).pc = s.pc := by
  rw [State.blockMoveStep_eq, if_neg hc]
  exact ⟨rfl, rfl⟩

theorem blockMoveFinalC_cases : blockMoveFinalC = 0xFFFF ∨ blockMoveFinalC = 0x0000 := by
  unfold blockMoveFinalC
  split
  · exact .inl rfl
  · exact .inr rfl

/-- With C = 0 the instruction is complete. -/
theorem State.blockMoveStep_completes {s : State} (hc : s.c = 0x0000) (delta : Word) (dst src : Byte) :
    ((s.blockMoveStep delta dst src).c = 0xFFFF ∨ (s.blockMoveStep delta dst src).c = 0x0000) ∧
    (s.blockMoveStep delta dst src).pc = s.pc + 3 := by
  rw [State.blockMoveStep_eq, if_pos hc]
  exact ⟨blockMoveFinalC_cases, rfl⟩

/-- The two arms. -/
theorem exec_blockMove {i : Instr} {dst src : Byte} {delta : Word}
    (hi : (i = .mvn dst src ∧ delta = 1) ∨ (i = .mvp dst src ∧ delta = -1)) (s : State) :
    exec i s = .next (s.blockMoveStep delta dst src) := by
  obtain ⟨rfl, rfl⟩ | ⟨rfl, rfl⟩ := hi <;> rfl

/-- Settles O50: both meanings are `State.blockMoveStep` by one up or one down. -/
theorem blockMoveByte : Obligations.BlockMoveByte := by
  intro s dst src i delta hi
  obtain ⟨hx, hy, hdbr, hbyte⟩ := s.blockMoveStep_moved delta dst src
  exact ⟨_, exec_blockMove hi s, hbyte, hdbr, hx ▸ s.wX.merge_wrote s.x _, hy ▸ s.wX.merge_wrote s.y _,
    fun hc => State.blockMoveStep_continues hc delta dst src,
    fun hc => State.blockMoveStep_completes hc delta dst src, s.blockMoveStep_frame delta dst src⟩

/-! ## Index registers after some steps -/

@[simp] theorem Width.stepped_zero (w : Width) (v delta : Word) : w.stepped v delta 0 = v := by
  cases w <;> simp [Width.stepped]

theorem loByte_add (a b : Word) : loByte (a + b) = loByte a + loByte b := by
  apply BitVec.eq_of_toNat_eq
  rw [BitVec.toNat_add, loByte_toNat, loByte_toNat, loByte_toNat, BitVec.toNat_add]
  omega

/-- One more step, as the instruction makes it. -/
theorem Width.merge_stepped (w : Width) (v delta : Word) (k : Nat) :
    w.merge (w.stepped v delta k) (w.stepped v delta k + delta) = w.stepped v delta (k + 1) := by
  cases w
  · have hlo : loByte v + loByte delta * BitVec.ofNat 8 k + loByte delta =
        loByte v + loByte delta * BitVec.ofNat 8 (k + 1) := by
      rw [BitVec.ofNat_add, BitVec.mul_add, BitVec.mul_one, BitVec.add_assoc]
    rw [Width.merge_w8, loByte_add, Width.stepped, Width.stepped, hiByte_append, loByte_append, hlo]
  · have hadd : v + delta * BitVec.ofNat 16 k + delta = v + delta * BitVec.ofNat 16 (k + 1) := by
      rw [BitVec.ofNat_add, BitVec.mul_add, BitVec.mul_one, BitVec.add_assoc]
    exact hadd

/-- Where one register comes back to a value, so does the other. -/
theorem Width.stepped_eq_of_stepped_eq {w : Width} {u delta : Word} {j k : Nat}
    (h : w.stepped u delta j = w.stepped u delta k) (v : Word) : w.stepped v delta j = w.stepped v delta k := by
  cases w
  · have hlo := congrArg loByte h
    rw [Width.stepped, Width.stepped, loByte_append, loByte_append] at hlo
    rw [Width.stepped, Width.stepped, (BitVec.add_right_inj _).mp hlo]
  · have hmul : delta * BitVec.ofNat 16 j = delta * BitVec.ofNat 16 k := (BitVec.add_right_inj u).mp h
    rw [Width.stepped, Width.stepped, hmul]

/-! ## The whole move (R411 to R414) -/

/-- The last step of many. -/
theorem execTimes_succ {i : Instr} {n : Nat} {s t : State} (h : execTimes i n s = .next t) :
    execTimes i (n + 1) s = exec i t := by
  induction n generalizing s with
  | zero =>
    injection h with hst
    subst hst
    rw [execTimes]
    cases exec i s <;> rfl
  | succ n ih =>
    rw [execTimes] at h ⊢
    cases he : exec i s with
    | next u => rw [he] at h; exact ih h
    | fault f => rw [he] at h; cases h
    | refused r => rw [he] at h; cases h

/-- Where byte `k` of the destination of a move that starts in `s` goes. -/
def State.moveDst (s : State) (delta : Word) (dst : Byte) (k : Nat) : Addr := bankAddr dst (s.wX.stepped s.y delta k)

/-- Where byte `k` of its source comes from. -/
def State.moveSrc (s : State) (delta : Word) (src : Byte) (k : Nat) : Addr := bankAddr src (s.wX.stepped s.x delta k)

/-- `u` is `s` after `n` bytes of a move: X and Y are `n` steps on, and nothing but them, C, DBR, PC and the first `n` bytes of the
destination has changed; these are copies if no destination byte of the first `m` is a source byte of them. -/
structure Moved (delta : Word) (dst src : Byte) (s : State) (n : Nat) (u : State) : Prop where
  x : u.x = s.wX.stepped s.x delta n
  y : u.y = s.wX.stepped s.y delta n
  frame : Frame [.c, .x, .y, .dbr, .pc] [] ((List.range n).map (s.moveDst delta dst)) s u
  copied : (∀ a ∈ s.answers, a.kind ≠ .data) → ∀ m, n ≤ m →
    (∀ j k, j < m → k < m → s.moveDst delta dst j ≠ s.moveSrc delta src k) →
    ∀ k, k < n → u.byteAt (s.moveDst delta dst k) = s.byteAt (s.moveSrc delta src k)

theorem Moved.zero (delta : Word) (dst src : Byte) (s : State) : Moved delta dst src s 0 s where
  x := (Width.stepped_zero ..).symm
  y := (Width.stepped_zero ..).symm
  frame := (frame_writePC s s.pc).mono (by simp) (by simp) (by simp)
  copied _ _ _ _ k hk := absurd hk (Nat.not_lt_zero k)

/-- One more byte. -/
theorem Moved.succ {delta : Word} {dst src : Byte} {s u : State} {n : Nat} (h : Moved delta dst src s n u) :
    Moved delta dst src s (n + 1) (u.blockMoveStep delta dst src) := by
  have hw : u.wX = s.wX := by rw [State.wX, State.wX, h.frame.flag .x List.not_mem_nil]
  obtain ⟨hx, hy, -, hbyte⟩ := u.blockMoveStep_moved delta dst src
  have hsrc : bankAddr src u.x = s.moveSrc delta src n := by rw [h.x, State.moveSrc]
  have hdst : bankAddr dst u.y = s.moveDst delta dst n := by rw [h.y, State.moveDst]
  have hstep := u.blockMoveStep_frame delta dst src
  rw [hdst] at hstep hbyte
  rw [hsrc] at hbyte
  refine ⟨?x, ?y, ?frame, ?copied⟩
  case x => rw [hx, hw, h.x, Width.merge_stepped]
  case y => rw [hy, hw, h.y, Width.merge_stepped]
  case frame =>
    refine (h.frame.trans hstep).mono (by simp) (by simp) ?_
    simp [List.range_succ]
  case copied =>
    intro hplain m hm hapart k hk
    have hread : u.read .data (s.moveSrc delta src n) = s.byteAt (s.moveSrc delta src n) := by
      rw [State.read_data_of_plain hplain h.frame.answers]
      refine h.frame.byte _ fun hmem => ?_
      obtain ⟨j, hj, heq⟩ := List.mem_map.mp hmem
      have hjn := List.mem_range.mp hj
      exact hapart j n (by omega) (by omega) heq
    by_cases hsame : s.moveDst delta dst k = s.moveDst delta dst n
    · have hindex := Width.stepped_eq_of_stepped_eq (bankAddr_inj hsame).2 s.x
      rw [hsame, hbyte, hread, State.moveSrc, State.moveSrc, hindex]
    · have hkn : k < n := Nat.lt_of_le_of_ne (Nat.lt_succ_iff.mp hk) fun heq => hsame (by rw [heq])
      rw [hstep.byte _ (by simpa using hsame)]
      exact h.copied hplain m (by omega) hapart k hkn

/-- The state before byte `n` of a move, as long as C has not run out: C has counted down and PC is at the opcode still. -/
theorem exists_moved {i : Instr} {dst src : Byte} {delta : Word}
    (hi : (i = .mvn dst src ∧ delta = 1) ∨ (i = .mvp dst src ∧ delta = -1)) (s : State) {n : Nat} (hn : n ≤ s.c.toNat) :
    ∃ u, execTimes i n s = .next u ∧ u.pc = s.pc ∧ u.c = s.c - BitVec.ofNat 16 n ∧ Moved delta dst src s n u := by
  induction n with
  | zero => exact ⟨s, rfl, rfl, (BitVec.sub_zero s.c).symm, .zero delta dst src s⟩
  | succ n ih =>
    obtain ⟨u, hu, hpc, hc, hmoved⟩ := ih (by omega)
    have hnot : u.c ≠ 0x0000 := by
      intro hzero
      have hnat := congrArg BitVec.toNat (hc.symm.trans hzero)
      rw [BitVec.toNat_sub, BitVec.toNat_ofNat] at hnat
      change _ = 0 at hnat
      have := s.c.isLt
      omega
    obtain ⟨hcount, hstay⟩ := State.blockMoveStep_continues hnot delta dst src
    exact ⟨_, (execTimes_succ hu).trans (exec_blockMove hi u), hstay.trans hpc,
      hcount.trans (hc ▸ word_sub_add s.c n 1), hmoved.succ⟩

/-- Settles O51: after C bytes C is 0, and the next byte completes the move. -/
theorem blockMoveWhole : Obligations.BlockMoveWhole := by
  intro s dst src i delta hi
  refine ⟨fun k hk => ?counting, ?complete⟩
  case counting =>
    obtain ⟨u, hu, hpc, hc, -⟩ := exists_moved hi s hk
    exact ⟨u, hu, hpc, hc⟩
  case complete =>
    obtain ⟨u, hu, hpc, hc, hmoved⟩ := exists_moved hi s (Nat.le_refl s.c.toNat)
    have hzero : u.c = 0x0000 := by
      rw [hc, BitVec.ofNat_toNat, BitVec.setWidth_eq]
      exact BitVec.sub_self s.c
    obtain ⟨hfinal, hpast⟩ := State.blockMoveStep_completes hzero delta dst src
    obtain ⟨-, -, hdbr, -⟩ := u.blockMoveStep_moved delta dst src
    have hdone := hmoved.succ
    refine ⟨_, (execTimes_succ hu).trans (exec_blockMove hi u), hpast.trans (hpc ▸ rfl), hdbr, hfinal, hdone.x, hdone.y,
      fun hplain hapart k hk => ?copied, hdone.frame⟩
    case copied =>
      exact hdone.copied hplain (s.c.toNat + 1) (Nat.le_refl _)
        (fun j k hj hk => hapart j k (Nat.lt_succ_iff.mp hj) (Nat.lt_succ_iff.mp hk)) k (Nat.lt_succ_iff.mpr hk)

end Sys2Proof.Machine
end

