-- ==== Sys2Proof/Proofs/Interrupt.lean ====
section
/-!
PROOFS. BRK, COP and RTI (48_system.md, R420 to R424) and the round trip of an interrupt sequence and RTI (60_exceptions.md, section
4). What a sequence does is `State.interrupt_entered`; what RTI leaves is said here once, as one update of the state in which P has
been pulled.
-/

namespace Sys2Proof.Machine

/-! ## BRK and COP (R420 to R422) -/

theorem State.softwareInterrupt_entered (kind : InterruptKind) (sig : Byte) (s : State) :
    Entered kind s.pbr (s.pc + 2) { s with pc := s.pc + 2 } (s.softwareInterrupt kind sig) :=
  (s.past (.stack1 sig)).interrupt_entered kind s.pbr (s.pc + 2)

/-- Settles O52: both meanings take the sequence from the state past the signature. -/
theorem softwareInterrupts : Obligations.SoftwareInterrupts :=
  ⟨fun s sig => ⟨⟨_, rfl, s.softwareInterrupt_entered .brk sig⟩, ⟨_, rfl, s.softwareInterrupt_entered .cop sig⟩⟩,
    fun _ => ⟨rfl, rfl⟩, fun _ => ⟨rfl, rfl, rfl, rfl⟩⟩

/-! ## RTI (R424) -/

/-- The state in which RTI has pulled P. -/
def State.statusPulled (s : State) : State := s.pull8.2.loadP (s.read .data (bank0 (s.slotUp 1)))

theorem State.statusPulled_frame (s : State) : Frame [.x, .y, .sp] allFlags [] s s.statusPulled :=
  s.pull8_frame.trans (State.loadP_frame _ _)

theorem State.statusPulled_slotUp (s : State) (k : Nat) : s.statusPulled.slotUp k = s.slotUp (1 + k) :=
  State.slotUp_of s.statusPulled_frame.e (State.loadP_sp _ _) k

theorem State.statusPulled_read (s : State) (kind : ReadKind) (a : Addr) : s.statusPulled.read kind a = s.read kind a :=
  State.loadP_read _ _ kind a

/-- The address that RTI pulls. -/
def State.pulledReturn (s : State) : Word :=
  wordOfBytes (s.read .data (bank0 (s.slotUp 2))) (s.read .data (bank0 (s.slotUp 3)))

/-- The bank that RTI leaves. -/
def State.pulledBank (s : State) : Byte := if s.e then s.pbr else s.read .data (bank0 (s.slotUp 4))

theorem State.statusPulled_pull16 (s : State) : s.statusPulled.pull16.1 = s.pulledReturn := by
  rw [State.pull16_fst, State.statusPulled_slotUp, State.statusPulled_slotUp, State.statusPulled_read,
    State.statusPulled_read]
  rfl

/-- RTI in one update. -/
theorem State.returnFromInterrupt_eq (s : State) : s.returnFromInterrupt =
    { s.statusPulled with sp := s.slotUp s.frameSize, pc := s.pulledReturn, pbr := s.pulledBank } := by
  have hmode : s.returnFromInterrupt =
      if s.e then { s.statusPulled.pull16.2 with pc := s.statusPulled.pull16.1 }
      else { s.statusPulled.pull16.2.pull8.2 with
        pc := s.statusPulled.pull16.1, pbr := s.statusPulled.pull16.2.pull8.1 } := rfl
  have hpbr : s.statusPulled.pbr = s.pbr := State.loadP_pbr _ _
  rw [hmode, State.statusPulled_pull16, State.pulledBank, State.frameSize]
  cases he : s.e with
  | true =>
    have hsp : s.statusPulled.slotUp 2 = s.slotUp 3 := s.statusPulled_slotUp 2
    simp only [if_true, State.pull16_snd, hsp, ← hpbr]
  | false =>
    have hsp : s.statusPulled.pull16.2.slotUp 1 = s.slotUp 4 := by
      rw [State.pull16_slotUp, State.statusPulled_slotUp]
    simp only [Bool.false_eq_true, if_false, State.pull8_snd, State.pull8_fst, hsp, State.pull16_read,
      State.statusPulled_read]
    rw [State.pull16_snd]

theorem State.returnFromInterrupt_frame (s : State) :
    Frame [.x, .y, .sp, .pc, .pbr] allFlags [] s s.returnFromInterrupt := by
  rw [State.returnFromInterrupt_eq]
  have h := (s.statusPulled_frame.trans (frame_writeSP _ (s.slotUp s.frameSize))).trans
    (frame_writePCPBR _ s.pulledReturn s.pulledBank)
  exact Frame.mono h (by simp) (by simp) (by simp)

/-- Settles O53: everything but S, PC and PBR is that of the state in which P has been pulled. -/
theorem returnFromInterrupt : Obligations.ReturnFromInterrupt := by
  intro s
  refine ⟨s.returnFromInterrupt, rfl, ?p, ?pc, ?pbr, fun h => ?narrowed, fun h => ?kept, ?sp,
    s.returnFromInterrupt_frame⟩
  case p => rw [State.returnFromInterrupt_eq]; exact State.loadP_p _ _
  case pc => rw [State.returnFromInterrupt_eq]; rfl
  case pbr => rw [State.returnFromInterrupt_eq]; rfl
  case sp => rw [State.returnFromInterrupt_eq]
  case narrowed =>
    rw [State.returnFromInterrupt_eq] at h ⊢
    exact State.loadP_narrows _ s.pull8.2 h
  case kept =>
    rw [State.returnFromInterrupt_eq] at h ⊢
    exact State.loadP_keeps _ s.pull8.2 h

/-! ## The round trip -/

/-- The run state takes no part in a frame. -/
theorem Frame.with_run {rs : List Reg} {fs : List Flag} {as : List Addr} {s t : State} (h : Frame rs fs as s t)
    (r : RunState) : Frame rs fs as { s with run := r } { t with run := r } :=
  { h with
    reg := fun q hq => by have hreg := h.reg q hq; cases q <;> exact hreg
    run := rfl }

/-- P comes back from the image pushed, if with E = 1 its M and X flags are 1. -/
theorem pImage_restored {e : Bool} {p : Byte} (hforced : e = true → flagOf .m p = true ∧ flagOf .x p = true)
    (kind : InterruptKind) : (if e then kind.pImage e p ||| 0x30 else kind.pImage e p) = p := by
  cases e with
  | false => rfl
  | true =>
    obtain ⟨hm, hx⟩ := hforced rfl
    rw [if_pos rfl]
    apply status_ext
    intro f
    rw [flagOf_or]
    cases kind <;> cases f <;> simp only [InterruptKind.pImage, flagOf_or, flagOf_and, hm, hx] <;>
      simp [flagOf, Flag.bit]

theorem State.pushed_three (s : State) : s.pushed 3 = [bank0 s.sp, bank0 (s.slotDown 1), bank0 (s.slotDown 2)] := by
  simp [State.pushed, List.range_succ]

theorem State.pushed_four (s : State) :
    s.pushed 4 = [bank0 s.sp, bank0 (s.slotDown 1), bank0 (s.slotDown 2), bank0 (s.slotDown 3)] := by
  simp [State.pushed, List.range_succ]

/-- The frame of an interrupt sequence, as RTI reads it. -/
structure FrameRead (kind : InterruptKind) (bank : Byte) (ret : Word) (s t : State) : Prop where
  status : t.read .data (bank0 (t.slotUp 1)) = kind.pImage s.e s.p
  ret : t.pulledReturn = ret
  bank : s.e = false → t.read .data (bank0 (t.slotUp 4)) = bank
  sp : t.slotUp t.frameSize = s.sp

theorem Entered.frameRead {kind : InterruptKind} {bank : Byte} {ret : Word} {s t : State}
    (h : Entered kind bank ret s t) (hplain : ∀ x ∈ s.answers, x.kind ≠ .data) : FrameRead kind bank ret s t := by
  have hread (a : Addr) : t.read .data a = t.byteAt a := State.read_data_of_plain hplain h.rest.answers a
  have he : t.e = s.e := h.rest.e
  have hslot {k : Nat} (hk : k ≤ s.frameSize) : t.slotUp k = s.slotDown (s.frameSize - k) :=
    State.slotUp_slotDown he h.sp hk
  have hsize : t.frameSize = s.frameSize := by rw [State.frameSize, State.frameSize, he]
  have hbytes := h.frame
  have hsp : t.slotUp t.frameSize = s.sp := by rw [hsize, hslot (Nat.le_refl _), Nat.sub_self, State.slotDown_zero]
  cases hmode : s.e with
  | true =>
    have hthree : s.frameSize = 3 := by rw [State.frameSize, hmode]; rfl
    rw [hthree] at hslot hbytes
    simp only [State.pushed_three, hmode, if_true, List.map_cons, List.map_nil, List.nil_append, List.cons.injEq,
      and_true] at hbytes
    obtain ⟨hhigh, hlow, hp⟩ := hbytes
    have h1 := hslot (k := 1) (by omega)
    have h2 := hslot (k := 2) (by omega)
    have h3 := hslot (k := 3) (by omega)
    refine ⟨by rw [hread, h1, hp, hmode], ?_, fun hnot => absurd (hmode.symm.trans hnot) nofun, hsp⟩
    rw [State.pulledReturn, hread, hread, h2, h3, hlow, Nat.sub_self, State.slotDown_zero, hhigh, wordOfBytes_lo_hi]
  | false =>
    have hfour : s.frameSize = 4 := by rw [State.frameSize, hmode]; rfl
    rw [hfour] at hslot hbytes
    simp only [State.pushed_four, hmode, Bool.false_eq_true, if_false, List.map_cons, List.map_nil, List.cons_append,
      List.nil_append, List.cons.injEq, and_true] at hbytes
    obtain ⟨hbank, hhigh, hlow, hp⟩ := hbytes
    have h1 := hslot (k := 1) (by omega)
    have h2 := hslot (k := 2) (by omega)
    have h3 := hslot (k := 3) (by omega)
    have h4 := hslot (k := 4) (by omega)
    refine ⟨by rw [hread, h1, hp, hmode], ?_, fun _ => ?_, hsp⟩
    · rw [State.pulledReturn, hread, hread, h2, h3, hlow, hhigh, wordOfBytes_lo_hi]
    · rw [hread, h4, Nat.sub_self, State.slotDown_zero, hbank]

/-- Settles O54: RTI reads the frame that the sequence stored, and with the invariant P and the index registers come back whole. -/
theorem interruptRoundTrip : Obligations.InterruptRoundTrip := by
  intro kind bank ret s t hinv hplain h
  have hread := h.frameRead hplain
  have he : t.e = s.e := h.rest.e
  obtain ⟨u, hexec, hp, hpc, hpbr, hnarrowed, hkept, hsp, hrti⟩ := returnFromInterrupt t
  have hx : t.x = s.x := h.rest.reg .x (by simp)
  have hy : t.y = s.y := h.rest.reg .y (by simp)
  have hstatus : u.p = s.p := by
    rw [hp, hread.status, he]
    exact pImage_restored (fun hemu => ⟨(hinv.emulation hemu).1, (hinv.emulation hemu).2.1⟩) kind
  have hflag (f : Flag) : u.flag f = s.flag f := by rw [State.flag, State.flag, hstatus]
  have hindex : u.x = s.x ∧ u.y = s.y := by
    rw [← hx, ← hy]
    by_cases hnarrow : t.e = false ∧ u.flag .x = true
    · obtain ⟨hx0, hy0⟩ := hinv.index (hflag .x ▸ hnarrow.2)
      rw [(hnarrowed hnarrow).1, (hnarrowed hnarrow).2, hx, hy]
      exact ⟨zext8_loByte hx0, zext8_loByte hy0⟩
    · refine hkept ?_
      cases hmode : t.e <;> simp_all
  refine ⟨u, hexec, hpc.trans hread.ret, ?pbr, hstatus, ?frame⟩
  case pbr =>
    rw [hpbr, he]
    cases hmode : s.e with
    | true => exact h.pbr
    | false => exact hread.bank hmode
  case frame =>
    have hframe := h.rest.trans (hrti.with_run s.run)
    have hregs := ((hframe.drop_reg (r := .sp) (rs := [.x, .y, .pc, .pbr]) (hsp.trans hread.sp) (by simp)).drop_reg
      (r := .x) (rs := [.y, .pc, .pbr]) hindex.1 (by simp)).drop_reg (r := .y) (rs := [.pc, .pbr]) hindex.2 (by simp)
    exact { hregs with flag := fun f _ => hflag f }

end Sys2Proof.Machine
end

