-- ==== Sys2Proof/Proofs/Boundary.lean ====
section
/-!
PROOFS. What a step does at the boundary (48_system.md, section 3; 60_exceptions.md; 70_reset_and_hazards.md, section 1). The inputs
of a step are split once by RESB, the run state and what wakes a wait; where a sequence may be due, the state that it is looked for
in is the sampled one with the NMIB edge latched, of a processor that runs.
-/

namespace Sys2Proof.Machine

/-! ## The reset state (R60, R62) -/

/-- Settles O6: the fields of `State.reset`, evaluated. -/
theorem resetState : Obligations.ResetState := by
  refine ⟨⟨fun _ => ⟨rfl, rfl, rfl⟩, fun _ => ⟨rfl, rfl⟩, rfl, nofun⟩, ?_⟩
  exact ⟨rfl, rfl, rfl, rfl, rfl, rfl, rfl, rfl, rfl, rfl, rfl, rfl, rfl⟩

/-! ## Recognition (R441, R442, R470 to R472) -/

theorem nextSequence_eq_none_iff (s : State) : s.nextSequence = none ↔
    s.abortPending = none ∧ s.nmiPending = false ∧ (s.irqLine = false ∨ s.flag .i = true) := by
  constructor
  · intro h
    cases ha : s.abortPending with
    | some a => rw [nextSequence_abort ha] at h; cases h
    | none =>
      cases hn : s.nmiPending with
      | true => rw [nextSequence_nmi ha hn] at h; cases h
      | false =>
        cases hi : s.irqLine with
        | false => exact ⟨rfl, rfl, .inl rfl⟩
        | true =>
          cases hf : s.flag .i with
          | true => exact ⟨rfl, rfl, .inr rfl⟩
          | false => rw [nextSequence_irq ha hn hi hf] at h; cases h
  · rintro ⟨ha, hn, hi⟩
    exact nextSequence_none ha hn hi

theorem recognise_outside {s : State} (h : s.nextSequence = none) :
    recognise .outsideWindow s = .refuse .abortOutsideWindow := by
  unfold recognise
  rw [h]

/-- ABORTB in its window aborts the instruction. -/
theorem recognise_aborts {s : State} {abort : AbortInput} (h : s.nextSequence = none) (hquiet : abort ≠ .none)
    (hin : abort ≠ .outsideWindow) : recognise abort s = .executeAborted s := by
  unfold recognise
  rw [h]
  cases abort with
  | none => exact absurd rfl hquiet
  | outsideWindow => exact absurd rfl hin
  | atStart | inWindow => rfl

/-! ## Safe steps -/

theorem safeStep_of_settle {s t : State} (h : boundary s.input s.sampled = .settle t) : safeStep s :=
  ⟨t, step_of_settle h⟩

theorem safeStep_of_execute {s t : State} (h : boundary s.input s.sampled = .execute t) : safeStep s := by
  obtain ⟨u, hu⟩ := exec_next t.fetch t
  exact ⟨u, (step_of_execute h).trans hu⟩

theorem isSequence_iff (i : Instr) : Instr.isSequence i = true ↔ i.mnemonic ∈ [.BRK, .COP] := by
  simp [Instr.isSequence]

/-- An aborted instruction answers the state before it, with its writes done or not (R470). -/
theorem step_aborted {s t u : State} (h : boundary s.input s.sampled = .executeAborted t)
    (hi : t.fetch.mnemonic ∉ [.BRK, .COP]) (hu : exec t.fetch t = .next u) : step s = .next (t.undo u) := by
  rw [step_of_executeAborted h, hu, abortedResult, if_neg fun hseq => hi ((isSequence_iff _).mp hseq)]

theorem step_refuses_sequence {s t : State} (h : boundary s.input s.sampled = .executeAborted t)
    (hi : t.fetch.mnemonic ∈ [.BRK, .COP]) : step s = .refused .abortDuringSequence := by
  rw [step_of_executeAborted h]
  exact if_pos ((isSequence_iff _).mpr hi)

/-- With ABORTB quiet recognition never refuses. -/
theorem safeStep_of_recognise {s t : State} (h : boundary s.input s.sampled = recognise .none t) : safeStep s := by
  cases hseq : t.nextSequence with
  | none => exact safeStep_of_execute (h.trans (recognise_execute hseq))
  | some due =>
    obtain ⟨kind, bank, ret⟩ := due
    exact safeStep_of_settle (h.trans (recognise_sequence hseq))

/-! ## The wait (R426, R427) -/

/-- What wakes a waiting processor, by the state and the inputs of the step. -/
theorem wakes_iff (s : State) : (s.sampled.latchNmi s.input.nmiEdge).wakes = true ↔
    s.nmiPending = true ∨ s.input.nmiEdge = true ∨ s.input.irqLow = true ∨ s.input.rdyForcedHigh = true := by
  have h : (s.sampled.latchNmi s.input.nmiEdge).wakes =
      ((s.nmiPending || s.input.nmiEdge) || s.input.irqLow || s.input.rdyForcedHigh) := rfl
  rw [h]
  simp only [Bool.or_eq_true, or_assoc]

theorem not_wakes_iff (s : State) : (s.sampled.latchNmi s.input.nmiEdge).wakes = false ↔
    s.nmiPending = false ∧ s.input.nmiEdge = false ∧ s.input.irqLow = false ∧ s.input.rdyForcedHigh = false := by
  rw [← Bool.not_eq_true, wakes_iff]
  simp

theorem boundary_wakes {s : State} (hl : s.resetLine = false) (hresb : s.input.resb = .high) (hr : s.run = .waiting)
    (hw : (s.sampled.latchNmi s.input.nmiEdge).wakes = true) :
    boundary s.input s.sampled = recognise s.input.abort.afterWait (s.sampled.woken s.input) :=
  (boundary_waiting hresb (s := s.sampled) hl hr).trans (waitBoundary_wakes hw)

theorem boundary_waits {s : State} (hl : s.resetLine = false) (hresb : s.input.resb = .high) (hr : s.run = .waiting)
    (hw : (s.sampled.latchNmi s.input.nmiEdge).wakes = false) : boundary s.input s.sampled =
      if s.input.abort = .outsideWindow then .refuse .abortOutsideWindow
      else .settle (if s.input.abort = .none then s.sampled.latchNmi s.input.nmiEdge
        else (s.sampled.latchNmi s.input.nmiEdge).latchAbortWaiting) :=
  (boundary_waiting hresb (s := s.sampled) hl hr).trans (waitBoundary_waits hw)

/-- The state in which a running processor, or one that a wait goes on with, looks for a sequence that is due. -/
def State.awake (s : State) : State := { s.sampled.latchNmi s.input.nmiEdge with run := .running }

/-- Where that state is looked at. -/
theorem boundary_awake {s : State} (hl : s.resetLine = false) (hresb : s.input.resb = .high)
    (hrun : s.run = .running ∨ (s.run = .waiting ∧
      (s.nmiPending = true ∨ s.input.nmiEdge = true ∨ s.input.irqLow = true ∨ s.input.rdyForcedHigh = true) ∧
      s.input.abort ≠ .atStart)) : boundary s.input s.sampled = recognise s.input.abort s.awake := by
  obtain hr | ⟨hr, hw, ha⟩ := hrun
  · have hawake : s.awake = s.sampled.latchNmi s.input.nmiEdge := by
      rw [State.awake, ← hr]
      rfl
    rw [hawake]
    exact boundary_running hresb hl hr
  · have hwoken : s.sampled.woken s.input = s.awake := if_neg ha
    rw [boundary_wakes hl hresb hr ((wakes_iff s).mpr hw), hwoken, AbortInput.afterWait, if_neg ha]

/-- Whether a sequence is due there. -/
theorem awake_nextSequence_iff (s : State) : s.awake.nextSequence = none ↔
    s.abortPending = none ∧ s.nmiPending = false ∧ s.input.nmiEdge = false ∧
      (s.input.irqLow = false ∨ s.flag .i = true) := by
  have hnmi : s.awake.nmiPending = (s.nmiPending || s.input.nmiEdge) := rfl
  have habort : s.awake.abortPending = s.abortPending := rfl
  have hirq : s.awake.irqLine = s.input.irqLow := rfl
  have hi : s.awake.flag .i = s.flag .i := rfl
  rw [nextSequence_eq_none_iff, hnmi, habort, hirq, hi, Bool.or_eq_false_iff, and_assoc]

/-! ## Where a step stops -/

theorem safeStep_of_quiet {s : State}
    (h : s.input.abort = .none ∨ s.input.resb ≠ .high ∨ (s.resetLine = false ∧ s.run = .stopped)) : safeStep s := by
  cases hresb : s.input.resb with
  | low => exact safeStep_of_settle (boundary_low hresb _)
  | lowMidInstruction => exact safeStep_of_settle (boundary_lowMid hresb _)
  | high =>
    obtain ha | hne | ⟨hl, hr⟩ := h
    · cases hl : s.resetLine with
      | true =>
        refine safeStep_of_settle (t := s.sampled.resetExit) ((boundary_release hresb (s := s.sampled) hl).trans ?_)
        rw [releaseBoundary, if_pos ha]
      | false =>
        cases hr : s.run with
        | stopped => exact safeStep_of_settle (boundary_stopped hresb hl hr)
        | running => exact safeStep_of_recognise (ha ▸ boundary_awake hl hresb (.inl hr))
        | waiting =>
          cases hw : (s.sampled.latchNmi s.input.nmiEdge).wakes with
          | true =>
            have hw' := (wakes_iff s).mp hw
            exact safeStep_of_recognise (ha ▸ boundary_awake hl hresb (.inr ⟨hr, hw', by simp [ha]⟩))
          | false =>
            exact safeStep_of_settle ((boundary_waits hl hresb hr hw).trans (if_neg (by simp [ha])))
    · exact absurd hresb hne
    · exact safeStep_of_settle (boundary_stopped hresb hl hr)

/-- Settles O9: the cases of the boundary, each with its outcome. -/
theorem stepStops : Obligations.StepStops := by
  intro s
  refine ⟨safeStep_of_quiet, fun ha hresb hl => ?release, fun awake hawake ha hresb hl =>
    ⟨fun hr hw => ?waits, fun hr hw hstart => ?wakes, fun hrun => ⟨fun hdue => ?due, fun h1 h2 h3 h4 => ?none⟩⟩⟩
  case release =>
    refine step_of_refuse ((boundary_release hresb (s := s.sampled) hl).trans ?_)
    rw [releaseBoundary, if_neg ha]
  case waits =>
    have hsleeps : (s.sampled.latchNmi s.input.nmiEdge).wakes = false :=
      Bool.eq_false_iff.mpr fun hwakes => hw (hawake.mpr ((wakes_iff s).mp hwakes))
    have hb := boundary_waits hl hresb hr hsleeps
    exact ⟨fun hout => step_of_refuse (hb.trans (if_pos hout)), fun hin => safeStep_of_settle (hb.trans (if_neg hin))⟩
  case wakes =>
    have hb := boundary_wakes hl hresb hr ((wakes_iff s).mpr (hawake.mp hw))
    rw [AbortInput.afterWait, if_pos hstart] at hb
    exact safeStep_of_recognise hb
  all_goals have hb := boundary_awake hl hresb (hrun.imp_right fun h => ⟨h.1, hawake.mp h.2.1, h.2.2⟩)
  case due =>
    refine step_of_refuse (hb.trans (recognise_refuse (fun hnone => ?_) ha))
    obtain ⟨h1, h2, h3, h4⟩ := (awake_nextSequence_iff s).mp hnone
    simp_all
  case none =>
    have hnone := (awake_nextSequence_iff s).mpr ⟨h1, h2, h3, h4⟩
    refine ⟨fun hout => ?outside, fun hin hseq => ?sequence, fun hin hother => ?aborted⟩
    case outside => exact step_of_refuse (hb.trans (hout ▸ recognise_outside hnone))
    all_goals have hexec := hb.trans (recognise_aborts hnone ha hin)
    case sequence => exact step_refuses_sequence hexec hseq
    case aborted =>
      obtain ⟨u, hu⟩ := exec_next s.awake.fetch s.awake
      exact ⟨_, step_aborted hexec hother hu⟩

/-! ## An undisturbed step (R114) -/

theorem step_of_undisturbed {s : State} (h : s.undisturbed) : step s = exec s.sampled.fetch s.sampled := by
  have hb := boundary_awake h.noReset h.resbHigh (.inl h.running)
  have hawake : s.awake = s.sampled := by
    rw [State.awake, h.noNmi, State.latchNmi_false, ← h.running]
    rfl
  have hnone := (awake_nextSequence_iff s).mpr ⟨h.abortDone, h.nmiDone, h.noNmi, h.irqOff⟩
  rw [hawake] at hb hnone
  rw [h.noAbort, recognise_execute hnone] at hb
  exact step_of_execute hb

/-- Settles O8: what the four bytes decode to is what the step fetches; the rest is what a read gives. -/
theorem stepRunsDecoded : Obligations.StepRunsDecoded := by
  refine ⟨?runs, fun s kind a h => State.read_of_none (answerTo_none h), ?answered,
    fun s cells => ⟨fun a h => State.byteAt_platformShows_other h s, ?shown⟩⟩
  case runs =>
    rintro s s0 i rest hund rfl hdecode
    have hfetch := (State.decode_fetch s.sampled).symm.trans hdecode
    injection hfetch with hi
    rw [step_of_undisturbed hund, hi]
    rfl
  case answered =>
    intro s x before later hanswers hfirst
    exact State.read_of_some (hanswers ▸ answerTo_first hfirst)
  case shown =>
    rintro a v before later rfl h
    exact State.byteAt_platformShows_last before v h s

/-! ## Hardware interrupts (R441, R442) -/

/-- A sequence that is due in the awake state is taken from it, its latch cleared. -/
theorem step_takes {s t : State} {kind : InterruptKind} {bank : Byte} {ret : Word}
    (hb : boundary s.input s.sampled = recognise .none t) (hseq : t.nextSequence = some (kind, bank, ret)) :
    ∃ u, step s = .next u ∧ Entered kind bank ret (t.clearLatch kind) u :=
  ⟨_, step_of_settle (hb.trans (recognise_sequence hseq)), State.interrupt_entered kind bank ret _⟩

/-- Settles O56: with ABORTB quiet the sequence that is due is the first of the three. -/
theorem hardwareInterrupts : Obligations.HardwareInterrupts := by
  refine ⟨fun s hr hl hresb ha => ?taken, fun _ => ⟨rfl, rfl, rfl⟩, fun kind p hkind => ?images⟩
  case images =>
    simp only [List.mem_cons, List.not_mem_nil, or_false] at hkind
    obtain rfl | rfl | rfl := hkind <;> exact ⟨rfl, rfl⟩
  case taken =>
    have hb : boundary s.input s.sampled = recognise .none (s.sampled.latchNmi s.input.nmiEdge) :=
      ha ▸ boundary_running hresb (s := s.sampled) hl hr
    refine ⟨fun a hpending => ?abort, fun hnone hnmi => ?nmi, fun hnone hnmi hedge hirq hi => ?irq⟩
    case abort => exact step_takes (t := s.sampled.latchNmi s.input.nmiEdge) hb (nextSequence_abort hpending)
    case nmi =>
      have hlatched : (s.sampled.latchNmi s.input.nmiEdge).nmiPending = true := by
        rw [← Bool.or_eq_true] at hnmi
        exact hnmi
      exact step_takes (t := s.sampled.latchNmi s.input.nmiEdge) hb (nextSequence_nmi hnone hlatched)
    case irq =>
      rw [hedge, State.latchNmi_false] at hb
      exact step_takes hb (nextSequence_irq hnone hnmi hirq hi)

/-! ## Waiting (R426, R427) -/

/-- The base state of a wait that ends, ABORTB quiet or pulsed in the wait. -/
theorem woken_eq {s : State} (ha : s.input.abort = .none ∨ s.input.abort = .atStart) :
    s.sampled.woken s.input = { s.sampled with
      run := .running
      nmiPending := s.nmiPending || s.input.nmiEdge
      abortPending := if s.input.abort = .none then s.abortPending
        else some (s.abortPending.getD (bankAddr s.pbr (s.pc - 1))) } := by
  unfold State.woken
  obtain ha | ha := ha <;> rw [ha] <;> rfl

/-- Settles O57: the wait goes on or ends, and with ABORTB quiet or pulsed in the wait what follows is recognition. -/
theorem waiting : Obligations.Waiting := by
  rintro s base hr hl hresb rfl
  refine ⟨fun hnmi hirq hrdy hin => ?waits, fun hwakes ha => ?wakes⟩
  case waits =>
    obtain ⟨hpending, hedge⟩ := Bool.or_eq_false_iff.mp hnmi
    have hb := boundary_waits hl hresb hr ((not_wakes_iff s).mpr ⟨hpending, hedge, hirq, hrdy⟩)
    rw [if_neg hin] at hb
    refine ⟨(step_of_settle hb).trans (congrArg Host.Outcome.next ?state), ?pin⟩
    case state =>
      rw [State.latchAbortWaiting]
      split <;> rw [← hr] <;> rfl
    case pin =>
      have hirqLine : s.input.irqLow = false := hirq
      have hpin : pinRdyPulledLow { s.sampled with
          run := .waiting
          nmiPending := s.nmiPending || s.input.nmiEdge
          abortPending := if s.input.abort = .none then s.abortPending
            else some (s.abortPending.getD (bankAddr s.pbr (s.pc - 1))) } =
          (if s.input.abort = .none then s.abortPending
            else some (s.abortPending.getD (bankAddr s.pbr (s.pc - 1)))).isNone := by
        simp [pinRdyPulledLow, hl, hpending, hedge, hirqLine]
      rw [hpin]
      split <;> simp_all
  case wakes =>
    have hw : (s.sampled.latchNmi s.input.nmiEdge).wakes = true := by
      rw [wakes_iff, ← or_assoc]
      exact hwakes.imp_left (Bool.or_eq_true _ _).mp
    have hafter : s.input.abort.afterWait = .none := by
      obtain ha | ha := ha <;> rw [ha] <;> rfl
    have hb := boundary_wakes hl hresb hr hw
    rw [hafter, woken_eq ha] at hb
    refine ⟨fun a hpending => ?abort, fun hnone hnmi => ?nmi, fun hnone hnmi hirq hi => ?irq,
      fun hnone hnmi hirq => ?execute⟩
    case abort => exact step_takes hb (nextSequence_abort hpending)
    case nmi => exact step_takes hb (nextSequence_nmi hnone hnmi)
    case irq => exact step_takes hb (nextSequence_irq hnone hnmi hirq hi)
    case execute => exact step_of_execute (hb.trans (recognise_execute (nextSequence_none hnone hnmi hirq)))

end Sys2Proof.Machine
end

