-- ==== Sys2Proof/Proofs/Reset.lean ====
section
/-!
PROOFS. The stopped processor and reset (48_system.md, section 3; 70_reset_and_hazards.md, section 1): a stopped step only takes in
the inputs, the conditioning period forces its values from any state, and the release loads PC from the reset vector.
-/

namespace Sys2Proof.Machine

/-! ## Stopped (R428) -/

theorem step_stopped {s : State} (hr : s.run = .stopped) (hl : s.resetLine = false) (hresb : s.input.resb = .high) :
    step s = .next s.sampled :=
  step_of_settle (boundary_stopped hresb hl hr)

/-- RESB stays high where every scheduled input has it high: without one, the level is kept. -/
theorem State.input_resb_high {s : State} (hl : s.resetLine = false) (h : ∀ q ∈ s.env, q.resb = .high) :
    s.input.resb = .high := by
  unfold State.input
  split
  · simp [State.heldInput, hl]
  next hq => exact h _ (hq ▸ List.mem_cons_self)

/-- Without scheduled changes by the platform, memory is as it was. -/
theorem State.sampled_mem_of_still {s : State} (h : ∀ q ∈ s.env, q.platform = []) : s.sampled.mem = s.mem := by
  have hstill : s.input.platform = [] := by
    unfold State.input
    split
    · rfl
    next hq => exact h _ (hq ▸ List.mem_cons_self)
  rw [State.sampled_mem, hstill]
  rfl

theorem run_succ_of_next {s t : State} (h : step s = .next t) (n : Nat) :
    Host.Core.run Sys2Proof.core (n + 1) s = Host.Core.run Sys2Proof.core n t := by
  have hcore : Sys2Proof.core.step s = .next t := h
  simp only [Host.Core.run, hcore]

/-- Settles O58, by induction on the number of steps: each only takes in the inputs. -/
theorem stopped : Obligations.Stopped := by
  intro n
  induction n with
  | zero => exact fun s hr _ _ => ⟨s, rfl, hr, fun _ => rfl, rfl, rfl, rfl, rfl, fun _ => rfl⟩
  | succ n ih =>
    intro s hr hl henv
    have htail : ∀ q ∈ s.sampled.env, q ∈ s.env := fun q hq => List.mem_of_mem_tail hq
    obtain ⟨t, hrun, hstopped, hreg, hp, he, hnmi, habort, hmem⟩ :=
      ih s.sampled hr hl fun q hq => henv q (htail q hq)
    refine ⟨t, ?_, hstopped, hreg, hp, he, hnmi, habort, fun hstill => ?_⟩
    · rw [run_succ_of_next (step_stopped hr hl (State.input_resb_high hl henv)), hrun]
    · rw [hmem fun q hq => hstill q (htail q hq), State.sampled_mem_of_still hstill]

/-! ## The conditioning period (R60, R501) -/

/-- The values that a step with RESB low forces. -/
structure Conditioned (t : State) : Prop where
  d : t.d = 0x0000
  dbr : t.dbr = 0x00
  pbr : t.pbr = 0x00
  sp : hiByte t.sp = 0x01
  x : hiByte t.x = 0x00
  y : hiByte t.y = 0x00
  e : t.e = true
  flagM : t.flag .m = true
  flagX : t.flag .x = true
  flagD : t.flag .d = false
  flagI : t.flag .i = true
  line : t.resetLine = true
  rdy : pinRdyPulledLow t = false

theorem flagOf_resetP {f : Flag} (hn : f ≠ .n) (hv : f ≠ .v) (hz : f ≠ .z) (hc : f ≠ .c) (k : Nat) :
    flagOf f (resetP k) = flagOf f 0x34 := by
  rw [resetP, flagOf_withFlag_other hn, flagOf_withFlag_other hv, flagOf_withFlag_other hz, flagOf_withFlag_other hc]

theorem State.resetConditioning_flag {f : Flag} (hn : f ≠ .n) (hv : f ≠ .v) (hz : f ≠ .z) (hc : f ≠ .c) (s : State) :
    s.resetConditioning.flag f = flagOf f 0x34 := flagOf_resetP hn hv hz hc s.draws

theorem State.resetConditioning_conditioned (s : State) : Conditioned s.resetConditioning where
  d := rfl
  dbr := rfl
  pbr := rfl
  sp := hiByte_append _ _
  x := hiByte_zext8 _
  y := hiByte_zext8 _
  e := rfl
  flagM := State.resetConditioning_flag (f := .m) nofun nofun nofun nofun s
  flagX := State.resetConditioning_flag (f := .x) nofun nofun nofun nofun s
  flagD := State.resetConditioning_flag (f := .d) nofun nofun nofun nofun s
  flagI := State.resetConditioning_flag (f := .i) nofun nofun nofun nofun s
  line := rfl
  rdy := by
    have hline : s.resetConditioning.resetLine = true := rfl
    simp [pinRdyPulledLow, hline]

/-- Nothing begins in a step in reset, while stopped, or in a wait that goes on. -/
theorem State.begun_none {s : State} (h : s.resetLine = true ∨ s.run = .stopped ∨
    (s.run = .waiting ∧ (s.sampled.latchNmi s.input.nmiEdge).wakes = false)) : s.sampled.begun s.input = none := by
  unfold State.begun
  obtain hl | hr | ⟨hr, hw⟩ := h
  · simp [hl]
  · simp [hr]
  · simp [hr, hw]

/-- A step with RESB low, in mid-instruction or not: the conditioning of the state with or without what is left of it. -/
theorem step_low {s : State} (h : s.input.resb ≠ .high) : ∃ u, (u = s.sampled ∨ u = s.sampled.cutByReset s.input) ∧
    (s.input.resb = .low → u = s.sampled) ∧ step s = .next u.resetConditioning := by
  cases hresb : s.input.resb with
  | low => exact ⟨_, .inl rfl, fun _ => rfl, step_of_settle (boundary_low hresb _)⟩
  | lowMidInstruction => exact ⟨_, .inr rfl, nofun, step_of_settle (boundary_lowMid hresb _)⟩
  | high => exact absurd hresb h

/-! ## The release (R502, R503) -/

theorem step_release {s : State} (hl : s.resetLine = true) (hresb : s.input.resb = .high) (ha : s.input.abort = .none) :
    step s = .next s.sampled.resetExit :=
  step_of_settle ((boundary_release hresb (s := s.sampled) hl).trans (if_pos ha))

theorem State.resetExit_flag (s : State) (f : Flag) :
    s.resetExit.flag f = if f = .d then false else if f = .i then true else s.flag f := by
  have h : s.resetExit.flag f = ((s.setFlag .i true).setFlag .d false).flag f := rfl
  rw [h, State.flag_setFlag, State.flag_setFlag]

theorem State.resetExit_reg (s : State) {r : Reg} (hr : r ∉ [.pc, .pbr]) : s.resetExit.reg r = s.reg r := by
  cases r with
  | pc => simp at hr
  | pbr => simp at hr
  | _ => rfl

/-- Settles O59: the conditioning period and the release. -/
theorem resetSequence : Obligations.ResetSequence := by
  refine ⟨fun s hlow => ?low, fun s hl hresb ha => ?release, rfl, rfl, rfl, rfl, rfl, rfl⟩
  case low =>
    obtain ⟨u, hu, hplain, hstep⟩ := step_low hlow
    have forced := u.resetConditioning_conditioned
    refine ⟨_, hstep, forced.d, forced.dbr, forced.pbr, forced.sp, forced.x, forced.y, forced.e, forced.flagM,
      forced.flagX, forced.flagD, forced.flagI, forced.line, forced.rdy, fun hidle => ?_⟩
    have hsampled : u = s.sampled := by
      obtain hresb | hidle := hidle
      · exact hplain hresb
      · have hnone := State.begun_none (hidle.imp_right (Or.imp_right (And.imp_right (not_wakes_iff s).mpr)))
        obtain rfl | rfl := hu
        · rfl
        · exact State.cutByReset_none hnone
    rw [hsampled]
    rfl
  case release =>
    refine ⟨_, step_release hl hresb ha, rfl, rfl, rfl, rfl, ?_, ?_, rfl, rfl, rfl, rfl, fun r hr => ?_, fun f hf => ?_⟩
    · rw [State.resetExit_flag, if_neg nofun, if_pos rfl]
    · rw [State.resetExit_flag, if_pos rfl]
    · exact s.sampled.resetExit_reg hr
    · simp only [List.mem_cons, List.not_mem_nil, or_false, not_or] at hf
      rw [State.resetExit_flag, if_neg hf.2, if_neg hf.1, State.sampled_flag]

end Sys2Proof.Machine
end

