-- ==== Sys2Proof/Proofs/BusTrace.lean ====
section
/-!
PROOFS. The bus trace and memory (20_memory.md, sections 3 and 4). Of the accesses of an instruction only the writes change memory:
each group of accesses that reads is replayed to nothing, and each group that writes is tied once to the operation whose bytes it
lists. An instruction's list is then a sum of such groups.
-/

namespace Sys2Proof.Machine

/-! ## Replaying (R78) -/

@[simp] theorem replayWrites_nil (m : Memory) : replayWrites [] m = m := rfl

theorem replayWrites_append (l k : List BusAccess) (m : Memory) :
    replayWrites (l ++ k) m = replayWrites k (replayWrites l m) := by
  induction l generalizing m with
  | nil => rfl
  | cons b l ih => simp only [List.cons_append, replayWrites, ih]

/-- Reads leave memory. -/
theorem replayWrites_of_reads {l : List BusAccess} (h : ∀ b ∈ l, b.write = false) (m : Memory) : replayWrites l m = m := by
  induction l with
  | nil => rfl
  | cons b l ih =>
    rw [replayWrites, h b List.mem_cons_self]
    exact ih fun b hb => h b (List.mem_cons_of_mem _ hb)

@[simp] theorem replayWrites_write (a : Addr) (v : Byte) (l : List BusAccess) (m : Memory) :
    replayWrites (writeCycle a v :: l) m = replayWrites l (m.write a.toNat v) := rfl

@[simp] theorem replayWrites_read (kind : ReadKind) (s : State) (a : Addr) (l : List BusAccess) (m : Memory) :
    replayWrites (readCycle kind s a :: l) m = replayWrites l m := rfl

/-! ## Groups that read -/

theorem operandCycles_reads (s : State) (k : Nat) (bs : List Byte) : ∀ b ∈ operandCycles s k bs, b.write = false := by
  induction bs generalizing k with
  | nil => nofun
  | cons v bs ih => exact List.forall_mem_cons.mpr ⟨rfl, ih (k + 1)⟩

@[simp] theorem replayWrites_operand (s : State) (k : Nat) (bs : List Byte) (m : Memory) :
    replayWrites (operandCycles s k bs) m = m := replayWrites_of_reads (operandCycles_reads s k bs) m

@[simp] theorem replayWrites_opcode (i : Instr) (s : State) (l : List BusAccess) (m : Memory) :
    replayWrites (opcodeCycle i s :: l) m = replayWrites l m := rfl

theorem readCycles_reads (kind : ReadKind) (s : State) (as : List Addr) :
    ∀ b ∈ as.map (readCycle kind s), b.write = false := by
  intro b hb
  obtain ⟨a, _, rfl⟩ := List.mem_map.mp hb
  rfl

@[simp] theorem replayWrites_pointer (o : Operand) (s : State) (m : Memory) : replayWrites (pointerCycles o s) m = m :=
  replayWrites_of_reads (readCycles_reads .pointer s _) m

@[simp] theorem replayWrites_readCycles (w : Width) (s : State) (loc : Loc) (m : Memory) :
    replayWrites (loc.readCycles w s) m = m :=
  replayWrites_of_reads (readCycles_reads .data s _) m

@[simp] theorem replayWrites_pull (n : Nat) (s : State) (m : Memory) : replayWrites (pullCycles n s) m = m := by
  induction n generalizing s with
  | zero => rfl
  | succ n ih => exact ih _

@[simp] theorem replayWrites_widePull (s : State) (n : Nat) (sp : Word) (m : Memory) :
    replayWrites (widePullCycles s n sp) m = m := by
  induction n generalizing sp with
  | zero => rfl
  | succ n ih => exact ih _

@[simp] theorem replayWrites_vector (s : State) (va : Word) (m : Memory) : replayWrites (vectorCycles s va) m = m := rfl

/-- MLB is no matter of memory (R88). -/
@[simp] theorem replayWrites_lock (l : List BusAccess) (m : Memory) :
    replayWrites (l.map BusAccess.lock) m = replayWrites l m := by
  induction l generalizing m with
  | nil => rfl
  | cons b l ih => exact ih _

/-! ## Groups that write -/

/-- A store writes its bytes, low byte first. -/
theorem Loc.write_mem (w : Width) (v : Word) (loc : Loc) (s : State) :
    (loc.write w v s).mem = replayWrites (loc.writeCycles w v) s.mem := by
  cases loc <;> cases w <;>
    simp [Loc.write, Loc.writeCycles, Loc.addrs, Loc.byteAddr, State.storeByte]

/-- A read-modify-write reads its bytes and writes them, high byte first. -/
theorem Loc.writeBack_mem (w : Width) (v : Word) (loc : Loc) (s t : State) :
    (loc.writeBack w v s).mem = replayWrites (loc.rmwCycles w t v) s.mem := by
  rw [Loc.rmwCycles, replayWrites_lock, replayWrites_append, replayWrites_readCycles]
  cases loc <;> cases w <;>
    simp [Loc.writeBack, Loc.writeCycles, Loc.addrs, Loc.byteAddr, State.storeByte]

/-- Where pushed bytes go depends on S and E only. -/
theorem pushCycles_congr {s t : State} (hsp : t.sp = s.sp) (he : t.e = s.e) (vs : List Byte) :
    pushCycles vs t = pushCycles vs s := by
  induction vs generalizing s t with
  | nil => rfl
  | cons v vs ih =>
    have hdown : t.spDown = s.spDown := by rw [State.spDown, State.spDown, hsp, he]
    rw [pushCycles, pushCycles, hsp]
    exact congrArg _ (ih hdown he)

/-- Bytes pushed one after the other by ordinary pushes. -/
def State.pushBytes (vs : List Byte) (s : State) : State := vs.foldl (fun t v => t.push8 v) s

theorem State.pushBytes_mem (vs : List Byte) (s : State) :
    (s.pushBytes vs).mem = replayWrites (pushCycles vs s) s.mem := by
  induction vs generalizing s with
  | nil => rfl
  | cons v vs ih =>
    rw [pushCycles, replayWrites_write, ← pushCycles_congr (t := s.push8 v) (s := { s with sp := s.spDown }) rfl rfl]
    exact ih (s.push8 v)

/-- Bytes pushed one after the other by wide pushes. -/
def State.pushBytesWide (vs : List Byte) (s : State) : State := vs.foldl (fun t v => t.push8w v) s

theorem State.pushBytesWide_mem (vs : List Byte) (s : State) :
    (s.pushBytesWide vs).mem = replayWrites (widePushCycles vs s.sp) s.mem := by
  induction vs generalizing s with
  | nil => rfl
  | cons v vs ih => exact ih (s.push8w v)

theorem State.push16w_mem (v : Word) (s : State) :
    (s.push16w v).mem = replayWrites (widePushCycles [hiByte v, loByte v] s.sp) s.mem :=
  s.pushBytesWide_mem [hiByte v, loByte v]

theorem State.pushAt_mem (w : Width) (v : Word) (s : State) :
    (s.pushAt w v).mem = replayWrites (pushCycles (w.pushBytes v) s) s.mem := by
  have h : s.pushAt w v = s.pushBytes (w.pushBytes v) := by cases w <;> rfl
  rw [h, State.pushBytes_mem]

/-- An interrupt sequence writes its frame (R450). -/
theorem State.interrupt_mem (kind : InterruptKind) (bank : Byte) (ret : Word) (s : State) :
    (s.interrupt kind bank ret).mem = replayWrites (interruptCycles kind bank ret s) s.mem := by
  have hframe : s.pushFrame kind bank ret = s.pushBytes (frameBytes kind bank ret s) := by
    rw [State.pushFrame_eq, frameBytes]
    cases s.e <;> rfl
  have hmem : (s.interrupt kind bank ret).mem = (s.pushFrame kind bank ret).mem := rfl
  rw [hmem, hframe, State.pushBytes_mem, interruptCycles, replayWrites_append, replayWrites_vector]

/-! ## The instructions -/

/-- What O12 says of one instruction in one state. -/
def MemTraced (i : Instr) (s : State) : Prop :=
  ∃ t, exec i s = .next t ∧ t.mem = replayWrites (busAccesses i s) s.mem

theorem busAccesses_fetched {i : Instr} (hjsr : i.mnemonic ≠ .JSR) (hjsl : i.mnemonic ≠ .JSL) (s : State) :
    busAccesses i s = fetchCycles i s ++ dataCycles i s := by
  cases i with
  | jsrAbs | jsrAbsXInd => exact absurd rfl hjsr
  | jsl => exact absurd rfl hjsl
  | _ => rfl

/-- The fetch replays to nothing: what counts are the accesses after it. -/
theorem memTraced_of_data {i : Instr} {s t : State} (hjsr : i.mnemonic ≠ .JSR) (hjsl : i.mnemonic ≠ .JSL)
    (hexec : exec i s = .next t) (hmem : t.mem = replayWrites (dataCycles i s) s.mem) : MemTraced i s := by
  refine ⟨t, hexec, hmem.trans ?_⟩
  rw [busAccesses_fetched hjsr hjsl, replayWrites_append, fetchCycles, replayWrites_opcode, replayWrites_operand]

/-- The mnemonics of several forms, by what they do with the operand. -/
def readers : List Mnemonic := [.LDA, .LDX, .LDY, .ADC, .SBC, .AND, .ORA, .EOR, .CMP, .CPX, .CPY, .BIT]

def storers : List Mnemonic := [.STA, .STX, .STY, .STZ]

def modifiers : List Mnemonic := [.INC, .DEC, .ASL, .LSR, .ROL, .ROR, .TSB, .TRB]

theorem State.addWithCarry_mem (w : Width) (a m : Word) (s : State) : (s.addWithCarry w a m).mem = s.mem := by
  unfold State.addWithCarry
  split
  · split <;> rfl
  · rfl

theorem State.subWithBorrow_mem (w : Width) (a m : Word) (s : State) : (s.subWithBorrow w a m).mem = s.mem := by
  unfold State.subWithBorrow
  split
  · split <;> rfl
  · rfl

/-- The forms that read their operand. -/
theorem memTraced_of_reader {i : Instr} (h : i.mnemonic ∈ readers) (s : State) : MemTraced i s := by
  have traced : ∀ {t}, exec i s = .next t → t.mem = s.mem → MemTraced i s := by
    intro t hexec hmem
    refine memTraced_of_data (by rintro he; simp [he, readers] at h) (by rintro he; simp [he, readers] at h) hexec (hmem.trans ?_)
    simp only [readers, List.mem_cons, List.not_mem_nil, or_false] at h
    unfold dataCycles
    obtain h | h | h | h | h | h | h | h | h | h | h | h := h <;> simp [h, replayWrites_append]
  simp only [readers, List.mem_cons, List.not_mem_nil, or_false] at h
  obtain h | h | h | h | h | h | h | h | h | h | h | h := h
  · exact traced (exec_LDA h s) (by simp [State.loadA])
  · exact traced (exec_LDX h s) (by simp [State.loadX])
  · exact traced (exec_LDY h s) (by simp [State.loadY])
  · exact traced (exec_ADC h s) (by rw [State.adc, State.addWithCarry_mem, State.past_mem])
  · exact traced (exec_SBC h s) (by rw [State.sbc, State.subWithBorrow_mem, State.past_mem])
  · exact traced (exec_AND h s) (by simp [State.and, State.logic])
  · exact traced (exec_ORA h s) (by simp [State.ora, State.logic])
  · exact traced (exec_EOR h s) (by simp [State.eor, State.logic])
  · exact traced (exec_CMP h s) (by simp [State.cmp])
  · exact traced (exec_CPX h s) (by simp [State.cpx])
  · exact traced (exec_CPY h s) (by simp [State.cpy])
  · obtain ⟨_, _, hexec⟩ | ⟨_, hexec⟩ := exec_BIT h s
    · exact traced hexec (by simp [State.bitImmediate])
    · exact traced hexec (by simp [State.bitMemory])

/-- The forms that store. -/
theorem memTraced_of_store {i : Instr} (h : i.mnemonic ∈ storers) (s : State) : MemTraced i s := by
  have traced : ∀ {t w v}, exec i s = .next t → t.mem = ((s.locate i.operand).write w v (s.past i.operand)).mem →
      (∀ m, replayWrites (dataCycles i s) m = replayWrites ((s.locate i.operand).writeCycles w v) m) → MemTraced i s := by
    intro t w v hexec hmem hdata
    refine memTraced_of_data (by rintro he; simp [he, storers] at h) (by rintro he; simp [he, storers] at h) hexec ?_
    rw [hmem, Loc.write_mem, hdata, State.past_mem]
  simp only [storers, List.mem_cons, List.not_mem_nil, or_false] at h
  obtain h | h | h | h := h
  · exact traced (exec_STA h s) rfl fun m => by simp [dataCycles, h, replayWrites_append]
  · exact traced (exec_STX h s) rfl fun m => by simp [dataCycles, h]
  · exact traced (exec_STY h s) rfl fun m => by simp [dataCycles, h]
  · exact traced (exec_STZ h s) rfl fun m => by simp [dataCycles, h]

/-- The forms that read, modify and write. -/
theorem memTraced_of_rmw {i : Instr} (h : i.mnemonic ∈ modifiers) (s : State) : MemTraced i s := by
  have traced : ∀ {mn t u}, i.mnemonic = mn → exec i s = .next t →
      t = (s.locate i.operand).writeBack s.wA (rmwValue mn s ((s.locate i.operand).read s.wA s)) u →
      u.mem = s.mem → MemTraced i s := by
    intro mn t u hm hexec ht hmem
    refine memTraced_of_data (by rintro he; simp [he, modifiers] at h) (by rintro he; simp [he, modifiers] at h) hexec ?_
    rw [ht, Loc.writeBack_mem s.wA _ _ u s, hmem]
    simp only [modifiers, List.mem_cons, List.not_mem_nil, or_false] at h
    unfold dataCycles
    obtain h | h | h | h | h | h | h | h := h <;> simp only [h, ← hm]
  simp only [modifiers, List.mem_cons, List.not_mem_nil, or_false] at h
  obtain h | h | h | h | h | h | h | h := h
  · exact traced h (exec_INC h s) rfl (by simp)
  · exact traced h (exec_DEC h s) rfl (by simp)
  · exact traced h (exec_ASL h s) rfl (by simp)
  · exact traced h (exec_LSR h s) rfl (by simp)
  · exact traced h (exec_ROL h s) rfl (by simp)
  · exact traced h (exec_ROR h s) rfl (by simp)
  · exact traced h (exec_TSB h s) rfl (by simp)
  · exact traced h (exec_TRB h s) rfl (by simp)

theorem memTraced_of_form {i : Instr} (h : i.mnemonic ∈ readers ++ storers ++ modifiers) (s : State) : MemTraced i s := by
  simp only [List.mem_append] at h
  obtain (h | h) | h := h
  · exact memTraced_of_reader h s
  · exact memTraced_of_store h s
  · exact memTraced_of_rmw h s

/-- JSR (a,x) pushes between the bytes it fetches. -/
theorem memTraced_jsrAbsXInd (addr : Word) (s : State) : MemTraced (.jsrAbsXInd addr) s := by
  refine ⟨_, rfl, ?_⟩
  rw [State.callAbsXInd, State.restoreSH_mem]
  exact (s.advance 2).push16w_mem (s.advance 2).pc

/-- JSL pushes its bank between the bytes it fetches. -/
theorem memTraced_jsl (addr : Addr) (s : State) : MemTraced (.jsl addr) s := by
  refine ⟨_, rfl, ?_⟩
  rw [State.callLong, State.restoreSH_mem]
  exact (s.advance 3).pushBytesWide_mem [s.pbr, hiByte (s.advance 3).pc, loByte (s.advance 3).pc]

theorem State.pushReg_mem (w : Width) (v : Word) (s : State) :
    (s.pushReg w v).mem = replayWrites (pushCycles (w.pushBytes v) s) s.mem := by
  rw [State.pushReg, State.pushAt_mem, pushCycles_congr (s := s) (t := s.past .stack0) rfl rfl, State.past_mem]

theorem State.pushWide_mem (o : Operand) (v : Word) (s : State) :
    (s.pushWide o v).mem = replayWrites (widePushCycles [hiByte v, loByte v] s.sp) s.mem := by
  rw [State.pushWide, State.restoreSH_mem]
  exact (s.past o).push16w_mem v

theorem State.softwareInterrupt_mem (kind : InterruptKind) (sig : Byte) (s : State) :
    (s.softwareInterrupt kind sig).mem =
      replayWrites (interruptCycles kind (s.past (.stack1 sig)).pbr (s.past (.stack1 sig)).pc s) s.mem := by
  rw [State.softwareInterrupt, State.interrupt_mem, interruptCycles, interruptCycles, replayWrites_append,
    replayWrites_append, replayWrites_vector, replayWrites_vector]
  exact congrArg (replayWrites · s.mem) (pushCycles_congr (s := s) (t := s.past (.stack1 sig)) rfl rfl _)

theorem State.branch_mem (cond : Bool) (off : Byte) (s : State) : (s.branch cond off).mem = s.mem := by
  cases cond <;> rfl

theorem State.exchangeCE_mem (s : State) : s.exchangeCE.mem = s.mem := by
  unfold State.exchangeCE
  simp only
  split <;> simp [State.enterEmulation]

theorem State.returnFromInterrupt_mem (s : State) : s.returnFromInterrupt.mem = s.mem := by
  rw [State.returnFromInterrupt]
  split <;> exact State.loadP_mem _ _

theorem State.pullA_mem (s : State) : s.pullA.mem = s.mem := State.pullAt_mem _ _

theorem State.pullX_mem (s : State) : s.pullX.mem = s.mem := State.pullAt_mem _ _

theorem State.pullY_mem (s : State) : s.pullY.mem = s.mem := State.pullAt_mem _ _

theorem State.blockMoveStep_mem (delta : Word) (dst src : Byte) (s : State) : (s.blockMoveStep delta dst src).mem =
    s.mem.write (bankAddr dst s.y).toNat (s.read .data (bankAddr src s.x)) := by
  unfold State.blockMoveStep
  split <;> rfl

/-- Every instruction. -/
theorem memTraced (i : Instr) (s : State) : MemTraced i s := by
  cases i with
  | clc | cld | cli | clv | dex | dey | inx | iny | nop | rep | sec | sed | sei | stp | tax | tay | tcd | tcs | tdc | tsc
  | tsx | txa | txs | txy | tya | tyx | wai | wdm | xba | brl | jmpAbs | jmpLong | jmpAbsInd | jmpAbsXInd | jml | rts =>
    exact ⟨_, rfl, rfl⟩
  | bcc | bcs | beq | bmi | bne | bpl | bra | bvc | bvs => exact ⟨_, rfl, State.branch_mem _ _ _⟩
  | sep => exact ⟨_, rfl, State.narrowIndex_mem _⟩
  | xce => exact ⟨_, rfl, State.exchangeCE_mem _⟩
  | jsrAbs addr => exact ⟨_, rfl, (s.advance 2).pushBytes_mem [hiByte (s.advance 2).pc, loByte (s.advance 2).pc]⟩
  | jsrAbsXInd addr => exact memTraced_jsrAbsXInd addr s
  | jsl addr => exact memTraced_jsl addr s
  | rtl => exact ⟨_, rfl, State.restoreSH_mem _⟩
  | rti =>
    exact memTraced_of_data nofun nofun rfl ((State.returnFromInterrupt_mem s).trans (replayWrites_pull _ s s.mem).symm)
  | pha | phx | phy => exact ⟨_, rfl, State.pushReg_mem _ _ _⟩
  | phb | phk | php => exact ⟨_, rfl, rfl⟩
  | phd => exact ⟨_, rfl, State.pushWide_mem _ _ _⟩
  | pea => exact ⟨_, rfl, State.pushWide_mem _ _ _⟩
  | pei => exact ⟨_, rfl, State.pushWide_mem _ _ _⟩
  | per => exact ⟨_, rfl, State.pushWide_mem _ _ _⟩
  | pla => exact memTraced_of_data nofun nofun rfl ((State.pullA_mem s).trans (replayWrites_pull _ s s.mem).symm)
  | plx => exact memTraced_of_data nofun nofun rfl ((State.pullX_mem s).trans (replayWrites_pull _ s s.mem).symm)
  | ply => exact memTraced_of_data nofun nofun rfl ((State.pullY_mem s).trans (replayWrites_pull _ s s.mem).symm)
  | plb => exact ⟨_, rfl, rfl⟩
  | plp => exact ⟨_, rfl, State.loadP_mem _ _⟩
  | pld => exact ⟨_, rfl, State.restoreSH_mem _⟩
  | brk sig => exact ⟨_, rfl, State.softwareInterrupt_mem .brk sig s⟩
  | cop sig => exact ⟨_, rfl, State.softwareInterrupt_mem .cop sig s⟩
  | mvn dst src => exact ⟨_, rfl, State.blockMoveStep_mem _ _ _ _⟩
  | mvp dst src => exact ⟨_, rfl, State.blockMoveStep_mem _ _ _ _⟩
  | _ => exact memTraced_of_form (List.mem_of_elem_eq_true rfl) s

/-- Settles O12: every instruction is traced. -/
theorem busTraceGivesMemory : Obligations.BusTraceGivesMemory := by
  intro i s t h
  obtain ⟨u, hexec, hmem⟩ := memTraced i s
  rw [hexec] at h
  injection h with h
  exact h ▸ hmem

end Sys2Proof.Machine
end

