-- ==== Sys2Proof/Proofs/Writers.lean ====
section
/-!
PROOFS. Which instruction can change what (10_state.md, sections 2, 4 and 8). A table gives for each mnemonic the parts of the state
that its instructions may write; one case analysis over the instructions, by the frames of the shared operations, shows that
everything else is kept, and the lists of the obligations are read off the table.
-/

namespace Sys2Proof.Machine

/-! ## Parts of the state -/

/-- A part of the state outside memory: a register, a flag, E, the run state, the RESB latch. -/
inductive Part where
  | reg (r : Reg)
  | flag (f : Flag)
  | e
  | run
  | line
deriving DecidableEq

/-- A part is the same in two states. -/
def Part.same (s t : State) : Part → Prop
  | .reg r => t.reg r = s.reg r
  | .flag f => t.flag f = s.flag f
  | .e => t.e = s.e
  | .run => t.run = s.run
  | .line => t.resetLine = s.resetLine

/-- Every part that is not listed is the same in both states. -/
def Keeps (parts : List Part) (s t : State) : Prop := ∀ p, p ∉ parts → p.same s t

theorem Part.same_trans {s t u : State} {p : Part} (h : p.same s t) (h' : p.same t u) : p.same s u := by
  cases p <;> exact Eq.trans h' h

theorem Keeps.trans {ps : List Part} {s t u : State} (h : Keeps ps s t) (h' : Keeps ps t u) : Keeps ps s u :=
  fun p hp => Part.same_trans (h p hp) (h' p hp)

theorem Keeps.mono {ps qs : List Part} {s t : State} (h : Keeps ps s t) (hsub : ∀ p ∈ ps, p ∈ qs) : Keeps qs s t :=
  fun p hp => h p (hp ∘ hsub p)

/-- A frame as a list of parts. -/
def frameParts (rs : List Reg) (fs : List Flag) : List Part := rs.map .reg ++ fs.map .flag

theorem Frame.keeps {rs : List Reg} {fs : List Flag} {as : List Addr} {s t : State} (h : Frame rs fs as s t)
    {ps : List Part} (hsub : ∀ p ∈ frameParts rs fs, p ∈ ps) : Keeps ps s t := by
  intro p hp
  cases p with
  | reg r => exact h.reg r fun hr => hp (hsub _ (List.mem_append_left _ (List.mem_map_of_mem hr)))
  | flag f => exact h.flag f fun hf => hp (hsub _ (List.mem_append_right _ (List.mem_map_of_mem hf)))
  | e => exact h.e
  | run => exact h.run
  | line => exact h.resetLine

/-- A state that agrees with another in every part but E and the run state, and in those where they may not be written. -/
theorem Keeps.of_agree {ps : List Part} {s t u : State} (h : Keeps ps s u) (hreg : ∀ r, t.reg r = u.reg r)
    (hp : t.p = u.p) (hline : t.resetLine = u.resetLine) (he : .e ∈ ps ∨ t.e = u.e) (hrun : .run ∈ ps ∨ t.run = u.run) :
    Keeps ps s t := by
  intro p hmem
  cases p with
  | reg r => exact (hreg r).trans (h (.reg r) hmem)
  | flag f => exact (congrArg (flagOf f) hp).trans (h (.flag f) hmem)
  | e => exact (he.resolve_left hmem).trans (h .e hmem)
  | run => exact (hrun.resolve_left hmem).trans (h .run hmem)
  | line => exact hline.trans (h .line hmem)

theorem Keeps.with_run {ps : List Part} {s t : State} {r : RunState} (hrun : .run ∈ ps)
    (h : Keeps ps s { t with run := r }) : Keeps ps s t :=
  h.of_agree (fun q => by cases q <;> rfl) rfl rfl (.inr rfl) (.inl hrun)

theorem Keeps.with_e {ps : List Part} {s t : State} {b : Bool} (he : .e ∈ ps) (h : Keeps ps s t) :
    Keeps ps s { t with e := b } :=
  h.of_agree (fun q => by cases q <;> rfl) rfl rfl (.inl he) (.inr rfl)

/-- Draws are no part. -/
theorem Keeps.draws {ps : List Part} {s t : State} (h : Keeps ps s t) (n : Nat) : Keeps ps s { t with draws := n } :=
  h.of_agree (fun q => by cases q <;> rfl) rfl rfl (.inr rfl) (.inr rfl)

/-! ## What each mnemonic may write -/

/-- The parts beside PC that the instructions of a mnemonic may write. Of the jumps only JMP al writes PBR. -/
def writtenBy : Mnemonic → List Part
  | .LDA | .AND | .ORA | .EOR | .INC | .DEC | .TXA | .TYA | .TDC | .TSC | .XBA => [.reg .c, .flag .n, .flag .z]
  | .ASL | .LSR | .ROL | .ROR => [.reg .c, .flag .n, .flag .z, .flag .c]
  | .ADC | .SBC => [.reg .c, .flag .n, .flag .v, .flag .z, .flag .c]
  | .LDX | .TAX | .TSX | .TYX | .INX | .DEX => [.reg .x, .flag .n, .flag .z]
  | .LDY | .TAY | .TXY | .INY | .DEY => [.reg .y, .flag .n, .flag .z]
  | .PLA => [.reg .c, .reg .sp, .flag .n, .flag .z]
  | .PLX => [.reg .x, .reg .sp, .flag .n, .flag .z]
  | .PLY => [.reg .y, .reg .sp, .flag .n, .flag .z]
  | .PLB => [.reg .dbr, .reg .sp, .flag .n, .flag .z]
  | .PLD => [.reg .d, .reg .sp, .flag .n, .flag .z]
  | .TCD => [.reg .d, .flag .n, .flag .z]
  | .CMP | .CPX | .CPY => [.flag .n, .flag .z, .flag .c]
  | .BIT => [.flag .n, .flag .v, .flag .z]
  | .TSB | .TRB => [.flag .z]
  | .CLC | .SEC => [.flag .c]
  | .CLD | .SED => [.flag .d]
  | .CLI | .SEI => [.flag .i]
  | .CLV => [.flag .v]
  | .REP => allFlags.map .flag
  | .SEP => [.reg .x, .reg .y] ++ allFlags.map .flag
  | .PLP => [.reg .x, .reg .y, .reg .sp] ++ allFlags.map .flag
  | .RTI => [.reg .x, .reg .y, .reg .sp, .reg .pbr] ++ allFlags.map .flag
  | .XCE => [.reg .x, .reg .y, .reg .sp, .flag .m, .flag .x, .flag .c, .e]
  | .MVN | .MVP => [.reg .c, .reg .x, .reg .y, .reg .dbr]
  | .TCS | .TXS | .PHA | .PHX | .PHY | .PHB | .PHK | .PHP | .PHD | .PEA | .PEI | .PER | .JSR | .RTS => [.reg .sp]
  | .JSL | .RTL => [.reg .sp, .reg .pbr]
  | .JMP | .JML => [.reg .pbr]
  | .BRK | .COP => [.reg .sp, .reg .pbr, .flag .i, .flag .d, .run]
  | .WAI | .STP => [.run]
  | .STA | .STX | .STY | .STZ | .NOP | .WDM | .BCC | .BCS | .BEQ | .BMI | .BNE | .BPL | .BRA | .BRL | .BVC | .BVS => []

/-- With PC, which every instruction may write. -/
def partsOf (mn : Mnemonic) : List Part := .reg .pc :: writtenBy mn

/-- An instruction that answers a next state in which only the parts of its mnemonic may differ. -/
def Confined (i : Instr) (s : State) : Prop := ∃ t, exec i s = .next t ∧ Keeps (partsOf i.mnemonic) s t

/-- By a frame; the inclusion is evaluated. -/
theorem confined_of_frame {i : Instr} {rs : List Reg} {fs : List Flag} {as : List Addr} {s t : State}
    (hexec : exec i s = .next t) (h : Frame rs fs as s t) (mn : Mnemonic) (hm : i.mnemonic = mn)
    (hsub : ∀ p ∈ frameParts rs fs, p ∈ partsOf mn) : Confined i s :=
  ⟨t, hexec, hm ▸ h.keeps hsub⟩

/-! ## The forms of several operands -/

theorem Loc.writeBack_keeps (w : Width) (v : Word) (loc : Loc) (s : State) :
    Keeps [.reg .c] s (loc.writeBack w v s) := by
  have mem (loc : Loc) (h : loc.inMemory) : Keeps [.reg .c] s (loc.writeBack w v s) :=
    (Loc.writeBack_frame h w v s).keeps nofun
  cases loc with
  | acc => exact (s.setA_frame w v).keeps (by simp [frameParts])
  | mem24 ea => exact mem _ (.inl ⟨ea, rfl⟩)
  | mem0 a => exact mem _ (.inr ⟨a, rfl⟩)
  | nowhere | imm => exact fun p _ => by cases p <;> rfl

theorem keeps_of_sum {s t : State} (h : Frame [.c] [.n, .v, .z, .c] [] s t) : Keeps (writtenBy .ADC) s t :=
  h.keeps (by simp [frameParts, writtenBy])

theorem State.addBinary_keeps (w : Width) (a m : Word) (s : State) : Keeps (writtenBy .ADC) s (s.addBinary w a m) :=
  keeps_of_sum (s.writes_summed w (addValue w a m (s.flag .c)) (addCarry w a m (s.flag .c))
    (addOverflow w a m (s.flag .c))).frame

theorem State.decimalResult_keeps (w : Width) (r : Word) (carry : Bool) (s : State) :
    Keeps (writtenBy .ADC) s (s.decimalResult w r carry) :=
  (keeps_of_sum (s.writes_summed w r carry (Config.decimalV s.draws)).frame).draws (s.draws + 1)

theorem State.decimalInvalid_keeps (w : Width) (s : State) : Keeps (writtenBy .ADC) s (s.decimalInvalid w) :=
  (keeps_of_sum (s.decimalInvalid_frame w)).draws (s.draws + 1)

theorem State.addWithCarry_keeps (w : Width) (a m : Word) (s : State) :
    Keeps (writtenBy .ADC) s (s.addWithCarry w a m) := by
  unfold State.addWithCarry
  split
  · split
    · exact s.decimalResult_keeps w _ _
    · exact s.decimalInvalid_keeps w
  · exact s.addBinary_keeps w a m

theorem State.subWithBorrow_keeps (w : Width) (a m : Word) (s : State) :
    Keeps (writtenBy .SBC) s (s.subWithBorrow w a m) := by
  unfold State.subWithBorrow
  split
  · split
    · exact s.decimalResult_keeps w _ _
    · exact s.decimalInvalid_keeps w
  · exact s.addBinary_keeps w a _

theorem State.past_keeps {ps : List Part} (hpc : .reg .pc ∈ ps) (o : Operand) (s : State) : Keeps ps s (s.past o) :=
  (s.past_frame o).keeps (by simpa [frameParts] using hpc)

/-- After the step past the instruction. -/
theorem Keeps.from_past {mn : Mnemonic} {o : Operand} {s t : State} (h : Keeps (writtenBy mn) (s.past o) t) :
    Keeps (partsOf mn) s t :=
  (s.past_keeps List.mem_cons_self o).trans (h.mono fun _ hp => List.mem_cons_of_mem _ hp)

theorem confined_of_reader {i : Instr} (h : i.mnemonic ∈ readers) (s : State) : Confined i s := by
  simp only [readers, List.mem_cons, List.not_mem_nil, or_false] at h
  have loaded {r : Reg} {w : Width} {v : Word} {t : State} (mn : Mnemonic) (hm : i.mnemonic = mn)
      (hexec : exec i s = .next t) (hl : Loaded w r v (s.past i.operand) t)
      (hsub : ∀ p ∈ frameParts [r] [.n, .z], p ∈ writtenBy mn) : Confined i s :=
    ⟨t, hexec, hm ▸ (hl.frame.keeps hsub).from_past⟩
  have compared {r : Word} {w : Width} (mn : Mnemonic) (hm : i.mnemonic = mn)
      (hexec : exec i s = .next ((s.past i.operand).compare w (w.trunc r) (s.operandValue w i)))
      (hw : writtenBy mn = [.flag .n, .flag .z, .flag .c]) : Confined i s :=
    ⟨_, hexec, hm ▸ ((s.compare_spec w r i).frame.keeps (by simp [frameParts, hw])).from_past⟩
  obtain h | h | h | h | h | h | h | h | h | h | h | h := h
  · exact loaded .LDA h (exec_LDA h s) ((s.past i.operand).setA_loaded s.wA _) (by simp [frameParts, writtenBy])
  · exact loaded .LDX h (exec_LDX h s) ((s.past i.operand).setX_loaded s.wX _) (by simp [frameParts, writtenBy])
  · exact loaded .LDY h (exec_LDY h s) ((s.past i.operand).setY_loaded s.wX _) (by simp [frameParts, writtenBy])
  · exact ⟨_, exec_ADC h s, h ▸ ((s.past i.operand).addWithCarry_keeps _ _ _).from_past⟩
  · exact ⟨_, exec_SBC h s, h ▸ ((s.past i.operand).subWithBorrow_keeps _ _ _).from_past⟩
  · exact loaded .AND h (exec_AND h s) (s.logic_loaded Width.trunc_and i) (by simp [frameParts, writtenBy])
  · exact loaded .ORA h (exec_ORA h s) (s.logic_loaded Width.trunc_or i) (by simp [frameParts, writtenBy])
  · exact loaded .EOR h (exec_EOR h s) (s.logic_loaded Width.trunc_xor i) (by simp [frameParts, writtenBy])
  · exact compared .CMP h (exec_CMP h s) rfl
  · exact compared .CPX h (exec_CPX h s) rfl
  · exact compared .CPY h (exec_CPY h s) rfl
  · have hz := (s.past i.operand).bitZ_frame (s.getA s.wA) (s.operandValue s.wA i)
    obtain ⟨_, _, hexec⟩ | ⟨_, hexec⟩ := exec_BIT h s
    · exact ⟨_, hexec, h ▸ (hz.keeps (by simp [frameParts, writtenBy])).from_past⟩
    · exact ⟨_, hexec, h ▸ ((hz.trans (State.bitNV_frame s.wA _ _)).keeps
        (by simp [frameParts, writtenBy])).from_past⟩

theorem confined_of_store {i : Instr} (h : i.mnemonic ∈ storers) (s : State) : Confined i s := by
  have stored (w : Width) (v : Word) (hi : i.mnemonic ∈ [.STA, .STX, .STY, .STZ, .TSB, .TRB])
      (hexec : exec i s = .next ((s.locate i.operand).write w v (s.past i.operand))) : Confined i s :=
    have ⟨_, _, hframe⟩ := State.write_stored (operand_of_store hi s) w v
    ⟨_, hexec, hframe.keeps (by simp [frameParts, partsOf])⟩
  simp only [storers, List.mem_cons, List.not_mem_nil, or_false] at h
  obtain h | h | h | h := h
  · exact stored s.wA s.c (by simp [h]) (exec_STA h s)
  · exact stored s.wX s.x (by simp [h]) (exec_STX h s)
  · exact stored s.wX s.y (by simp [h]) (exec_STY h s)
  · exact stored s.wA 0x0000 (by simp [h]) (exec_STZ h s)

theorem confined_of_rmw {i : Instr} (h : i.mnemonic ∈ modifiers) (s : State) : Confined i s := by
  have written {fs : List Flag} {u t : State} {v : Word} (mn : Mnemonic) (hm : i.mnemonic = mn)
      (hexec : exec i s = .next t) (hu : Frame [] fs [] (s.past i.operand) u)
      (ht : t = (s.locate i.operand).writeBack s.wA v u) (hsub : ∀ p ∈ .reg .c :: frameParts [] fs, p ∈ writtenBy mn) :
      Confined i s := by
    refine ⟨t, hexec, hm ▸ Keeps.from_past (o := i.operand) ?_⟩
    rw [ht]
    exact (hu.keeps fun p hp => hsub p (List.mem_cons_of_mem _ hp)).trans
      ((Loc.writeBack_keeps s.wA v _ u).mono fun p hp => hsub p (by simp_all))
  have tested {u : Word} (mn : Mnemonic) (hm : i.mnemonic = mn) (hi : i.mnemonic ∈ [.STA, .STX, .STY, .STZ, .TSB, .TRB])
      (hexec : exec i s = .next ((s.locate i.operand).writeBack s.wA u
        ((s.past i.operand).bitZ (s.getA s.wA) (s.operandValue s.wA i)))) (hw : writtenBy mn = [.flag .z]) : Confined i s :=
    have ⟨_, _, _, hframe⟩ := s.testAndModify_spec hi (v := u) rfl _ rfl
    ⟨_, hexec, hframe.keeps (by simp [frameParts, partsOf, hm, hw])⟩
  have nz (v : Word) := (s.past i.operand).setNZ_frame s.wA v
  have cnz (c : Bool) (v : Word) := ((s.past i.operand).setFlag_frame .c c).trans (State.setNZ_frame s.wA v _)
  simp only [modifiers, List.mem_cons, List.not_mem_nil, or_false] at h
  obtain h | h | h | h | h | h | h | h := h
  · exact written .INC h (exec_INC h s) (nz _) rfl (by simp [frameParts, writtenBy])
  · exact written .DEC h (exec_DEC h s) (nz _) rfl (by simp [frameParts, writtenBy])
  · exact written .ASL h (exec_ASL h s) (cnz _ _) rfl (by simp [frameParts, writtenBy])
  · exact written .LSR h (exec_LSR h s) (cnz _ _) rfl (by simp [frameParts, writtenBy])
  · exact written .ROL h (exec_ROL h s) (cnz _ _) rfl (by simp [frameParts, writtenBy])
  · exact written .ROR h (exec_ROR h s) (cnz _ _) rfl (by simp [frameParts, writtenBy])
  · exact tested .TSB h (by simp [h]) (exec_TSB h s) rfl
  · exact tested .TRB h (by simp [h]) (exec_TRB h s) rfl

theorem confined_of_form {i : Instr} (h : i.mnemonic ∈ readers ++ storers ++ modifiers) (s : State) : Confined i s := by
  simp only [List.mem_append] at h
  obtain (h | h) | h := h
  · exact confined_of_reader h s
  · exact confined_of_store h s
  · exact confined_of_rmw h s

/-! ## All instructions -/

theorem State.exchangeCE_keeps (s : State) : Keeps (partsOf .XCE) s s.exchangeCE := by
  have hcarry := (s.carryFromE_frame.keeps (ps := partsOf .XCE) (by simp [frameParts, partsOf, writtenBy])).with_e
    (b := s.flag .c) (by simp [partsOf, writtenBy])
  rw [State.exchangeCE_eq]
  split
  · exact hcarry.trans ((State.enterEmulation_frame _).keeps (by simp [frameParts, partsOf, writtenBy]))
  · exact hcarry

theorem State.softwareInterrupt_keeps (kind : InterruptKind) (sig : Byte) (s : State) :
    Keeps (partsOf .BRK) s (s.softwareInterrupt kind sig) :=
  Keeps.with_run (r := s.run) (by simp [partsOf, writtenBy])
    (((s.past_frame (.stack1 sig)).trans (State.interrupt_entered kind _ _ (s.past (.stack1 sig))).rest).keeps
      (by simp [frameParts, partsOf, writtenBy]))

theorem State.past_keeps_run (o : Operand) (r : RunState) (s : State) :
    Keeps [.reg .pc, .run] s { s.past o with run := r } :=
  Keeps.with_run (r := s.run) (by simp) ((s.past_frame o).keeps (by simp [frameParts]))

theorem State.blockMoveStep_keeps (delta : Word) (dst src : Byte) (s : State) :
    Keeps (partsOf .MVN) s (s.blockMoveStep delta dst src) :=
  (s.blockMoveStep_frame delta dst src).keeps (by simp [frameParts, partsOf, writtenBy])

theorem State.Transferred.frame {w : Width} {r : Reg} {v : Word} {s t : State} (h : s.Transferred w r v t) :
    Frame [r, .pc] [.n, .z] [] s t := by
  obtain ⟨_, _, _, hframe⟩ := h
  exact hframe

theorem State.PulledTo.frame {w : Width} {r : Reg} {v : Word} {s t : State} (h : s.PulledTo w r v t) :
    Frame [r, .sp, .pc] [.n, .z] [] s t := by
  obtain ⟨_, _, _, _, hframe⟩ := h
  exact hframe

theorem State.pushWide_frame (o : Operand) (v : Word) (s : State) :
    Frame [.sp, .pc] [] (s.widePushed 2) s (s.pushWide o v) := by
  obtain ⟨_, _, _, hframe⟩ := s.pushWide_spec o v
  exact hframe

theorem State.pushByte_frame (v : Byte) (s : State) : Frame [.sp, .pc] [] (s.pushed 1) s (s.pushByte v) := by
  rw [State.pushByte_eq]
  exact s.pushReg_frame .w8 (zext8 v)

theorem State.pullA_pulled (s : State) : s.PulledTo s.wA .c ((s.past .stack0).pullAt s.wA).1 s.pullA :=
  State.pulledTo_of_loaded (by simp) (State.setA_loaded s.wA _ _)

theorem State.pullX_pulled (s : State) : s.PulledTo s.wX .x ((s.past .stack0).pullAt s.wX).1 s.pullX :=
  State.pulledTo_of_loaded (by simp) (State.setX_loaded s.wX _ _)

theorem State.pullY_pulled (s : State) : s.PulledTo s.wX .y ((s.past .stack0).pullAt s.wX).1 s.pullY :=
  State.pulledTo_of_loaded (by simp) (State.setY_loaded s.wX _ _)

theorem State.pullP_frame (s : State) : Frame [.x, .y, .sp, .pc] allFlags [] s s.pullP :=
  ((s.past_frame .stack0).trans (s.past .stack0).pull8_frame).trans (State.loadP_frame _ _)

theorem confined (i : Instr) (s : State) : Confined i s := by
  cases i with
  | clc => exact confined_of_frame rfl (s.writeFlag_frame _ _) .CLC rfl (by decide)
  | cld => exact confined_of_frame rfl (s.writeFlag_frame _ _) .CLD rfl (by decide)
  | cli => exact confined_of_frame rfl (s.writeFlag_frame _ _) .CLI rfl (by decide)
  | clv => exact confined_of_frame rfl (s.writeFlag_frame _ _) .CLV rfl (by decide)
  | sec => exact confined_of_frame rfl (s.writeFlag_frame _ _) .SEC rfl (by decide)
  | sed => exact confined_of_frame rfl (s.writeFlag_frame _ _) .SED rfl (by decide)
  | sei => exact confined_of_frame rfl (s.writeFlag_frame _ _) .SEI rfl (by decide)
  | rep mask => exact confined_of_frame rfl (s.repBits_frame mask) .REP rfl (by decide)
  | sep mask => exact confined_of_frame rfl (s.sepBits_frame mask) .SEP rfl (by decide)
  | nop => exact confined_of_frame rfl (s.past_frame _) .NOP rfl (by decide)
  | wdm => exact confined_of_frame rfl (s.past_frame _) .WDM rfl (by decide)
  | bcc => exact confined_of_frame rfl (s.branch_frame _ _) .BCC rfl (by decide)
  | bcs => exact confined_of_frame rfl (s.branch_frame _ _) .BCS rfl (by decide)
  | beq => exact confined_of_frame rfl (s.branch_frame _ _) .BEQ rfl (by decide)
  | bmi => exact confined_of_frame rfl (s.branch_frame _ _) .BMI rfl (by decide)
  | bne => exact confined_of_frame rfl (s.branch_frame _ _) .BNE rfl (by decide)
  | bpl => exact confined_of_frame rfl (s.branch_frame _ _) .BPL rfl (by decide)
  | bvc => exact confined_of_frame rfl (s.branch_frame _ _) .BVC rfl (by decide)
  | bvs => exact confined_of_frame rfl (s.branch_frame _ _) .BVS rfl (by decide)
  | bra => exact confined_of_frame rfl (s.branch_frame _ _) .BRA rfl (by decide)
  | brl => exact confined_of_frame rfl (s.branchLong_frame _) .BRL rfl (by decide)
  | jmpAbs => exact confined_of_frame rfl (frame_writePC s _) .JMP rfl (by decide)
  | jmpAbsInd => exact confined_of_frame rfl (frame_writePC s _) .JMP rfl (by decide)
  | jmpAbsXInd => exact confined_of_frame rfl (frame_writePC s _) .JMP rfl (by decide)
  | jmpLong => exact confined_of_frame rfl (frame_writePCPBR s _ _) .JMP rfl (by decide)
  | jml => exact confined_of_frame rfl (frame_writePCPBR s _ _) .JML rfl (by decide)
  | jsrAbs addr => exact confined_of_frame rfl (s.callAbs_frame addr) .JSR rfl (by decide)
  | jsrAbsXInd addr => exact confined_of_frame rfl (s.callAbsXInd_frame addr) .JSR rfl (by decide)
  | jsl addr => exact confined_of_frame rfl (s.callLong_frame addr) .JSL rfl (by decide)
  | rts => exact confined_of_frame rfl s.returnShort_frame .RTS rfl (by decide)
  | rtl => exact confined_of_frame rfl s.returnLong_frame .RTL rfl (by decide)
  | rti => exact confined_of_frame rfl s.returnFromInterrupt_frame .RTI rfl (by decide)
  | dex => exact confined_of_frame rfl ((s.past .implied).setX_loaded s.wX _).frame_past .DEX rfl (by decide)
  | inx => exact confined_of_frame rfl ((s.past .implied).setX_loaded s.wX _).frame_past .INX rfl (by decide)
  | dey => exact confined_of_frame rfl ((s.past .implied).setY_loaded s.wX _).frame_past .DEY rfl (by decide)
  | iny => exact confined_of_frame rfl ((s.past .implied).setY_loaded s.wX _).frame_past .INY rfl (by decide)
  | tax => exact confined_of_frame rfl (s.transferX_transferred s.c).frame .TAX rfl (by decide)
  | tsx => exact confined_of_frame rfl (s.transferX_transferred s.sp).frame .TSX rfl (by decide)
  | tyx => exact confined_of_frame rfl (s.transferX_transferred s.y).frame .TYX rfl (by decide)
  | tay => exact confined_of_frame rfl (s.transferY_transferred s.c).frame .TAY rfl (by decide)
  | txy => exact confined_of_frame rfl (s.transferY_transferred s.x).frame .TXY rfl (by decide)
  | txa => exact confined_of_frame rfl (s.transferA_transferred s.x).frame .TXA rfl (by decide)
  | tya => exact confined_of_frame rfl (s.transferA_transferred s.y).frame .TYA rfl (by decide)
  | tdc => exact confined_of_frame rfl (s.transferC_loaded s.d).frame_past .TDC rfl (by decide)
  | tsc => exact confined_of_frame rfl (s.transferC_loaded s.sp).frame_past .TSC rfl (by decide)
  | tcd => exact confined_of_frame rfl s.transferD_loaded.frame_past .TCD rfl (by decide)
  | tcs => exact confined_of_frame rfl (s.transferS_frame s.c) .TCS rfl (by decide)
  | txs => exact confined_of_frame rfl (s.transferS_frame s.x) .TXS rfl (by decide)
  | xba => exact confined_of_frame rfl s.exchangeBA_frame .XBA rfl (by decide)
  | xce => exact ⟨_, rfl, s.exchangeCE_keeps⟩
  | pha => exact confined_of_frame rfl (s.pushReg_frame s.wA s.c) .PHA rfl (by decide)
  | phx => exact confined_of_frame rfl (s.pushReg_frame s.wX s.x) .PHX rfl (by decide)
  | phy => exact confined_of_frame rfl (s.pushReg_frame s.wX s.y) .PHY rfl (by decide)
  | phb => exact confined_of_frame rfl (s.pushByte_frame s.dbr) .PHB rfl (by decide)
  | phk => exact confined_of_frame rfl (s.pushByte_frame s.pbr) .PHK rfl (by decide)
  | php => exact confined_of_frame rfl (s.pushByte_frame s.p) .PHP rfl (by decide)
  | phd => exact confined_of_frame rfl (s.pushWide_frame _ _) .PHD rfl (by decide)
  | pea => exact confined_of_frame rfl (s.pushWide_frame _ _) .PEA rfl (by decide)
  | pei => exact confined_of_frame rfl (s.pushWide_frame _ _) .PEI rfl (by decide)
  | per => exact confined_of_frame rfl (s.pushWide_frame _ _) .PER rfl (by decide)
  | pla => exact confined_of_frame rfl s.pullA_pulled.frame .PLA rfl (by decide)
  | plx => exact confined_of_frame rfl s.pullX_pulled.frame .PLX rfl (by decide)
  | ply => exact confined_of_frame rfl s.pullY_pulled.frame .PLY rfl (by decide)
  | plb => exact confined_of_frame rfl s.pullB_frame .PLB rfl (by decide)
  | pld => exact confined_of_frame rfl s.pullD_frame .PLD rfl (by decide)
  | plp => exact confined_of_frame rfl s.pullP_frame .PLP rfl (by decide)
  | brk sig => exact ⟨_, rfl, s.softwareInterrupt_keeps .brk sig⟩
  | cop sig => exact ⟨_, rfl, s.softwareInterrupt_keeps .cop sig⟩
  | wai => exact ⟨_, rfl, s.past_keeps_run .implied _⟩
  | stp => exact ⟨_, rfl, s.past_keeps_run .implied _⟩
  | mvn dst src => exact ⟨_, rfl, s.blockMoveStep_keeps 1 dst src⟩
  | mvp dst src => exact ⟨_, rfl, s.blockMoveStep_keeps (-1) dst src⟩
  | _ => exact confined_of_form (List.mem_of_elem_eq_true rfl) s

/-- A part that an instruction changes is one that its mnemonic may write. -/
theorem written_of_changed {i : Instr} {s t : State} (h : exec i s = .next t) {p : Part} (hp : ¬ p.same s t) :
    p ∈ partsOf i.mnemonic := by
  obtain ⟨u, hexec, hkeeps⟩ := confined i s
  rw [h] at hexec
  injection hexec with hexec
  subst hexec
  exact Decidable.byContradiction fun hmem => hp (hkeeps p hmem)

/-- Every mnemonic, for facts about the table that are evaluated. -/
abbrev allMnemonics : List Mnemonic :=
  [.ADC, .AND, .ASL, .BCC, .BCS, .BEQ, .BIT, .BMI, .BNE, .BPL, .BRA, .BRK, .BRL, .BVC, .BVS, .CLC, .CLD, .CLI, .CLV,
    .CMP, .COP, .CPX, .CPY, .DEC, .DEX, .DEY, .EOR, .INC, .INX, .INY, .JML, .JMP, .JSL, .JSR, .LDA, .LDX, .LDY, .LSR,
    .MVN, .MVP, .NOP, .ORA, .PEA, .PEI, .PER, .PHA, .PHB, .PHD, .PHK, .PHP, .PHX, .PHY, .PLA, .PLB, .PLD, .PLP, .PLX,
    .PLY, .REP, .ROL, .ROR, .RTI, .RTL, .RTS, .SBC, .SEC, .SED, .SEI, .SEP, .STA, .STP, .STX, .STY, .STZ, .TAX, .TAY,
    .TCD, .TCS, .TDC, .TRB, .TSB, .TSC, .TSX, .TXA, .TXS, .TXY, .TYA, .TYX, .WAI, .WDM, .XBA, .XCE]

theorem mem_allMnemonics (mn : Mnemonic) : mn ∈ allMnemonics := by
  cases mn <;> exact List.mem_of_elem_eq_true rfl

/-- The mnemonics that may write a part, against a list. -/
theorem mem_of_written {p : Part} (l : List Mnemonic) (hl : ∀ mn ∈ allMnemonics, p ∈ partsOf mn → mn ∈ l)
    {i : Instr} {s t : State} (h : exec i s = .next t) (hp : ¬ p.same s t) : i.mnemonic ∈ l :=
  hl i.mnemonic (mem_allMnemonics _) (written_of_changed h hp)

/-- The jumps other than JMP al write PC only. -/
theorem jmpLong_of_bank {i : Instr} (hi : i.mnemonic = .JMP) {s t : State} (h : exec i s = .next t)
    (hpbr : t.pbr ≠ s.pbr) : ∃ addr, i = .jmpLong addr := by
  cases i with
  | jmpLong addr => exact ⟨addr, rfl⟩
  | jmpAbs | jmpAbsInd | jmpAbsXInd =>
    injection h with h
    subst h
    exact absurd rfl hpbr
  | _ => cases hi

/-- A system instruction that leaves a running processor not running is WAI or STP. -/
theorem wait_or_stop {i : Instr} (hi : i.mnemonic ∈ [.BRK, .COP, .WAI, .STP]) {s t : State} (h : exec i s = .next t)
    (hrun : t.run ≠ .running) : i = .wai ∨ i = .stp := by
  cases i with
  | wai => exact .inl rfl
  | stp => exact .inr rfl
  | brk | cop =>
    injection h with h
    subst h
    exact absurd rfl hrun
  | _ => exact absurd (List.elem_eq_true_of_mem hi) Bool.false_ne_true

/-- Settles O10, off the table. -/
theorem registerWriters : Obligations.RegisterWriters := by
  intro i s t h
  refine ⟨fun hne => ?c, fun hne => ?x, fun hne => ?y, fun hne => ?sp, fun hne => ?d, fun hne => ?dbr, fun hne => ?pbr,
    fun hne => ?e, fun hr hne => ?run⟩
  case c => exact mem_of_written (p := .reg .c) _ (by decide) h hne
  case x => exact mem_of_written (p := .reg .x) _ (by decide) h hne
  case y => exact mem_of_written (p := .reg .y) _ (by decide) h hne
  case sp => exact mem_of_written (p := .reg .sp) _ (by decide) h hne
  case d => exact mem_of_written (p := .reg .d) _ (by decide) h hne
  case dbr =>
    exact mem_of_written (p := .reg .dbr) _ (by decide) h fun he => hne (zext8_inj he)
  case pbr =>
    have hmem := mem_of_written (p := .reg .pbr) [.RTI, .RTL, .JML, .JSL, .BRK, .COP, .JMP] (by decide)
      h fun he => hne (zext8_inj he)
    by_cases hjmp : i.mnemonic = .JMP
    · exact .inr (jmpLong_of_bank hjmp h hne)
    · exact .inl (by simpa [hjmp] using hmem)
  case e =>
    have hxce := List.mem_singleton.mp (mem_of_written (p := .e) [.XCE] (by decide) h hne)
    cases i with
    | xce => rfl
    | _ => cases hxce
  case run =>
    exact wait_or_stop (mem_of_written (p := .run) _ (by decide) h fun he => hne (he.trans hr)) h hne

/-- Settles O11, off the table. -/
theorem flagWriters : Obligations.FlagWriters := by
  intro i s t h
  refine ⟨fun hne => ?n, fun hne => ?v, fun hne => ?m, fun hne => ?x, fun hne => ?d, fun hne => ?i, fun hne => ?z,
    fun hne => ?c⟩
  case n => exact mem_of_written (p := .flag .n) _ (by decide) h hne
  case v => exact mem_of_written (p := .flag .v) _ (by decide) h hne
  case m => exact mem_of_written (p := .flag .m) _ (by decide) h hne
  case x => exact mem_of_written (p := .flag .x) _ (by decide) h hne
  case d => exact mem_of_written (p := .flag .d) _ (by decide) h hne
  case i => exact mem_of_written (p := .flag .i) _ (by decide) h hne
  case z => exact mem_of_written (p := .flag .z) _ (by decide) h hne
  case c => exact mem_of_written (p := .flag .c) _ (by decide) h hne

end Sys2Proof.Machine
end

