-- ==== Sys2Proof/Proofs/Abort.lean ====
section
/-!
PROOFS. The aborted instruction (60_exceptions.md, section 5; R470). It is executed from the awake state and undone; what is left to
say is its run state, which of the instructions only WAI makes Waiting.
-/

namespace Sys2Proof.Machine

/-- Of a running processor only WAI makes a waiting one. -/
theorem run_waiting_iff {i : Instr} {s t : State} (h : exec i s = .next t) (hr : s.run = .running) :
    t.run = .waiting ↔ i = .wai ∧ s.rdyForcedHigh = false := by
  have hwai : ∀ {u}, exec .wai s = .next u → (u.run = .waiting ↔ s.rdyForcedHigh = false) := by
    intro u hu
    injection hu with hu
    have hrun : u.run = if s.rdyForcedHigh then .running else .waiting := hu ▸ rfl
    rw [hrun]
    cases s.rdyForcedHigh <;> simp
  constructor
  · intro hw
    obtain ⟨_, _, _, _, _, _, _, _, hwriters⟩ := registerWriters i s t h
    obtain rfl | rfl := hwriters hr (by simp [hw])
    · exact ⟨rfl, (hwai h).mp hw⟩
    · injection h with h
      subst h
      cases hw
  · rintro ⟨rfl, hrdy⟩
    exact (hwai h).mpr hrdy

/-- The awake state of a step without an NMIB edge. -/
theorem State.awake_eq {s : State} (h : s.input.nmiEdge = false) : s.awake = { s.sampled with run := .running } := by
  rw [State.awake, h, State.latchNmi_false]

theorem State.undo_run (s t : State) (hr : s.run = .running) :
    (s.undo t).run = if t.run = .waiting then .waiting else .running := by
  rw [← hr]
  rfl

theorem State.undo_mem (s t : State) : (s.undo t).mem = s.mem ∨ (s.undo t).mem = t.mem := by
  unfold State.undo
  simp only
  split
  · exact .inr rfl
  · exact .inl rfl

/-- Settles O60: recognition hands the awake state to an aborted execution. -/
theorem abortedInstruction : Obligations.AbortedInstruction := by
  intro s hl hresb hrun habort hnmi hedge hirq hother
  have hquiet : s.input.abort ≠ .none ∧ s.input.abort ≠ .outsideWindow := by
    obtain ⟨_, ha⟩ | ⟨_, ha, _⟩ := hrun
    · simp only [List.mem_cons, List.not_mem_nil, or_false] at ha
      obtain ha | ha := ha <;> simp [ha]
    · simp [ha]
  have hb := boundary_awake hl hresb (hrun.imp And.left fun ⟨hr, ha, hw⟩ => ⟨hr, .inr (.inr hw), by simp [ha]⟩)
  rw [recognise_aborts ((awake_nextSequence_iff s).mpr ⟨habort, hnmi, hedge, hirq⟩) hquiet.1 hquiet.2,
    State.awake_eq hedge] at hb
  obtain ⟨u, hu⟩ := exec_next s.sampled.fetch { s.sampled with run := .running }
  refine ⟨_, u, step_aborted hb hother hu, hu, fun r => ?reg, rfl, rfl, ?run, rfl, hnmi, ?mem⟩
  case reg => cases r <;> rfl
  case run =>
    rw [State.undo_run _ _ rfl]
    exact ite_congr (propext (run_waiting_iff hu rfl)) (fun _ => rfl) fun _ => rfl
  case mem => exact State.undo_mem { s.sampled with run := .running } u

end Sys2Proof.Machine
end

