-- ==== Sys2Proof/Proofs/Invariant.lean ====
section
/-!
PROOFS. The invariant (10_state.md, sections 2, 4 and 7). Its part about the modes is kept by every instruction: the mode flags and E
change in five mnemonics only, S stays in page 1 by the disciplines of the stack, and a write of an index register at 8 bits leaves its
high byte. Memory keeps its form because every instruction, sequence and cut only writes bytes to it. A step is then the boundary's
choice among states that meet the invariant.
-/

namespace Sys2Proof.Machine

/-! ## Memory -/

theorem replayWrites_wf (l : List BusAccess) {m : Memory} (h : Memory.wf m = true) :
    Memory.wf (replayWrites l m) = true := by
  induction l generalizing m with
  | nil => exact h
  | cons b l ih =>
    rw [replayWrites]
    refine ih ?_
    split
    · exact Memory.wf_write b.data b.addr.isLt h
    · exact h

theorem replayCut_wf (done : Nat → Bool) (j : Nat) (l : List BusAccess) {m : Memory} (h : Memory.wf m = true) :
    Memory.wf (replayCut done j l m) = true := by
  induction l generalizing j m with
  | nil => exact h
  | cons b l ih =>
    rw [replayCut]
    refine ih (j + 1) ?_
    split
    · exact Memory.wf_write b.data b.addr.isLt h
    · exact h

theorem exec_wf {i : Instr} {s t : State} (h : exec i s = .next t) (hs : Memory.wf s.mem = true) :
    Memory.wf t.mem = true := by
  rw [busTraceGivesMemory i s t h]
  exact replayWrites_wf _ hs

/-! ## The page of the stack (R165 to R168) -/

theorem State.hiByte_slotDown {s : State} (he : s.e = true) (k : Nat) : hiByte (s.slotDown k) = hiByte s.sp := by
  rw [State.slotDown, if_pos he, hiByte_append]

theorem State.hiByte_slotUp {s : State} (he : s.e = true) (k : Nat) : hiByte (s.slotUp k) = hiByte s.sp := by
  rw [State.slotUp, if_pos he, hiByte_append]

theorem State.hiByte_wideEnd {s : State} (he : s.e = true) (a : Word) : hiByte (s.wideEnd a) = 0x01 := by
  rw [State.wideEnd, if_pos he, hiByte_append]

theorem State.pushWide_sp (o : Operand) (v : Word) (s : State) : (s.pushWide o v).sp = s.wideEnd (s.sp - 2) := by
  obtain ⟨_, hsp, _⟩ := s.pushWide_spec o v
  exact hsp

theorem State.PulledTo.sp {w : Width} {r : Reg} {v : Word} {s t : State} (h : s.PulledTo w r v t) :
    t.sp = s.slotUp w.bytes := by
  obtain ⟨_, _, hsp, _⟩ := h
  exact hsp

/-- SH after an instruction is the old one or 01. -/
def StackPaged (i : Instr) (s : State) : Prop :=
  ∃ t, exec i s = .next t ∧ (hiByte t.sp = hiByte s.sp ∨ hiByte t.sp = 0x01)

theorem stackPaged_of_down {i : Instr} {s t : State} {k : Nat} (he : s.e = true) (hexec : exec i s = .next t)
    (hsp : t.sp = s.slotDown k) : StackPaged i s :=
  ⟨t, hexec, .inl (hsp ▸ s.hiByte_slotDown he k)⟩

theorem stackPaged_of_up {i : Instr} {s t : State} {k : Nat} (he : s.e = true) (hexec : exec i s = .next t)
    (hsp : t.sp = s.slotUp k) : StackPaged i s :=
  ⟨t, hexec, .inl (hsp ▸ s.hiByte_slotUp he k)⟩

theorem stackPaged_of_wide {i : Instr} {s t : State} {a : Word} (he : s.e = true) (hexec : exec i s = .next t)
    (hsp : t.sp = s.wideEnd a) : StackPaged i s :=
  ⟨t, hexec, .inr (hsp ▸ s.hiByte_wideEnd he a)⟩

theorem State.transferS_page {s : State} (he : s.e = true) (v : Word) : hiByte (s.transferS v).sp = hiByte s.sp := by
  have hsp : (s.transferS v).sp = if s.e then hiByte s.sp ++ loByte v else v := rfl
  rw [hsp, if_pos he, hiByte_append]

/-- The mnemonics that write S, but XCE. -/
def stackWriters : List Mnemonic := [.TXS, .TCS, .PHA, .PHB, .PHD, .PHK, .PHP, .PHX, .PHY, .PEA, .PEI, .PER, .PLA, .PLB, .PLD,
  .PLP, .PLX, .PLY, .JSR, .JSL, .RTS, .RTL, .RTI, .BRK, .COP]

theorem stackPaged {i : Instr} (hi : i.mnemonic ∈ stackWriters) {s : State} (he : s.e = true) : StackPaged i s := by
  cases i with
  | txs => exact ⟨_, rfl, .inl (State.transferS_page he s.x)⟩
  | tcs => exact ⟨_, rfl, .inl (State.transferS_page he s.c)⟩
  | pha => exact stackPaged_of_down he rfl (s.pushReg_sp s.wA s.c)
  | phx => exact stackPaged_of_down he rfl (s.pushReg_sp s.wX s.x)
  | phy => exact stackPaged_of_down he rfl (s.pushReg_sp s.wX s.y)
  | phb | phk | php => exact stackPaged_of_down he rfl ((s.past .stack0).push8_sp _)
  | phd => exact stackPaged_of_wide he rfl (s.pushWide_sp _ _)
  | pea => exact stackPaged_of_wide he rfl (s.pushWide_sp _ _)
  | pei => exact stackPaged_of_wide he rfl (s.pushWide_sp _ _)
  | per => exact stackPaged_of_wide he rfl (s.pushWide_sp _ _)
  | pla => exact stackPaged_of_up he rfl s.pullA_pulled.sp
  | plx => exact stackPaged_of_up he rfl s.pullX_pulled.sp
  | ply => exact stackPaged_of_up he rfl s.pullY_pulled.sp
  | plb => exact stackPaged_of_up (k := 1) he rfl rfl
  | plp => exact stackPaged_of_up (k := 1) he rfl (State.loadP_sp _ _)
  | pld => exact stackPaged_of_wide he rfl (State.restoreSH_sp _)
  | jsrAbs addr => exact stackPaged_of_down he rfl (s.callAbs_sp addr)
  | jsrAbsXInd addr => exact stackPaged_of_wide he rfl (s.callAbsXInd_sp addr)
  | jsl addr => exact stackPaged_of_wide he rfl (s.callLong_sp addr)
  | rts => exact stackPaged_of_up (k := 2) he rfl (congrArg State.sp (s.pull16_snd))
  | rtl => exact stackPaged_of_wide he rfl s.returnLong_sp
  | rti => exact stackPaged_of_up (k := s.frameSize) he rfl (congrArg State.sp s.returnFromInterrupt_eq)
  | brk sig => exact stackPaged_of_down he rfl (State.interrupt_entered .brk _ _ (s.past (.stack1 sig))).sp
  | cop sig => exact stackPaged_of_down he rfl (State.interrupt_entered .cop _ _ (s.past (.stack1 sig))).sp
  | _ => exact absurd (List.elem_eq_true_of_mem hi) Bool.false_ne_true

/-! ## The high bytes of the index registers (R22) -/

theorem State.wX_of_flag {s : State} (hx : s.flag .x = true) : s.wX = .w8 := if_pos hx

/-- A load of 8 bits leaves the high byte. -/
theorem Loaded.hiByte_eq {w : Width} {r : Reg} {v : Word} {s t : State} (h : Loaded w r v s t) (hw : w = .w8) :
    hiByte (t.reg r) = hiByte (s.reg r) := by
  subst hw
  exact h.value.2

/-- The high bytes of both index registers are those before. -/
def IndexKept (i : Instr) (s : State) : Prop :=
  ∃ t, exec i s = .next t ∧ hiByte t.x = hiByte s.x ∧ hiByte t.y = hiByte s.y

theorem indexKept_of_x {i : Instr} {s u t : State} {v : Word} (hexec : exec i s = .next t) (hx : s.flag .x = true)
    (hu : Frame [.sp, .pc] [] [] s u) (h : Loaded s.wX .x v u t) : IndexKept i s := by
  refine ⟨t, hexec, (h.hiByte_eq (State.wX_of_flag hx)).trans ?_, congrArg hiByte ?_⟩
  · exact congrArg hiByte (hu.reg .x (by simp))
  · exact (h.frame.reg .y (by simp)).trans (hu.reg .y (by simp))

theorem indexKept_of_y {i : Instr} {s u t : State} {v : Word} (hexec : exec i s = .next t) (hx : s.flag .x = true)
    (hu : Frame [.sp, .pc] [] [] s u) (h : Loaded s.wX .y v u t) : IndexKept i s := by
  refine ⟨t, hexec, congrArg hiByte ?_, (h.hiByte_eq (State.wX_of_flag hx)).trans ?_⟩
  · exact (h.frame.reg .x (by simp)).trans (hu.reg .x (by simp))
  · exact congrArg hiByte (hu.reg .y (by simp))

theorem State.blockMoveStep_index {s : State} (hx : s.flag .x = true) (delta : Word) (dst src : Byte) :
    hiByte (s.blockMoveStep delta dst src).x = hiByte s.x ∧ hiByte (s.blockMoveStep delta dst src).y = hiByte s.y := by
  obtain ⟨hxs, hys, _⟩ := s.blockMoveStep_moved delta dst src
  rw [hxs, hys, State.wX_of_flag hx]
  exact ⟨hiByte_append _ _, hiByte_append _ _⟩

/-- The mnemonics that write an index register at the width in force. -/
def indexWriters : List Mnemonic := [.DEX, .INX, .LDX, .PLX, .TAX, .TSX, .TYX, .DEY, .INY, .LDY, .PLY, .TAY, .TXY, .MVN, .MVP]

theorem indexKept {i : Instr} (hi : i.mnemonic ∈ indexWriters) {s : State} (hx : s.flag .x = true) : IndexKept i s := by
  have past (o : Operand) : Frame [.sp, .pc] [] [] s (s.past o) := (s.past_frame o).mono (by simp) (by simp) (by simp)
  have pulled : Frame [.sp, .pc] [] [] s ((s.past .stack0).pullAt s.wX).2 :=
    (s.past_frame .stack0).trans ((s.past .stack0).pullAt_frame s.wX)
  have mvn (delta : Word) (dst src : Byte) := State.blockMoveStep_index hx delta dst src
  cases i with
  | dex | inx | tax | tsx | tyx => exact indexKept_of_x rfl hx (past .implied) (State.setX_loaded s.wX _ _)
  | dey | iny | tay | txy => exact indexKept_of_y rfl hx (past .implied) (State.setY_loaded s.wX _ _)
  | plx => exact indexKept_of_x rfl hx pulled (State.setX_loaded s.wX _ _)
  | ply => exact indexKept_of_y rfl hx pulled (State.setY_loaded s.wX _ _)
  | mvn dst src => exact ⟨_, rfl, mvn 1 dst src⟩
  | mvp dst src => exact ⟨_, rfl, mvn (-1) dst src⟩
  | ldxImm | ldxDir | ldxAbs | ldxDirY | ldxAbsY => exact indexKept_of_x rfl hx (past _) (State.setX_loaded s.wX _ _)
  | ldyImm | ldyDir | ldyAbs | ldyDirX | ldyAbsX => exact indexKept_of_y rfl hx (past _) (State.setY_loaded s.wX _ _)
  | _ => exact absurd (List.elem_eq_true_of_mem hi) Bool.false_ne_true

/-! ## The mode flags -/

/-- The mnemonics that write P as a whole, or its mode flags. -/
def modeWriters : List Mnemonic := [.PLP, .RTI, .REP, .SEP, .XCE]

/-- The part of the invariant about the modes: what R22, R23 and R36 say of E, M, X, S and the index registers. -/
structure Modal (s : State) : Prop where
  emulation : s.e = true → s.flag .m = true ∧ s.flag .x = true ∧ hiByte s.sp = 0x01
  index : s.flag .x = true → hiByte s.x = 0x00 ∧ hiByte s.y = 0x00

/-- An instruction that answers a state which meets it. -/
def ModalNext (i : Instr) (s : State) : Prop := ∃ t, exec i s = .next t ∧ Modal t

/-- Index registers that are narrowed have zero high bytes. -/
theorem hiByte_of_narrowed {s t : State} (h : t.x = zext8 (loByte s.x) ∧ t.y = zext8 (loByte s.y)) :
    hiByte t.x = 0x00 ∧ hiByte t.y = 0x00 := by
  rw [h.1, h.2]
  exact ⟨hiByte_zext8 _, hiByte_zext8 _⟩

/-- A pulled P meets it if S, which the pull has moved, is still in page 1. -/
theorem State.loadP_modal {s : State} (hs : Modal s) (v : Byte) : Modal (s.loadP v) where
  emulation he := by
    rw [State.loadP_e] at he
    have hp : (s.loadP v).p = v ||| 0x30 := by rw [State.loadP_p, if_pos he]
    have forced (f : Flag) (hf : flagOf f 0x30 = true) : (s.loadP v).flag f = true := by
      rw [State.flag, hp, flagOf_or, hf, Bool.or_true]
    obtain ⟨_, _, hsp⟩ := hs.emulation he
    rw [State.loadP_sp]
    exact ⟨forced .m rfl, forced .x rfl, hsp⟩
  index hx := by
    cases he : s.e with
    | false => exact hiByte_of_narrowed (State.loadP_narrows v s ⟨he, hx⟩)
    | true =>
      obtain ⟨hkx, hky⟩ := State.loadP_keeps v s (.inl he)
      obtain ⟨_, hsx, _⟩ := hs.emulation he
      rw [hkx, hky]
      exact hs.index hsx

/-- S moved within its page keeps it. -/
theorem Modal.writeSP {s : State} (hs : Modal s) {a : Word} (ha : s.e = true → hiByte a = hiByte s.sp) :
    Modal { s with sp := a } where
  emulation he := by
    obtain ⟨hm, hx, hsp⟩ := hs.emulation he
    exact ⟨hm, hx, (ha he).trans hsp⟩
  index := hs.index

theorem Modal.writePCPBR {s : State} (hs : Modal s) (a : Word) (k : Byte) : Modal { s with pc := a, pbr := k } :=
  ⟨hs.emulation, hs.index⟩

theorem State.past_modal {s : State} (hs : Modal s) (o : Operand) : Modal (s.past o) := ⟨hs.emulation, hs.index⟩

theorem State.pullP_modal {s : State} (hs : Modal s) : Modal s.pullP :=
  State.loadP_modal ((s.past_modal hs .stack0).writeSP fun he => State.hiByte_slotUp (s := s.past .stack0) he 1) _

theorem State.returnFromInterrupt_modal {s : State} (hs : Modal s) : Modal s.returnFromInterrupt := by
  rw [State.returnFromInterrupt_eq]
  have hpulled : Modal s.statusPulled :=
    State.loadP_modal (hs.writeSP fun he => State.hiByte_slotUp he 1) _
  have hpage : s.statusPulled.e = true → hiByte (s.slotUp s.frameSize) = hiByte s.statusPulled.sp := by
    intro he
    rw [State.statusPulled, State.loadP_e] at he
    have he : s.e = true := he
    rw [State.hiByte_slotUp he, State.statusPulled, State.loadP_sp]
    exact (State.hiByte_slotUp he 1).symm
  exact (hpulled.writeSP hpage).writePCPBR _ _

theorem State.repBits_modal {s : State} (hs : Modal s) (mask : Byte) : Modal (s.repBits mask) where
  emulation he := by
    have he : s.e = true := he
    obtain ⟨hm, hx, hsp⟩ := hs.emulation he
    exact ⟨by rw [State.repBits_flag, hm, he]; simp, by rw [State.repBits_flag, hx, he]; simp, hsp⟩
  index hx := by
    rw [State.repBits_flag, Bool.and_eq_true] at hx
    exact hs.index hx.1

theorem State.sepBits_modal {s : State} (hs : Modal s) (mask : Byte) : Modal (s.sepBits mask) where
  emulation he := by
    have hframe := s.sepBits_frame mask
    obtain ⟨hm, hx, hsp⟩ := hs.emulation (hframe.e ▸ he)
    have hsame : (s.sepBits mask).sp = s.sp := hframe.reg .sp (by simp)
    exact ⟨by rw [State.sepBits_flag, hm, Bool.true_or], by rw [State.sepBits_flag, hx, Bool.true_or], hsame ▸ hsp⟩
  index hx := by
    rw [State.sepBits_eq, State.narrowIndex_flag] at hx
    rw [State.sepBits_eq]
    exact hiByte_of_narrowed (State.narrowIndex_narrows hx)

theorem State.exchangeCE_modal {s : State} (hs : Modal s) : Modal s.exchangeCE := by
  rw [State.exchangeCE_eq]
  have hx : s.carryFromE.flag .x = s.flag .x := s.carryFromE_frame.flag .x (by simp)
  cases hc : s.flag .c with
  | false => exact ⟨nofun, fun h => hs.index (hx ▸ h)⟩
  | true =>
    refine ⟨fun _ => ?_, fun _ => ⟨hiByte_zext8 _, hiByte_zext8 _⟩⟩
    obtain ⟨hm, hx⟩ := State.enterEmulation_flags { s.carryFromE with e := true }
    exact ⟨hm, hx, hiByte_append _ _⟩

theorem modalNext_of_modeWriter {i : Instr} (hi : i.mnemonic ∈ modeWriters) {s : State} (hs : Modal s) : ModalNext i s := by
  cases i with
  | plp => exact ⟨_, rfl, State.pullP_modal hs⟩
  | rti => exact ⟨_, rfl, State.returnFromInterrupt_modal hs⟩
  | rep mask => exact ⟨_, rfl, State.repBits_modal hs mask⟩
  | sep mask => exact ⟨_, rfl, State.sepBits_modal hs mask⟩
  | xce => exact ⟨_, rfl, State.exchangeCE_modal hs⟩
  | _ => exact absurd (List.elem_eq_true_of_mem hi) Bool.false_ne_true

/-! ## Every instruction keeps it -/

theorem eq_of_exec {i : Instr} {s t u : State} (ht : exec i s = .next t) (hu : exec i s = .next u) : t = u := by
  rw [ht] at hu
  injection hu

/-- A part that is not written is the same. -/
theorem same_of_exec {i : Instr} {s t : State} (h : exec i s = .next t) {p : Part} (hp : p ∉ partsOf i.mnemonic) :
    p.same s t :=
  Classical.byContradiction fun hne => hp (written_of_changed h hne)

/-- E and the mode flags are written by the mode writers only. -/
theorem modes_same {i : Instr} {s t : State} (h : exec i s = .next t) (hi : i.mnemonic ∉ modeWriters) :
    t.e = s.e ∧ t.flag .m = s.flag .m ∧ t.flag .x = s.flag .x := by
  have unwritten (p : Part) (hp : ∀ mn ∈ allMnemonics, p ∈ partsOf mn → mn ∈ modeWriters) : p.same s t :=
    same_of_exec h fun hmem => hi (hp i.mnemonic (mem_allMnemonics _) hmem)
  exact ⟨unwritten .e (by decide), unwritten (.flag .m) (by decide), unwritten (.flag .x) (by decide)⟩

theorem page_of_exec {i : Instr} {s t : State} (h : exec i s = .next t) (hi : i.mnemonic ∉ modeWriters) (he : s.e = true) :
    hiByte t.sp = hiByte s.sp ∨ hiByte t.sp = 0x01 := by
  by_cases hw : i.mnemonic ∈ stackWriters
  · obtain ⟨u, hu, hpage⟩ := stackPaged hw he
    exact eq_of_exec h hu ▸ hpage
  · have hlist : ∀ mn ∈ allMnemonics, Part.reg .sp ∈ partsOf mn → mn ∈ stackWriters ++ modeWriters := by decide
    refine .inl (congrArg hiByte (same_of_exec (p := .reg .sp) h fun hmem => ?_))
    exact (List.mem_append.mp (hlist _ (mem_allMnemonics _) hmem)).elim hw hi

theorem index_of_exec {i : Instr} {s t : State} (h : exec i s = .next t) (hi : i.mnemonic ∉ modeWriters)
    (hx : s.flag .x = true) : hiByte t.x = hiByte s.x ∧ hiByte t.y = hiByte s.y := by
  by_cases hw : i.mnemonic ∈ indexWriters
  · obtain ⟨u, hu, hkept⟩ := indexKept hw hx
    exact eq_of_exec h hu ▸ hkept
  · have unwritten (p : Part) (hp : ∀ mn ∈ allMnemonics, p ∈ partsOf mn → mn ∈ indexWriters ++ modeWriters) :
        p.same s t :=
      same_of_exec h fun hmem => (List.mem_append.mp (hp _ (mem_allMnemonics _) hmem)).elim hw hi
    exact ⟨congrArg hiByte (unwritten (.reg .x) (by decide)), congrArg hiByte (unwritten (.reg .y) (by decide))⟩

theorem Modal.exec {i : Instr} {s t : State} (hs : Modal s) (h : exec i s = .next t) : Modal t := by
  by_cases hi : i.mnemonic ∈ modeWriters
  · obtain ⟨u, hu, hmodal⟩ := modalNext_of_modeWriter hi hs
    exact eq_of_exec h hu ▸ hmodal
  · obtain ⟨he, hm, hx⟩ := modes_same h hi
    refine ⟨fun hte => ?_, fun htx => ?_⟩
    · obtain ⟨hsm, hsx, hsp⟩ := hs.emulation (he ▸ hte)
      exact ⟨hm ▸ hsm, hx ▸ hsx, (page_of_exec h hi (he ▸ hte)).elim (·.trans hsp) id⟩
    · obtain ⟨hkx, hky⟩ := index_of_exec h hi (hx ▸ htx)
      rw [hkx, hky]
      exact hs.index (hx ▸ htx)

/-! ## States that meet the invariant -/

theorem State.Inv.modal {s : State} (hs : s.Inv) : Modal s := ⟨hs.emulation, hs.index⟩

/-- Outside reset the modes and memory are all of it. -/
theorem Modal.inv {s : State} (hs : Modal s) (hmem : Memory.wf s.mem = true) (hl : s.resetLine = false) : s.Inv where
  emulation := hs.emulation
  index := hs.index
  memory := hmem
  reset h := absurd h (by simp [hl])

theorem State.Inv.sampled {s : State} (hs : s.Inv) : s.sampled.Inv :=
  ⟨hs.emulation, hs.index, Memory.wf_writeAll _ hs.memory, hs.reset⟩

theorem State.Inv.latchNmi {s : State} (hs : s.Inv) (edge : Bool) : (s.latchNmi edge).Inv :=
  ⟨hs.emulation, hs.index, hs.memory, hs.reset⟩

theorem State.Inv.latchAbortWaiting {s : State} (hs : s.Inv) : s.latchAbortWaiting.Inv :=
  ⟨hs.emulation, hs.index, hs.memory, hs.reset⟩

theorem State.Inv.woken {s : State} (hs : s.Inv) (input : PinInput) : (s.woken input).Inv := by
  unfold State.woken
  split <;> exact ⟨hs.emulation, hs.index, hs.memory, hs.reset⟩

theorem State.Inv.clearLatch {s : State} (hs : s.Inv) (kind : InterruptKind) : (s.clearLatch kind).Inv := by
  cases kind <;> exact ⟨hs.emulation, hs.index, hs.memory, hs.reset⟩

theorem State.Inv.exec {i : Instr} {s t : State} (hs : s.Inv) (hl : s.resetLine = false) (h : exec i s = .next t) :
    t.Inv := by
  have hline : t.resetLine = s.resetLine := same_of_exec (p := .line) h fun hmem =>
    List.not_mem_nil ((by decide : ∀ mn ∈ allMnemonics, Part.line ∈ partsOf mn → mn ∈ []) _ (mem_allMnemonics _) hmem)
  exact (hs.modal.exec h).inv (exec_wf h hs.memory) (hline.trans hl)

theorem State.Inv.undo {s t : State} (hs : s.Inv) (ht : t.Inv) : (s.undo t).Inv where
  emulation := hs.emulation
  index := hs.index
  memory := (State.undo_mem s t).elim (fun h => h ▸ hs.memory) fun h => h ▸ ht.memory
  reset := hs.reset

theorem State.Inv.interrupt {s : State} (hs : s.Inv) (hl : s.resetLine = false) (kind : InterruptKind) (bank : Byte)
    (ret : Word) : (s.interrupt kind bank ret).Inv := by
  have entered := State.interrupt_entered kind bank ret s
  have he : (s.interrupt kind bank ret).e = s.e := entered.rest.e
  have hm : (s.interrupt kind bank ret).flag .m = s.flag .m := entered.rest.flag .m (by simp)
  have hx : (s.interrupt kind bank ret).flag .x = s.flag .x := entered.rest.flag .x (by simp)
  have hrx : (s.interrupt kind bank ret).x = s.x := entered.rest.reg .x (by simp)
  have hry : (s.interrupt kind bank ret).y = s.y := entered.rest.reg .y (by simp)
  refine Modal.inv ⟨fun h => ?_, fun h => ?_⟩ ?_ (entered.rest.resetLine.trans hl)
  · rw [he] at h
    rw [hm, hx, entered.sp, State.hiByte_slotDown h]
    exact hs.emulation h
  · rw [hrx, hry]
    exact hs.index (hx ▸ h)
  · rw [State.interrupt_mem]
    exact replayWrites_wf _ hs.memory

/-- The conditioning period meets it from any state whose memory has its form. -/
theorem State.resetConditioning_inv {s : State} (hmem : Memory.wf s.mem = true) : s.resetConditioning.Inv := by
  have forced := s.resetConditioning_conditioned
  exact ⟨fun _ => ⟨forced.flagM, forced.flagX, forced.sp⟩, fun _ => ⟨forced.x, forced.y⟩, hmem,
    fun _ => ⟨forced.e, forced.d, forced.dbr, forced.pbr, forced.flagI, forced.flagD⟩⟩

theorem State.cutByReset_wf {s : State} (hmem : Memory.wf s.mem = true) (input : PinInput) :
    Memory.wf (s.cutByReset input).mem = true := by
  cases h : s.begun input with
  | none => rwa [State.cutByReset_none h]
  | some t =>
    rw [(State.cutByReset_some h).1]
    exact replayCut_wf _ _ _ hmem

theorem State.Inv.resetExit {s : State} (hs : s.Inv) (hl : s.resetLine = true) : s.resetExit.Inv := by
  obtain ⟨he, _⟩ := hs.reset hl
  obtain ⟨hm, hx, hsp⟩ := hs.emulation he
  have hm' : s.resetExit.flag .m = true := by rw [State.resetExit_flag]; exact hm
  have hx' : s.resetExit.flag .x = true := by rw [State.resetExit_flag]; exact hx
  exact Modal.inv ⟨fun _ => ⟨hm', hx', hsp⟩, fun _ => hs.index hx⟩ hs.memory rfl

/-! ## The boundary -/

/-- What the boundary hands on meets the invariant; what it executes is out of reset. -/
def Action.meetsInv : Action → Prop
  | .settle t => t.Inv
  | .refuse _ => True
  | .execute t | .executeAborted t => t.Inv ∧ t.resetLine = false

theorem recognise_meetsInv {s : State} (hs : s.Inv) (hl : s.resetLine = false) (abort : AbortInput) :
    (recognise abort s).meetsInv := by
  unfold recognise
  split
  next kind bank ret _ =>
    split
    · exact (hs.clearLatch kind).interrupt ((s.clearLatch_resetLine kind).trans hl) kind bank ret
    · trivial
  next =>
    cases abort with
    | outsideWindow => trivial
    | none | atStart | inWindow => exact ⟨hs, hl⟩

theorem waitBoundary_meetsInv {s : State} (hs : s.Inv) (hl : s.resetLine = false) (input : PinInput) :
    (waitBoundary input s).meetsInv := by
  cases hw : (s.latchNmi input.nmiEdge).wakes with
  | true =>
    rw [waitBoundary_wakes hw]
    exact recognise_meetsInv (hs.woken input) ((s.woken_resetLine input).trans hl) _
  | false =>
    rw [waitBoundary_waits hw]
    split
    · trivial
    · split
      · exact hs.latchNmi _
      · exact (hs.latchNmi _).latchAbortWaiting

theorem boundary_meetsInv {s : State} (hs : s.Inv) (input : PinInput) : (boundary input s).meetsInv := by
  cases hresb : input.resb with
  | low => rw [boundary_low hresb]; exact State.resetConditioning_inv hs.memory
  | lowMidInstruction => rw [boundary_lowMid hresb]; exact State.resetConditioning_inv (State.cutByReset_wf hs.memory input)
  | high =>
    cases hl : s.resetLine with
    | true =>
      rw [boundary_release hresb hl, releaseBoundary]
      split
      · exact hs.resetExit hl
      · trivial
    | false =>
      cases hr : s.run with
      | stopped => rw [boundary_stopped hresb hl hr]; exact hs
      | waiting => rw [boundary_waiting hresb hl hr]; exact waitBoundary_meetsInv hs hl input
      | running => rw [boundary_running hresb hl hr]; exact recognise_meetsInv (hs.latchNmi _) hl _

/-- Settles O7: the boundary's action meets the invariant, and so does what it executes. -/
theorem stepKeepsInvariant : Obligations.StepKeepsInvariant := by
  intro s t hs h
  have haction := boundary_meetsInv hs.sampled s.input
  cases hb : boundary s.input s.sampled with
  | settle u =>
    rw [hb] at haction
    rw [step_of_settle hb] at h
    injection h with h
    exact h ▸ haction
  | refuse r =>
    rw [step_of_refuse hb] at h
    cases h
  | execute u =>
    rw [hb] at haction
    obtain ⟨hu, hl⟩ := haction
    exact hu.exec hl (step_of_execute hb ▸ h)
  | executeAborted u =>
    rw [hb] at haction
    obtain ⟨hu, hl⟩ := haction
    obtain ⟨v, hv⟩ := exec_next u.fetch u
    by_cases hseq : u.fetch.mnemonic ∈ [.BRK, .COP]
    · rw [step_refuses_sequence hb hseq] at h
      cases h
    · rw [step_aborted hb hseq hv] at h
      injection h with h
      exact h ▸ hu.undo (hu.exec hl hv)

end Sys2Proof.Machine
end
